-- ==== Sys2Proof/Word.lean ====
section
/-! DEFINITION. The two bit-vector sizes of the machine (00_scope.md R5, R7): a byte is one memory cell or one bus
transfer, a word is a register or a memory-space address. -/

namespace Sys2Proof

/-- 8 bits: a memory cell, a bus transfer, a device register (R5 `DATA_WIDTH`). -/
abbrev Byte := BitVec 8

/-- 16 bits: AX, BX, CX, DX, IP, SP and a memory-space address (R5 `REG_WIDTH`, `ADDR_WIDTH`). -/
abbrev Word := BitVec 16

/-- A register number of a register byte, 3 bits (30_encoding.md R104; its names are 10_state.md R22). -/
abbrev RegNum := BitVec 3

end Sys2Proof
end

