-- ==== Sys2Proof/Config.lean ====
section
/-! DEFINITION. What an implementation or a session fixes (00_scope.md R5, R6), and the values the spec leaves open
(`Draw()`, R11). The open parameters are data that State holds, so that a statement about every state holds for every
parameter value; the draws are constants without a body, so that nothing can be proved about the value drawn. -/

namespace Sys2Proof.Config

/-- The OPEN parameters of 00_scope.md R5. -/
structure Params where
  /-- `MEM_SIZE`, 1 to 65536: how many bytes of main memory are installed (D2). -/
  memSize : Nat
  /-- Reset value of IP (10_state.md R25). -/
  resetIP : Word
  /-- Reset value of SP (10_state.md R27). -/
  resetSP : Word
  /-- Reset value of IF (10_state.md R31). -/
  resetIF : Bool
  /-- Whether an access to the PIO's ports with no PIO enables it (60_exceptions.md R324). -/
  autoEnablePio : Bool
deriving DecidableEq, Repr

/-- The range R5 gives `MEM_SIZE`; the other parameters take every value of their type. -/
def Params.ok (p : Params) : Bool := decide (1 ≤ p.memSize) && decide (p.memSize ≤ 65536)

/-- The defaults of R5: `resetSP` is `MEM_SIZE mod 65536`. Log 7. -/
def Params.default : Params :=
  { memSize := 65536, resetIP := 0x2000, resetSP := 0x0000, resetIF := true, autoEnablePio := false }

/-- What is wired to the parallel port when there is one (R5 `devices.pio`). -/
inductive PioKind where
  | switchesAndLeds
  | printer
deriving DecidableEq, Repr

/-- The device configuration of R5, fixed for a run (R6). `handshake = true` stands for `devices.handshake = "printer"`. -/
structure Devices where
  keyboardAndScreen : Bool
  pic : Bool
  pio : Option PioKind
  handshake : Bool
deriving DecidableEq, Repr

/-- R6: the one printer is not wired to the PIO and to the handshake link at once. -/
def Devices.valid (d : Devices) : Bool := !(d.pio == some .printer && d.handshake)

/-- A printer is wired to one of the two (60_exceptions.md R384). -/
def Devices.hasPrinter (d : Devices) : Bool := d.pio == some .printer || d.handshake

/-- The start configuration of the vectors of 95_test_vectors.md; DESIGN CHOICE, log 8. -/
def Devices.default : Devices :=
  { keyboardAndScreen := true, pic := true, pio := some .switchesAndLeds, handshake := false }

/-- What a reset does to main memory (10_state.md R34). -/
inductive MemoryInitPolicy where
  | zero
  | random
  | preserve
deriving DecidableEq, Repr

/-- `Draw()` of 16 bits (R11): the value of draw number n. No body, so it is any value; log 10. -/
opaque drawWord : Nat → Word

/-- `Draw()` of 1 bit (R11); log 10. -/
opaque drawBit : Nat → Bool

/-- `Draw()` of one memory byte (R34 `random`, R422): the byte at an address, for memory draw number n; log 11, log 31. -/
opaque drawByte : Nat → Nat → Byte

end Sys2Proof.Config
end

