-- ==== Sys2Proof/Fields.lean ====
section
/-! DEFINITION. The names that the encoding fields of 30_encoding.md stand for: operand widths, operations, operand forms,
conditions, and what byte 0 of an instruction decodes to (`Opcode`), with the operand bytes that follow it (`Field`). -/

namespace Sys2Proof

/-- The width bit `w` (R102, R107): 8 or 16 bits. -/
inductive Width where
  | w8
  | w16
deriving DecidableEq, Repr

/-- The 16-bit general registers by name (10_state.md R22); PUSH and POP name one (R108). -/
inductive Reg16 where
  | ax
  | bx
  | cx
  | dx
deriving DecidableEq, Repr

/-- The operation field `o` of format B (R102, R103). -/
inductive BinOp where
  | mov | add | adc | sub | sbb | cmp | and | or | xor
deriving DecidableEq, Repr

/-- The operand form field `f` of format B (R105), destination first. -/
inductive Form where
  | regReg | regDir | regInd | regImm | dirReg | indReg | dirImm | indImm
deriving DecidableEq, Repr

/-- The operation field `u` of format U (R107). -/
inductive UnOp where
  | neg | inc | dec | not
deriving DecidableEq, Repr

/-- The operand form field `FF` of format U (R107); `FF` = 11 is illegal. -/
inductive UForm where
  | reg | dir | ind
deriving DecidableEq, Repr

/-- The condition of a conditional jump (45_control.md R261). -/
inductive Cond where
  | z | nz | c | nc | s | ns | o | no
deriving DecidableEq, Repr

/-- What byte 0 says (R101, R111): the mnemonic, the operand form and the width. -/
inductive Opcode where
  | bin (o : BinOp) (f : Form) (w : Width)
  | un (u : UnOp) (f : UForm) (w : Width)
  | push (r : Reg16)
  | pop (r : Reg16)
  | pushf
  | popf
  | jmp
  | jcc (cond : Cond)
  | call
  | ret
  | int
  | iret
  | cli
  | sti
  /-- IN: from the port of byte 1, or from the port in DX (47_io.md R301). -/
  | inp (fromDX : Bool) (w : Width)
  /-- OUT: to the port of byte 1, or to the port in DX (47_io.md R302). -/
  | out (toDX : Bool) (w : Width)
  | nop
  | hlt
deriving DecidableEq, Repr

/-- The operand bytes that follow byte 0 (R100, R104 to R110), in the order they stand. -/
inductive Field where
  /-- Register byte, layout RR: `00 aaa bbb`. -/
  | rr (w : Width)
  /-- Register byte, layout R: `00000 rrr`. -/
  | r (w : Width)
  /-- A 16-bit direct address, low byte first. -/
  | addr
  /-- An 8-bit immediate. -/
  | imm8
  /-- A 16-bit immediate, or a jump's 16-bit target (R109), low byte first. -/
  | imm16
  /-- The vector number of INT. -/
  | vec
  /-- The 8-bit port of IN and OUT. -/
  | port
deriving DecidableEq, Repr

/-- The operand values an instruction carries: `a` (destination of layout RR), `b` (source of layout RR, or the register of
layout R), a direct address, and an immediate (also a jump target, a vector or a port, zero-extended). A form that lacks an
operand has 0 in it. -/
structure Operands where
  a : RegNum := 0
  b : RegNum := 0
  addr : Word := 0
  imm : Word := 0
deriving DecidableEq, Repr

end Sys2Proof
end

