-- ==== Sys2Proof/Syntax.lean ====
section
/-! DEFINITION. The instructions: one constructor for each row of spec/opcode_table.json, in the table's order, with the
operands its encoding carries (30_encoding.md R102 to R110). `Instr.opcode` and `Instr.operands` split an instruction into
its byte 0 and its operand values; `Instr.ofParts` puts one together. -/

namespace Sys2Proof

/-- An instruction. `w` is the operand width, `r`, `a` and `b` are register numbers read at that width (10_state.md R22),
`addr` is a direct memory address. The destination stands first (R105). -/
inductive Instr where
  /-- MOV reg, reg (R180). -/
  | movRegReg (w : Width) (a b : RegNum)
  /-- MOV reg, [addr16] (R180). -/
  | movRegDir (w : Width) (r : RegNum) (addr : Word)
  /-- MOV reg, [BX] (R180). -/
  | movRegInd (w : Width) (r : RegNum)
  /-- MOV reg, imm (R180). -/
  | movRegImm (w : Width) (r : RegNum) (imm : Word)
  /-- MOV [addr16], reg (R180). -/
  | movDirReg (w : Width) (addr : Word) (r : RegNum)
  /-- MOV [BX], reg (R180). -/
  | movIndReg (w : Width) (r : RegNum)
  /-- MOV [addr16], imm (R180). -/
  | movDirImm (w : Width) (addr imm : Word)
  /-- MOV [BX], imm (R180). -/
  | movIndImm (w : Width) (imm : Word)
  /-- ADD reg, reg (R190). -/
  | addRegReg (w : Width) (a b : RegNum)
  /-- ADD reg, [addr16] (R190). -/
  | addRegDir (w : Width) (r : RegNum) (addr : Word)
  /-- ADD reg, [BX] (R190). -/
  | addRegInd (w : Width) (r : RegNum)
  /-- ADD reg, imm (R190). -/
  | addRegImm (w : Width) (r : RegNum) (imm : Word)
  /-- ADD [addr16], reg (R190). -/
  | addDirReg (w : Width) (addr : Word) (r : RegNum)
  /-- ADD [BX], reg (R190). -/
  | addIndReg (w : Width) (r : RegNum)
  /-- ADD [addr16], imm (R190). -/
  | addDirImm (w : Width) (addr imm : Word)
  /-- ADD [BX], imm (R190). -/
  | addIndImm (w : Width) (imm : Word)
  /-- ADC reg, reg (R191). -/
  | adcRegReg (w : Width) (a b : RegNum)
  /-- ADC reg, [addr16] (R191). -/
  | adcRegDir (w : Width) (r : RegNum) (addr : Word)
  /-- ADC reg, [BX] (R191). -/
  | adcRegInd (w : Width) (r : RegNum)
  /-- ADC reg, imm (R191). -/
  | adcRegImm (w : Width) (r : RegNum) (imm : Word)
  /-- ADC [addr16], reg (R191). -/
  | adcDirReg (w : Width) (addr : Word) (r : RegNum)
  /-- ADC [BX], reg (R191). -/
  | adcIndReg (w : Width) (r : RegNum)
  /-- ADC [addr16], imm (R191). -/
  | adcDirImm (w : Width) (addr imm : Word)
  /-- ADC [BX], imm (R191). -/
  | adcIndImm (w : Width) (imm : Word)
  /-- SUB reg, reg (R192). -/
  | subRegReg (w : Width) (a b : RegNum)
  /-- SUB reg, [addr16] (R192). -/
  | subRegDir (w : Width) (r : RegNum) (addr : Word)
  /-- SUB reg, [BX] (R192). -/
  | subRegInd (w : Width) (r : RegNum)
  /-- SUB reg, imm (R192). -/
  | subRegImm (w : Width) (r : RegNum) (imm : Word)
  /-- SUB [addr16], reg (R192). -/
  | subDirReg (w : Width) (addr : Word) (r : RegNum)
  /-- SUB [BX], reg (R192). -/
  | subIndReg (w : Width) (r : RegNum)
  /-- SUB [addr16], imm (R192). -/
  | subDirImm (w : Width) (addr imm : Word)
  /-- SUB [BX], imm (R192). -/
  | subIndImm (w : Width) (imm : Word)
  /-- SBB reg, reg (R193). -/
  | sbbRegReg (w : Width) (a b : RegNum)
  /-- SBB reg, [addr16] (R193). -/
  | sbbRegDir (w : Width) (r : RegNum) (addr : Word)
  /-- SBB reg, [BX] (R193). -/
  | sbbRegInd (w : Width) (r : RegNum)
  /-- SBB reg, imm (R193). -/
  | sbbRegImm (w : Width) (r : RegNum) (imm : Word)
  /-- SBB [addr16], reg (R193). -/
  | sbbDirReg (w : Width) (addr : Word) (r : RegNum)
  /-- SBB [BX], reg (R193). -/
  | sbbIndReg (w : Width) (r : RegNum)
  /-- SBB [addr16], imm (R193). -/
  | sbbDirImm (w : Width) (addr imm : Word)
  /-- SBB [BX], imm (R193). -/
  | sbbIndImm (w : Width) (imm : Word)
  /-- CMP reg, reg (R194). -/
  | cmpRegReg (w : Width) (a b : RegNum)
  /-- CMP reg, [addr16] (R194). -/
  | cmpRegDir (w : Width) (r : RegNum) (addr : Word)
  /-- CMP reg, [BX] (R194). -/
  | cmpRegInd (w : Width) (r : RegNum)
  /-- CMP reg, imm (R194). -/
  | cmpRegImm (w : Width) (r : RegNum) (imm : Word)
  /-- CMP [addr16], reg (R194). -/
  | cmpDirReg (w : Width) (addr : Word) (r : RegNum)
  /-- CMP [BX], reg (R194). -/
  | cmpIndReg (w : Width) (r : RegNum)
  /-- CMP [addr16], imm (R194). -/
  | cmpDirImm (w : Width) (addr imm : Word)
  /-- CMP [BX], imm (R194). -/
  | cmpIndImm (w : Width) (imm : Word)
  /-- AND reg, reg (R220). -/
  | andRegReg (w : Width) (a b : RegNum)
  /-- AND reg, [addr16] (R220). -/
  | andRegDir (w : Width) (r : RegNum) (addr : Word)
  /-- AND reg, [BX] (R220). -/
  | andRegInd (w : Width) (r : RegNum)
  /-- AND reg, imm (R220). -/
  | andRegImm (w : Width) (r : RegNum) (imm : Word)
  /-- AND [addr16], reg (R220). -/
  | andDirReg (w : Width) (addr : Word) (r : RegNum)
  /-- AND [BX], reg (R220). -/
  | andIndReg (w : Width) (r : RegNum)
  /-- AND [addr16], imm (R220). -/
  | andDirImm (w : Width) (addr imm : Word)
  /-- AND [BX], imm (R220). -/
  | andIndImm (w : Width) (imm : Word)
  /-- OR reg, reg (R221). -/
  | orRegReg (w : Width) (a b : RegNum)
  /-- OR reg, [addr16] (R221). -/
  | orRegDir (w : Width) (r : RegNum) (addr : Word)
  /-- OR reg, [BX] (R221). -/
  | orRegInd (w : Width) (r : RegNum)
  /-- OR reg, imm (R221). -/
  | orRegImm (w : Width) (r : RegNum) (imm : Word)
  /-- OR [addr16], reg (R221). -/
  | orDirReg (w : Width) (addr : Word) (r : RegNum)
  /-- OR [BX], reg (R221). -/
  | orIndReg (w : Width) (r : RegNum)
  /-- OR [addr16], imm (R221). -/
  | orDirImm (w : Width) (addr imm : Word)
  /-- OR [BX], imm (R221). -/
  | orIndImm (w : Width) (imm : Word)
  /-- XOR reg, reg (R222). -/
  | xorRegReg (w : Width) (a b : RegNum)
  /-- XOR reg, [addr16] (R222). -/
  | xorRegDir (w : Width) (r : RegNum) (addr : Word)
  /-- XOR reg, [BX] (R222). -/
  | xorRegInd (w : Width) (r : RegNum)
  /-- XOR reg, imm (R222). -/
  | xorRegImm (w : Width) (r : RegNum) (imm : Word)
  /-- XOR [addr16], reg (R222). -/
  | xorDirReg (w : Width) (addr : Word) (r : RegNum)
  /-- XOR [BX], reg (R222). -/
  | xorIndReg (w : Width) (r : RegNum)
  /-- XOR [addr16], imm (R222). -/
  | xorDirImm (w : Width) (addr imm : Word)
  /-- XOR [BX], imm (R222). -/
  | xorIndImm (w : Width) (imm : Word)
  /-- NEG reg (R195). -/
  | negReg (w : Width) (r : RegNum)
  /-- NEG [addr16] (R195). -/
  | negDir (w : Width) (addr : Word)
  /-- NEG [BX] (R195). -/
  | negInd (w : Width)
  /-- INC reg (R196). -/
  | incReg (w : Width) (r : RegNum)
  /-- INC [addr16] (R196). -/
  | incDir (w : Width) (addr : Word)
  /-- INC [BX] (R196). -/
  | incInd (w : Width)
  /-- DEC reg (R197). -/
  | decReg (w : Width) (r : RegNum)
  /-- DEC [addr16] (R197). -/
  | decDir (w : Width) (addr : Word)
  /-- DEC [BX] (R197). -/
  | decInd (w : Width)
  /-- NOT reg (R223). -/
  | notReg (w : Width) (r : RegNum)
  /-- NOT [addr16] (R223). -/
  | notDir (w : Width) (addr : Word)
  /-- NOT [BX] (R223). -/
  | notInd (w : Width)
  /-- PUSH r16 (R242). -/
  | push (r : Reg16)
  /-- POP r16 (R243). -/
  | pop (r : Reg16)
  /-- PUSHF (R244). -/
  | pushf
  /-- POPF (R245). -/
  | popf
  /-- JMP target16 (R260). -/
  | jmp (target : Word)
  /-- JZ target16 (R262). -/
  | jz (target : Word)
  /-- JNZ target16 (R263). -/
  | jnz (target : Word)
  /-- JC target16 (R264). -/
  | jc (target : Word)
  /-- JNC target16 (R265). -/
  | jnc (target : Word)
  /-- JS target16 (R266). -/
  | js (target : Word)
  /-- JNS target16 (R267). -/
  | jns (target : Word)
  /-- JO target16 (R268). -/
  | jo (target : Word)
  /-- JNO target16 (R269). -/
  | jno (target : Word)
  /-- CALL target16 (R270). -/
  | call (target : Word)
  /-- RET (R271). -/
  | ret
  /-- INT n (R280). -/
  | int (n : Byte)
  /-- IRET (R281). -/
  | iret
  /-- CLI (R282). -/
  | cli
  /-- STI (R283). -/
  | sti
  /-- IN AL, p8 (R301). -/
  | inAlPort (p : Byte)
  /-- IN AX, p8 (R301). -/
  | inAxPort (p : Byte)
  /-- IN AL, DX (R301). -/
  | inAlDx
  /-- IN AX, DX (R301). -/
  | inAxDx
  /-- OUT p8, AL (R302). -/
  | outPortAl (p : Byte)
  /-- OUT p8, AX (R302). -/
  | outPortAx (p : Byte)
  /-- OUT DX, AL (R302). -/
  | outDxAl
  /-- OUT DX, AX (R302). -/
  | outDxAx
  /-- NOP (R284). -/
  | nop
  /-- HLT (R285). -/
  | hlt
deriving DecidableEq, Repr

/-- What byte 0 of the instruction says (30_encoding.md R101). -/
def Instr.opcode : Instr → Opcode
  | .movRegReg w _ _ => .bin .mov .regReg w
  | .movRegDir w _ _ => .bin .mov .regDir w
  | .movRegInd w _ => .bin .mov .regInd w
  | .movRegImm w _ _ => .bin .mov .regImm w
  | .movDirReg w _ _ => .bin .mov .dirReg w
  | .movIndReg w _ => .bin .mov .indReg w
  | .movDirImm w _ _ => .bin .mov .dirImm w
  | .movIndImm w _ => .bin .mov .indImm w
  | .addRegReg w _ _ => .bin .add .regReg w
  | .addRegDir w _ _ => .bin .add .regDir w
  | .addRegInd w _ => .bin .add .regInd w
  | .addRegImm w _ _ => .bin .add .regImm w
  | .addDirReg w _ _ => .bin .add .dirReg w
  | .addIndReg w _ => .bin .add .indReg w
  | .addDirImm w _ _ => .bin .add .dirImm w
  | .addIndImm w _ => .bin .add .indImm w
  | .adcRegReg w _ _ => .bin .adc .regReg w
  | .adcRegDir w _ _ => .bin .adc .regDir w
  | .adcRegInd w _ => .bin .adc .regInd w
  | .adcRegImm w _ _ => .bin .adc .regImm w
  | .adcDirReg w _ _ => .bin .adc .dirReg w
  | .adcIndReg w _ => .bin .adc .indReg w
  | .adcDirImm w _ _ => .bin .adc .dirImm w
  | .adcIndImm w _ => .bin .adc .indImm w
  | .subRegReg w _ _ => .bin .sub .regReg w
  | .subRegDir w _ _ => .bin .sub .regDir w
  | .subRegInd w _ => .bin .sub .regInd w
  | .subRegImm w _ _ => .bin .sub .regImm w
  | .subDirReg w _ _ => .bin .sub .dirReg w
  | .subIndReg w _ => .bin .sub .indReg w
  | .subDirImm w _ _ => .bin .sub .dirImm w
  | .subIndImm w _ => .bin .sub .indImm w
  | .sbbRegReg w _ _ => .bin .sbb .regReg w
  | .sbbRegDir w _ _ => .bin .sbb .regDir w
  | .sbbRegInd w _ => .bin .sbb .regInd w
  | .sbbRegImm w _ _ => .bin .sbb .regImm w
  | .sbbDirReg w _ _ => .bin .sbb .dirReg w
  | .sbbIndReg w _ => .bin .sbb .indReg w
  | .sbbDirImm w _ _ => .bin .sbb .dirImm w
  | .sbbIndImm w _ => .bin .sbb .indImm w
  | .cmpRegReg w _ _ => .bin .cmp .regReg w
  | .cmpRegDir w _ _ => .bin .cmp .regDir w
  | .cmpRegInd w _ => .bin .cmp .regInd w
  | .cmpRegImm w _ _ => .bin .cmp .regImm w
  | .cmpDirReg w _ _ => .bin .cmp .dirReg w
  | .cmpIndReg w _ => .bin .cmp .indReg w
  | .cmpDirImm w _ _ => .bin .cmp .dirImm w
  | .cmpIndImm w _ => .bin .cmp .indImm w
  | .andRegReg w _ _ => .bin .and .regReg w
  | .andRegDir w _ _ => .bin .and .regDir w
  | .andRegInd w _ => .bin .and .regInd w
  | .andRegImm w _ _ => .bin .and .regImm w
  | .andDirReg w _ _ => .bin .and .dirReg w
  | .andIndReg w _ => .bin .and .indReg w
  | .andDirImm w _ _ => .bin .and .dirImm w
  | .andIndImm w _ => .bin .and .indImm w
  | .orRegReg w _ _ => .bin .or .regReg w
  | .orRegDir w _ _ => .bin .or .regDir w
  | .orRegInd w _ => .bin .or .regInd w
  | .orRegImm w _ _ => .bin .or .regImm w
  | .orDirReg w _ _ => .bin .or .dirReg w
  | .orIndReg w _ => .bin .or .indReg w
  | .orDirImm w _ _ => .bin .or .dirImm w
  | .orIndImm w _ => .bin .or .indImm w
  | .xorRegReg w _ _ => .bin .xor .regReg w
  | .xorRegDir w _ _ => .bin .xor .regDir w
  | .xorRegInd w _ => .bin .xor .regInd w
  | .xorRegImm w _ _ => .bin .xor .regImm w
  | .xorDirReg w _ _ => .bin .xor .dirReg w
  | .xorIndReg w _ => .bin .xor .indReg w
  | .xorDirImm w _ _ => .bin .xor .dirImm w
  | .xorIndImm w _ => .bin .xor .indImm w
  | .negReg w _ => .un .neg .reg w
  | .negDir w _ => .un .neg .dir w
  | .negInd w => .un .neg .ind w
  | .incReg w _ => .un .inc .reg w
  | .incDir w _ => .un .inc .dir w
  | .incInd w => .un .inc .ind w
  | .decReg w _ => .un .dec .reg w
  | .decDir w _ => .un .dec .dir w
  | .decInd w => .un .dec .ind w
  | .notReg w _ => .un .not .reg w
  | .notDir w _ => .un .not .dir w
  | .notInd w => .un .not .ind w
  | .push r => .push r
  | .pop r => .pop r
  | .pushf => .pushf
  | .popf => .popf
  | .jmp _ => .jmp
  | .jz _ => .jcc .z
  | .jnz _ => .jcc .nz
  | .jc _ => .jcc .c
  | .jnc _ => .jcc .nc
  | .js _ => .jcc .s
  | .jns _ => .jcc .ns
  | .jo _ => .jcc .o
  | .jno _ => .jcc .no
  | .call _ => .call
  | .ret => .ret
  | .int _ => .int
  | .iret => .iret
  | .cli => .cli
  | .sti => .sti
  | .inAlPort _ => .inp false .w8
  | .inAxPort _ => .inp false .w16
  | .inAlDx => .inp true .w8
  | .inAxDx => .inp true .w16
  | .outPortAl _ => .out false .w8
  | .outPortAx _ => .out false .w16
  | .outDxAl => .out true .w8
  | .outDxAx => .out true .w16
  | .nop => .nop
  | .hlt => .hlt

/-- The operand values of the instruction. -/
def Instr.operands : Instr → Operands
  | .movRegReg _ a b => { a := a, b := b }
  | .movRegDir _ r addr => { b := r, addr := addr }
  | .movRegInd _ r => { b := r }
  | .movRegImm _ r imm => { b := r, imm := imm }
  | .movDirReg _ addr r => { b := r, addr := addr }
  | .movIndReg _ r => { b := r }
  | .movDirImm _ addr imm => { addr := addr, imm := imm }
  | .movIndImm _ imm => { imm := imm }
  | .addRegReg _ a b => { a := a, b := b }
  | .addRegDir _ r addr => { b := r, addr := addr }
  | .addRegInd _ r => { b := r }
  | .addRegImm _ r imm => { b := r, imm := imm }
  | .addDirReg _ addr r => { b := r, addr := addr }
  | .addIndReg _ r => { b := r }
  | .addDirImm _ addr imm => { addr := addr, imm := imm }
  | .addIndImm _ imm => { imm := imm }
  | .adcRegReg _ a b => { a := a, b := b }
  | .adcRegDir _ r addr => { b := r, addr := addr }
  | .adcRegInd _ r => { b := r }
  | .adcRegImm _ r imm => { b := r, imm := imm }
  | .adcDirReg _ addr r => { b := r, addr := addr }
  | .adcIndReg _ r => { b := r }
  | .adcDirImm _ addr imm => { addr := addr, imm := imm }
  | .adcIndImm _ imm => { imm := imm }
  | .subRegReg _ a b => { a := a, b := b }
  | .subRegDir _ r addr => { b := r, addr := addr }
  | .subRegInd _ r => { b := r }
  | .subRegImm _ r imm => { b := r, imm := imm }
  | .subDirReg _ addr r => { b := r, addr := addr }
  | .subIndReg _ r => { b := r }
  | .subDirImm _ addr imm => { addr := addr, imm := imm }
  | .subIndImm _ imm => { imm := imm }
  | .sbbRegReg _ a b => { a := a, b := b }
  | .sbbRegDir _ r addr => { b := r, addr := addr }
  | .sbbRegInd _ r => { b := r }
  | .sbbRegImm _ r imm => { b := r, imm := imm }
  | .sbbDirReg _ addr r => { b := r, addr := addr }
  | .sbbIndReg _ r => { b := r }
  | .sbbDirImm _ addr imm => { addr := addr, imm := imm }
  | .sbbIndImm _ imm => { imm := imm }
  | .cmpRegReg _ a b => { a := a, b := b }
  | .cmpRegDir _ r addr => { b := r, addr := addr }
  | .cmpRegInd _ r => { b := r }
  | .cmpRegImm _ r imm => { b := r, imm := imm }
  | .cmpDirReg _ addr r => { b := r, addr := addr }
  | .cmpIndReg _ r => { b := r }
  | .cmpDirImm _ addr imm => { addr := addr, imm := imm }
  | .cmpIndImm _ imm => { imm := imm }
  | .andRegReg _ a b => { a := a, b := b }
  | .andRegDir _ r addr => { b := r, addr := addr }
  | .andRegInd _ r => { b := r }
  | .andRegImm _ r imm => { b := r, imm := imm }
  | .andDirReg _ addr r => { b := r, addr := addr }
  | .andIndReg _ r => { b := r }
  | .andDirImm _ addr imm => { addr := addr, imm := imm }
  | .andIndImm _ imm => { imm := imm }
  | .orRegReg _ a b => { a := a, b := b }
  | .orRegDir _ r addr => { b := r, addr := addr }
  | .orRegInd _ r => { b := r }
  | .orRegImm _ r imm => { b := r, imm := imm }
  | .orDirReg _ addr r => { b := r, addr := addr }
  | .orIndReg _ r => { b := r }
  | .orDirImm _ addr imm => { addr := addr, imm := imm }
  | .orIndImm _ imm => { imm := imm }
  | .xorRegReg _ a b => { a := a, b := b }
  | .xorRegDir _ r addr => { b := r, addr := addr }
  | .xorRegInd _ r => { b := r }
  | .xorRegImm _ r imm => { b := r, imm := imm }
  | .xorDirReg _ addr r => { b := r, addr := addr }
  | .xorIndReg _ r => { b := r }
  | .xorDirImm _ addr imm => { addr := addr, imm := imm }
  | .xorIndImm _ imm => { imm := imm }
  | .negReg _ r => { b := r }
  | .negDir _ addr => { addr := addr }
  | .negInd _ => { }
  | .incReg _ r => { b := r }
  | .incDir _ addr => { addr := addr }
  | .incInd _ => { }
  | .decReg _ r => { b := r }
  | .decDir _ addr => { addr := addr }
  | .decInd _ => { }
  | .notReg _ r => { b := r }
  | .notDir _ addr => { addr := addr }
  | .notInd _ => { }
  | .push _ => { }
  | .pop _ => { }
  | .pushf => { }
  | .popf => { }
  | .jmp target => { imm := target }
  | .jz target => { imm := target }
  | .jnz target => { imm := target }
  | .jc target => { imm := target }
  | .jnc target => { imm := target }
  | .js target => { imm := target }
  | .jns target => { imm := target }
  | .jo target => { imm := target }
  | .jno target => { imm := target }
  | .call target => { imm := target }
  | .ret => { }
  | .int n => { imm := n.setWidth 16 }
  | .iret => { }
  | .cli => { }
  | .sti => { }
  | .inAlPort p => { imm := p.setWidth 16 }
  | .inAxPort p => { imm := p.setWidth 16 }
  | .inAlDx => { }
  | .inAxDx => { }
  | .outPortAl p => { imm := p.setWidth 16 }
  | .outPortAx p => { imm := p.setWidth 16 }
  | .outDxAl => { }
  | .outDxAx => { }
  | .nop => { }
  | .hlt => { }

/-- The instruction that byte 0 and the operand values spell. -/
def Instr.ofParts : Opcode → Operands → Instr
  | .bin .mov .regReg w, x => .movRegReg w x.a x.b
  | .bin .mov .regDir w, x => .movRegDir w x.b x.addr
  | .bin .mov .regInd w, x => .movRegInd w x.b
  | .bin .mov .regImm w, x => .movRegImm w x.b x.imm
  | .bin .mov .dirReg w, x => .movDirReg w x.addr x.b
  | .bin .mov .indReg w, x => .movIndReg w x.b
  | .bin .mov .dirImm w, x => .movDirImm w x.addr x.imm
  | .bin .mov .indImm w, x => .movIndImm w x.imm
  | .bin .add .regReg w, x => .addRegReg w x.a x.b
  | .bin .add .regDir w, x => .addRegDir w x.b x.addr
  | .bin .add .regInd w, x => .addRegInd w x.b
  | .bin .add .regImm w, x => .addRegImm w x.b x.imm
  | .bin .add .dirReg w, x => .addDirReg w x.addr x.b
  | .bin .add .indReg w, x => .addIndReg w x.b
  | .bin .add .dirImm w, x => .addDirImm w x.addr x.imm
  | .bin .add .indImm w, x => .addIndImm w x.imm
  | .bin .adc .regReg w, x => .adcRegReg w x.a x.b
  | .bin .adc .regDir w, x => .adcRegDir w x.b x.addr
  | .bin .adc .regInd w, x => .adcRegInd w x.b
  | .bin .adc .regImm w, x => .adcRegImm w x.b x.imm
  | .bin .adc .dirReg w, x => .adcDirReg w x.addr x.b
  | .bin .adc .indReg w, x => .adcIndReg w x.b
  | .bin .adc .dirImm w, x => .adcDirImm w x.addr x.imm
  | .bin .adc .indImm w, x => .adcIndImm w x.imm
  | .bin .sub .regReg w, x => .subRegReg w x.a x.b
  | .bin .sub .regDir w, x => .subRegDir w x.b x.addr
  | .bin .sub .regInd w, x => .subRegInd w x.b
  | .bin .sub .regImm w, x => .subRegImm w x.b x.imm
  | .bin .sub .dirReg w, x => .subDirReg w x.addr x.b
  | .bin .sub .indReg w, x => .subIndReg w x.b
  | .bin .sub .dirImm w, x => .subDirImm w x.addr x.imm
  | .bin .sub .indImm w, x => .subIndImm w x.imm
  | .bin .sbb .regReg w, x => .sbbRegReg w x.a x.b
  | .bin .sbb .regDir w, x => .sbbRegDir w x.b x.addr
  | .bin .sbb .regInd w, x => .sbbRegInd w x.b
  | .bin .sbb .regImm w, x => .sbbRegImm w x.b x.imm
  | .bin .sbb .dirReg w, x => .sbbDirReg w x.addr x.b
  | .bin .sbb .indReg w, x => .sbbIndReg w x.b
  | .bin .sbb .dirImm w, x => .sbbDirImm w x.addr x.imm
  | .bin .sbb .indImm w, x => .sbbIndImm w x.imm
  | .bin .cmp .regReg w, x => .cmpRegReg w x.a x.b
  | .bin .cmp .regDir w, x => .cmpRegDir w x.b x.addr
  | .bin .cmp .regInd w, x => .cmpRegInd w x.b
  | .bin .cmp .regImm w, x => .cmpRegImm w x.b x.imm
  | .bin .cmp .dirReg w, x => .cmpDirReg w x.addr x.b
  | .bin .cmp .indReg w, x => .cmpIndReg w x.b
  | .bin .cmp .dirImm w, x => .cmpDirImm w x.addr x.imm
  | .bin .cmp .indImm w, x => .cmpIndImm w x.imm
  | .bin .and .regReg w, x => .andRegReg w x.a x.b
  | .bin .and .regDir w, x => .andRegDir w x.b x.addr
  | .bin .and .regInd w, x => .andRegInd w x.b
  | .bin .and .regImm w, x => .andRegImm w x.b x.imm
  | .bin .and .dirReg w, x => .andDirReg w x.addr x.b
  | .bin .and .indReg w, x => .andIndReg w x.b
  | .bin .and .dirImm w, x => .andDirImm w x.addr x.imm
  | .bin .and .indImm w, x => .andIndImm w x.imm
  | .bin .or .regReg w, x => .orRegReg w x.a x.b
  | .bin .or .regDir w, x => .orRegDir w x.b x.addr
  | .bin .or .regInd w, x => .orRegInd w x.b
  | .bin .or .regImm w, x => .orRegImm w x.b x.imm
  | .bin .or .dirReg w, x => .orDirReg w x.addr x.b
  | .bin .or .indReg w, x => .orIndReg w x.b
  | .bin .or .dirImm w, x => .orDirImm w x.addr x.imm
  | .bin .or .indImm w, x => .orIndImm w x.imm
  | .bin .xor .regReg w, x => .xorRegReg w x.a x.b
  | .bin .xor .regDir w, x => .xorRegDir w x.b x.addr
  | .bin .xor .regInd w, x => .xorRegInd w x.b
  | .bin .xor .regImm w, x => .xorRegImm w x.b x.imm
  | .bin .xor .dirReg w, x => .xorDirReg w x.addr x.b
  | .bin .xor .indReg w, x => .xorIndReg w x.b
  | .bin .xor .dirImm w, x => .xorDirImm w x.addr x.imm
  | .bin .xor .indImm w, x => .xorIndImm w x.imm
  | .un .neg .reg w, x => .negReg w x.b
  | .un .neg .dir w, x => .negDir w x.addr
  | .un .neg .ind w, _ => .negInd w
  | .un .inc .reg w, x => .incReg w x.b
  | .un .inc .dir w, x => .incDir w x.addr
  | .un .inc .ind w, _ => .incInd w
  | .un .dec .reg w, x => .decReg w x.b
  | .un .dec .dir w, x => .decDir w x.addr
  | .un .dec .ind w, _ => .decInd w
  | .un .not .reg w, x => .notReg w x.b
  | .un .not .dir w, x => .notDir w x.addr
  | .un .not .ind w, _ => .notInd w
  | .push r, _ => .push r
  | .pop r, _ => .pop r
  | .pushf, _ => .pushf
  | .popf, _ => .popf
  | .jmp, x => .jmp x.imm
  | .jcc .z, x => .jz x.imm
  | .jcc .nz, x => .jnz x.imm
  | .jcc .c, x => .jc x.imm
  | .jcc .nc, x => .jnc x.imm
  | .jcc .s, x => .js x.imm
  | .jcc .ns, x => .jns x.imm
  | .jcc .o, x => .jo x.imm
  | .jcc .no, x => .jno x.imm
  | .call, x => .call x.imm
  | .ret, _ => .ret
  | .int, x => .int (x.imm.setWidth 8)
  | .iret, _ => .iret
  | .cli, _ => .cli
  | .sti, _ => .sti
  | .inp false .w8, x => .inAlPort (x.imm.setWidth 8)
  | .inp false .w16, x => .inAxPort (x.imm.setWidth 8)
  | .inp true .w8, _ => .inAlDx
  | .inp true .w16, _ => .inAxDx
  | .out false .w8, x => .outPortAl (x.imm.setWidth 8)
  | .out false .w16, x => .outPortAx (x.imm.setWidth 8)
  | .out true .w8, _ => .outDxAl
  | .out true .w16, _ => .outDxAx
  | .nop, _ => .nop
  | .hlt, _ => .hlt

end Sys2Proof
end

