-- ==== Sys2Proof/WellFormed.lean ====
section
/-! DEFINITION. Which instructions have an encoding: a register number that names a register at the operand width, and an
immediate that fits in it. Everything else an instruction carries fits its field by type. -/

namespace Sys2Proof

/-- A register number names a register at width `w`: all eight at 8 bits, 0 to 3 at 16 bits (10_state.md R22,
30_encoding.md R112 item 3). -/
def regLegal : Width → RegNum → Bool
  | .w8, _ => true
  | .w16, n => decide (n.toNat < 4)

/-- An immediate fits the width: 8 bits when w = 0 (30_encoding.md R105, R106). -/
def immFits : Width → Word → Bool
  | .w8, v => decide (v.toNat < 256)
  | .w16, _ => true

/-- The operand values fit the fields that the opcode's format has (30_encoding.md R104 to R110). -/
def Operands.fit (x : Operands) : Opcode → Bool
  | .bin _ .regReg w => regLegal w x.a && regLegal w x.b
  | .bin _ .regDir w => regLegal w x.b
  | .bin _ .regInd w => regLegal w x.b
  | .bin _ .regImm w => regLegal w x.b && immFits w x.imm
  | .bin _ .dirReg w => regLegal w x.b
  | .bin _ .indReg w => regLegal w x.b
  | .bin _ .dirImm w => immFits w x.imm
  | .bin _ .indImm w => immFits w x.imm
  | .un _ .reg w => regLegal w x.b
  | .un _ .dir _ => true
  | .un _ .ind _ => true
  | .push _ => true
  | .pop _ => true
  | .pushf => true
  | .popf => true
  | .jmp => true
  | .jcc _ => true
  | .call => true
  | .ret => true
  | .int => immFits .w8 x.imm
  | .iret => true
  | .cli => true
  | .sti => true
  | .inp fromDX _ => fromDX || immFits .w8 x.imm
  | .out toDX _ => toDX || immFits .w8 x.imm
  | .nop => true
  | .hlt => true

/-- The instruction has an encoding. -/
def Instr.wf (i : Instr) : Bool := i.operands.fit i.opcode

end Sys2Proof
end

