-- ==== Sys2Proof/Decode.lean ====
section
/-! DEFINITION. The encoding of 30_encoding.md in both directions: bytes to an instruction (total, refusing by name) and a
well-formed instruction to its bytes. One table, `layout`, says which operand bytes follow byte 0; the decoder, the encoder,
the instruction length and the fetch schedule of Machine/Operands.lean all read it. -/

namespace Sys2Proof

/-! ## Byte order (20_memory.md R63, 00_scope.md R8) -/

/-- `hi:lo`, the 16-bit value of two bytes (R8). -/
def concat (hi lo : Byte) : Word := hi.setWidth 16 <<< 8 ||| lo.setWidth 16

/-- `low(v)`, bits 7:0 (R8). -/
def low (v : Word) : Byte := v.setWidth 8

/-- `high(v)`, bits 15:8 (R8). -/
def high (v : Word) : Byte := v.extractLsb' 8 8

/-- `zext_16` of a byte (R8). -/
def zext (v : Byte) : Word := v.setWidth 16

/-! ## Fields of byte 0 -/

/-- The width that a `w` bit selects (R102). -/
def widthOf (w : Bool) : Width := if w then .w16 else .w8

/-- The operation that field `o` of format B selects (R102, R103); none of the nine for 0 and 10 to 15. -/
def binOpOf : Nat → Option BinOp
  | 1 => some .mov
  | 2 => some .add
  | 3 => some .adc
  | 4 => some .sub
  | 5 => some .sbb
  | 6 => some .cmp
  | 7 => some .and
  | 8 => some .or
  | 9 => some .xor
  | _ => none

/-- The operand form that field `f` of format B selects (R105). -/
def formOf : Nat → Form
  | 0 => .regReg
  | 1 => .regDir
  | 2 => .regInd
  | 3 => .regImm
  | 4 => .dirReg
  | 5 => .indReg
  | 6 => .dirImm
  | _ => .indImm

/-- The operation that field `u` of format U selects (R107). -/
def unOpOf : Nat → UnOp
  | 0 => .neg
  | 1 => .inc
  | 2 => .dec
  | _ => .not

/-- The operand form that field `FF` of format U selects; 11 is illegal (R107). -/
def unFormOf : Nat → Option UForm
  | 0 => some .reg
  | 1 => some .dir
  | 2 => some .ind
  | _ => none

/-- The stack instructions, C0h to C9h, by their low four bits (R108). -/
def stackOpOf : Nat → Option Opcode
  | 0x0 => some (.push .ax)
  | 0x1 => some (.push .bx)
  | 0x2 => some (.push .cx)
  | 0x3 => some (.push .dx)
  | 0x4 => some (.pop .ax)
  | 0x5 => some (.pop .bx)
  | 0x6 => some (.pop .cx)
  | 0x7 => some (.pop .dx)
  | 0x8 => some .pushf
  | 0x9 => some .popf
  | _ => none

/-- The control transfers, D0h to DAh, by their low four bits (R109). -/
def jumpOpOf : Nat → Option Opcode
  | 0x0 => some .jmp
  | 0x1 => some (.jcc .z)
  | 0x2 => some (.jcc .nz)
  | 0x3 => some (.jcc .c)
  | 0x4 => some (.jcc .nc)
  | 0x5 => some (.jcc .s)
  | 0x6 => some (.jcc .ns)
  | 0x7 => some (.jcc .o)
  | 0x8 => some (.jcc .no)
  | 0x9 => some .call
  | 0xA => some .ret
  | _ => none

/-- The interrupt, flag and IO instructions, E0h to EBh, by their low four bits (R110). -/
def systemOpOf : Nat → Option Opcode
  | 0x0 => some .int
  | 0x1 => some .iret
  | 0x2 => some .cli
  | 0x3 => some .sti
  | 0x4 => some (.inp false .w8)
  | 0x5 => some (.inp false .w16)
  | 0x6 => some (.inp true .w8)
  | 0x7 => some (.inp true .w16)
  | 0x8 => some (.out false .w8)
  | 0x9 => some (.out false .w16)
  | 0xA => some (.out true .w8)
  | 0xB => some (.out true .w16)
  | _ => none

/-- Byte 0 to what it says (R101, R111); `none` for the illegal bytes of R112 item 1. -/
def decodeOpcode (op : Byte) : Option Opcode :=
  let n := op.toNat
  match n / 16 with
  | 0x0 => if n = 0x00 then some .nop else none
  | 0xA => (unFormOf (n / 2 % 4)).map fun f => .un (unOpOf (n / 8 % 4)) f (widthOf (op.getLsbD 0))
  | 0xB => (unFormOf (n / 2 % 4)).map fun f => .un (unOpOf (n / 8 % 4)) f (widthOf (op.getLsbD 0))
  | 0xC => stackOpOf (n % 16)
  | 0xD => jumpOpOf (n % 16)
  | 0xE => systemOpOf (n % 16)
  | 0xF => if n = 0xFF then some .hlt else none
  | k => (binOpOf k).map fun o => .bin o (formOf (n / 2 % 8)) (widthOf (op.getLsbD 0))

/-! ## Operand bytes -/

/-- The immediate of a width (R105). -/
def immField : Width → List Field
  | .w8 => [.imm8]
  | .w16 => [.imm16]

/-- The operand bytes that follow byte 0, in order: register byte, address, immediate (R100, R105, R107 to R110). -/
def layout : Opcode → List Field
  | .bin _ .regReg w => [.rr w]
  | .bin _ .regDir w => [.r w, .addr]
  | .bin _ .regInd w => [.r w]
  | .bin _ .regImm w => .r w :: immField w
  | .bin _ .dirReg w => [.r w, .addr]
  | .bin _ .indReg w => [.r w]
  | .bin _ .dirImm w => .addr :: immField w
  | .bin _ .indImm w => immField w
  | .un _ .reg w => [.r w]
  | .un _ .dir _ => [.addr]
  | .un _ .ind _ => []
  | .push _ => []
  | .pop _ => []
  | .pushf => []
  | .popf => []
  | .jmp => [.imm16]
  | .jcc _ => [.imm16]
  | .call => [.imm16]
  | .ret => []
  | .int => [.vec]
  | .iret => []
  | .cli => []
  | .sti => []
  | .inp fromDX _ => if fromDX then [] else [.port]
  | .out toDX _ => if toDX then [] else [.port]
  | .nop => []
  | .hlt => []

/-- How many bytes a field takes. -/
def Field.size : Field → Nat
  | .rr _ => 1
  | .r _ => 1
  | .addr => 2
  | .imm8 => 1
  | .imm16 => 2
  | .vec => 1
  | .port => 1

/-- The length of an instruction in bytes, from byte 0 alone (R113). -/
def opcodeLength (oc : Opcode) : Nat := 1 + ((layout oc).map Field.size).sum

/-- The length of an instruction in bytes (R113). -/
def Instr.length (i : Instr) : Nat := opcodeLength i.opcode

/-- The `a` field of a register byte, bits 5:3 (R104). -/
def rbA (rb : Byte) : RegNum := rb.extractLsb' 3 3

/-- The `b` field (layout RR) or `r` field (layout R) of a register byte, bits 2:0 (R104). -/
def rbB (rb : Byte) : RegNum := rb.extractLsb' 0 3

/-- A register byte of layout RR is legal: bits 7:6 are 00 and both numbers name registers (R112 items 2, 3). -/
def rrLegal (w : Width) (rb : Byte) : Bool :=
  rb.extractLsb' 6 2 == 0 && regLegal w (rbA rb) && regLegal w (rbB rb)

/-- A register byte of layout R is legal: bits 7:3 are 00000 and the number names a register (R112 items 2, 3). -/
def rLegal (w : Width) (rb : Byte) : Bool := rb.extractLsb' 3 5 == 0 && regLegal w (rbB rb)

/-! ## Decoding -/

/-- Why bytes are no instruction: the cases of R112, or too few bytes. -/
inductive DecodeError where
  /-- R112 item 1. -/
  | illegalOpcode (op : Byte)
  /-- R112 items 2 and 3. -/
  | illegalRegisterByte (op rb : Byte)
  /-- The bytes end inside the instruction. -/
  | truncated
deriving DecidableEq, Repr

/-- Read one field from the bytes into the operand values. -/
def decodeField (op : Byte) : Field → List Byte → Operands → Except DecodeError (Operands × List Byte)
  | .rr w, rb :: rest, x =>
    if rrLegal w rb then .ok ({ x with a := rbA rb, b := rbB rb }, rest) else .error (.illegalRegisterByte op rb)
  | .r w, rb :: rest, x =>
    if rLegal w rb then .ok ({ x with b := rbB rb }, rest) else .error (.illegalRegisterByte op rb)
  | .addr, lo :: hi :: rest, x => .ok ({ x with addr := concat hi lo }, rest)
  | .imm8, v :: rest, x => .ok ({ x with imm := zext v }, rest)
  | .imm16, lo :: hi :: rest, x => .ok ({ x with imm := concat hi lo }, rest)
  | .vec, v :: rest, x => .ok ({ x with imm := zext v }, rest)
  | .port, v :: rest, x => .ok ({ x with imm := zext v }, rest)
  | _, _, _ => .error .truncated

/-- Read the fields one after the other. -/
def decodeFields (op : Byte) : List Field → List Byte → Operands → Except DecodeError (Operands × List Byte)
  | [], bytes, x => .ok (x, bytes)
  | f :: fs, bytes, x =>
    match decodeField op f bytes x with
    | .ok (x', rest) => decodeFields op fs rest x'
    | .error e => .error e

/-- The instruction at the front of the bytes, and the bytes after it (R100, R101). -/
def decode : List Byte → Except DecodeError (Instr × List Byte)
  | [] => .error .truncated
  | op :: rest =>
    match decodeOpcode op with
    | none => .error (.illegalOpcode op)
    | some oc =>
      match decodeFields op (layout oc) rest { } with
      | .ok (x, rest') => .ok (Instr.ofParts oc x, rest')
      | .error e => .error e

/-! ## Encoding -/

/-- The `w` bit of a width (R102). -/
def Width.bit : Width → Nat
  | .w8 => 0
  | .w16 => 1

/-- The `o` field of an operation (R102, R103). -/
def BinOp.code : BinOp → Nat
  | .mov => 1
  | .add => 2
  | .adc => 3
  | .sub => 4
  | .sbb => 5
  | .cmp => 6
  | .and => 7
  | .or => 8
  | .xor => 9

/-- The `f` field of an operand form (R105). -/
def Form.code : Form → Nat
  | .regReg => 0
  | .regDir => 1
  | .regInd => 2
  | .regImm => 3
  | .dirReg => 4
  | .indReg => 5
  | .dirImm => 6
  | .indImm => 7

/-- The `u` field of an operation (R107). -/
def UnOp.code : UnOp → Nat
  | .neg => 0
  | .inc => 1
  | .dec => 2
  | .not => 3

/-- The `FF` field of an operand form (R107). -/
def UForm.code : UForm → Nat
  | .reg => 0
  | .dir => 1
  | .ind => 2

/-- The number of a 16-bit register (10_state.md R22). -/
def Reg16.code : Reg16 → Nat
  | .ax => 0
  | .bx => 1
  | .cx => 2
  | .dx => 3

/-- The place of a condition among D1h to D8h (45_control.md R261). -/
def Cond.code : Cond → Nat
  | .z => 1
  | .nz => 2
  | .c => 3
  | .nc => 4
  | .s => 5
  | .ns => 6
  | .o => 7
  | .no => 8

/-- Byte 0 of an opcode: `oooo fffw`, `101 uu FF w`, or the byte of R108 to R110. -/
def opcodeByte : Opcode → Byte
  | .bin o f w => BitVec.ofNat 8 (16 * o.code + 2 * f.code + w.bit)
  | .un u f w => BitVec.ofNat 8 (0xA0 + 8 * u.code + 2 * f.code + w.bit)
  | .push r => BitVec.ofNat 8 (0xC0 + r.code)
  | .pop r => BitVec.ofNat 8 (0xC4 + r.code)
  | .pushf => 0xC8
  | .popf => 0xC9
  | .jmp => 0xD0
  | .jcc cond => BitVec.ofNat 8 (0xD0 + cond.code)
  | .call => 0xD9
  | .ret => 0xDA
  | .int => 0xE0
  | .iret => 0xE1
  | .cli => 0xE2
  | .sti => 0xE3
  | .inp false w => BitVec.ofNat 8 (0xE4 + w.bit)
  | .inp true w => BitVec.ofNat 8 (0xE6 + w.bit)
  | .out false w => BitVec.ofNat 8 (0xE8 + w.bit)
  | .out true w => BitVec.ofNat 8 (0xEA + w.bit)
  | .nop => 0x00
  | .hlt => 0xFF

/-- The register byte of layout RR, `00 aaa bbb` (R104). -/
def rrByte (a b : RegNum) : Byte := BitVec.ofNat 8 (8 * a.toNat + b.toNat)

/-- The register byte of layout R, `00000 rrr` (R104). -/
def rByte (r : RegNum) : Byte := r.setWidth 8

/-- The bytes of one field. -/
def encodeField (x : Operands) : Field → List Byte
  | .rr _ => [rrByte x.a x.b]
  | .r _ => [rByte x.b]
  | .addr => [low x.addr, high x.addr]
  | .imm8 => [low x.imm]
  | .imm16 => [low x.imm, high x.imm]
  | .vec => [low x.imm]
  | .port => [low x.imm]

/-- The bytes of an instruction, byte 0 first (R100); meant for a well-formed instruction. -/
def encode (i : Instr) : List Byte :=
  opcodeByte i.opcode :: (layout i.opcode).flatMap (encodeField i.operands)

/-! ## The opcode table's numbering -/

/-- The longest instruction, in bytes (R100). -/
def maxLength : Nat := 5

/-- The bytes, first byte first, of an instruction whose bits are `w`: bit 0 of `w` is the least significant bit of the
first byte. Only the low `nbits` bits of `w` count; every byte above them, up to `maxLength`, is 0. -/
def tableBytes (nbits w : Nat) : List Byte :=
  (List.range maxLength).map fun k => BitVec.ofNat 8 (w % 2 ^ nbits / 256 ^ k)

/-- The instruction the decoder reads from an opcode-table word. -/
def decodeTableWord (nbits w : Nat) : Option Instr :=
  match decode (tableBytes nbits w) with
  | .ok (i, _) => some i
  | .error _ => none

end Sys2Proof
end

