-- ==== Sys2Proof/Machine/State.lean ====
section
/-! DEFINITION. The state of the machine: every piece of state of 10_state.md and 70_reset_and_hazards.md R440, as plain
data; what a step can stop with; and the state right after reset. -/

namespace Sys2Proof.Machine

open Sys2Proof.Config

/-! ## The core -/

/-- The flags register (10_state.md R28), named as the spec names its bits. -/
structure Flags where
  C : Bool
  Z : Bool
  S : Bool
  O : Bool
  /-- Interrupt enable. -/
  IF : Bool
deriving DecidableEq, Repr

/-- The phases of the instruction cycle (10_state.md R32, 40_instruction_cycle.md R140). -/
inductive Phase where
  | fetching
  | fetchingOperands
  | executing
  | writeback
  | interrupt
  | int6
  | int7
  | halting
  | stopped
deriving DecidableEq, Repr

/-- The outcome that stands beside the phase (10_state.md R32). -/
inductive CoreOutcome where
  | running
  | halted
  | stoppedError
deriving DecidableEq, Repr

/-- The fault kinds of 60_exceptions.md R322. No instruction raises `representationOverflow`. -/
inductive FaultKind where
  | illegalInstruction
  | addressOutOfRange
  | ioMemoryNotConnected
  | representationOverflow
deriving DecidableEq, Repr

/-- The space tag of an access (20_memory.md R60). -/
inductive Space where
  | memory
  | io
deriving DecidableEq, Repr

/-- The `info` of an error record (60_exceptions.md R321). An address is a plain number because it may be 10000h. -/
inductive FaultInfo where
  | bus (space : Space) (address : Nat)
  | instruction (address : Word) (opcode : Byte)
deriving DecidableEq, Repr

/-- The error record (60_exceptions.md R320, R321). `opcode` is absent when byte 0 was not read. -/
structure ErrorRecord where
  kind : FaultKind
  code : Nat
  info : FaultInfo
  phase : Phase
  start : Option Word
  opcode : Option Byte
  ip : Word
deriving DecidableEq, Repr

/-- The metadata of the cycle state (10_state.md R33): the temporaries of the instruction in progress, absent until
written. `imm` also holds a jump's target, `srcv` and `dstv` also hold popped words (log 13). `lo` and `sub` are the
model's: the low byte read so far of a two-byte read, and how many sub-steps of the phase are done. -/
structure Metadata where
  start : Option Word := none
  op : Option Byte := none
  rb : Option Byte := none
  ea : Option Word := none
  imm : Option Word := none
  port : Option Word := none
  srcv : Option Word := none
  dstv : Option Word := none
  res : Option Word := none
  taken : Option Bool := none
  vec : Option Byte := none
  irq : Option (BitVec 3) := none
  lo : Option Byte := none
  sub : Nat := 0
deriving DecidableEq, Repr

/-! ## Memory -/

/-- What an address that the cell list does not name reads as (10_state.md R34): 00h, or under the policy `random`, and under
`preserve` the first time, the byte of memory draw number n (log 9, log 11, log 31). -/
inductive Background where
  | zero
  | drawn (n : Nat)
deriving DecidableEq, Repr

/-- Main memory (10_state.md R34): the bytes that differ from the background, by rising address. The canonical form is
`Memory.wf` of Machine/Ops.lean. Which addresses exist is `Params.memSize`. -/
structure Memory where
  cells : List Host.Cell
  background : Background
deriving DecidableEq, Repr

/-! ## Devices (10_state.md R35) -/

/-- The PIC's registers (60_exceptions.md R341 to R344). -/
structure Pic where
  imr : Byte
  irr : Byte
  isr : Byte
  int0 : Byte
  int1 : Byte
  int2 : Byte
  int3 : Byte
  int4 : Byte
  int5 : Byte
  int6 : Byte
  int7 : Byte
deriving DecidableEq, Repr

/-- The timer's registers (60_exceptions.md R361, R362). -/
structure Timer where
  cont : Byte
  comp : Byte
deriving DecidableEq, Repr

/-- The PIO's latches and control registers (60_exceptions.md R370), the switches wired to it (R380) and the previous value
of the printer's strobe pin (R383). -/
structure Pio where
  la : Byte
  lb : Byte
  ca : Byte
  cb : Byte
  switches : Byte
  strobePrev : Bool
deriving DecidableEq, Repr

/-- The handshake link's own state (60_exceptions.md R390, R391); STATE.busy is the printer's. -/
structure Handshake where
  data : Byte
  ie : Bool
deriving DecidableEq, Repr

/-- The printer (60_exceptions.md R384); `paper` holds the oldest byte first. -/
structure Printer where
  busy : Bool
  pending : Byte
  paper : List Byte
deriving DecidableEq, Repr

/-- The screen (60_exceptions.md R402); `output` holds the oldest byte first. -/
structure Screen where
  last : Byte
  output : List Byte
deriving DecidableEq, Repr

/-! ## The host session (70_reset_and_hazards.md R440) -/

/-- The run modes (R443). -/
inductive RunMode where
  | cycleChange
  | endOfInstruction
  | infinity
deriving DecidableEq, Repr

/-- The host status; its `waitingForInput` flag is a field of State of its own (10_state.md R37). -/
inductive HostStatus where
  | stopped
  | paused
  | running (mode : RunMode)
deriving DecidableEq, Repr

/-- The arguments of a `loadProgram` (R441), kept for `stop(true)` (R446). -/
structure LoadedProgram where
  image : List Host.Cell
  devices : Devices
  policy : MemoryInitPolicy
deriving DecidableEq, Repr

/-- The host commands (R441 to R451, R453); R458: there are no others. -/
inductive HostCommand where
  | loadProgram (image : List Host.Cell) (devices : Devices) (policy : MemoryInitPolicy)
  | run (mode : RunMode)
  | step
  | pause
  | stop (resetAlso : Bool)
  | sendKeyboardChar (ch : Byte)
  | pressF10
  | toggleSwitch (index : Nat)
  | cleanScreen
  | cleanPrinterBuffer
  | getComputerState
deriving DecidableEq, Repr

/-- One step of one agent (00_scope.md R12). `instruction` stands for the core's sub-steps up to the end of its
instruction (log 1). -/
inductive AgentStep where
  | core
  | instruction
  | timerTick
  | printerConsume
  | host (command : HostCommand)
deriving DecidableEq, Repr

/-- The registers, flags, memory, devices, cycle state, outcome and error record that `getComputerState` returns (R453). -/
structure Snapshot where
  ax : Word
  bx : Word
  cx : Word
  dx : Word
  ip : Word
  sp : Word
  flags : Flags
  memory : Memory
  pic : Pic
  timer : Timer
  pio : Pio
  handshake : Handshake
  printer : Printer
  screen : Screen
  phase : Phase
  metadata : Metadata
  outcome : CoreOutcome
  error : Option ErrorRecord
deriving DecidableEq, Repr

/-- What the host's last command answered: done, rejected as an invalid action (R452), or a snapshot. The model's own
field (log 22). -/
inductive Reply where
  | ok
  | invalidAction
  | snapshot (view : Snapshot)
deriving DecidableEq, Repr

/-! ## The state -/

/-- The machine and its session. The last three fields are the model's own (log 2, log 10, log 22). -/
structure State where
  ax : Word
  bx : Word
  cx : Word
  dx : Word
  ip : Word
  sp : Word
  flags : Flags
  phase : Phase
  outcome : CoreOutcome
  error : Option ErrorRecord
  /-- The metadata of the cycle state. -/
  md : Metadata
  mem : Memory
  params : Params
  devices : Devices
  pic : Pic
  timer : Timer
  pio : Pio
  handshake : Handshake
  printer : Printer
  screen : Screen
  status : HostStatus
  waitingForInput : Bool
  pauseFlag : Bool
  loaded : Option LoadedProgram
  /-- The steps that the schedule has next, first one first (R431). -/
  agenda : List AgentStep
  /-- How many `Draw()` values the machine's resets have taken. -/
  draws : Nat
  reply : Option Reply
deriving DecidableEq, Repr

/-! ## What a step can stop with -/

/-- Why the machine has no next state. A fault of the SPEC is not here: raising one is a next state with phase `stopped`,
outcome `stoppedError` and an error record (60_exceptions.md R320, log 4). Each of these says that the agent whose turn it
is has no step. -/
inductive Fault where
  /-- Raised by `step` when the agenda gives the turn to the core after HLT (U14: stuck until a reset). Safe. -/
  | coreHalted
  /-- Raised by `step` when the agenda gives the turn to the core after a fault (U15: stuck until a reset). Safe. -/
  | coreFaulted
  /-- Raised by `step` when the agenda gives the turn to the core while a keyboard read waits (R155, U13). Safe. -/
  | coreWaitsForInput
  /-- Raised by `step` when the agenda's next entry is a step that its agent does not have: a core sub-step while the host
  status is not running, a tick with no timer, a consumption with no printer or nothing pending (R12, R431). Safe. -/
  | agentHasNoStep (agent : AgentStep)
  /-- Raised by a core sub-step whose phase and metadata name no sub-step, in states that no run reaches (log 24). Safe. -/
  | cycleStateInconsistent
deriving DecidableEq, Repr

/-- Why an instruction has no meaning in the model. -/
inductive Refusal where
  /-- Raised by no arm: every instruction of the table has its meaning. Safe. -/
  | notModelled (mnemonic : String)
deriving DecidableEq, Repr

/-! ## Reset values -/

/-- 10_state.md R35, the PIC's row. -/
def Pic.reset : Pic :=
  { imr := 0xFF, irr := 0x00, isr := 0x00, int0 := 0x00, int1 := 0x00, int2 := 0x00, int3 := 0x00, int4 := 0x00,
    int5 := 0x00, int6 := 0x00, int7 := 0x00 }

/-- 10_state.md R35, the timer's rows. -/
def Timer.reset : Timer := { cont := 0x00, comp := 0x00 }

/-- 10_state.md R35, the rows of the PIO, the switches and the strobe pin. -/
def Pio.reset : Pio :=
  { la := 0x00, lb := 0x00, ca := 0xFF, cb := 0xFF, switches := 0x00, strobePrev := false }

/-- 10_state.md R35, the handshake's rows. -/
def Handshake.reset : Handshake := { data := 0x00, ie := false }

/-- 10_state.md R35, the printer's row. -/
def Printer.reset : Printer := { busy := false, pending := 0x00, paper := [] }

/-- 10_state.md R35, the screen's row. -/
def Screen.reset : Screen := { last := 0x00, output := [] }

/-- The machine right after reset (70_reset_and_hazards.md R420) with the default parameters of 00_scope.md R5, memory under
the policy `zero`, no image, and nothing loaded (R440). The registers and C, Z, S, O, which the spec leaves to a draw, are 0
here (log 5, log 6); the devices are those of log 8. -/
def State.reset : State :=
  { ax := 0x0000
    bx := 0x0000
    cx := 0x0000
    dx := 0x0000
    ip := Params.default.resetIP
    sp := Params.default.resetSP
    flags := { C := false, Z := false, S := false, O := false, IF := Params.default.resetIF }
    phase := .fetching
    outcome := .running
    error := none
    md := { }
    mem := { cells := [], background := .zero }
    params := Params.default
    devices := Devices.default
    pic := Pic.reset
    timer := Timer.reset
    pio := Pio.reset
    handshake := Handshake.reset
    printer := Printer.reset
    screen := Screen.reset
    status := .stopped
    waitingForInput := false
    pauseFlag := false
    loaded := none
    agenda := []
    draws := 0
    reply := none }

end Sys2Proof.Machine
end

