-- ==== Sys2Proof/Machine/Flags.lean ====
section
/-! DEFINITION. The ALU and the flags (40_instruction_cycle.md R156 to R160, 10_state.md R28 to R31): every computation of a
result and of C, Z, S and O, the jump conditions, and the 16-bit flag image. -/

namespace Sys2Proof.Machine

/-- The four flags an arithmetic or logic operation writes; IF is kept by all of them (10_state.md R30). -/
structure AluFlags where
  C : Bool
  Z : Bool
  S : Bool
  O : Bool
deriving DecidableEq, Repr

/-- A result of width n, and the flags written with it (`none`: the flags are kept). -/
structure AluOut (n : Nat) where
  res : BitVec n
  flags : Option AluFlags
deriving DecidableEq, Repr

/-- Write the four flags, keep IF (10_state.md R30). -/
def Flags.update (f : Flags) : Option AluFlags → Flags
  | some g => { f with C := g.C, Z := g.Z, S := g.S, O := g.O }
  | none => f

/-- Z of R156. -/
def zeroFlag {n : Nat} (res : BitVec n) : Bool := decide (res.toNat = 0)

/-- S of R156: bit N-1 of the result. -/
def signFlag {n : Nat} (res : BitVec n) : Bool := res.msb

/-- `AddN(a, b, cin)` (R157): the exact sum, narrowed; C is the carry out, O the signed overflow. -/
def addN {n : Nat} (a b : BitVec n) (cin : Bool) : AluOut n :=
  let t := a.toNat + b.toNat + cin.toNat
  let res := BitVec.ofNat n t
  { res := res
    flags := some
      { C := decide (2 ^ n ≤ t)
        Z := zeroFlag res
        S := signFlag res
        O := a.msb == b.msb && res.msb != a.msb } }

/-- `SubN(a, b, bin)` (R158): the exact difference, narrowed; C is the borrow, O the signed overflow. -/
def subN {n : Nat} (a b : BitVec n) (bin : Bool) : AluOut n :=
  let t : Int := (a.toNat : Int) - b.toNat - bin.toNat
  let res := BitVec.ofInt n t
  { res := res
    flags := some
      { C := decide (t < 0)
        Z := zeroFlag res
        S := signFlag res
        O := a.msb != b.msb && res.msb != a.msb } }

/-- A bitwise operation's result with its flags: C and O are cleared (R159). -/
def logicN {n : Nat} (res : BitVec n) : AluOut n :=
  { res := res, flags := some { C := false, Z := zeroFlag res, S := signFlag res, O := false } }

/-- The computation of a two-operand instruction on its destination and source values and the old C
(41_transfer.md R180, 42_arithmetic.md R190 to R194, 43_logic.md R220 to R222). MOV writes no flag. -/
def binAlu {n : Nat} (o : BinOp) (dst src : BitVec n) (c : Bool) : AluOut n :=
  match o with
  | .mov => { res := src, flags := none }
  | .add => addN dst src false
  | .adc => addN dst src c
  | .sub => subN dst src false
  | .sbb => subN dst src c
  | .cmp => subN dst src false
  | .and => logicN (dst &&& src)
  | .or => logicN (dst ||| src)
  | .xor => logicN (dst ^^^ src)

/-- The computation of a one-operand instruction (42_arithmetic.md R195 to R197, 43_logic.md R223). -/
def unAlu {n : Nat} (u : UnOp) (dst : BitVec n) : AluOut n :=
  match u with
  | .neg => subN 0 dst false
  | .inc => addN dst 1 false
  | .dec => subN dst 1 false
  | .not => logicN (~~~dst)

/-- A result of width 8 or 16 as a word, zero-extended: how the metadata holds it. -/
def AluOut.toWord {n : Nat} (r : AluOut n) : Word := r.res.setWidth 16

/-- The two-operand computation at the operand width, on values held as words; the result is a word and the new flags. -/
def binCompute (o : BinOp) (w : Width) (dst src : Word) (f : Flags) : Word × Flags :=
  match w with
  | .w8 =>
    let r := binAlu o (low dst) (low src) f.C
    (r.toWord, f.update r.flags)
  | .w16 =>
    let r := binAlu o dst src f.C
    (r.toWord, f.update r.flags)

/-- The one-operand computation at the operand width. -/
def unCompute (u : UnOp) (w : Width) (dst : Word) (f : Flags) : Word × Flags :=
  match w with
  | .w8 =>
    let r := unAlu u (low dst)
    (r.toWord, f.update r.flags)
  | .w16 =>
    let r := unAlu u dst
    (r.toWord, f.update r.flags)

/-- The condition of a conditional jump (45_control.md R261). -/
def condHolds (cond : Cond) (f : Flags) : Bool :=
  match cond with
  | .z => f.Z
  | .nz => !f.Z
  | .c => f.C
  | .nc => !f.C
  | .s => f.S
  | .ns => !f.S
  | .o => f.O
  | .no => !f.O

/-- `FLAGS16()` (10_state.md R29): C bit 0, Z bit 6, S bit 7, IF bit 9, O bit 11, every other bit 0. -/
def flags16 (f : Flags) : Word :=
  BitVec.ofNat 16 (f.C.toNat + 64 * f.Z.toNat + 128 * f.S.toNat + 512 * f.IF.toNat + 2048 * f.O.toNat)

/-- `LoadFLAGS16(v)` (10_state.md R29): the bits with no flag are ignored. -/
def loadFlags16 (v : Word) : Flags :=
  { C := v.getLsbD 0, Z := v.getLsbD 6, S := v.getLsbD 7, O := v.getLsbD 11, IF := v.getLsbD 9 }

end Sys2Proof.Machine
end

