-- ==== Sys2Proof/Machine/Devices.lean ====
section
/-! DEFINITION. The devices behind the IO decoder (60_exceptions.md sections 3 to 7) and the chip-select decoder itself
(20_memory.md R71, R72): what each register reads as, what writing it does, the PIC's request logic, and the steps of the
timer and of the printer. -/

namespace Sys2Proof.Machine

open Sys2Proof.Config

/-! ## PIC (60_exceptions.md R340 to R349) -/

/-- The bit of line `i`. -/
def lineBit (i : Nat) : Byte := BitVec.ofNat 8 (2 ^ i)

/-- The lowest set bit of a byte, if it has one. -/
def lowestBit (v : Byte) : Option Nat := (List.range 8).find? fun i => v.getLsbD i

/-- The highest-priority pending line that is not masked (R345 `Selected`). -/
def Pic.selected (p : Pic) : Option Nat := lowestBit (p.irr &&& ~~~p.imr)

/-- `INTR` (R345): a line is selected, and no line of its priority or a higher one is in service. -/
def Pic.intr (p : Pic) : Bool :=
  match p.selected with
  | some i => (List.range (i + 1)).all fun j => !p.isr.getLsbD j
  | none => false

/-- The vector register INTi (R344). -/
def Pic.vector (p : Pic) (i : Nat) : Byte :=
  match i with
  | 0 => p.int0
  | 1 => p.int1
  | 2 => p.int2
  | 3 => p.int3
  | 4 => p.int4
  | 5 => p.int5
  | 6 => p.int6
  | _ => p.int7

/-- Write the vector register INTi (R344). -/
def Pic.setVector (p : Pic) (i : Nat) (v : Byte) : Pic :=
  match i with
  | 0 => { p with int0 := v }
  | 1 => { p with int1 := v }
  | 2 => { p with int2 := v }
  | 3 => { p with int3 := v }
  | 4 => { p with int4 := v }
  | 5 => { p with int5 := v }
  | 6 => { p with int6 := v }
  | _ => { p with int7 := v }

/-- Assertion of line `i` (R340, R342): its IRR bit is set, whatever IMR holds. -/
def Pic.assert (p : Pic) (i : Nat) : Pic := { p with irr := p.irr ||| lineBit i }

/-- An EOI write (R346): the highest-priority bit of ISR is cleared, if there is one. -/
def Pic.endOfInterrupt (p : Pic) : Pic :=
  match lowestBit p.isr with
  | some i => { p with isr := p.isr &&& ~~~lineBit i }
  | none => p

/-- The PIC's part of the acknowledge of line `i` (R347). -/
def Pic.acknowledge (p : Pic) (i : Nat) : Pic :=
  { p with irr := p.irr &&& ~~~lineBit i, isr := p.isr ||| lineBit i }

/-- Assert a line of the PIC, if there is a PIC (R348, R349). -/
def assertLine (i : Nat) (s : State) : State :=
  if s.devices.pic then { s with pic := s.pic.assert i } else s

/-- `InterruptRequested()` (R333). -/
def interruptRequested (s : State) : Bool := s.flags.IF && s.devices.pic && s.pic.intr

/-! ## Timer (60_exceptions.md R360) -/

/-- `TimerTick()`; the timer agent has this step only when the timer is present. -/
def timerTick (s : State) : State :=
  let cont := s.timer.cont + 1
  if cont = s.timer.comp then
    assertLine 1 { s with timer := { s.timer with cont := 0 } }
  else
    { s with timer := { s.timer with cont := cont } }

/-! ## Parallel IO (60_exceptions.md R370 to R383) -/

/-- `OutA = LA & ~CA` (R370). -/
def Pio.outA (p : Pio) : Byte := p.la &&& ~~~p.ca

/-- `OutB = LB & ~CB` (R370). -/
def Pio.outB (p : Pio) : Byte := p.lb &&& ~~~p.cb

/-- What the eight LEDs show (R374, R381); with no LEDs wired, nothing is lit. -/
def leds (s : State) : Byte := if s.devices.pio = some .switchesAndLeds then s.pio.outB else 0

/-- `InA`: the switches (R374), or the printer's busy bit on bit 0 (R382). -/
def inA (s : State) : Byte :=
  match s.devices.pio with
  | some .switchesAndLeds => s.pio.switches
  | some .printer => if s.printer.busy then 0x01 else 0x00
  | none => 0x00

/-- `InB`: no device drives port B (R374, R382). -/
def inB (_ : State) : Byte := 0x00

/-- What reading a data port gives: output bits from the latch, input bits from the device (R371). -/
def portValue (latch control input : Byte) : Byte := (latch &&& ~~~control) ||| (input &&& control)

/-- The strobe check after a write to PA or CA (R383): with a printer on the PIO, a rising edge of OutA[1] hands OutB to
the printer, which ignores it while busy. -/
def strobeCheck (s : State) : State :=
  if s.devices.pio = some .printer then
    let strobe := s.pio.outA.getLsbD 1
    let printer :=
      if !s.pio.strobePrev && strobe && !s.printer.busy then
        { s.printer with pending := s.pio.outB, busy := true }
      else s.printer
    { s with printer := printer, pio := { s.pio with strobePrev := strobe } }
  else s

/-! ## Printer and handshake (60_exceptions.md R384 to R393) -/

/-- `HandshakeDone()` (R393): with the interrupt enabled, assert IRQ2. -/
def handshakeDone (s : State) : State := if s.handshake.ie then assertLine 2 s else s

/-- `PrinterConsume()` (R385); the printer agent has this step only when busy = 1. -/
def printerConsume (s : State) : State :=
  let printed : State := { s with printer := { s.printer with paper := s.printer.paper ++ [s.printer.pending], busy := false } }
  if s.devices.handshake then handshakeDone printed else printed

/-- A write to DATA (R390): it starts a transfer, or is lost while the printer is busy. -/
def writeHandshakeData (v : Byte) (s : State) : State :=
  if s.printer.busy then s
  else { s with handshake := { s.handshake with data := v }, printer := { s.printer with pending := v, busy := true } }

/-- What STATE reads as (R391): bit 0 busy, bit 7 ie. -/
def handshakeState (s : State) : Byte := BitVec.ofNat 8 (s.printer.busy.toNat + 128 * s.handshake.ie.toNat)

/-! ## The chip-select decoder (20_memory.md R71, R72) -/

/-- The device registers that ports name (R71). -/
inductive DeviceReg where
  | cont | comp
  | eoi | imr | irr | isr | intVector (i : Nat)
  | pa | pb | ca | cb
  | data | state
  | key
  | screen
deriving DecidableEq, Repr

/-- The register a port names, whether or not its device is present (R71). -/
def portRegister (port : Nat) : Option DeviceReg :=
  match port with
  | 0x10 => some .cont
  | 0x11 => some .comp
  | 0x20 => some .eoi
  | 0x21 => some .imr
  | 0x22 => some .irr
  | 0x23 => some .isr
  | 0x24 => some (.intVector 0)
  | 0x25 => some (.intVector 1)
  | 0x26 => some (.intVector 2)
  | 0x27 => some (.intVector 3)
  | 0x28 => some (.intVector 4)
  | 0x29 => some (.intVector 5)
  | 0x2A => some (.intVector 6)
  | 0x2B => some (.intVector 7)
  | 0x30 => some .pa
  | 0x31 => some .pb
  | 0x32 => some .ca
  | 0x33 => some .cb
  | 0x40 => some .data
  | 0x41 => some .state
  | 0x50 => some .key
  | 0x60 => some .screen
  | _ => none

/-- The device of a register is present (R71). -/
def DeviceReg.present (d : Devices) : DeviceReg → Bool
  | .cont | .comp => d.pic
  | .eoi | .imr | .irr | .isr | .intVector _ => d.pic
  | .pa | .pb | .ca | .cb => d.pio.isSome
  | .data | .state => d.handshake
  | .key => d.keyboardAndScreen
  | .screen => d.keyboardAndScreen

/-- The register is one of the PIO's (R324: ports 30h to 33h). -/
def DeviceReg.isPio : DeviceReg → Bool
  | .pa | .pb | .ca | .cb => true
  | _ => false

/-- The PIO auto-enable (60_exceptions.md R324): the PIO with switches and LEDs, in its reset state. -/
def autoEnable (s : State) : State :=
  { s with
    devices := { s.devices with pio := some .switchesAndLeds }
    pio := { s.pio with la := Pio.reset.la, lb := Pio.reset.lb, ca := Pio.reset.ca, cb := Pio.reset.cb,
                        switches := Pio.reset.switches } }

/-- `Resolve(p)` (R72): the register that answers, in the state the PIO auto-enable may have left; `none` when the access is
refused. -/
def resolve (port : Nat) (s : State) : Option (DeviceReg × State) :=
  match portRegister port with
  | none => none
  | some r =>
    if r.present s.devices then some (r, s)
    else if r.isPio && s.params.autoEnablePio then some (r, autoEnable s)
    else none

/-- What reading a register gives (60_exceptions.md); `none` for the keyboard, whose read waits (R400). No read changes
state (20_memory.md R74). -/
def deviceRead (r : DeviceReg) (s : State) : Option Byte :=
  match r with
  | .cont => some s.timer.cont
  | .comp => some s.timer.comp
  | .eoi => some 0x00
  | .imr => some s.pic.imr
  | .irr => some s.pic.irr
  | .isr => some s.pic.isr
  | .intVector i => some (s.pic.vector i)
  | .pa => some (portValue s.pio.la s.pio.ca (inA s))
  | .pb => some (portValue s.pio.lb s.pio.cb (inB s))
  | .ca => some s.pio.ca
  | .cb => some s.pio.cb
  | .data => some s.handshake.data
  | .state => some (handshakeState s)
  | .key => none
  | .screen => some s.screen.last

/-- What writing a register does (60_exceptions.md). -/
def deviceWrite (r : DeviceReg) (v : Byte) (s : State) : State :=
  match r with
  | .cont => { s with timer := { s.timer with cont := v } }
  | .comp => { s with timer := { s.timer with comp := v } }
  | .eoi => { s with pic := s.pic.endOfInterrupt }
  | .imr => { s with pic := { s.pic with imr := v } }
  | .irr => { s with pic := { s.pic with irr := v } }
  | .isr => { s with pic := { s.pic with isr := v } }
  | .intVector i => { s with pic := s.pic.setVector i v }
  | .pa => strobeCheck { s with pio := { s.pio with la := v } }
  | .pb => { s with pio := { s.pio with lb := v } }
  | .ca => strobeCheck { s with pio := { s.pio with ca := v } }
  | .cb => { s with pio := { s.pio with cb := v } }
  | .data => writeHandshakeData v s
  | .state => { s with handshake := { s.handshake with ie := v.getLsbD 7 } }
  | .key => s
  | .screen => { s with screen := { last := v, output := s.screen.output ++ [v] } }

end Sys2Proof.Machine
end

