-- ==== Sys2Proof/Machine/Ops.lean ====
section
/-! DEFINITION. The named operations every instruction is made of: registers, memory, the raising of a fault, bus accesses,
the actions of a sub-step, and the two ends of a trap: entry (60_exceptions.md R331) and return (46_system.md R281). -/

namespace Sys2Proof.Machine

open Sys2Proof.Config

/-! ## Registers (10_state.md R20 to R22) -/

/-- `v` with its low half replaced (R21). -/
def withLow (v : Word) (b : Byte) : Word := concat (high v) b

/-- `v` with its high half replaced (R21). -/
def withHigh (v : Word) (b : Byte) : Word := concat b (low v)

/-- A 16-bit general register by name. -/
def State.reg16 (s : State) (r : Reg16) : Word :=
  match r with
  | .ax => s.ax
  | .bx => s.bx
  | .cx => s.cx
  | .dx => s.dx

/-- Write a 16-bit general register by name. -/
def State.setReg16 (s : State) (r : Reg16) (v : Word) : State :=
  match r with
  | .ax => { s with ax := v }
  | .bx => { s with bx := v }
  | .cx => { s with cx := v }
  | .dx => { s with dx := v }

/-- The 16-bit register whose number, or whose half's number, is `n` (R22): 0 and 4 are AX and AH's register, and so on. -/
def cellOf (n : RegNum) : Reg16 :=
  match n.toNat with
  | 0 | 4 => .ax
  | 1 | 5 => .bx
  | 2 | 6 => .cx
  | _ => .dx

/-- `r8[n]` (R22): 0 to 3 the low halves, 4 to 7 the high halves. -/
def State.reg8 (s : State) (n : RegNum) : Byte :=
  if n.toNat < 4 then low (s.reg16 (cellOf n)) else high (s.reg16 (cellOf n))

/-- `r8[n] <- v` (R21, R22): the other half is kept. -/
def State.setReg8 (s : State) (n : RegNum) (v : Byte) : State :=
  if n.toNat < 4 then s.setReg16 (cellOf n) (withLow (s.reg16 (cellOf n)) v)
  else s.setReg16 (cellOf n) (withHigh (s.reg16 (cellOf n)) v)

/-- `Reg(k)` (40_instruction_cycle.md R151) as a word, an 8-bit value zero-extended. At 16 bits `k` is 0 to 3: the check of
30_encoding.md R112 item 3 comes first. -/
def State.reg (s : State) (w : Width) (k : RegNum) : Word :=
  match w with
  | .w8 => zext (s.reg8 k)
  | .w16 => s.reg16 (cellOf k)

/-- `SetReg(k, v)` (40_instruction_cycle.md R151), the value taken from the low bits of a word. -/
def State.setReg (s : State) (w : Width) (k : RegNum) (v : Word) : State :=
  match w with
  | .w8 => s.setReg8 k (low v)
  | .w16 => s.setReg16 (cellOf k) v

/-! ## Memory (20_memory.md R61, R68) -/

/-- The byte an address reads as when no cell names it (10_state.md R34). The ONE definition of it. -/
def Background.byteAt (b : Background) (a : Nat) : Byte :=
  match b with
  | .zero => 0x00
  | .drawn n => drawByte n a

/-- The byte a cell list gives an address. -/
def findCell (a : Nat) : List Host.Cell → Option Byte
  | [] => none
  | c :: rest => if c.1 = a then some c.2 else findCell a rest

/-- Put a byte at an address, before the first greater address. -/
def insertCell (a : Nat) (v : Byte) : List Host.Cell → List Host.Cell
  | [] => [(a, v)]
  | c :: rest =>
    if a < c.1 then (a, v) :: c :: rest
    else if c.1 = a then (a, v) :: rest
    else c :: insertCell a v rest

/-- Take every cell of an address away. -/
def eraseCell (a : Nat) (cells : List Host.Cell) : List Host.Cell := cells.filter fun c => c.1 != a

/-- Read one byte. -/
def Memory.read (m : Memory) (a : Nat) : Byte := (findCell a m.cells).getD (m.background.byteAt a)

/-- Write one byte: writing what an unlisted address reads as takes the cell away. -/
def Memory.write (m : Memory) (a : Nat) (v : Byte) : Memory :=
  if v = m.background.byteAt a then { m with cells := eraseCell a m.cells }
  else { m with cells := insertCell a v m.cells }

/-- Write a list of cells, first to last. -/
def Memory.writeAll (m : Memory) : List Host.Cell → Memory
  | [] => m
  | c :: rest => (m.write c.1 c.2).writeAll rest

/-- The canonical form: addresses strictly rising, and no cell equal to what its address reads as without it. -/
def Memory.wf (m : Memory) : Bool :=
  decide ((m.cells.map Prod.fst).Pairwise (· < ·)) && m.cells.all fun c => c.2 != m.background.byteAt c.1

/-- The 16-bit value in memory at an address: low byte first (R63). -/
def Memory.readWord (m : Memory) (a : Nat) : Word := concat (m.read (a + 1)) (m.read a)

/-! ## Faults (60_exceptions.md R320 to R322) -/

/-- `code(kind)` (R322). -/
def FaultKind.code : FaultKind → Nat
  | .illegalInstruction => 1
  | .addressOutOfRange => 2
  | .ioMemoryNotConnected => 3
  | .representationOverflow => 4

/-- `raise Fault(kind, info)` (R320): the core's synchronous exception, taken. -/
def raise (kind : FaultKind) (info : FaultInfo) (s : State) : State :=
  { s with
    error := some
      { kind := kind, code := kind.code, info := info, phase := s.phase, start := s.md.start, opcode := s.md.op, ip := s.ip }
    phase := .stopped
    outcome := .stoppedError
    status := .stopped }

/-- The fault of an illegal encoding (30_encoding.md R112), which names the instruction. -/
def raiseIllegal (s : State) : State :=
  raise .illegalInstruction (.instruction (s.md.start.getD 0) (s.md.op.getD 0)) s

/-- How an action of a sub-step ends: the core goes on, the instruction ends in a fault that has been taken, or the sub-step
parks on the keyboard and has no effect yet (R400). -/
inductive Flow where
  | go (s : State)
  | stop (s : State)
  | park
deriving DecidableEq, Repr

/-- Do `k` when the core goes on. -/
def Flow.andThen (f : Flow) (k : State → Flow) : Flow :=
  match f with
  | .go s => k s
  | .stop s => .stop s
  | .park => .park

/-! ## Bus accesses (20_memory.md R62 to R67, R72 to R78) -/

/-- One transaction (R78): a space, an address, and the byte when it is a write. -/
structure BusRequest where
  space : Space
  address : Nat
  data : Option Byte
deriving DecidableEq, Repr

/-- The arbiter's answer (R78), with the state it leaves; a write answers with the byte written. -/
inductive BusAnswer where
  | ok (data : Byte) (s : State)
  | error (kind : FaultKind)
  | wait
deriving DecidableEq, Repr

/-- The arbiter (R60, R62, R72, R78). `key` is the character the host supplies to a waiting keyboard read. -/
def busAccess (req : BusRequest) (key : Option Byte) (s : State) : BusAnswer :=
  match req.space with
  | .memory =>
    if req.address < s.params.memSize then
      match req.data with
      | none => .ok (s.mem.read req.address) s
      | some v => .ok v { s with mem := s.mem.write req.address v }
    else .error .addressOutOfRange
  | .io =>
    match resolve req.address s with
    | none => .error .ioMemoryNotConnected
    | some (r, s') =>
      match req.data with
      | some v => .ok v (deviceWrite r v s')
      | none =>
        match deviceRead r s' with
        | some v => .ok v s'
        | none =>
          match key with
          | some ch => .ok ch s'
          | none => .wait

/-- One byte read on the bus, given to `k`. -/
def busRead (space : Space) (a : Nat) (key : Option Byte) (s : State) (k : Byte → State → Flow) : Flow :=
  match busAccess { space := space, address := a, data := none } key s with
  | .ok v s' => k v s'
  | .error kind => .stop (raise kind (.bus space a) s)
  | .wait => .park

/-- One byte written on the bus. -/
def busWrite (space : Space) (a : Nat) (v : Byte) (s : State) : Flow :=
  match busAccess { space := space, address := a, data := some v } none s with
  | .ok _ s' => .go s'
  | .error kind => .stop (raise kind (.bus space a) s)
  | .wait => .park

/-- The range check of a memory address (R62). -/
def claimMemory (a : Nat) (s : State) : Flow :=
  if a < s.params.memSize then .go s else .stop (raise .addressOutOfRange (.bus .memory a) s)

/-- The range checks of a 2-byte access, both made before a byte moves (R64, R66, R67). -/
def claimMemory2 (a : Nat) (s : State) : Flow := (claimMemory a s).andThen (claimMemory (a + 1))

/-- The resolution of a port (R72). -/
def claimPort (p : Nat) (s : State) : Flow :=
  match resolve p s with
  | some (_, s') => .go s'
  | none => .stop (raise .ioMemoryNotConnected (.bus .io p) s)

/-- The resolutions of a 2-byte IO access, both made before a byte moves (R76, R77). -/
def claimPort2 (p : Nat) (s : State) : Flow := (claimPort p s).andThen (claimPort (p + 1))

/-- The end of `FetchByte()` (40_instruction_cycle.md R146): IP advances, or the instruction stream ends at FFFFh. -/
def advanceIP (s : State) (k : State → Flow) : Flow :=
  if s.ip = 0xFFFF then .stop (raise .addressOutOfRange (.bus .memory 0x10000) s)
  else k { s with ip := s.ip + 1 }

/-- `FetchByte()` (40_instruction_cycle.md R146), its byte given to `k`. -/
def fetchByte (s : State) (k : Byte → State → Flow) : Flow :=
  busRead .memory s.ip.toNat none s fun b s' => advanceIP s' (k b)

/-! ## The actions of a sub-step -/

/-- Which value of the metadata a data read fills. -/
inductive Slot where
  | src
  | dst
deriving DecidableEq, Repr

/-- What a push puts on the stack. -/
inductive PushValue where
  | reg (r : Reg16)
  | flags
  | ip
deriving DecidableEq, Repr

/-- What a sub-step is made of: at most one byte on the bus, and work that takes no sub-step of its own
(40_instruction_cycle.md R141 to R145, R151). -/
inductive Act where
  /-- Read and check the register byte of layout RR (R152, 30_encoding.md R112). -/
  | fetchRR (w : Width)
  /-- Read and check the register byte of layout R. -/
  | fetchR (w : Width)
  | fetchAddrLo
  | fetchAddrHi
  | fetchImm8
  | fetchImmLo
  | fetchImmHi
  | fetchVec
  | fetchPort
  /-- `ea <- BX` (R150). -/
  | eaFromBX
  /-- `port <- DX` (47_io.md R300). -/
  | portFromDX
  /-- `srcv <- Reg(b)`, or `Reg(r)` in layout R. -/
  | srcFromReg (w : Width)
  /-- `srcv <- imm`. -/
  | srcFromImm
  /-- `dstv <- Reg(a)`, layout RR. -/
  | dstFromRegA (w : Width)
  /-- `dstv <- Reg(r)`, layout R. -/
  | dstFromReg (w : Width)
  /-- `ReadMem(ea)` of one byte. -/
  | readMem8 (d : Slot)
  | readMemLo
  | readMemHi (d : Slot)
  /-- `StackRead(k)` (44_stack.md R241). -/
  | stackLo (k : Nat)
  | stackHi (k : Nat) (d : Slot)
  /-- `IORead(port, 1)` (20_memory.md R76). -/
  | readPort8
  | readPortLo
  | readPortHi
  /-- `SetReg(a, res)`, layout RR. -/
  | setRegA (w : Width)
  /-- `SetReg(r, res)`, layout R. -/
  | setReg (w : Width)
  /-- `WriteMem(ea, res)` of one byte. -/
  | writeMem8
  | writeMemLo
  | writeMemHi
  /-- `Push16(v)` (44_stack.md R240). -/
  | pushLo (v : PushValue)
  | pushHi (v : PushValue)
  /-- `SP <- SP + 2; r16[r] <- v` (44_stack.md R243). -/
  | popReg (r : Reg16)
  /-- `SP <- SP + 2; LoadFLAGS16(v)` (44_stack.md R245). -/
  | popFlags
  /-- `SP <- SP + 2; IP <- v` (45_control.md R271). -/
  | returnNear
  /-- `SP <- SP + 4; IP <- ipv; LoadFLAGS16(flv)` (46_system.md R281). -/
  | returnTrap
  /-- `IP <- target` (45_control.md R270). -/
  | jump
  /-- `if taken: IP <- target` (45_control.md R260, R261). -/
  | jumpIfTaken
  /-- `IF <- v` (46_system.md R282, R283; 60_exceptions.md R331). -/
  | setIF (v : Bool)
  /-- `AL <- res` or `AX <- res` (47_io.md R301). -/
  | setAcc (w : Width)
  /-- `IOWrite(port, 1, res)` (20_memory.md R77). -/
  | writePort8
  | writePortLo
  | writePortHi
  /-- `Acknowledge()` of a hardware trap entry (60_exceptions.md R347). -/
  | acknowledge
  /-- `IP <- MemRead(4 * vec, 2)` (60_exceptions.md R331). -/
  | vectorLo
  | vectorHi
deriving DecidableEq, Repr

/-- The action reads a byte of the instruction (`FetchByte()`). -/
def Act.isFetch : Act → Bool
  | .fetchRR _ | .fetchR _ | .fetchAddrLo | .fetchAddrHi | .fetchImm8 | .fetchImmLo | .fetchImmHi | .fetchVec | .fetchPort =>
    true
  | _ => false

/-- Change the metadata. -/
def State.withMd (s : State) (f : Metadata → Metadata) : State := { s with md := f s.md }

/-- The low byte that an earlier sub-step read; it is there in every state a run reaches. -/
def Metadata.lowByte (m : Metadata) : Byte := m.lo.getD 0

/-- The register byte read. -/
def Metadata.regByte (m : Metadata) : Byte := m.rb.getD 0

/-- The result to commit. -/
def Metadata.result (m : Metadata) : Word := m.res.getD 0

/-- The effective address, as an address. -/
def Metadata.address (m : Metadata) : Nat := (m.ea.getD 0).toNat

/-- The port, as an address. -/
def Metadata.portNumber (m : Metadata) : Nat := (m.port.getD 0).toNat

/-- Fill `srcv` or `dstv`; the partial low byte is used up. -/
def fillSlot (d : Slot) (v : Word) (m : Metadata) : Metadata :=
  match d with
  | .src => { m with srcv := some v, lo := none }
  | .dst => { m with dstv := some v, lo := none }

/-- The value a push puts on the stack, read when it is pushed. -/
def State.pushValue (s : State) (v : PushValue) : Word :=
  match v with
  | .reg r => s.reg16 r
  | .flags => flags16 s.flags
  | .ip => s.ip

/-- Where the next word is pushed: `(SP - 2) mod 2^16` (44_stack.md R240). -/
def State.pushAddress (s : State) : Word := s.sp - 2

/-- Where the k-th word of the stack stands: `(SP + 2k) mod 2^16` (44_stack.md R241). -/
def State.stackAddress (s : State) (k : Nat) : Word := s.sp + BitVec.ofNat 16 (2 * k)

/-- The address of the trap vector's entry: `4 * vec` (60_exceptions.md R330). -/
def State.vectorAddress (s : State) : Nat := 4 * (s.md.vec.getD 0).toNat

/-- The core's acknowledge (60_exceptions.md R347): of a hardware entry only, whose vector is not yet known. With no line
selected, which R347 rules out, it does nothing (log 25). -/
def acknowledgeInterrupt (s : State) : State :=
  match s.md.vec with
  | some _ => s
  | none =>
    match s.pic.selected with
    | some i =>
      { s with pic := s.pic.acknowledge i, md := { s.md with irq := some (BitVec.ofNat 3 i), vec := some (s.pic.vector i) } }
    | none => s

/-- One action. -/
def Act.run (key : Option Byte) (act : Act) (s : State) : Flow :=
  match act with
  | .fetchRR w =>
    fetchByte s fun b s =>
      let s := s.withMd fun m => { m with rb := some b }
      if rrLegal w b then .go s else .stop (raiseIllegal s)
  | .fetchR w =>
    fetchByte s fun b s =>
      let s := s.withMd fun m => { m with rb := some b }
      if rLegal w b then .go s else .stop (raiseIllegal s)
  | .fetchAddrLo => fetchByte s fun b s => .go (s.withMd fun m => { m with lo := some b })
  | .fetchAddrHi => fetchByte s fun b s => .go (s.withMd fun m => { m with ea := some (concat b m.lowByte), lo := none })
  | .fetchImm8 => fetchByte s fun b s => .go (s.withMd fun m => { m with imm := some (zext b) })
  | .fetchImmLo => fetchByte s fun b s => .go (s.withMd fun m => { m with lo := some b })
  | .fetchImmHi => fetchByte s fun b s => .go (s.withMd fun m => { m with imm := some (concat b m.lowByte), lo := none })
  | .fetchVec => fetchByte s fun b s => .go (s.withMd fun m => { m with vec := some b })
  | .fetchPort => fetchByte s fun b s => .go (s.withMd fun m => { m with port := some (zext b) })
  | .eaFromBX => .go (s.withMd fun m => { m with ea := some s.bx })
  | .portFromDX => .go (s.withMd fun m => { m with port := some s.dx })
  | .srcFromReg w => .go (s.withMd fun m => { m with srcv := some (s.reg w (rbB m.regByte)) })
  | .srcFromImm => .go (s.withMd fun m => { m with srcv := m.imm })
  | .dstFromRegA w => .go (s.withMd fun m => { m with dstv := some (s.reg w (rbA m.regByte)) })
  | .dstFromReg w => .go (s.withMd fun m => { m with dstv := some (s.reg w (rbB m.regByte)) })
  | .readMem8 d => busRead .memory s.md.address none s fun b s => .go (s.withMd (fillSlot d (zext b)))
  | .readMemLo =>
    (claimMemory2 s.md.address s).andThen fun s =>
      busRead .memory s.md.address none s fun b s => .go (s.withMd fun m => { m with lo := some b })
  | .readMemHi d =>
    busRead .memory (s.md.address + 1) none s fun b s => .go (s.withMd fun m => fillSlot d (concat b m.lowByte) m)
  | .stackLo k =>
    (claimMemory2 (s.stackAddress k).toNat s).andThen fun s =>
      busRead .memory (s.stackAddress k).toNat none s fun b s => .go (s.withMd fun m => { m with lo := some b })
  | .stackHi k d =>
    busRead .memory ((s.stackAddress k).toNat + 1) none s fun b s => .go (s.withMd fun m => fillSlot d (concat b m.lowByte) m)
  | .readPort8 => busRead .io s.md.portNumber key s fun b s => .go (s.withMd fun m => { m with srcv := some (zext b) })
  | .readPortLo =>
    (claimPort2 s.md.portNumber s).andThen fun s =>
      busRead .io s.md.portNumber key s fun b s => .go (s.withMd fun m => { m with lo := some b })
  | .readPortHi =>
    busRead .io (s.md.portNumber + 1) key s fun b s => .go (s.withMd fun m => fillSlot .src (concat b m.lowByte) m)
  | .setRegA w => .go (s.setReg w (rbA s.md.regByte) s.md.result)
  | .setReg w => .go (s.setReg w (rbB s.md.regByte) s.md.result)
  | .writeMem8 => busWrite .memory s.md.address (low s.md.result) s
  | .writeMemLo =>
    (claimMemory2 s.md.address s).andThen fun s => busWrite .memory s.md.address (low s.md.result) s
  | .writeMemHi => busWrite .memory (s.md.address + 1) (high s.md.result) s
  | .pushLo v =>
    (claimMemory2 s.pushAddress.toNat s).andThen fun s =>
      busWrite .memory s.pushAddress.toNat (low (s.pushValue v)) s
  | .pushHi v =>
    (busWrite .memory (s.pushAddress.toNat + 1) (high (s.pushValue v)) s).andThen fun s =>
      .go { s with sp := s.pushAddress }
  | .popReg r =>
    let s : State := { s with sp := s.sp + 2 }
    .go (s.setReg16 r (s.md.srcv.getD 0))
  | .popFlags => .go { s with sp := s.sp + 2, flags := loadFlags16 (s.md.srcv.getD 0) }
  | .returnNear => .go { s with sp := s.sp + 2, ip := s.md.srcv.getD 0 }
  | .returnTrap => .go { s with sp := s.sp + 4, ip := s.md.srcv.getD 0, flags := loadFlags16 (s.md.dstv.getD 0) }
  | .jump => .go { s with ip := s.md.imm.getD 0 }
  | .jumpIfTaken => .go (if s.md.taken = some true then { s with ip := s.md.imm.getD 0 } else s)
  | .setIF v => .go { s with flags := { s.flags with IF := v } }
  | .setAcc w => .go (s.setReg w 0 s.md.result)
  | .writePort8 => busWrite .io s.md.portNumber (low s.md.result) s
  | .writePortLo =>
    (claimPort2 s.md.portNumber s).andThen fun s => busWrite .io s.md.portNumber (low s.md.result) s
  | .writePortHi => busWrite .io (s.md.portNumber + 1) (high s.md.result) s
  | .acknowledge => .go (acknowledgeInterrupt s)
  | .vectorLo =>
    (claimMemory2 s.vectorAddress s).andThen fun s =>
      busRead .memory s.vectorAddress none s fun b s => .go (s.withMd fun m => { m with lo := some b })
  | .vectorHi =>
    busRead .memory (s.vectorAddress + 1) none s fun b s => .go { s with ip := concat b s.md.lowByte }

/-- The actions of one sub-step, in order. -/
def runActs (key : Option Byte) : List Act → State → Flow
  | [], s => .go s
  | act :: rest, s => (act.run key s).andThen (runActs key rest)

/-- One more sub-step of the phase is done. -/
def State.bumpSub (s : State) : State := s.withMd fun m => { m with sub := m.sub + 1 }

/-- Sub-steps one after the other, with no other agent between them, and then `k`. A fault ends them; a parked sub-step
leaves the state as it was before it, waiting (60_exceptions.md R400, 70_reset_and_hazards.md R446). -/
def runSubSteps : List (List Act) → State → (State → State) → State
  | [], s, k => k s
  | acts :: rest, s, k =>
    match runActs none acts s with
    | .go t => runSubSteps rest t.bumpSub k
    | .stop t => t
    | .park => { s with waitingForInput := true }

/-- Enter a phase: its sub-steps are counted from 0. -/
def State.enter (p : Phase) (s : State) : State := { s with phase := p, md := { s.md with sub := 0 } }

/-- `phase <- fetching`: the instruction is over, and its temporaries with it (log 12). -/
def State.toFetching (s : State) : State := { s with phase := .fetching, md := { } }

/-! ## Trap entry and return -/

/-- The six sub-steps of `TrapEntry(vec)` (60_exceptions.md R331): acknowledge a hardware entry, push FLAGS16, clear IF, push
IP, load IP from the vector table. -/
def trapSubSteps : List (List Act) :=
  [[.acknowledge, .pushLo .flags], [.pushHi .flags, .setIF false], [.pushLo .ip], [.pushHi .ip], [.vectorLo], [.vectorHi]]

/-- `TrapEntry` as a whole, from one of the phases `interrupt`, `int6` and `int7`: the exception of INT n and of a hardware
interrupt. It ends in `fetching` at the handler, or in the fault of a push or of the vector read (R323). -/
def trapEntry (s : State) : State := runSubSteps trapSubSteps s State.toFetching

/-- The phase in which vector `n` of INT n is entered (R332). -/
def trapPhase (n : Byte) : Phase := if n = 6 then .int6 else if n = 7 then .int7 else .interrupt

/-- The sub-steps that IRET reads in: the return address at the stack top, and the FLAGS16 above it (46_system.md R281). -/
def trapReturnReads : List (List Act) := [[.stackLo 0], [.stackHi 0 .src], [.stackLo 1], [.stackHi 1 .dst]]

/-- The commit of IRET, which undoes a trap entry: SP, IP and the five flags (46_system.md R281). -/
def trapReturnCommit : List (List Act) := [[.returnTrap]]

end Sys2Proof.Machine
end

