-- ==== Sys2Proof/Machine/Operands.lean ====
section
/-! DEFINITION. The schedule of every opcode (40_instruction_cycle.md R141 to R153): which sub-steps its `fetching-operands`
phase has, what `executing` computes, and which sub-steps its `writeback` phase has. Each list entry is one sub-step; its
first action with a bus access is the byte it moves. -/

namespace Sys2Proof.Machine

/-- Work that takes no sub-step of its own, done at the end of the last sub-step listed. -/
def thenActs (subs : List (List Act)) (acts : List Act) : List (List Act) :=
  match subs with
  | [] => []
  | [last] => [last ++ acts]
  | first :: rest => first :: thenActs rest acts

/-- Work that takes no sub-step of its own, done at the start of the first sub-step listed. -/
def beforeActs (acts : List Act) (subs : List (List Act)) : List (List Act) :=
  match subs with
  | [] => []
  | first :: rest => (acts ++ first) :: rest

/-- The sub-steps that fetch one field of the instruction, one byte each (R143, R151 `FetchAddr`, `FetchImm`). -/
def fetchField : Field → List (List Act)
  | .rr w => [[.fetchRR w]]
  | .r w => [[.fetchR w]]
  | .addr => [[.fetchAddrLo], [.fetchAddrHi]]
  | .imm8 => [[.fetchImm8]]
  | .imm16 => [[.fetchImmLo], [.fetchImmHi]]
  | .vec => [[.fetchVec]]
  | .port => [[.fetchPort]]

/-- The sub-steps that fetch every instruction byte after byte 0, in address order (R143). -/
def fetches (oc : Opcode) : List (List Act) := (layout oc).flatMap fetchField

/-- `ReadMem(ea)` (R151): one sub-step a byte. -/
def readMem (w : Width) (d : Slot) : List (List Act) :=
  match w with
  | .w8 => [[.readMem8 d]]
  | .w16 => [[.readMemLo], [.readMemHi d]]

/-- `WriteMem(ea, res)` (R151): one sub-step a byte. -/
def writeMem : Width → List (List Act)
  | .w8 => [[.writeMem8]]
  | .w16 => [[.writeMemLo], [.writeMemHi]]

/-- `IORead(port, n)` (20_memory.md R76). -/
def readPort : Width → List (List Act)
  | .w8 => [[.readPort8]]
  | .w16 => [[.readPortLo], [.readPortHi]]

/-- `IOWrite(port, n, res)` (20_memory.md R77). -/
def writePort : Width → List (List Act)
  | .w8 => [[.writePort8]]
  | .w16 => [[.writePortLo], [.writePortHi]]

/-- `StackRead(0)` into `srcv` (44_stack.md R241). -/
def readStackTop : List (List Act) := [[.stackLo 0], [.stackHi 0 .src]]

/-- `Push16(v)` (44_stack.md R240). -/
def push16 (v : PushValue) : List (List Act) := [[.pushLo v], [.pushHi v]]

/-- MOV does not read its destination; every other operation of format B does (R152 `RMW`). -/
def readsDst : BinOp → Bool
  | .mov => false
  | _ => true

/-- The destination read of format B, when the operation has one. -/
def ifRmw (o : BinOp) (acts : List Act) : List Act := if readsDst o then acts else []

/-- The destination read from memory of format B, when the operation has one. -/
def ifRmwMem (o : BinOp) (w : Width) : List (List Act) := if readsDst o then readMem w .dst else []

/-- The `fetching-operands` sub-steps of format B (R152): instruction bytes, then the source, then the destination. -/
def binReads (o : BinOp) (f : Form) (w : Width) : List (List Act) :=
  let bytes := fetches (.bin o f w)
  match f with
  | .regReg => thenActs bytes (.srcFromReg w :: ifRmw o [.dstFromRegA w])
  | .regDir => thenActs (bytes ++ readMem w .src) (ifRmw o [.dstFromReg w])
  | .regInd => thenActs (thenActs bytes [.eaFromBX] ++ readMem w .src) (ifRmw o [.dstFromReg w])
  | .regImm => thenActs bytes (.srcFromImm :: ifRmw o [.dstFromReg w])
  | .dirReg => thenActs bytes [.srcFromReg w] ++ ifRmwMem o w
  | .indReg => thenActs bytes [.eaFromBX, .srcFromReg w] ++ ifRmwMem o w
  | .dirImm => thenActs bytes [.srcFromImm] ++ ifRmwMem o w
  | .indImm => thenActs (beforeActs [.eaFromBX] bytes) [.srcFromImm] ++ ifRmwMem o w

/-- The `fetching-operands` sub-steps of format U (R153). -/
def unReads (u : UnOp) (f : UForm) (w : Width) : List (List Act) :=
  let bytes := fetches (.un u f w)
  match f with
  | .reg => thenActs bytes [.dstFromReg w]
  | .dir => bytes ++ readMem w .dst
  | .ind => beforeActs [.eaFromBX] (readMem w .dst)

/-- The `fetching-operands` sub-steps of an opcode; none when the phase is not entered (R140, R142). -/
def reads (oc : Opcode) : List (List Act) :=
  match oc with
  | .bin o f w => binReads o f w
  | .un u f w => unReads u f w
  | .push _ => []
  | .pop _ => readStackTop
  | .pushf => []
  | .popf => readStackTop
  | .jmp => fetches .jmp
  | .jcc cond => fetches (.jcc cond)
  | .call => fetches .call
  | .ret => readStackTop
  | .int => fetches .int
  | .iret => trapReturnReads
  | .cli => []
  | .sti => []
  | .inp false w => fetches (.inp false w) ++ readPort w
  | .inp true w => beforeActs [.portFromDX] (readPort w)
  | .out toDX w => fetches (.out toDX w)
  | .nop => []
  | .hlt => []

/-- What `executing` computes, with no bus access (R144): the result, the ALU flags, whether a jump is taken. -/
def compute (oc : Opcode) (s : State) : State :=
  match oc with
  | .bin o _ w =>
    let r := binCompute o w (s.md.dstv.getD 0) (s.md.srcv.getD 0) s.flags
    { s with flags := r.2, md := { s.md with res := some r.1 } }
  | .un u _ w =>
    let r := unCompute u w (s.md.dstv.getD 0) s.flags
    { s with flags := r.2, md := { s.md with res := some r.1 } }
  | .jmp => s.withMd fun m => { m with taken := some true }
  | .jcc cond => s.withMd fun m => { m with taken := some (condHolds cond s.flags) }
  | .inp _ _ => s.withMd fun m => { m with res := m.srcv }
  | .out false w => s.withMd fun m => { m with res := some (s.reg w 0) }
  | .out true w => s.withMd fun m => { m with port := some s.dx, res := some (s.reg w 0) }
  | .push _ => s
  | .pop _ => s
  | .pushf => s
  | .popf => s
  | .call => s
  | .ret => s
  | .int => s
  | .iret => s
  | .cli => s
  | .sti => s
  | .nop => s
  | .hlt => s

/-- The `writeback` sub-steps of format B (R152): CMP commits nothing. -/
def binWrites (o : BinOp) (f : Form) (w : Width) : List (List Act) :=
  match o with
  | .cmp => [[]]
  | _ =>
    match f with
    | .regReg => [[.setRegA w]]
    | .regDir => [[.setReg w]]
    | .regInd => [[.setReg w]]
    | .regImm => [[.setReg w]]
    | .dirReg => writeMem w
    | .indReg => writeMem w
    | .dirImm => writeMem w
    | .indImm => writeMem w

/-- The `writeback` sub-steps of an opcode: one a byte written on the bus, one if it writes none (R145). HLT has no
`writeback` phase (46_system.md R285). -/
def writes (oc : Opcode) : List (List Act) :=
  match oc with
  | .bin o f w => binWrites o f w
  | .un _ .reg w => [[.setReg w]]
  | .un _ .dir w => writeMem w
  | .un _ .ind w => writeMem w
  | .push r => push16 (.reg r)
  | .pop r => [[.popReg r]]
  | .pushf => push16 .flags
  | .popf => [[.popFlags]]
  | .jmp => [[.jumpIfTaken]]
  | .jcc _ => [[.jumpIfTaken]]
  | .call => thenActs (push16 .ip) [.jump]
  | .ret => [[.returnNear]]
  | .int => [[]]
  | .iret => trapReturnCommit
  | .cli => [[.setIF false]]
  | .sti => [[.setIF true]]
  | .inp _ w => [[.setAcc w]]
  | .out _ w => writePort w
  | .nop => [[]]
  | .hlt => []

end Sys2Proof.Machine
end

