-- ==== Sys2Proof/Machine/Perform.lean ====
section
/-! DEFINITION. One instruction from its first byte to the choice of the next phase (40_instruction_cycle.md R140 to R149),
for an opcode and operand values already decoded. It runs the same sub-steps as the cycle-by-cycle core of
Machine/Cycle.lean, less the instruction bytes, which `step` has read. -/

namespace Sys2Proof.Machine

/-- The metadata that the instruction bytes fill (10_state.md R33), field by field (40_instruction_cycle.md R152, R153). -/
def prefetchField (x : Operands) (m : Metadata) : Field → Metadata
  | .rr _ => { m with rb := some (rrByte x.a x.b) }
  | .r _ => { m with rb := some (rByte x.b) }
  | .addr => { m with ea := some x.addr }
  | .imm8 => { m with imm := some x.imm }
  | .imm16 => { m with imm := some x.imm }
  | .vec => { m with vec := some (low x.imm) }
  | .port => { m with port := some x.imm }

/-- The phase after `fetching`: `fetching-operands` when a read is left to do (R140, R142). -/
def afterFetching (oc : Opcode) : Phase := if (reads oc).isEmpty then .executing else .fetchingOperands

/-- The state with every byte of the instruction read: IP is past it (10_state.md R24), the temporaries hold its fields. -/
def prefetched (oc : Opcode) (x : Operands) (s : State) : State :=
  { s with
    ip := s.ip + BitVec.ofNat 16 (opcodeLength oc)
    phase := afterFetching oc
    md := (layout oc).foldl (prefetchField x) { start := some s.ip, op := some (opcodeByte oc) } }

/-- The `fetching-operands` sub-steps without the actions that read instruction bytes. -/
def dataReads (oc : Opcode) : List (List Act) := (reads oc).map fun acts => acts.filter fun act => !act.isFetch

/-- `executing` (R144): the computation, then the next phase. -/
def executeStep (oc : Opcode) (s : State) : State :=
  (compute oc s).enter (if oc = .hlt then .halting else .writeback)

/-- `halting` (R149): the core stops, and the run with it (70_reset_and_hazards.md R457). -/
def haltStep (s : State) : State := { s with phase := .stopped, outcome := .halted, status := .stopped }

/-- `EndOfInstruction()` (R148): INT goes to its trap entry, a hardware request to the phase `interrupt`, and otherwise the
next instruction is fetched. -/
def endOfInstruction (oc : Opcode) (s : State) : State :=
  if oc = .int then s.enter (trapPhase (s.md.vec.getD 0))
  else if interruptRequested s then s.enter .interrupt
  else s.toFetching

/-- The end of the instruction (R148). INT's trap entry belongs to it (46_system.md R280); a hardware interrupt's does not,
so that the state may be left in the phase `interrupt` (R331). -/
def closeInstruction (oc : Opcode) (s : State) : State :=
  if oc = .int then trapEntry (endOfInstruction oc s) else endOfInstruction oc s

/-- `executing` and what follows it: `halting` for HLT, and otherwise `writeback` with the end of the instruction. -/
def commitInstruction (oc : Opcode) (s : State) : State :=
  if oc = .hlt then haltStep (executeStep oc s)
  else runSubSteps (writes oc) (executeStep oc s) (closeInstruction oc)

/-- The rest of the instruction, from a state with its bytes read. -/
def finishInstruction (oc : Opcode) (s : State) : State :=
  runSubSteps (dataReads oc) s fun t => commitInstruction oc (t.enter .executing)

/-- One instruction. Operand values that fit no encoding spell no instruction (30_encoding.md R112, log 18). -/
def perform (oc : Opcode) (x : Operands) (s : State) : Host.Outcome State Fault Refusal :=
  if x.fit oc then .next (finishInstruction oc (prefetched oc x s))
  else .next (raiseIllegal (prefetched oc x s))

end Sys2Proof.Machine
end

