-- ==== Sys2Proof/Machine/Arithmetic.lean ====
section
/-! DEFINITION. The meanings of ADD, ADC, SUB, SBB, CMP, NEG, INC, DEC, one definition per opcode-table row (42_arithmetic.md R190 to R197). Each is one
instruction performed by `perform`: the operand reads, the computation and the commits that Operands.lean lists for its
opcode, through the shared operations of Ops.lean, Devices.lean and Flags.lean. -/

namespace Sys2Proof.Machine

/-- ADD reg, reg (42_arithmetic.md R190). -/
def execAddRegReg (w : Width) (a b : RegNum) (s : State) : Host.Outcome State Fault Refusal :=
  perform (.bin .add .regReg w) { a := a, b := b } s

/-- ADD reg, [addr16] (42_arithmetic.md R190). -/
def execAddRegDir (w : Width) (r : RegNum) (addr : Word) (s : State) : Host.Outcome State Fault Refusal :=
  perform (.bin .add .regDir w) { b := r, addr := addr } s

/-- ADD reg, [BX] (42_arithmetic.md R190). -/
def execAddRegInd (w : Width) (r : RegNum) (s : State) : Host.Outcome State Fault Refusal :=
  perform (.bin .add .regInd w) { b := r } s

/-- ADD reg, imm (42_arithmetic.md R190). -/
def execAddRegImm (w : Width) (r : RegNum) (imm : Word) (s : State) : Host.Outcome State Fault Refusal :=
  perform (.bin .add .regImm w) { b := r, imm := imm } s

/-- ADD [addr16], reg (42_arithmetic.md R190). -/
def execAddDirReg (w : Width) (addr : Word) (r : RegNum) (s : State) : Host.Outcome State Fault Refusal :=
  perform (.bin .add .dirReg w) { b := r, addr := addr } s

/-- ADD [BX], reg (42_arithmetic.md R190). -/
def execAddIndReg (w : Width) (r : RegNum) (s : State) : Host.Outcome State Fault Refusal :=
  perform (.bin .add .indReg w) { b := r } s

/-- ADD [addr16], imm (42_arithmetic.md R190). -/
def execAddDirImm (w : Width) (addr imm : Word) (s : State) : Host.Outcome State Fault Refusal :=
  perform (.bin .add .dirImm w) { addr := addr, imm := imm } s

/-- ADD [BX], imm (42_arithmetic.md R190). -/
def execAddIndImm (w : Width) (imm : Word) (s : State) : Host.Outcome State Fault Refusal :=
  perform (.bin .add .indImm w) { imm := imm } s

/-- ADC reg, reg (42_arithmetic.md R191). -/
def execAdcRegReg (w : Width) (a b : RegNum) (s : State) : Host.Outcome State Fault Refusal :=
  perform (.bin .adc .regReg w) { a := a, b := b } s

/-- ADC reg, [addr16] (42_arithmetic.md R191). -/
def execAdcRegDir (w : Width) (r : RegNum) (addr : Word) (s : State) : Host.Outcome State Fault Refusal :=
  perform (.bin .adc .regDir w) { b := r, addr := addr } s

/-- ADC reg, [BX] (42_arithmetic.md R191). -/
def execAdcRegInd (w : Width) (r : RegNum) (s : State) : Host.Outcome State Fault Refusal :=
  perform (.bin .adc .regInd w) { b := r } s

/-- ADC reg, imm (42_arithmetic.md R191). -/
def execAdcRegImm (w : Width) (r : RegNum) (imm : Word) (s : State) : Host.Outcome State Fault Refusal :=
  perform (.bin .adc .regImm w) { b := r, imm := imm } s

/-- ADC [addr16], reg (42_arithmetic.md R191). -/
def execAdcDirReg (w : Width) (addr : Word) (r : RegNum) (s : State) : Host.Outcome State Fault Refusal :=
  perform (.bin .adc .dirReg w) { b := r, addr := addr } s

/-- ADC [BX], reg (42_arithmetic.md R191). -/
def execAdcIndReg (w : Width) (r : RegNum) (s : State) : Host.Outcome State Fault Refusal :=
  perform (.bin .adc .indReg w) { b := r } s

/-- ADC [addr16], imm (42_arithmetic.md R191). -/
def execAdcDirImm (w : Width) (addr imm : Word) (s : State) : Host.Outcome State Fault Refusal :=
  perform (.bin .adc .dirImm w) { addr := addr, imm := imm } s

/-- ADC [BX], imm (42_arithmetic.md R191). -/
def execAdcIndImm (w : Width) (imm : Word) (s : State) : Host.Outcome State Fault Refusal :=
  perform (.bin .adc .indImm w) { imm := imm } s

/-- SUB reg, reg (42_arithmetic.md R192). -/
def execSubRegReg (w : Width) (a b : RegNum) (s : State) : Host.Outcome State Fault Refusal :=
  perform (.bin .sub .regReg w) { a := a, b := b } s

/-- SUB reg, [addr16] (42_arithmetic.md R192). -/
def execSubRegDir (w : Width) (r : RegNum) (addr : Word) (s : State) : Host.Outcome State Fault Refusal :=
  perform (.bin .sub .regDir w) { b := r, addr := addr } s

/-- SUB reg, [BX] (42_arithmetic.md R192). -/
def execSubRegInd (w : Width) (r : RegNum) (s : State) : Host.Outcome State Fault Refusal :=
  perform (.bin .sub .regInd w) { b := r } s

/-- SUB reg, imm (42_arithmetic.md R192). -/
def execSubRegImm (w : Width) (r : RegNum) (imm : Word) (s : State) : Host.Outcome State Fault Refusal :=
  perform (.bin .sub .regImm w) { b := r, imm := imm } s

/-- SUB [addr16], reg (42_arithmetic.md R192). -/
def execSubDirReg (w : Width) (addr : Word) (r : RegNum) (s : State) : Host.Outcome State Fault Refusal :=
  perform (.bin .sub .dirReg w) { b := r, addr := addr } s

/-- SUB [BX], reg (42_arithmetic.md R192). -/
def execSubIndReg (w : Width) (r : RegNum) (s : State) : Host.Outcome State Fault Refusal :=
  perform (.bin .sub .indReg w) { b := r } s

/-- SUB [addr16], imm (42_arithmetic.md R192). -/
def execSubDirImm (w : Width) (addr imm : Word) (s : State) : Host.Outcome State Fault Refusal :=
  perform (.bin .sub .dirImm w) { addr := addr, imm := imm } s

/-- SUB [BX], imm (42_arithmetic.md R192). -/
def execSubIndImm (w : Width) (imm : Word) (s : State) : Host.Outcome State Fault Refusal :=
  perform (.bin .sub .indImm w) { imm := imm } s

/-- SBB reg, reg (42_arithmetic.md R193). -/
def execSbbRegReg (w : Width) (a b : RegNum) (s : State) : Host.Outcome State Fault Refusal :=
  perform (.bin .sbb .regReg w) { a := a, b := b } s

/-- SBB reg, [addr16] (42_arithmetic.md R193). -/
def execSbbRegDir (w : Width) (r : RegNum) (addr : Word) (s : State) : Host.Outcome State Fault Refusal :=
  perform (.bin .sbb .regDir w) { b := r, addr := addr } s

/-- SBB reg, [BX] (42_arithmetic.md R193). -/
def execSbbRegInd (w : Width) (r : RegNum) (s : State) : Host.Outcome State Fault Refusal :=
  perform (.bin .sbb .regInd w) { b := r } s

/-- SBB reg, imm (42_arithmetic.md R193). -/
def execSbbRegImm (w : Width) (r : RegNum) (imm : Word) (s : State) : Host.Outcome State Fault Refusal :=
  perform (.bin .sbb .regImm w) { b := r, imm := imm } s

/-- SBB [addr16], reg (42_arithmetic.md R193). -/
def execSbbDirReg (w : Width) (addr : Word) (r : RegNum) (s : State) : Host.Outcome State Fault Refusal :=
  perform (.bin .sbb .dirReg w) { b := r, addr := addr } s

/-- SBB [BX], reg (42_arithmetic.md R193). -/
def execSbbIndReg (w : Width) (r : RegNum) (s : State) : Host.Outcome State Fault Refusal :=
  perform (.bin .sbb .indReg w) { b := r } s

/-- SBB [addr16], imm (42_arithmetic.md R193). -/
def execSbbDirImm (w : Width) (addr imm : Word) (s : State) : Host.Outcome State Fault Refusal :=
  perform (.bin .sbb .dirImm w) { addr := addr, imm := imm } s

/-- SBB [BX], imm (42_arithmetic.md R193). -/
def execSbbIndImm (w : Width) (imm : Word) (s : State) : Host.Outcome State Fault Refusal :=
  perform (.bin .sbb .indImm w) { imm := imm } s

/-- CMP reg, reg (42_arithmetic.md R194). -/
def execCmpRegReg (w : Width) (a b : RegNum) (s : State) : Host.Outcome State Fault Refusal :=
  perform (.bin .cmp .regReg w) { a := a, b := b } s

/-- CMP reg, [addr16] (42_arithmetic.md R194). -/
def execCmpRegDir (w : Width) (r : RegNum) (addr : Word) (s : State) : Host.Outcome State Fault Refusal :=
  perform (.bin .cmp .regDir w) { b := r, addr := addr } s

/-- CMP reg, [BX] (42_arithmetic.md R194). -/
def execCmpRegInd (w : Width) (r : RegNum) (s : State) : Host.Outcome State Fault Refusal :=
  perform (.bin .cmp .regInd w) { b := r } s

/-- CMP reg, imm (42_arithmetic.md R194). -/
def execCmpRegImm (w : Width) (r : RegNum) (imm : Word) (s : State) : Host.Outcome State Fault Refusal :=
  perform (.bin .cmp .regImm w) { b := r, imm := imm } s

/-- CMP [addr16], reg (42_arithmetic.md R194). -/
def execCmpDirReg (w : Width) (addr : Word) (r : RegNum) (s : State) : Host.Outcome State Fault Refusal :=
  perform (.bin .cmp .dirReg w) { b := r, addr := addr } s

/-- CMP [BX], reg (42_arithmetic.md R194). -/
def execCmpIndReg (w : Width) (r : RegNum) (s : State) : Host.Outcome State Fault Refusal :=
  perform (.bin .cmp .indReg w) { b := r } s

/-- CMP [addr16], imm (42_arithmetic.md R194). -/
def execCmpDirImm (w : Width) (addr imm : Word) (s : State) : Host.Outcome State Fault Refusal :=
  perform (.bin .cmp .dirImm w) { addr := addr, imm := imm } s

/-- CMP [BX], imm (42_arithmetic.md R194). -/
def execCmpIndImm (w : Width) (imm : Word) (s : State) : Host.Outcome State Fault Refusal :=
  perform (.bin .cmp .indImm w) { imm := imm } s

/-- NEG reg (42_arithmetic.md R195). -/
def execNegReg (w : Width) (r : RegNum) (s : State) : Host.Outcome State Fault Refusal :=
  perform (.un .neg .reg w) { b := r } s

/-- NEG [addr16] (42_arithmetic.md R195). -/
def execNegDir (w : Width) (addr : Word) (s : State) : Host.Outcome State Fault Refusal :=
  perform (.un .neg .dir w) { addr := addr } s

/-- NEG [BX] (42_arithmetic.md R195). -/
def execNegInd (w : Width) (s : State) : Host.Outcome State Fault Refusal :=
  perform (.un .neg .ind w) { } s

/-- INC reg (42_arithmetic.md R196). -/
def execIncReg (w : Width) (r : RegNum) (s : State) : Host.Outcome State Fault Refusal :=
  perform (.un .inc .reg w) { b := r } s

/-- INC [addr16] (42_arithmetic.md R196). -/
def execIncDir (w : Width) (addr : Word) (s : State) : Host.Outcome State Fault Refusal :=
  perform (.un .inc .dir w) { addr := addr } s

/-- INC [BX] (42_arithmetic.md R196). -/
def execIncInd (w : Width) (s : State) : Host.Outcome State Fault Refusal :=
  perform (.un .inc .ind w) { } s

/-- DEC reg (42_arithmetic.md R197). -/
def execDecReg (w : Width) (r : RegNum) (s : State) : Host.Outcome State Fault Refusal :=
  perform (.un .dec .reg w) { b := r } s

/-- DEC [addr16] (42_arithmetic.md R197). -/
def execDecDir (w : Width) (addr : Word) (s : State) : Host.Outcome State Fault Refusal :=
  perform (.un .dec .dir w) { addr := addr } s

/-- DEC [BX] (42_arithmetic.md R197). -/
def execDecInd (w : Width) (s : State) : Host.Outcome State Fault Refusal :=
  perform (.un .dec .ind w) { } s

end Sys2Proof.Machine
end

