-- ==== Sys2Proof/Machine/Control.lean ====
section
/-! DEFINITION. The meanings of JMP, the conditional jumps, CALL, RET (45_control.md R260 to R271). Each is one
instruction performed by `perform`: the operand reads, the computation and the commits that Operands.lean lists for its
opcode, through the shared operations of Ops.lean, Devices.lean and Flags.lean. -/

namespace Sys2Proof.Machine

/-- JMP target16 (45_control.md R260). -/
def execJmp (target : Word) (s : State) : Host.Outcome State Fault Refusal :=
  perform (.jmp) { imm := target } s

/-- JZ target16 (45_control.md R262). -/
def execJz (target : Word) (s : State) : Host.Outcome State Fault Refusal :=
  perform (.jcc .z) { imm := target } s

/-- JNZ target16 (45_control.md R263). -/
def execJnz (target : Word) (s : State) : Host.Outcome State Fault Refusal :=
  perform (.jcc .nz) { imm := target } s

/-- JC target16 (45_control.md R264). -/
def execJc (target : Word) (s : State) : Host.Outcome State Fault Refusal :=
  perform (.jcc .c) { imm := target } s

/-- JNC target16 (45_control.md R265). -/
def execJnc (target : Word) (s : State) : Host.Outcome State Fault Refusal :=
  perform (.jcc .nc) { imm := target } s

/-- JS target16 (45_control.md R266). -/
def execJs (target : Word) (s : State) : Host.Outcome State Fault Refusal :=
  perform (.jcc .s) { imm := target } s

/-- JNS target16 (45_control.md R267). -/
def execJns (target : Word) (s : State) : Host.Outcome State Fault Refusal :=
  perform (.jcc .ns) { imm := target } s

/-- JO target16 (45_control.md R268). -/
def execJo (target : Word) (s : State) : Host.Outcome State Fault Refusal :=
  perform (.jcc .o) { imm := target } s

/-- JNO target16 (45_control.md R269). -/
def execJno (target : Word) (s : State) : Host.Outcome State Fault Refusal :=
  perform (.jcc .no) { imm := target } s

/-- CALL target16 (45_control.md R270). -/
def execCall (target : Word) (s : State) : Host.Outcome State Fault Refusal :=
  perform (.call) { imm := target } s

/-- RET (45_control.md R271). -/
def execRet (s : State) : Host.Outcome State Fault Refusal :=
  perform (.ret) { } s

end Sys2Proof.Machine
end

