-- ==== Sys2Proof/Machine/InputOutput.lean ====
section
/-! DEFINITION. The meanings of IN and OUT (47_io.md R300 to R302). Each is one
instruction performed by `perform`: the operand reads, the computation and the commits that Operands.lean lists for its
opcode, through the shared operations of Ops.lean, Devices.lean and Flags.lean. -/

namespace Sys2Proof.Machine

/-- IN AL, p8 (47_io.md R301). -/
def execInAlPort (p : Byte) (s : State) : Host.Outcome State Fault Refusal :=
  perform (.inp false .w8) { imm := p.setWidth 16 } s

/-- IN AX, p8 (47_io.md R301). -/
def execInAxPort (p : Byte) (s : State) : Host.Outcome State Fault Refusal :=
  perform (.inp false .w16) { imm := p.setWidth 16 } s

/-- IN AL, DX (47_io.md R301). -/
def execInAlDx (s : State) : Host.Outcome State Fault Refusal :=
  perform (.inp true .w8) { } s

/-- IN AX, DX (47_io.md R301). -/
def execInAxDx (s : State) : Host.Outcome State Fault Refusal :=
  perform (.inp true .w16) { } s

/-- OUT p8, AL (47_io.md R302). -/
def execOutPortAl (p : Byte) (s : State) : Host.Outcome State Fault Refusal :=
  perform (.out false .w8) { imm := p.setWidth 16 } s

/-- OUT p8, AX (47_io.md R302). -/
def execOutPortAx (p : Byte) (s : State) : Host.Outcome State Fault Refusal :=
  perform (.out false .w16) { imm := p.setWidth 16 } s

/-- OUT DX, AL (47_io.md R302). -/
def execOutDxAl (s : State) : Host.Outcome State Fault Refusal :=
  perform (.out true .w8) { } s

/-- OUT DX, AX (47_io.md R302). -/
def execOutDxAx (s : State) : Host.Outcome State Fault Refusal :=
  perform (.out true .w16) { } s

end Sys2Proof.Machine
end

