-- ==== Sys2Proof/Machine/Logic.lean ====
section
/-! DEFINITION. The meanings of AND, OR, XOR, NOT, one definition per opcode-table row (43_logic.md R220 to R223). Each is one
instruction performed by `perform`: the operand reads, the computation and the commits that Operands.lean lists for its
opcode, through the shared operations of Ops.lean, Devices.lean and Flags.lean. -/

namespace Sys2Proof.Machine

/-- AND reg, reg (43_logic.md R220). -/
def execAndRegReg (w : Width) (a b : RegNum) (s : State) : Host.Outcome State Fault Refusal :=
  perform (.bin .and .regReg w) { a := a, b := b } s

/-- AND reg, [addr16] (43_logic.md R220). -/
def execAndRegDir (w : Width) (r : RegNum) (addr : Word) (s : State) : Host.Outcome State Fault Refusal :=
  perform (.bin .and .regDir w) { b := r, addr := addr } s

/-- AND reg, [BX] (43_logic.md R220). -/
def execAndRegInd (w : Width) (r : RegNum) (s : State) : Host.Outcome State Fault Refusal :=
  perform (.bin .and .regInd w) { b := r } s

/-- AND reg, imm (43_logic.md R220). -/
def execAndRegImm (w : Width) (r : RegNum) (imm : Word) (s : State) : Host.Outcome State Fault Refusal :=
  perform (.bin .and .regImm w) { b := r, imm := imm } s

/-- AND [addr16], reg (43_logic.md R220). -/
def execAndDirReg (w : Width) (addr : Word) (r : RegNum) (s : State) : Host.Outcome State Fault Refusal :=
  perform (.bin .and .dirReg w) { b := r, addr := addr } s

/-- AND [BX], reg (43_logic.md R220). -/
def execAndIndReg (w : Width) (r : RegNum) (s : State) : Host.Outcome State Fault Refusal :=
  perform (.bin .and .indReg w) { b := r } s

/-- AND [addr16], imm (43_logic.md R220). -/
def execAndDirImm (w : Width) (addr imm : Word) (s : State) : Host.Outcome State Fault Refusal :=
  perform (.bin .and .dirImm w) { addr := addr, imm := imm } s

/-- AND [BX], imm (43_logic.md R220). -/
def execAndIndImm (w : Width) (imm : Word) (s : State) : Host.Outcome State Fault Refusal :=
  perform (.bin .and .indImm w) { imm := imm } s

/-- OR reg, reg (43_logic.md R221). -/
def execOrRegReg (w : Width) (a b : RegNum) (s : State) : Host.Outcome State Fault Refusal :=
  perform (.bin .or .regReg w) { a := a, b := b } s

/-- OR reg, [addr16] (43_logic.md R221). -/
def execOrRegDir (w : Width) (r : RegNum) (addr : Word) (s : State) : Host.Outcome State Fault Refusal :=
  perform (.bin .or .regDir w) { b := r, addr := addr } s

/-- OR reg, [BX] (43_logic.md R221). -/
def execOrRegInd (w : Width) (r : RegNum) (s : State) : Host.Outcome State Fault Refusal :=
  perform (.bin .or .regInd w) { b := r } s

/-- OR reg, imm (43_logic.md R221). -/
def execOrRegImm (w : Width) (r : RegNum) (imm : Word) (s : State) : Host.Outcome State Fault Refusal :=
  perform (.bin .or .regImm w) { b := r, imm := imm } s

/-- OR [addr16], reg (43_logic.md R221). -/
def execOrDirReg (w : Width) (addr : Word) (r : RegNum) (s : State) : Host.Outcome State Fault Refusal :=
  perform (.bin .or .dirReg w) { b := r, addr := addr } s

/-- OR [BX], reg (43_logic.md R221). -/
def execOrIndReg (w : Width) (r : RegNum) (s : State) : Host.Outcome State Fault Refusal :=
  perform (.bin .or .indReg w) { b := r } s

/-- OR [addr16], imm (43_logic.md R221). -/
def execOrDirImm (w : Width) (addr imm : Word) (s : State) : Host.Outcome State Fault Refusal :=
  perform (.bin .or .dirImm w) { addr := addr, imm := imm } s

/-- OR [BX], imm (43_logic.md R221). -/
def execOrIndImm (w : Width) (imm : Word) (s : State) : Host.Outcome State Fault Refusal :=
  perform (.bin .or .indImm w) { imm := imm } s

/-- XOR reg, reg (43_logic.md R222). -/
def execXorRegReg (w : Width) (a b : RegNum) (s : State) : Host.Outcome State Fault Refusal :=
  perform (.bin .xor .regReg w) { a := a, b := b } s

/-- XOR reg, [addr16] (43_logic.md R222). -/
def execXorRegDir (w : Width) (r : RegNum) (addr : Word) (s : State) : Host.Outcome State Fault Refusal :=
  perform (.bin .xor .regDir w) { b := r, addr := addr } s

/-- XOR reg, [BX] (43_logic.md R222). -/
def execXorRegInd (w : Width) (r : RegNum) (s : State) : Host.Outcome State Fault Refusal :=
  perform (.bin .xor .regInd w) { b := r } s

/-- XOR reg, imm (43_logic.md R222). -/
def execXorRegImm (w : Width) (r : RegNum) (imm : Word) (s : State) : Host.Outcome State Fault Refusal :=
  perform (.bin .xor .regImm w) { b := r, imm := imm } s

/-- XOR [addr16], reg (43_logic.md R222). -/
def execXorDirReg (w : Width) (addr : Word) (r : RegNum) (s : State) : Host.Outcome State Fault Refusal :=
  perform (.bin .xor .dirReg w) { b := r, addr := addr } s

/-- XOR [BX], reg (43_logic.md R222). -/
def execXorIndReg (w : Width) (r : RegNum) (s : State) : Host.Outcome State Fault Refusal :=
  perform (.bin .xor .indReg w) { b := r } s

/-- XOR [addr16], imm (43_logic.md R222). -/
def execXorDirImm (w : Width) (addr imm : Word) (s : State) : Host.Outcome State Fault Refusal :=
  perform (.bin .xor .dirImm w) { addr := addr, imm := imm } s

/-- XOR [BX], imm (43_logic.md R222). -/
def execXorIndImm (w : Width) (imm : Word) (s : State) : Host.Outcome State Fault Refusal :=
  perform (.bin .xor .indImm w) { imm := imm } s

/-- NOT reg (43_logic.md R223). -/
def execNotReg (w : Width) (r : RegNum) (s : State) : Host.Outcome State Fault Refusal :=
  perform (.un .not .reg w) { b := r } s

/-- NOT [addr16] (43_logic.md R223). -/
def execNotDir (w : Width) (addr : Word) (s : State) : Host.Outcome State Fault Refusal :=
  perform (.un .not .dir w) { addr := addr } s

/-- NOT [BX] (43_logic.md R223). -/
def execNotInd (w : Width) (s : State) : Host.Outcome State Fault Refusal :=
  perform (.un .not .ind w) { } s

end Sys2Proof.Machine
end

