-- ==== Sys2Proof/Machine/Stack.lean ====
section
/-! DEFINITION. The meanings of PUSH, POP, PUSHF, POPF (44_stack.md R242 to R245). Each is one
instruction performed by `perform`: the operand reads, the computation and the commits that Operands.lean lists for its
opcode, through the shared operations of Ops.lean, Devices.lean and Flags.lean. -/

namespace Sys2Proof.Machine

/-- PUSH r16 (44_stack.md R242). -/
def execPush (r : Reg16) (s : State) : Host.Outcome State Fault Refusal :=
  perform (.push r) { } s

/-- POP r16 (44_stack.md R243). -/
def execPop (r : Reg16) (s : State) : Host.Outcome State Fault Refusal :=
  perform (.pop r) { } s

/-- PUSHF (44_stack.md R244). -/
def execPushf (s : State) : Host.Outcome State Fault Refusal :=
  perform (.pushf) { } s

/-- POPF (44_stack.md R245). -/
def execPopf (s : State) : Host.Outcome State Fault Refusal :=
  perform (.popf) { } s

end Sys2Proof.Machine
end

