-- ==== Sys2Proof/Machine/System.lean ====
section
/-! DEFINITION. The meanings of INT, IRET, CLI, STI, NOP, HLT (46_system.md R280 to R285). Each is one
instruction performed by `perform`: the operand reads, the computation and the commits that Operands.lean lists for its
opcode, through the shared operations of Ops.lean, Devices.lean and Flags.lean. -/

namespace Sys2Proof.Machine

/-- INT n (46_system.md R280). -/
def execInt (n : Byte) (s : State) : Host.Outcome State Fault Refusal :=
  perform (.int) { imm := n.setWidth 16 } s

/-- IRET (46_system.md R281). -/
def execIret (s : State) : Host.Outcome State Fault Refusal :=
  perform (.iret) { } s

/-- CLI (46_system.md R282). -/
def execCli (s : State) : Host.Outcome State Fault Refusal :=
  perform (.cli) { } s

/-- STI (46_system.md R283). -/
def execSti (s : State) : Host.Outcome State Fault Refusal :=
  perform (.sti) { } s

/-- NOP (46_system.md R284). -/
def execNop (s : State) : Host.Outcome State Fault Refusal :=
  perform (.nop) { } s

/-- HLT (46_system.md R285). -/
def execHlt (s : State) : Host.Outcome State Fault Refusal :=
  perform (.hlt) { } s

end Sys2Proof.Machine
end

