-- ==== Sys2Proof/Machine/Transfer.lean ====
section
/-! DEFINITION. The meanings of MOV, one definition per opcode-table row (41_transfer.md R180). Each is one
instruction performed by `perform`: the operand reads, the computation and the commits that Operands.lean lists for its
opcode, through the shared operations of Ops.lean, Devices.lean and Flags.lean. -/

namespace Sys2Proof.Machine

/-- MOV reg, reg (41_transfer.md R180). -/
def execMovRegReg (w : Width) (a b : RegNum) (s : State) : Host.Outcome State Fault Refusal :=
  perform (.bin .mov .regReg w) { a := a, b := b } s

/-- MOV reg, [addr16] (41_transfer.md R180). -/
def execMovRegDir (w : Width) (r : RegNum) (addr : Word) (s : State) : Host.Outcome State Fault Refusal :=
  perform (.bin .mov .regDir w) { b := r, addr := addr } s

/-- MOV reg, [BX] (41_transfer.md R180). -/
def execMovRegInd (w : Width) (r : RegNum) (s : State) : Host.Outcome State Fault Refusal :=
  perform (.bin .mov .regInd w) { b := r } s

/-- MOV reg, imm (41_transfer.md R180). -/
def execMovRegImm (w : Width) (r : RegNum) (imm : Word) (s : State) : Host.Outcome State Fault Refusal :=
  perform (.bin .mov .regImm w) { b := r, imm := imm } s

/-- MOV [addr16], reg (41_transfer.md R180). -/
def execMovDirReg (w : Width) (addr : Word) (r : RegNum) (s : State) : Host.Outcome State Fault Refusal :=
  perform (.bin .mov .dirReg w) { b := r, addr := addr } s

/-- MOV [BX], reg (41_transfer.md R180). -/
def execMovIndReg (w : Width) (r : RegNum) (s : State) : Host.Outcome State Fault Refusal :=
  perform (.bin .mov .indReg w) { b := r } s

/-- MOV [addr16], imm (41_transfer.md R180). -/
def execMovDirImm (w : Width) (addr imm : Word) (s : State) : Host.Outcome State Fault Refusal :=
  perform (.bin .mov .dirImm w) { addr := addr, imm := imm } s

/-- MOV [BX], imm (41_transfer.md R180). -/
def execMovIndImm (w : Width) (imm : Word) (s : State) : Host.Outcome State Fault Refusal :=
  perform (.bin .mov .indImm w) { imm := imm } s

end Sys2Proof.Machine
end

