-- ==== Sys2Proof/Machine/Dispatch.lean ====
section
/-! DEFINITION. The meaning of each instruction: one arm per constructor of `Instr`, each a direct call of its meaning. -/

namespace Sys2Proof.Machine

def exec (i : Instr) (s : State) : Host.Outcome State Fault Refusal :=
  match i with
  | .movRegReg w a b => Sys2Proof.Machine.execMovRegReg w a b s
  | .movRegDir w r addr => Sys2Proof.Machine.execMovRegDir w r addr s
  | .movRegInd w r => Sys2Proof.Machine.execMovRegInd w r s
  | .movRegImm w r imm => Sys2Proof.Machine.execMovRegImm w r imm s
  | .movDirReg w addr r => Sys2Proof.Machine.execMovDirReg w addr r s
  | .movIndReg w r => Sys2Proof.Machine.execMovIndReg w r s
  | .movDirImm w addr imm => Sys2Proof.Machine.execMovDirImm w addr imm s
  | .movIndImm w imm => Sys2Proof.Machine.execMovIndImm w imm s
  | .addRegReg w a b => Sys2Proof.Machine.execAddRegReg w a b s
  | .addRegDir w r addr => Sys2Proof.Machine.execAddRegDir w r addr s
  | .addRegInd w r => Sys2Proof.Machine.execAddRegInd w r s
  | .addRegImm w r imm => Sys2Proof.Machine.execAddRegImm w r imm s
  | .addDirReg w addr r => Sys2Proof.Machine.execAddDirReg w addr r s
  | .addIndReg w r => Sys2Proof.Machine.execAddIndReg w r s
  | .addDirImm w addr imm => Sys2Proof.Machine.execAddDirImm w addr imm s
  | .addIndImm w imm => Sys2Proof.Machine.execAddIndImm w imm s
  | .adcRegReg w a b => Sys2Proof.Machine.execAdcRegReg w a b s
  | .adcRegDir w r addr => Sys2Proof.Machine.execAdcRegDir w r addr s
  | .adcRegInd w r => Sys2Proof.Machine.execAdcRegInd w r s
  | .adcRegImm w r imm => Sys2Proof.Machine.execAdcRegImm w r imm s
  | .adcDirReg w addr r => Sys2Proof.Machine.execAdcDirReg w addr r s
  | .adcIndReg w r => Sys2Proof.Machine.execAdcIndReg w r s
  | .adcDirImm w addr imm => Sys2Proof.Machine.execAdcDirImm w addr imm s
  | .adcIndImm w imm => Sys2Proof.Machine.execAdcIndImm w imm s
  | .subRegReg w a b => Sys2Proof.Machine.execSubRegReg w a b s
  | .subRegDir w r addr => Sys2Proof.Machine.execSubRegDir w r addr s
  | .subRegInd w r => Sys2Proof.Machine.execSubRegInd w r s
  | .subRegImm w r imm => Sys2Proof.Machine.execSubRegImm w r imm s
  | .subDirReg w addr r => Sys2Proof.Machine.execSubDirReg w addr r s
  | .subIndReg w r => Sys2Proof.Machine.execSubIndReg w r s
  | .subDirImm w addr imm => Sys2Proof.Machine.execSubDirImm w addr imm s
  | .subIndImm w imm => Sys2Proof.Machine.execSubIndImm w imm s
  | .sbbRegReg w a b => Sys2Proof.Machine.execSbbRegReg w a b s
  | .sbbRegDir w r addr => Sys2Proof.Machine.execSbbRegDir w r addr s
  | .sbbRegInd w r => Sys2Proof.Machine.execSbbRegInd w r s
  | .sbbRegImm w r imm => Sys2Proof.Machine.execSbbRegImm w r imm s
  | .sbbDirReg w addr r => Sys2Proof.Machine.execSbbDirReg w addr r s
  | .sbbIndReg w r => Sys2Proof.Machine.execSbbIndReg w r s
  | .sbbDirImm w addr imm => Sys2Proof.Machine.execSbbDirImm w addr imm s
  | .sbbIndImm w imm => Sys2Proof.Machine.execSbbIndImm w imm s
  | .cmpRegReg w a b => Sys2Proof.Machine.execCmpRegReg w a b s
  | .cmpRegDir w r addr => Sys2Proof.Machine.execCmpRegDir w r addr s
  | .cmpRegInd w r => Sys2Proof.Machine.execCmpRegInd w r s
  | .cmpRegImm w r imm => Sys2Proof.Machine.execCmpRegImm w r imm s
  | .cmpDirReg w addr r => Sys2Proof.Machine.execCmpDirReg w addr r s
  | .cmpIndReg w r => Sys2Proof.Machine.execCmpIndReg w r s
  | .cmpDirImm w addr imm => Sys2Proof.Machine.execCmpDirImm w addr imm s
  | .cmpIndImm w imm => Sys2Proof.Machine.execCmpIndImm w imm s
  | .andRegReg w a b => Sys2Proof.Machine.execAndRegReg w a b s
  | .andRegDir w r addr => Sys2Proof.Machine.execAndRegDir w r addr s
  | .andRegInd w r => Sys2Proof.Machine.execAndRegInd w r s
  | .andRegImm w r imm => Sys2Proof.Machine.execAndRegImm w r imm s
  | .andDirReg w addr r => Sys2Proof.Machine.execAndDirReg w addr r s
  | .andIndReg w r => Sys2Proof.Machine.execAndIndReg w r s
  | .andDirImm w addr imm => Sys2Proof.Machine.execAndDirImm w addr imm s
  | .andIndImm w imm => Sys2Proof.Machine.execAndIndImm w imm s
  | .orRegReg w a b => Sys2Proof.Machine.execOrRegReg w a b s
  | .orRegDir w r addr => Sys2Proof.Machine.execOrRegDir w r addr s
  | .orRegInd w r => Sys2Proof.Machine.execOrRegInd w r s
  | .orRegImm w r imm => Sys2Proof.Machine.execOrRegImm w r imm s
  | .orDirReg w addr r => Sys2Proof.Machine.execOrDirReg w addr r s
  | .orIndReg w r => Sys2Proof.Machine.execOrIndReg w r s
  | .orDirImm w addr imm => Sys2Proof.Machine.execOrDirImm w addr imm s
  | .orIndImm w imm => Sys2Proof.Machine.execOrIndImm w imm s
  | .xorRegReg w a b => Sys2Proof.Machine.execXorRegReg w a b s
  | .xorRegDir w r addr => Sys2Proof.Machine.execXorRegDir w r addr s
  | .xorRegInd w r => Sys2Proof.Machine.execXorRegInd w r s
  | .xorRegImm w r imm => Sys2Proof.Machine.execXorRegImm w r imm s
  | .xorDirReg w addr r => Sys2Proof.Machine.execXorDirReg w addr r s
  | .xorIndReg w r => Sys2Proof.Machine.execXorIndReg w r s
  | .xorDirImm w addr imm => Sys2Proof.Machine.execXorDirImm w addr imm s
  | .xorIndImm w imm => Sys2Proof.Machine.execXorIndImm w imm s
  | .negReg w r => Sys2Proof.Machine.execNegReg w r s
  | .negDir w addr => Sys2Proof.Machine.execNegDir w addr s
  | .negInd w => Sys2Proof.Machine.execNegInd w s
  | .incReg w r => Sys2Proof.Machine.execIncReg w r s
  | .incDir w addr => Sys2Proof.Machine.execIncDir w addr s
  | .incInd w => Sys2Proof.Machine.execIncInd w s
  | .decReg w r => Sys2Proof.Machine.execDecReg w r s
  | .decDir w addr => Sys2Proof.Machine.execDecDir w addr s
  | .decInd w => Sys2Proof.Machine.execDecInd w s
  | .notReg w r => Sys2Proof.Machine.execNotReg w r s
  | .notDir w addr => Sys2Proof.Machine.execNotDir w addr s
  | .notInd w => Sys2Proof.Machine.execNotInd w s
  | .push r => Sys2Proof.Machine.execPush r s
  | .pop r => Sys2Proof.Machine.execPop r s
  | .pushf => Sys2Proof.Machine.execPushf s
  | .popf => Sys2Proof.Machine.execPopf s
  | .jmp target => Sys2Proof.Machine.execJmp target s
  | .jz target => Sys2Proof.Machine.execJz target s
  | .jnz target => Sys2Proof.Machine.execJnz target s
  | .jc target => Sys2Proof.Machine.execJc target s
  | .jnc target => Sys2Proof.Machine.execJnc target s
  | .js target => Sys2Proof.Machine.execJs target s
  | .jns target => Sys2Proof.Machine.execJns target s
  | .jo target => Sys2Proof.Machine.execJo target s
  | .jno target => Sys2Proof.Machine.execJno target s
  | .call target => Sys2Proof.Machine.execCall target s
  | .ret => Sys2Proof.Machine.execRet s
  | .int n => Sys2Proof.Machine.execInt n s
  | .iret => Sys2Proof.Machine.execIret s
  | .cli => Sys2Proof.Machine.execCli s
  | .sti => Sys2Proof.Machine.execSti s
  | .inAlPort p => Sys2Proof.Machine.execInAlPort p s
  | .inAxPort p => Sys2Proof.Machine.execInAxPort p s
  | .inAlDx => Sys2Proof.Machine.execInAlDx s
  | .inAxDx => Sys2Proof.Machine.execInAxDx s
  | .outPortAl p => Sys2Proof.Machine.execOutPortAl p s
  | .outPortAx p => Sys2Proof.Machine.execOutPortAx p s
  | .outDxAl => Sys2Proof.Machine.execOutDxAl s
  | .outDxAx => Sys2Proof.Machine.execOutDxAx s
  | .nop => Sys2Proof.Machine.execNop s
  | .hlt => Sys2Proof.Machine.execHlt s

end Sys2Proof.Machine
end

