-- ==== Sys2Proof/Machine/Cycle.lean ====
section
/-! DEFINITION. The core cycle by cycle: one sub-step of the current phase (00_scope.md R10, R12; 40_instruction_cycle.md R140
to R149), which finds in the phase and the metadata what the instruction in progress does next, and the run control that the
host has over it (70_reset_and_hazards.md R443, R445, R457). Other agents step between two of these sub-steps (R431). -/

namespace Sys2Proof.Machine

/-- The sub-step of `fetching` (R142): byte 0 is read, and visible in the error record from then on (R146), IP advances, and
the byte is decoded. -/
def fetchStep (s : State) : State :=
  let s := { s with md := { start := some s.ip } }
  let f := busRead .memory s.ip.toNat none s fun op s =>
    advanceIP (s.withMd fun m => { m with op := some op }) fun s =>
      match decodeOpcode op with
      | none => .stop (raiseIllegal s)
      | some oc => .go (s.enter (afterFetching oc))
  match f with
  | .go t => t
  | .stop t => t
  | .park => s

/-- Sub-step number `sub` of a phase that is a list of sub-steps; `k` follows the last one. -/
def phaseStep (key : Option Byte) (subs : List (List Act)) (k : State → State) (s : State) :
    Host.Outcome State Fault Refusal :=
  match subs[s.md.sub]? with
  | none => .fault .cycleStateInconsistent
  | some acts =>
    match runActs key acts s with
    | .go t => .next (if s.md.sub + 1 = subs.length then k t.bumpSub else t.bumpSub)
    | .stop t => .next t
    | .park => .next { s with waitingForInput := true }

/-- The opcode of the instruction in progress. -/
def currentOpcode (s : State) : Option Opcode := s.md.op.bind decodeOpcode

/-- The sub-steps of the phase the core is in, when the phase is a list of sub-steps (R140 to R145, R331). -/
def State.phaseSubSteps (s : State) : Option (List (List Act)) :=
  match s.phase with
  | .fetchingOperands => (currentOpcode s).map reads
  | .writeback => (currentOpcode s).map writes
  | .interrupt => some trapSubSteps
  | .int6 => some trapSubSteps
  | .int7 => some trapSubSteps
  | _ => none

/-- A stopped core has no step (R149). -/
def stoppedFault (s : State) : Fault := if s.outcome = .halted then .coreHalted else .coreFaulted

/-- One sub-step of the core. `key` is the character of a keyboard read that the host completes (R400). -/
def coreSubStep (key : Option Byte) (s : State) : Host.Outcome State Fault Refusal :=
  match s.phase with
  | .fetching => .next (fetchStep s)
  | .fetchingOperands =>
    match currentOpcode s with
    | some oc => phaseStep key (reads oc) (State.enter .executing) s
    | none => .fault .cycleStateInconsistent
  | .executing =>
    match currentOpcode s with
    | some oc => .next (executeStep oc s)
    | none => .fault .cycleStateInconsistent
  | .writeback =>
    match currentOpcode s with
    | some oc => phaseStep key (writes oc) (endOfInstruction oc) s
    | none => .fault .cycleStateInconsistent
  | .interrupt => phaseStep key trapSubSteps State.toFetching s
  | .int6 => phaseStep key trapSubSteps State.toFetching s
  | .int7 => phaseStep key trapSubSteps State.toFetching s
  | .halting => .next (haltStep s)
  | .stopped => .fault (stoppedFault s)

/-- The core's state and the host's wait let it step (R149, R155). -/
def State.coreReady (s : State) : Bool := s.outcome == .running && !s.waitingForInput

/-- A run in progress (R442) whose core can step. -/
def State.coreRuns (s : State) : Bool :=
  match s.status with
  | .running _ => s.coreReady
  | _ => false

/-- Why a core that is not ready has no step. -/
def notReadyFault (s : State) : Fault := if s.outcome = .running then .coreWaitsForInput else stoppedFault s

/-- What the run in progress does after a sub-step that began in phase `was` (R443, R445): in mode `cycle-change` it pauses,
in mode `end-of-instruction` it pauses when the core has entered `fetching`, and the pause flag is sampled when a phase has
ended. A run that has halted, faulted or parked is left as it is. -/
def runControl (was : Phase) (s : State) : State :=
  if s.coreReady then
    match s.status with
    | .running mode =>
      if mode = .cycleChange || (mode = .endOfInstruction && s.phase = .fetching) || (s.pauseFlag && s.phase ≠ was) then
        { s with status := .paused }
      else s
    | _ => s
  else s

/-- One sub-step of the core with the run control after it. -/
def coreStep (key : Option Byte) (s : State) : Host.Outcome State Fault Refusal :=
  match coreSubStep key s with
  | .next t => .next (runControl s.phase t)
  | .fault f => .fault f
  | .refused r => .refused r

/-- Sub-steps of the core, with no other agent between them, until it is in `fetching`, stops, parks, or its run pauses; at
most `fuel` of them. -/
def runToBoundary : Nat → State → Host.Outcome State Fault Refusal
  | 0, s => .next s
  | fuel + 1, s =>
    match coreStep none s with
    | .next t => if t.coreRuns && t.phase ≠ .fetching then runToBoundary fuel t else .next t
    | .fault f => .fault f
    | .refused r => .refused r

/-- More sub-steps than any instruction with its trap entry has (the most are 16: a 5-byte read-modify-write, R198, and six
for the trap entry, R331). -/
def maxSubSteps : Nat := 32

end Sys2Proof.Machine
end

