-- ==== Sys2Proof/Machine/Session.lean ====
section
/-! DEFINITION. The host's commands (70_reset_and_hazards.md R440 to R453) and the reset that two of them perform (R420). -/

namespace Sys2Proof.Machine

open Sys2Proof.Config

/-! ## Reset (R420, R421) -/

/-- Main memory with every byte drawn: memory draw number `n` (10_state.md R34, R422). -/
def drawnMemory (n : Nat) : Memory := { cells := [], background := .drawn n }

/-- Main memory after a reset (10_state.md R34): zeroed, drawn byte by byte, or kept. `earlier` is the content before the reset;
before the first load there is none, and `preserve` draws (R422; log 31). -/
def initMemory (policy : MemoryInitPolicy) (n : Nat) (earlier : Option Memory) : Memory :=
  match policy, earlier with
  | .zero, _ => { cells := [], background := .zero }
  | .random, _ => drawnMemory n
  | .preserve, some m => m
  | .preserve, none => drawnMemory n

/-- The content of memory that a reset can preserve: there is none before the first load (R422). -/
def earlierMemory (s : State) : Option Memory := if s.loaded.isSome then some s.mem else none

/-- How many draws a reset takes: four registers, four flags, one for memory. -/
def drawsPerReset : Nat := 9

/-- `Reset(image, devices, memoryInitPolicy)` (R420): the general registers and C, Z, S, O are drawn (log 10), the rest takes
the values of 10_state.md. `earlier` is the content of memory that `preserve` keeps. The session's loaded program and the
schedule are not part of it. -/
def resetMachine (p : LoadedProgram) (earlier : Option Memory) (s : State) : State :=
  { s with
    ax := drawWord s.draws
    bx := drawWord (s.draws + 1)
    cx := drawWord (s.draws + 2)
    dx := drawWord (s.draws + 3)
    flags :=
      { C := drawBit (s.draws + 4), Z := drawBit (s.draws + 5), S := drawBit (s.draws + 6), O := drawBit (s.draws + 7)
        IF := s.params.resetIF }
    ip := s.params.resetIP
    sp := s.params.resetSP
    phase := .fetching
    outcome := .running
    md := { }
    error := none
    mem := (initMemory p.policy (s.draws + 8) earlier).writeAll p.image
    devices := p.devices
    pic := Pic.reset
    timer := Timer.reset
    pio := Pio.reset
    handshake := Handshake.reset
    printer := Printer.reset
    screen := Screen.reset
    waitingForInput := false
    pauseFlag := false
    status := .stopped
    draws := s.draws + drawsPerReset }

/-! ## Commands -/

/-- A command that was done. -/
def accept (s : State) : State := { s with reply := some .ok }

/-- An invalid action (R452): nothing but the reply changes. -/
def reject (s : State) : State := { s with reply := some .invalidAction }

/-- The status is not `running`. -/
def State.idle (s : State) : Bool :=
  match s.status with
  | .running _ => false
  | _ => true

/-- `loadProgram` is valid (R441): not while running, a valid configuration, and no byte of the image outside memory. -/
def loadValid (p : LoadedProgram) (s : State) : Bool :=
  s.idle && p.devices.valid && p.image.all fun c => decide (c.1 < s.params.memSize)

/-- `loadProgram` (R441): the arguments are stored, and the machine reset. -/
def loadProgram (p : LoadedProgram) (s : State) : State :=
  if loadValid p s then accept (resetMachine p (earlierMemory s) { s with loaded := some p }) else reject s

/-- `run` and `step` are valid (R442, R444): a program is loaded, nothing runs, and the core can run. -/
def runValid (s : State) : Bool := s.loaded.isSome && s.idle && s.outcome == .running

/-- The start of a run (R442). -/
def startRun (mode : RunMode) (s : State) : State := { s with status := .running mode, pauseFlag := false }

/-- `stop(resetAlso)` (R446). With nothing stored to reset to, `stop(true)` is an invalid action (log 16). DESIGN CHOICE (log 34): after
a halt or a fault the status is `stopped`, so that by R446 `stop(true)` is invalid, though R457 names it beside `loadProgram`. -/
def stopRun (resetAlso : Bool) (s : State) : State :=
  let stopped : State := { s with status := .stopped, waitingForInput := false }
  if s.idle && s.status ≠ .paused then reject s
  else
    match resetAlso, s.loaded with
    | false, _ => accept stopped
    | true, some p => accept (resetMachine p (earlierMemory s) stopped)
    | true, none => reject s

/-- The snapshot of `getComputerState()` (R453). -/
def snapshot (s : State) : Snapshot :=
  { ax := s.ax, bx := s.bx, cx := s.cx, dx := s.dx, ip := s.ip, sp := s.sp, flags := s.flags, memory := s.mem, pic := s.pic
    timer := s.timer, pio := s.pio, handshake := s.handshake, printer := s.printer, screen := s.screen, phase := s.phase
    metadata := s.md, outcome := s.outcome, error := s.error }

/-- `toggleSwitch` is valid (R449). -/
def switchValid (index : Nat) (s : State) : Bool :=
  s.loaded.isSome && s.devices.pio == some .switchesAndLeds && decide (index < 8)

/-- One host command (R441 to R451, R453), valid or not (R452). `run` starts the run; its sub-steps are the core's. `step`
performs its one sub-step (R444), and `sendKeyboardChar` completes the waiting one (R447). -/
def hostStep (c : HostCommand) (s : State) : Host.Outcome State Fault Refusal :=
  match c with
  | .loadProgram image devices policy => .next (loadProgram { image := image, devices := devices, policy := policy } s)
  | .run mode => .next (if runValid s then accept (startRun mode s) else reject s)
  | .step => if runValid s then coreStep none (accept (startRun .cycleChange s)) else .next (reject s)
  | .pause => .next (if s.idle then reject s else accept { s with pauseFlag := true })
  | .stop resetAlso => .next (stopRun resetAlso s)
  | .sendKeyboardChar ch =>
    if s.waitingForInput then coreStep (some ch) (accept { s with waitingForInput := false }) else .next (reject s)
  | .pressF10 => .next (if s.loaded.isSome then accept (assertLine 0 s) else reject s)
  | .toggleSwitch index =>
    .next
      (if switchValid index s then
        accept { s with pio := { s.pio with switches := s.pio.switches ^^^ lineBit index } }
      else reject s)
  | .cleanScreen =>
    .next
      (if s.devices.keyboardAndScreen then accept { s with screen := { s.screen with output := [] } } else reject s)
  | .cleanPrinterBuffer =>
    .next (if s.devices.hasPrinter then accept { s with printer := { s.printer with paper := [] } } else reject s)
  | .getComputerState => .next { s with reply := some (.snapshot (snapshot s)) }

end Sys2Proof.Machine
end

