-- ==== Sys2Proof/Machine/Fetch.lean ====
section
/-! DEFINITION. The instruction that stands at IP, read as a whole, and the core's way from one instruction to the next when
no other agent steps in between. -/

namespace Sys2Proof.Machine

/-- The instruction bytes that the core can fetch from address `a` on, at most `n` of them: each below MEM_SIZE, and none at
FFFFh, after which IP cannot advance (40_instruction_cycle.md R146). -/
def fetchableBytes (s : State) (a : Nat) : Nat → List Byte
  | 0 => []
  | n + 1 => if a < s.params.memSize && a < 0xFFFF then s.mem.read a :: fetchableBytes s (a + 1) n else []

/-- The instruction at IP, when all its bytes can be fetched and spell one. -/
def fetchInstr (s : State) : Option Instr :=
  match decode (fetchableBytes s s.ip.toNat maxLength) with
  | .ok (i, _) => some i
  | .error _ => none

/-- An empty agenda stands for a host that keeps the core running: a session that is not running is taken to be given
`run(end-of-instruction)` (R442, R443; log 3). -/
def impliedRun (s : State) : State := if s.idle then startRun .endOfInstruction s else s

/-- The run in progress lets an instruction finish before it looks again: no single-stepping, no pause flag (R443, R445). -/
def State.wholeInstruction (s : State) : Bool :=
  s.phase == .fetching && s.status != .running .cycleChange && !s.pauseFlag

/-- What follows an instruction: the trap entry of a hardware interrupt that `endOfInstruction` has accepted (R148, R331), and
the run control. -/
def afterInstruction (s : State) : State :=
  runControl .writeback (if s.phase = .interrupt then trapEntry s else s)

/-- Store bytes from address `a` on, those that lie in memory. -/
def storeBytes (memSize a : Nat) (bytes : List Byte) (m : Memory) : Memory :=
  m.writeAll ((bytes.zipIdx.map fun p => (a + p.2, p.1)).filter fun c => decide (c.1 < memSize))

end Sys2Proof.Machine
end

