-- ==== Sys2Proof/Machine/Step.lean ====
section
/-! DEFINITION. One step of the machine: the first agent step on the agenda, or, with an empty agenda, the core to the end of
its instruction. -/

namespace Sys2Proof.Machine

/-- The core from where it is to the end of its instruction, with no other agent in between. At the start of an instruction
whose bytes can be fetched and decoded it is `exec` of that instruction and what follows it; otherwise (in the middle of an
instruction, or when fetching or decoding will fault) it is the sub-steps of the cycle. -/
def instructionStep (s : State) : Host.Outcome State Fault Refusal :=
  if s.coreReady then
    if s.wholeInstruction then
      match fetchInstr s with
      | some i =>
        match exec i s with
        | .next t => .next (afterInstruction t)
        | .fault f => .fault f
        | .refused r => .refused r
      | none => runToBoundary maxSubSteps s
    else runToBoundary maxSubSteps s
  else .fault (notReadyFault s)

/-- One step of one agent (00_scope.md R12). An agent that does not have the step is a schedule that the machine does not
have (70_reset_and_hazards.md R431, log 17). -/
def agentStep (a : AgentStep) (s : State) : Host.Outcome State Fault Refusal :=
  match a with
  | .core => if s.coreRuns then coreStep none s else .fault (.agentHasNoStep .core)
  | .instruction => instructionStep (impliedRun s)
  | .timerTick => if s.devices.pic then .next (timerTick s) else .fault (.agentHasNoStep .timerTick)
  | .printerConsume =>
    if s.devices.hasPrinter && s.printer.busy then .next (printerConsume s) else .fault (.agentHasNoStep .printerConsume)
  | .host c => hostStep c s

/-- One step of the machine (log 1, log 2). -/
def step (s : State) : Host.Outcome State Fault Refusal :=
  match s.agenda with
  | [] => instructionStep (impliedRun s)
  | a :: rest => agentStep a { s with agenda := rest }

/-- The state with an opcode-table word stored at IP, about to be fetched, as a `loadProgram` would leave it (log 15): the core
at the start of an instruction, in a session that is stopped with nothing on the agenda. -/
def State.withFetchWord (s : State) (nbits w : Nat) : State :=
  { s with
    mem := storeBytes s.params.memSize s.ip.toNat (tableBytes nbits w) s.mem
    phase := .fetching
    outcome := .running
    status := .stopped
    waitingForInput := false
    agenda := [] }

end Sys2Proof.Machine
end

