-- ==== Sys2Proof/Machine/Events.lean ====
section
/-! DEFINITION. The event stream (70_reset_and_hazards.md R454, R460): the events of a step of the machine in the order in which the
step commits what they describe, and the replaying of such a stream. Events change no machine state, so the step does not hold
them: they are a function of the state a step is taken in. What an event carries is the model's choice: payloads are out of scope
(00_scope.md R4, log 19). -/

namespace Sys2Proof.Machine

open Sys2Proof.Config

/-! ## Events -/

/-- The 16-bit registers an event names. -/
inductive RegName where
  | general (r : Reg16)
  | ip
  | sp
deriving DecidableEq, Repr

/-- One piece of a device's state with its new value (10_state.md R35), or the device configuration, which the PIO auto-enable
changes (60_exceptions.md R324). -/
inductive DeviceValue where
  | config (d : Devices)
  | imr (v : Byte)
  | irr (v : Byte)
  | isr (v : Byte)
  | intVector (i : Nat) (v : Byte)
  | cont (v : Byte)
  | comp (v : Byte)
  | la (v : Byte)
  | lb (v : Byte)
  | ca (v : Byte)
  | cb (v : Byte)
  | switches (v : Byte)
  | data (v : Byte)
  | ie (v : Bool)
  | pending (v : Byte)
  | paper (v : List Byte)
  | busy (v : Bool)
  | strobePrev (v : Bool)
  | screenOutput (v : List Byte)
  | screenLast (v : Byte)
deriving DecidableEq, Repr

/-- The host session (R440) but for the model's own fields. -/
structure Session where
  status : HostStatus
  waitingForInput : Bool
  pauseFlag : Bool
  loaded : Option LoadedProgram
deriving DecidableEq, Repr

/-- The typed events of R454. The last two are the model's (DESIGN CHOICE, log 19): R454 names no type for a change of the
metadata or of the host session, and R460 wants the state back exactly. -/
inductive Event where
  /-- Register-changed: a 16-bit register. -/
  | registerChanged (r : RegName) (v : Word)
  /-- Register-changed: the flags register. -/
  | flagsChanged (f : Flags)
  | memoryCellChanged (a : Nat) (v : Byte)
  | deviceRegisterChanged (d : DeviceValue)
  /-- A transaction that the arbiter has answered `ok`, with the byte it moved (20_memory.md R78). -/
  | busAccess (request : BusRequest) (data : Byte)
  /-- The assertion of a line, which sets its IRR bit (60_exceptions.md R340, R342). -/
  | interruptRaised (line : Nat)
  /-- Phase change, with the outcome that stands beside the phase (10_state.md R32). -/
  | phaseChanged (p : Phase) (o : CoreOutcome)
  /-- Error: the record of a fault, or none when a reset takes it away (R420). -/
  | errorChanged (e : Option ErrorRecord)
  | metadataChanged (m : Metadata)
  | sessionChanged (x : Session)
deriving DecidableEq, Repr

/-! ## Replay (R460) -/

/-- A piece of device state put into a state. -/
def putDeviceValue (d : DeviceValue) (s : State) : State :=
  match d with
  | .config d => { s with devices := d }
  | .imr v => { s with pic := { s.pic with imr := v } }
  | .irr v => { s with pic := { s.pic with irr := v } }
  | .isr v => { s with pic := { s.pic with isr := v } }
  | .intVector i v => { s with pic := s.pic.setVector i v }
  | .cont v => { s with timer := { s.timer with cont := v } }
  | .comp v => { s with timer := { s.timer with comp := v } }
  | .la v => { s with pio := { s.pio with la := v } }
  | .lb v => { s with pio := { s.pio with lb := v } }
  | .ca v => { s with pio := { s.pio with ca := v } }
  | .cb v => { s with pio := { s.pio with cb := v } }
  | .switches v => { s with pio := { s.pio with switches := v } }
  | .data v => { s with handshake := { s.handshake with data := v } }
  | .ie v => { s with handshake := { s.handshake with ie := v } }
  | .pending v => { s with printer := { s.printer with pending := v } }
  | .paper v => { s with printer := { s.printer with paper := v } }
  | .busy v => { s with printer := { s.printer with busy := v } }
  | .strobePrev v => { s with pio := { s.pio with strobePrev := v } }
  | .screenOutput v => { s with screen := { s.screen with output := v } }
  | .screenLast v => { s with screen := { s.screen with last := v } }

/-- What an event says, put into a state. A bus access tells of a transaction and changes nothing itself. -/
def applyEvent (e : Event) (s : State) : State :=
  match e with
  | .registerChanged (.general r) v => s.setReg16 r v
  | .registerChanged .ip v => { s with ip := v }
  | .registerChanged .sp v => { s with sp := v }
  | .flagsChanged f => { s with flags := f }
  | .memoryCellChanged a v => { s with mem := s.mem.write a v }
  | .deviceRegisterChanged d => putDeviceValue d s
  | .busAccess _ _ => s
  | .interruptRaised line => { s with pic := s.pic.assert line }
  | .phaseChanged p o => { s with phase := p, outcome := o }
  | .errorChanged e => { s with error := e }
  | .metadataChanged m => { s with md := m }
  | .sessionChanged x =>
    { s with status := x.status, waitingForInput := x.waitingForInput, pauseFlag := x.pauseFlag, loaded := x.loaded }

/-- Replaying a stream, first event first. -/
def replay (es : List Event) (s : State) : State := es.foldl (fun s e => applyEvent e s) s

/-! ## The changes from one committed state to the next -/

/-- An event for a value that has changed. -/
def changed {α : Type} [DecidableEq α] (e : α → Event) (before after : α) : List Event :=
  if before = after then [] else [e after]

/-- A device-register-changed event for a value that has changed. -/
def deviceChanged {α : Type} [DecidableEq α] (d : α → DeviceValue) (before after : α) : List Event :=
  changed (fun v => .deviceRegisterChanged (d v)) before after

/-- The changes of the PIC. -/
def picChanges (p q : Pic) : List Event :=
  deviceChanged .imr p.imr q.imr ++ deviceChanged .irr p.irr q.irr ++ deviceChanged .isr p.isr q.isr ++
  (List.range 8).flatMap fun i => deviceChanged (.intVector i) (p.vector i) (q.vector i)

/-- The changes of the devices: the configuration before the registers it brings (60_exceptions.md R324), the acknowledge's IRR
before its ISR (R347), the link's DATA before the printer's pending and busy (R390), the strobe pin after them (R383), the
paper before busy (R385), the screen output before the last value (R402). -/
def deviceChanges (s t : State) : List Event :=
  deviceChanged .config s.devices t.devices ++ picChanges s.pic t.pic ++
  deviceChanged .cont s.timer.cont t.timer.cont ++ deviceChanged .comp s.timer.comp t.timer.comp ++
  deviceChanged .la s.pio.la t.pio.la ++ deviceChanged .lb s.pio.lb t.pio.lb ++
  deviceChanged .ca s.pio.ca t.pio.ca ++ deviceChanged .cb s.pio.cb t.pio.cb ++
  deviceChanged .switches s.pio.switches t.pio.switches ++
  deviceChanged .data s.handshake.data t.handshake.data ++ deviceChanged .ie s.handshake.ie t.handshake.ie ++
  deviceChanged .pending s.printer.pending t.printer.pending ++ deviceChanged .paper s.printer.paper t.printer.paper ++
  deviceChanged .busy s.printer.busy t.printer.busy ++ deviceChanged .strobePrev s.pio.strobePrev t.pio.strobePrev ++
  deviceChanged .screenOutput s.screen.output t.screen.output ++ deviceChanged .screenLast s.screen.last t.screen.last

/-- The bytes of a memory of `size` bytes that have changed, by rising address. -/
def memoryChanges (size : Nat) (m n : Memory) : List Event :=
  if m = n then []
  else ((List.range size).filter fun a => m.read a != n.read a).map fun a => .memoryCellChanged a (n.read a)

/-- The changes of the registers: SP before the register or the IP that a pop loads (44_stack.md R243, 45_control.md R271), IP
before the flags that IRET loads (46_system.md R281). -/
def registerChanges (s t : State) : List Event :=
  changed (.registerChanged .sp) s.sp t.sp ++
  changed (.registerChanged (.general .ax)) s.ax t.ax ++ changed (.registerChanged (.general .bx)) s.bx t.bx ++
  changed (.registerChanged (.general .cx)) s.cx t.cx ++ changed (.registerChanged (.general .dx)) s.dx t.dx ++
  changed (.registerChanged .ip) s.ip t.ip ++ changed .flagsChanged s.flags t.flags

/-- The changes of the cycle state: the temporaries, then the error record of a fault before the phase and outcome it leaves
(60_exceptions.md R320). -/
def cycleChanges (s t : State) : List Event :=
  changed .metadataChanged s.md t.md ++ changed .errorChanged s.error t.error ++
  changed (fun x => .phaseChanged x.1 x.2) (s.phase, s.outcome) (t.phase, t.outcome)

/-- The session of a state. -/
def State.session (s : State) : Session :=
  { status := s.status, waitingForInput := s.waitingForInput, pauseFlag := s.pauseFlag, loaded := s.loaded }

/-- What a step commits between the states `s` and `t`, with the transaction it makes on the bus: the byte that the transaction
stores first, then the transaction, then what the core does with the byte; the session last (R320). -/
def changes (s t : State) (bus : List Event) : List Event :=
  deviceChanges s t ++ memoryChanges s.params.memSize s.mem t.mem ++ bus ++ registerChanges s t ++ cycleChanges s t ++
  changed .sessionChanged s.session t.session

/-- The changes along a list of states that are committed one after the other. -/
def trail : State → List State → List Event
  | _, [] => []
  | s, t :: rest => changes s t [] ++ trail t rest

/-! ## A sub-step of the core -/

/-- The transaction of an action on the bus, if it makes one (20_memory.md R66, R67, R76, R77, R78). -/
def Act.request (act : Act) (s : State) : Option BusRequest :=
  let get (space : Space) (a : Nat) : Option BusRequest := some { space := space, address := a, data := none }
  let put (space : Space) (a : Nat) (v : Byte) : Option BusRequest := some { space := space, address := a, data := some v }
  match act with
  | .fetchRR _ | .fetchR _ | .fetchAddrLo | .fetchAddrHi | .fetchImm8 | .fetchImmLo | .fetchImmHi | .fetchVec | .fetchPort =>
    get .memory s.ip.toNat
  | .readMem8 _ | .readMemLo => get .memory s.md.address
  | .readMemHi _ => get .memory (s.md.address + 1)
  | .stackLo k => get .memory (s.stackAddress k).toNat
  | .stackHi k _ => get .memory ((s.stackAddress k).toNat + 1)
  | .readPort8 | .readPortLo => get .io s.md.portNumber
  | .readPortHi => get .io (s.md.portNumber + 1)
  | .writeMem8 | .writeMemLo => put .memory s.md.address (low s.md.result)
  | .writeMemHi => put .memory (s.md.address + 1) (high s.md.result)
  | .pushLo v => put .memory s.pushAddress.toNat (low (s.pushValue v))
  | .pushHi v => put .memory (s.pushAddress.toNat + 1) (high (s.pushValue v))
  | .writePort8 | .writePortLo => put .io s.md.portNumber (low s.md.result)
  | .writePortHi => put .io (s.md.portNumber + 1) (high s.md.result)
  | .vectorLo => get .memory s.vectorAddress
  | .vectorHi => get .memory (s.vectorAddress + 1)
  | .eaFromBX | .portFromDX | .srcFromReg _ | .srcFromImm | .dstFromRegA _ | .dstFromReg _ | .setRegA _ | .setReg _ | .popReg _
  | .popFlags | .returnNear | .returnTrap | .jump | .jumpIfTaken | .setIF _ | .setAcc _ | .acknowledge =>
    none

/-- The bus-access event of a request that the arbiter answers `ok`. -/
def requestEvents (req : BusRequest) (key : Option Byte) (s : State) : List Event :=
  match busAccess req key s with
  | .ok v _ => [.busAccess req v]
  | .error _ => []
  | .wait => []

/-- The bus-access event of an action. One that a fault ends has made its transaction only if it fetches an instruction byte, whose
fault may come after the byte is read (40_instruction_cycle.md R146, 30_encoding.md R112). -/
def Act.busEvents (key : Option Byte) (act : Act) (s : State) : List Event :=
  match act.request s, act.run key s, act.isFetch with
  | none, _, _ => []
  | some _, .stop _, false => []
  | some req, _, _ => requestEvents req key s

/-- The line that an acknowledge takes is known before the PIC changes (60_exceptions.md R347: `irq <- i` comes first). -/
def Act.before (act : Act) (s : State) : State :=
  match act, s.md.vec, s.pic.selected with
  | .acknowledge, none, some i => s.withMd fun m => { m with irq := some (BitVec.ofNat 3 i) }
  | _, _, _ => s

/-- The events of an action that leads from `s` to `t`. -/
def Act.events (key : Option Byte) (act : Act) (s t : State) : List Event :=
  changes s (act.before s) [] ++ changes (act.before s) t (act.busEvents key s)

/-- The events of the actions of a sub-step, in order. -/
def actsEvents (key : Option Byte) : List Act → State → List Event
  | [], _ => []
  | act :: rest, s =>
    match act.run key s with
    | .go t => act.events key s t ++ actsEvents key rest t
    | .stop t => act.events key s t
    | .park => []

/-- The actions of the sub-step that the core does next, in a phase that is a list of sub-steps. -/
def State.nextActs (s : State) : List Act := (s.phaseSubSteps.bind fun subs => subs[s.md.sub]?).getD []

/-- The first state that `fetching` commits: `start` is known before the opcode byte is read (40_instruction_cycle.md R142). -/
def fetchStart (s : State) : State := { s with md := { start := some s.ip } }

/-- The events of one sub-step of the core, which leads from `s` to `t`: those of its actions, and then those of the choice of the
next phase. A sub-step that parks has no effect but the wait (60_exceptions.md R400). -/
def subStepEvents (key : Option Byte) (s t : State) : List Event :=
  match s.phase with
  | .fetching =>
    changes s (fetchStart s) [] ++
    changes (fetchStart s) t (requestEvents { space := .memory, address := s.ip.toNat, data := none } none s)
  | _ =>
    match runActs key s.nextActs s with
    | .go u => actsEvents key s.nextActs s ++ changes u t []
    | .stop u => actsEvents key s.nextActs s ++ changes u t []
    | .park => changes s t []

/-- The events of one sub-step of the core with the run control after it. -/
def coreStepEvents (key : Option Byte) (s : State) : List Event :=
  match coreSubStep key s with
  | .next t => subStepEvents key s t ++ changes t (runControl s.phase t) []
  | .fault _ => []
  | .refused _ => []

/-- The events of `runToBoundary`. -/
def boundaryEvents : Nat → State → List Event
  | 0, _ => []
  | fuel + 1, s =>
    match coreStep none s with
    | .next t => coreStepEvents none s ++ if t.coreRuns && t.phase ≠ .fetching then boundaryEvents fuel t else []
    | .fault _ => []
    | .refused _ => []

/-- The events of the core up to the end of its instruction: those of its sub-steps. -/
def instructionEvents (s : State) : List Event := if s.coreReady then boundaryEvents maxSubSteps s else []

/-! ## The other agents -/

/-- The event of the assertion of a line, if its IRR bit was not set (60_exceptions.md R342, R348, R349). -/
def assertEvents (i : Nat) (s : State) : List Event :=
  if (assertLine i s).pic.irr = s.pic.irr then [] else [.interruptRaised i]

/-- The events of a timer tick: CONT counts up to COMP before the line is asserted and CONT cleared (R360). -/
def timerEvents (s : State) : List Event :=
  let counted : State := { s with timer := { s.timer with cont := s.timer.cont + 1 } }
  if s.timer.cont + 1 = s.timer.comp then
    changes s counted [] ++ assertEvents 1 counted ++ changes (assertLine 1 counted) (timerTick s) []
  else changes s counted []

/-- The events of a consumption (R385, R393). -/
def printerEvents (s : State) : List Event :=
  let printed : State := { s with printer := { s.printer with paper := s.printer.paper ++ [s.printer.pending], busy := false } }
  changes s printed [] ++ if s.devices.handshake && s.handshake.ie then assertEvents 2 printed else []

/-- The states of the loading of an image, one byte after the other (R421). -/
def loadStates (s : State) : List Host.Cell → List State
  | [] => []
  | c :: rest => { s with mem := s.mem.write c.1 c.2 } :: loadStates { s with mem := s.mem.write c.1 c.2 } rest

/-- The states that a reset commits, in the order of R420; the last is the machine after it. -/
def resetStates (p : LoadedProgram) (earlier : Option Memory) (s : State) : List State :=
  let r := resetMachine p earlier s
  let registers : State := { s with ax := r.ax, bx := r.bx, cx := r.cx, dx := r.dx }
  let flagged : State := { registers with flags := r.flags }
  let pointed : State := { flagged with ip := r.ip }
  let stacked : State := { pointed with sp := r.sp }
  let phased : State := { stacked with phase := r.phase, outcome := r.outcome }
  let emptied : State := { phased with md := r.md }
  let cleared : State := { emptied with error := r.error }
  let filled : State := { cleared with mem := initMemory p.policy (s.draws + 8) earlier }
  [registers, flagged, pointed, stacked, phased, emptied, cleared, filled] ++ loadStates filled p.image ++ [r]

/-- The events of a host command (R441 to R453). -/
def hostEvents (c : HostCommand) (s : State) : List Event :=
  match c with
  | .loadProgram image devices policy =>
    let p : LoadedProgram := { image := image, devices := devices, policy := policy }
    let stored : State := { s with loaded := some p }
    if loadValid p s then trail s (stored :: resetStates p (earlierMemory s) stored) else []
  | .run mode => if runValid s then changes s (startRun mode s) [] else []
  | .step =>
    let started := accept (startRun .cycleChange s)
    if runValid s then changes s started [] ++ coreStepEvents none started else []
  | .pause => if s.idle then [] else changes s { s with pauseFlag := true } []
  | .stop resetAlso =>
    let stopped : State := { s with status := .stopped, waitingForInput := false }
    match s.idle && s.status ≠ .paused, resetAlso, s.loaded with
    | false, false, _ => changes s stopped []
    | false, true, some p => trail s (stopped :: resetStates p (earlierMemory s) stopped)
    | _, _, _ => []
  | .sendKeyboardChar ch =>
    let resumed := accept { s with waitingForInput := false }
    if s.waitingForInput then changes s resumed [] ++ coreStepEvents (some ch) resumed else []
  | .pressF10 => if s.loaded.isSome then assertEvents 0 s else []
  | .toggleSwitch index =>
    if switchValid index s then changes s { s with pio := { s.pio with switches := s.pio.switches ^^^ lineBit index } } [] else []
  | .cleanScreen => if s.devices.keyboardAndScreen then changes s { s with screen := { s.screen with output := [] } } [] else []
  | .cleanPrinterBuffer => if s.devices.hasPrinter then changes s { s with printer := { s.printer with paper := [] } } [] else []
  | .getComputerState => []

/-! ## The stream -/

/-- The events of one step of one agent. -/
def agentEvents (a : AgentStep) (s : State) : List Event :=
  match a with
  | .core => coreStepEvents none s
  | .instruction => changes s (impliedRun s) [] ++ instructionEvents (impliedRun s)
  | .timerTick => timerEvents s
  | .printerConsume => printerEvents s
  | .host c => hostEvents c s

/-- The events of the step of the machine that is taken in `s`, in commit order (R454). -/
def stepEvents (s : State) : List Event :=
  match s.agenda with
  | [] => changes s (impliedRun s) [] ++ instructionEvents (impliedRun s)
  | a :: rest => agentEvents a { s with agenda := rest }

end Sys2Proof.Machine
end

