-- ==== Sys2Proof/Safety.lean ====
section
/-! DEFINITION. The terms in which claims speak of the machine's health: the invariants that every step keeps, and what a
fault-free state is. -/

namespace Sys2Proof.Machine

open Sys2Proof.Config

/-- The memory half of the invariant: MEM_SIZE is in its range (00_scope.md R5), the cell list is in its canonical form, and no
listed cell, of memory or of the program kept for a reset, lies outside memory (20_memory.md R61, R62, R421). -/
def State.memoryOk (s : State) : Bool :=
  s.params.ok && s.mem.wf && s.mem.cells.all (fun c => decide (c.1 < s.params.memSize)) &&
  match s.loaded with
  | some p => p.image.all fun c => decide (c.1 < s.params.memSize)
  | none => true

/-- The device half of the invariant: the configuration is one that R6 allows, and only a wired printer is busy (R384). -/
def State.devicesOk (s : State) : Bool :=
  s.devices.valid && (!s.printer.busy || s.devices.hasPrinter) &&
  match s.loaded with
  | some p => p.devices.valid
  | none => true

/-- The phase and the metadata name a next sub-step. -/
def State.phaseOk (s : State) : Bool :=
  match s.phase with
  | .fetching => true
  | .executing => (currentOpcode s).isSome
  | .halting => true
  | .stopped => true
  | _ =>
    match s.phaseSubSteps with
    | some subs => decide (s.md.sub < subs.length)
    | none => false

/-- A hardware trap entry that has not acknowledged its line yet still has one to acknowledge (60_exceptions.md R347: "it
exists"). -/
def State.acknowledgeOk (s : State) : Bool :=
  !(s.phase == .interrupt && s.md.vec == none) || (s.devices.pic && s.pic.intr)

/-- An INT past its operand fetch has its vector, so that its trap entry is never taken for a hardware one (46_system.md
R280, 60_exceptions.md R331). -/
def State.vectorOk (s : State) : Bool :=
  !((s.phase == .executing || s.phase == .writeback) && currentOpcode s == some .int) || s.md.vec.isSome

/-- The cycle half of the invariant: the phase names a next sub-step, a core runs exactly while it is not in `stopped`
(40_instruction_cycle.md R149, 60_exceptions.md R320), it has an error record exactly when it is in `stopped-error`, and it waits for the
keyboard only in an operand read of a run (R155, R400). -/
def State.cycleOk (s : State) : Bool :=
  s.phaseOk && s.acknowledgeOk && s.vectorOk &&
  (s.outcome == .running) == (s.phase != .stopped) &&
  (s.outcome == .stoppedError) == s.error.isSome &&
  (!s.waitingForInput || (s.phase == .fetchingOperands && !s.idle))

/-- A state in which no fault has stopped the core. -/
def State.faultFree (s : State) : Bool := s.outcome != .stoppedError

end Sys2Proof.Machine
end

