-- ==== Sys2Proof/Certificates/Slice0/Obligations.lean ====
section
/-! DEFINITION. The statements for the provers, and the terms they are written in. The terms of `Sys2Proof.Claims` restate the
rules of spec/ on plain numbers, beside the model and not through it: a value is a `Nat`, its signed view an `Int`, a register is
named by its number, and memory is spoken of through the read of one byte. -/

namespace Sys2Proof.Claims

open Sys2Proof.Machine Sys2Proof.Config

/-! ## Widths and numbers (00_scope.md R7, R8) -/

/-- `N`, the operand width in bits. -/
def bits : Width → Nat
  | .w8 => 8
  | .w16 => 16

/-- `n = 1 + w`, the operand width in bytes. -/
def size : Width → Nat
  | .w8 => 1
  | .w16 => 2

/-- The bit `w`. -/
def wbit : Width → Nat
  | .w8 => 0
  | .w16 => 1

/-- `signed_N(v)` (R8). -/
def signed (n v : Nat) : Int := if v < 2 ^ (n - 1) then (v : Int) else (v : Int) - 2 ^ n

/-- `x` lies outside `[-2^(N-1), 2^(N-1) - 1]`. -/
def outside (n : Nat) (x : Int) : Bool := decide (x < -(2 : Int) ^ (n - 1)) || decide ((2 : Int) ^ (n - 1) ≤ x)

/-- The address `k` below or above another, modulo 2^16. -/
def wrap (x : Nat) : Nat := x % 65536

/-! ## The rules of the ALU (40_instruction_cycle.md R156 to R160) -/

/-- The flags written with a result: Z and S of the result (R156), the C and O given, IF kept (10_state.md R30). -/
def flagsOf (n res : Nat) (c o : Bool) (f : Flags) : Flags :=
  { C := c, Z := decide (res = 0), S := decide (2 ^ (n - 1) ≤ res), O := o, IF := f.IF }

/-- A rule of the ALU: from the width, the destination value, the source value and the old flags, the result and the new
flags. -/
abbrev Rule := Nat → Nat → Nat → Flags → Nat × Flags

/-- Addition with a carry in; O by the signed sum (R157, its last sentence). -/
def addRule (n a b cin : Nat) (f : Flags) : Nat × Flags :=
  let res := (a + b + cin) % 2 ^ n
  (res, flagsOf n res (decide (2 ^ n ≤ a + b + cin)) (outside n (signed n a + signed n b + cin)) f)

/-- Subtraction with a borrow in; O by the signed difference (R158, its last sentence). -/
def subRule (n a b bin : Nat) (f : Flags) : Nat × Flags :=
  let res := (((a : Int) - b - bin) % 2 ^ n).toNat
  (res, flagsOf n res (decide (a < b + bin)) (outside n (signed n a - signed n b - bin)) f)

/-- A bitwise result: C and O are 0 (R159). -/
def logicRule (n res : Nat) (f : Flags) : Nat × Flags := (res, flagsOf n res false false f)

/-! ## Registers (10_state.md R20 to R22) -/

/-- The value of register number `k` at a width, by the table of R22; `xL` is bits 7:0 and `xH` bits 15:8 of the one cell. -/
def regValue (s : State) : Width → Nat → Nat
  | .w16, 0 => s.ax.toNat
  | .w16, 1 => s.bx.toNat
  | .w16, 2 => s.cx.toNat
  | .w16, _ => s.dx.toNat
  | .w8, 0 => s.ax.toNat % 256
  | .w8, 1 => s.bx.toNat % 256
  | .w8, 2 => s.cx.toNat % 256
  | .w8, 3 => s.dx.toNat % 256
  | .w8, 4 => s.ax.toNat / 256
  | .w8, 5 => s.bx.toNat / 256
  | .w8, 6 => s.cx.toNat / 256
  | .w8, _ => s.dx.toNat / 256

/-- `v` with its low byte, or its high byte, replaced. -/
def lowByte (v : Word) (x : Nat) : Word := BitVec.ofNat 16 (v.toNat / 256 * 256 + x)

def highByte (v : Word) (x : Nat) : Word := BitVec.ofNat 16 (x * 256 + v.toNat % 256)

/-- The state with register number `k` written at a width: the other half, and every other register, is kept (R21, R22). -/
def putReg (s : State) : Width → Nat → Nat → State
  | .w16, 0, v => { s with ax := BitVec.ofNat 16 v }
  | .w16, 1, v => { s with bx := BitVec.ofNat 16 v }
  | .w16, 2, v => { s with cx := BitVec.ofNat 16 v }
  | .w16, _, v => { s with dx := BitVec.ofNat 16 v }
  | .w8, 0, v => { s with ax := lowByte s.ax v }
  | .w8, 1, v => { s with bx := lowByte s.bx v }
  | .w8, 2, v => { s with cx := lowByte s.cx v }
  | .w8, 3, v => { s with dx := lowByte s.dx v }
  | .w8, 4, v => { s with ax := highByte s.ax v }
  | .w8, 5, v => { s with bx := highByte s.bx v }
  | .w8, 6, v => { s with cx := highByte s.cx v }
  | .w8, _, v => { s with dx := highByte s.dx v }

/-- The number of a 16-bit register (R22). -/
def regNumber : Reg16 → Nat
  | .ax => 0
  | .bx => 1
  | .cx => 2
  | .dx => 3

/-! ## Memory (20_memory.md R63 to R67) -/

/-- The value at an address, little-endian (R63, R66). -/
def memValue (s : State) : Width → Nat → Nat
  | .w8, a => (s.mem.read a).toNat
  | .w16, a => (s.mem.read (a + 1)).toNat * 256 + (s.mem.read a).toNat

/-- The bytes that a value stored at an address occupies, little-endian (R63, R67). -/
def bytesAt : Width → Nat → Nat → List (Nat × Byte)
  | .w8, a, v => [(a, BitVec.ofNat 8 v)]
  | .w16, a, v => [(a, BitVec.ofNat 8 v), (a + 1, BitVec.ofNat 8 (v / 256))]

/-- Memory `m` reads as memory `m0` with the bytes `stored` put in: at every other address the byte is unchanged. -/
def Stores (m0 m : Memory) (stored : List (Nat × Byte)) : Prop :=
  ∀ a, m.read a = (stored.lookup a).getD (m0.read a)

/-- An access of a width at an address stays in memory (R62, R64). -/
def within (s : State) (w : Width) (a : Nat) : Prop := a + size w ≤ s.params.memSize

/-- The first address out of range of an access at `a` that leaves memory (60_exceptions.md R321). -/
def firstBad (s : State) (a : Nat) : Nat := if a < s.params.memSize then a + 1 else a

/-! ## How an instruction ends -/

/-- Byte 0 of the instruction, and its length in bytes (30_encoding.md R100, R113). -/
def Spells (i : Instr) (byte0 length : Nat) : Prop :=
  (encode i).head? = some (BitVec.ofNat 8 byte0) ∧ (encode i).length = length

/-- IP past the instruction (10_state.md R24). -/
def past (s : State) (length : Nat) : State := { s with ip := BitVec.ofNat 16 (wrap (s.ip.toNat + length)) }

/-- The instruction at IP completes. It leaves the state `r` in every field but memory, which reads as `s`'s memory with `stored`
put in, and the cycle state: the next phase is `fetching`, with empty metadata, or `interrupt` when a hardware request is accepted
at its end (40_instruction_cycle.md R148). -/
def Ends (i : Instr) (s r : State) (stored : List (Nat × Byte)) : Prop :=
  ∃ mem md,
    exec i s =
      .next { r with mem := mem, md := md, phase := if interruptRequested r then .interrupt else .fetching } ∧
    Stores s.mem mem stored ∧
    (interruptRequested r = false → md = { }) ∧ (interruptRequested r = true → md.vec = none ∧ md.sub = 0)

/-- `code(kind)` (60_exceptions.md R322). -/
def codeOf : FaultKind → Nat
  | .illegalInstruction => 1
  | .addressOutOfRange => 2
  | .ioMemoryNotConnected => 3
  | .representationOverflow => 4

/-- The state `r` after a fault raised in it (R320, R321): the core and the run are stopped, and the error record is written. -/
def faulted (kind : FaultKind) (info : FaultInfo) (phase : Phase) (start : Option Word) (opcode : Option Byte) (r : State) :
    State :=
  { r with
    phase := .stopped
    outcome := .stoppedError
    status := .stopped
    error := some { kind := kind, code := codeOf kind, info := info, phase := phase, start := start, opcode := opcode, ip := r.ip } }

/-- The instruction at IP faults in a phase. It leaves the state `r`, with `stored` written before the fault. -/
def Faults (i : Instr) (s : State) (kind : FaultKind) (info : FaultInfo) (phase : Phase) (r : State)
    (stored : List (Nat × Byte)) : Prop :=
  ∃ mem md,
    exec i s = .next (faulted kind info phase (some s.ip) (encode i).head? { r with mem := mem, md := md }) ∧
    Stores s.mem mem stored

/-- The fault of an access at `a` that leaves memory. -/
def OutOfRange (i : Instr) (s : State) (a : Nat) (phase : Phase) (r : State) (stored : List (Nat × Byte)) : Prop :=
  Faults i s .addressOutOfRange (.bus .memory (firstBad s a)) phase r stored

/-! ## Operands (30_encoding.md R105, 40_instruction_cycle.md R150) -/

/-- An operand: a register by number, memory at an address, an immediate. -/
inductive Place where
  | reg (k : RegNum)
  | mem (a : Word)
  | imm (v : Word)
deriving DecidableEq, Repr

/-- The operand has an encoding at the width: at 16 bits a register number is 0 to 3 (R104), at 8 bits an immediate is 8 bits
(R105). -/
def Place.legal (w : Width) : Place → Prop
  | .reg k => w = .w8 ∨ k.toNat < 4
  | .mem _ => True
  | .imm v => w = .w16 ∨ v.toNat < 256

/-- The operand lies in memory, if it is a memory operand. -/
def Place.fits (s : State) (w : Width) : Place → Prop
  | .mem a => within s w a.toNat
  | _ => True

/-- The value of an operand. -/
def Place.value (s : State) (w : Width) : Place → Nat
  | .reg k => regValue s w k.toNat
  | .mem a => memValue s w a.toNat
  | .imm v => v.toNat

/-- The state with a register operand written. -/
def Place.put (s : State) (w : Width) (v : Nat) : Place → State
  | .reg k => putReg s w k.toNat v
  | _ => s

/-- The bytes that writing a memory operand stores. -/
def Place.stored (w : Width) (v : Nat) : Place → List (Nat × Byte)
  | .mem a => bytesAt w a.toNat v
  | _ => []

/-- What writing an operand does to an instruction that ends: the register, or the bytes, hold the value; with `commits = false`
nothing is written (CMP). -/
def EndsWriting (commits : Bool) (i : Instr) (s r : State) (w : Width) (dst : Place) (v : Nat) : Prop :=
  if commits then Ends i s (dst.put r w v) (dst.stored w v) else Ends i s r []

/-- A two-operand instruction at a width: byte 0, the length, the result in the destination and the flags by `rule`, everything
else kept, and the fault of each memory operand that leaves memory, in `dstPhase` for the destination. -/
def Binary (rule : Rule) (commits : Bool) (dstPhase : Phase) (s : State) (w : Width) (i : Instr) (dst src : Place)
    (byte0 length : Nat) : Prop :=
  dst.legal w → src.legal w →
    Spells i (byte0 + wbit w) length ∧
    (dst.fits s w → src.fits s w →
      let r := rule (bits w) (dst.value s w) (src.value s w) s.flags
      EndsWriting commits i s { past s length with flags := r.2 } w dst r.1) ∧
    (∀ a, src = .mem a → ¬ within s w a.toNat → OutOfRange i s a.toNat .fetchingOperands (past s length) []) ∧
    (∀ a, dst = .mem a → ¬ within s w a.toNat → OutOfRange i s a.toNat dstPhase (past s length) [])

/-- A one-operand instruction at a width; its operand is read, so the fault of a memory operand is in `fetching-operands`. -/
def Unary (rule : Nat → Nat → Flags → Nat × Flags) (s : State) (w : Width) (i : Instr) (dst : Place) (byte0 length : Nat) : Prop :=
  dst.legal w →
    Spells i (byte0 + wbit w) length ∧
    (dst.fits s w →
      let r := rule (bits w) (dst.value s w) s.flags
      EndsWriting true i s { past s length with flags := r.2 } w dst r.1) ∧
    (∀ a, dst = .mem a → ¬ within s w a.toNat → OutOfRange i s a.toNat .fetchingOperands (past s length) [])

/-! ## Flags as a word, stack addresses, vectors -/

/-- FLAGS16 (10_state.md R29) as a number. -/
def flagWord (f : Flags) : Nat := f.C.toNat * 1 + f.Z.toNat * 64 + f.S.toNat * 128 + f.IF.toNat * 512 + f.O.toNat * 2048

/-- The flags that a word loads (R29). -/
def flagsFrom (v : Nat) : Flags :=
  { C := v.testBit 0, Z := v.testBit 6, S := v.testBit 7, IF := v.testBit 9, O := v.testBit 11 }

/-- The address `(SP - 2k) mod 2^16` of the k-th word pushed from here (44_stack.md R240). -/
def below (s : State) (k : Nat) : Nat := wrap (s.sp.toNat + 65536 - 2 * k)

/-- The address `(SP + 2k) mod 2^16` of the k-th word above the stack top (R241). -/
def above (s : State) (k : Nat) : Nat := wrap (s.sp.toNat + 2 * k)

/-- A trap entry with vector `n` from the state `r`, whose IP is the return address (60_exceptions.md R330, R331): what it leaves
when both pushes and the vector read stay in memory, and its three faults otherwise, with the commits made before each kept
(R323). `answer` is what the machine answers. -/
def Enters (r : State) (n : Nat) (phase : Phase) (start : Option Word) (opcode : Option Byte)
    (answer : Host.Outcome State Fault Refusal) : Prop :=
  let first := bytesAt .w16 (below r 1) (flagWord r.flags)
  let second := bytesAt .w16 (below r 2) r.ip.toNat
  let off : Flags := { r.flags with IF := false }
  let one : State := { r with sp := BitVec.ofNat 16 (below r 1), flags := off }
  let two : State := { r with sp := BitVec.ofNat 16 (below r 2), flags := off }
  (within r .w16 (below r 1) → within r .w16 (below r 2) → within r .w16 (4 * n) →
    ∃ mem,
      answer =
        .next { two with
          mem := mem
          ip := BitVec.ofNat 16 ((mem.read (4 * n + 1)).toNat * 256 + (mem.read (4 * n)).toNat)
          phase := .fetching
          md := { } } ∧
      Stores r.mem mem (second ++ first)) ∧
  (¬ within r .w16 (below r 1) →
    ∃ mem md,
      answer =
        .next (faulted .addressOutOfRange (.bus .memory (firstBad r (below r 1))) phase start opcode
          { r with mem := mem, md := md }) ∧
      Stores r.mem mem []) ∧
  (within r .w16 (below r 1) → ¬ within r .w16 (below r 2) →
    ∃ mem md,
      answer =
        .next (faulted .addressOutOfRange (.bus .memory (firstBad r (below r 2))) phase start opcode
          { one with mem := mem, md := md }) ∧
      Stores r.mem mem first) ∧
  (within r .w16 (below r 1) → within r .w16 (below r 2) → ¬ within r .w16 (4 * n) →
    ∃ mem md,
      answer =
        .next (faulted .addressOutOfRange (.bus .memory (firstBad r (4 * n))) phase start opcode
          { two with mem := mem, md := md }) ∧
      Stores r.mem mem (second ++ first))

/-! ## Ports (20_memory.md R71, R72) -/

/-- A device that is present claims the port. -/
def claimed (d : Devices) (p : Nat) : Prop :=
  (d.pic = true ∧ (0x10 ≤ p ∧ p ≤ 0x11 ∨ 0x20 ≤ p ∧ p ≤ 0x2B)) ∨ (d.pio ≠ none ∧ 0x30 ≤ p ∧ p ≤ 0x33) ∨
  (d.handshake = true ∧ 0x40 ≤ p ∧ p ≤ 0x41) ∨ (d.keyboardAndScreen = true ∧ (p = 0x50 ∨ p = 0x60))

/-- A read of the port gives `v`, and changes no state. -/
def Reads (s : State) (p : Nat) (v : Byte) : Prop := ∃ r, resolve p s = some (r, s) ∧ deviceRead r s = some v

/-- A write of `v` to the port leaves the state `t`. -/
def Writes (s : State) (p : Nat) (v : Byte) (t : State) : Prop := ∃ r, resolve p s = some (r, s) ∧ deviceWrite r v s = t

/-- IN of one byte (47_io.md R301). -/
def InputByte (i : Instr) (s : State) (p byte0 length : Nat) : Prop :=
  Spells i byte0 length ∧
  (resolve p s = none → Faults i s .ioMemoryNotConnected (.bus .io p) .fetchingOperands (past s length) []) ∧
  (∀ r t v, resolve p s = some (r, t) → deviceRead r t = some v → Ends i s (putReg (past t length) .w8 0 v.toNat) []) ∧
  (∀ r t, resolve p s = some (r, t) → deviceRead r t = none →
    ∃ md, exec i s = .next { past s length with phase := .fetchingOperands, md := md, waitingForInput := true })

/-- IN of two bytes: both ports are resolved before a byte is read, and a PIO auto-enable by the first stays when the second
faults (log 32). -/
def InputWord (i : Instr) (s : State) (p byte0 length : Nat) : Prop :=
  Spells i byte0 length ∧
  (resolve p s = none → Faults i s .ioMemoryNotConnected (.bus .io p) .fetchingOperands (past s length) []) ∧
  (∀ r t, resolve p s = some (r, t) → resolve (p + 1) t = none →
    Faults i s .ioMemoryNotConnected (.bus .io (p + 1)) .fetchingOperands (past t length) []) ∧
  (∀ r t r' u, resolve p s = some (r, t) → resolve (p + 1) t = some (r', u) →
    ∃ lo hi, deviceRead r u = some lo ∧ deviceRead r' u = some hi ∧
      Ends i s (putReg (past u length) .w16 0 (hi.toNat * 256 + lo.toNat)) [])

/-- OUT of AL (47_io.md R302). -/
def OutputByte (i : Instr) (s : State) (p byte0 length : Nat) : Prop :=
  Spells i byte0 length ∧
  (resolve p s = none → Faults i s .ioMemoryNotConnected (.bus .io p) .writeback (past s length) []) ∧
  (∀ r t, resolve p s = some (r, t) →
    Ends i s (past (deviceWrite r (BitVec.ofNat 8 s.ax.toNat) t) length) [])

/-- OUT of AX: both ports are resolved before a byte is written, and a PIO auto-enable by the first stays when the second
faults (log 32). -/
def OutputWord (i : Instr) (s : State) (p byte0 length : Nat) : Prop :=
  Spells i byte0 length ∧
  (resolve p s = none → Faults i s .ioMemoryNotConnected (.bus .io p) .writeback (past s length) []) ∧
  (∀ r t, resolve p s = some (r, t) → resolve (p + 1) t = none →
    Faults i s .ioMemoryNotConnected (.bus .io (p + 1)) .writeback (past t length) []) ∧
  (∀ r t r' u, resolve p s = some (r, t) → resolve (p + 1) t = some (r', u) →
    Ends i s
      (past (deviceWrite r' (BitVec.ofNat 8 (s.ax.toNat / 256)) (deviceWrite r (BitVec.ofNat 8 s.ax.toNat) u)) length) [])

/-! ## Steps and sessions -/

/-- The bytes of the well-formed instruction `i` stand at IP, where the core can fetch all of them (40_instruction_cycle.md
R146). -/
def At (s : State) (i : Instr) : Prop :=
  i.wf = true ∧ s.ip.toNat + (encode i).length ≤ s.params.memSize ∧ s.ip.toNat + (encode i).length ≤ 65535 ∧
  ∀ k b, (encode i)[k]? = some b → s.mem.read (s.ip.toNat + k) = b

/-- The core can begin an instruction, in a session that will let it finish (70_reset_and_hazards.md R443, R445). -/
def Begins (s : State) : Prop :=
  s.agenda = [] ∧ s.phase = .fetching ∧ s.outcome = .running ∧ s.waitingForInput = false ∧
  ∀ m, s.status = .running m → m ≠ .cycleChange ∧ s.pauseFlag = false

/-- The session with a run in progress: one that is not running is given `run(end-of-instruction)` (log 3). -/
def running (s : State) : State :=
  match s.status with
  | .running _ => s
  | _ => { s with status := .running .endOfInstruction, pauseFlag := false }

/-- What follows an instruction: the trap entry of an accepted hardware interrupt, then the pause of an `end-of-instruction` run
that is back at `fetching` (R331, R443). -/
def settled (t : State) : State :=
  let u := if t.phase = .interrupt then trapEntry t else t
  if u.phase = .fetching ∧ u.outcome = .running ∧ u.waitingForInput = false ∧ u.status = .running .endOfInstruction then
    { u with status := .paused }
  else u

/-- The fields of the core: registers, flags, memory, cycle state, outcome and error record (10_state.md R20 to R34). -/
def SameCore (s t : State) : Prop :=
  t.ax = s.ax ∧ t.bx = s.bx ∧ t.cx = s.cx ∧ t.dx = s.dx ∧ t.ip = s.ip ∧ t.sp = s.sp ∧ t.flags = s.flags ∧ t.mem = s.mem ∧
  t.phase = s.phase ∧ t.md = s.md ∧ t.outcome = s.outcome ∧ t.error = s.error

/-- `u` is the machine and the session `t`, in every field but the model's own (the schedule, the counter of draws, the last reply);
its memory is the same array of MEM_SIZE bytes (10_state.md R34). -/
def SameMachine (u t : State) : Prop :=
  u = { t with mem := u.mem, agenda := u.agenda, draws := u.draws, reply := u.reply } ∧
  ∀ a, a < t.params.memSize → u.mem.read a = t.mem.read a

/-- The command resets the machine (70_reset_and_hazards.md R420). -/
def resets : HostCommand → Prop
  | .loadProgram _ _ _ => True
  | .stop resetAlso => resetAlso = true
  | _ => False

/-- The status is `running`. -/
def isRunning (s : State) : Prop := ∃ m, s.status = .running m

/-- When a command is valid (70_reset_and_hazards.md R441 to R453; `stop(true)` with nothing loaded: log 16; after a halt or a
fault: log 34). -/
def Valid (s : State) : HostCommand → Prop
  | .loadProgram image d _ =>
    ¬ isRunning s ∧ ¬ (d.pio = some .printer ∧ d.handshake = true) ∧ ∀ c ∈ image, c.1 < s.params.memSize
  | .run _ => s.loaded ≠ none ∧ ¬ isRunning s ∧ s.outcome = .running
  | .step => s.loaded ≠ none ∧ ¬ isRunning s ∧ s.outcome = .running
  | .pause => isRunning s
  | .stop resetAlso => (isRunning s ∨ s.status = .paused) ∧ (resetAlso = true → s.loaded ≠ none)
  | .sendKeyboardChar _ => s.waitingForInput = true
  | .pressF10 => s.loaded ≠ none
  | .toggleSwitch index => s.loaded ≠ none ∧ s.devices.pio = some .switchesAndLeds ∧ index < 8
  | .cleanScreen => s.devices.keyboardAndScreen = true
  | .cleanPrinterBuffer => s.devices.pio = some .printer ∨ s.devices.handshake = true
  | .getComputerState => True

/-- `t` is the machine of `s` right after `Reset(image, devices, policy)` (R420, R421), whatever the draws are, in a session
whose stored program, schedule and last reply are those given. -/
def IsReset (s t : State) (p : LoadedProgram) (reply : Option Reply) : Prop :=
  ∃ ax bx cx dx c z sg o mem draws,
    t =
      { ax := ax, bx := bx, cx := cx, dx := dx
        ip := s.params.resetIP
        sp := s.params.resetSP
        flags := { C := c, Z := z, S := sg, O := o, IF := s.params.resetIF }
        phase := .fetching
        outcome := .running
        error := none
        md := { }
        mem := mem
        params := s.params
        devices := p.devices
        pic := { imr := 0xFF, irr := 0, isr := 0, int0 := 0, int1 := 0, int2 := 0, int3 := 0, int4 := 0, int5 := 0, int6 := 0,
                 int7 := 0 }
        timer := { cont := 0, comp := 0 }
        pio := { la := 0, lb := 0, ca := 0xFF, cb := 0xFF, switches := 0, strobePrev := false }
        handshake := { data := 0, ie := false }
        printer := { busy := false, pending := 0, paper := [] }
        screen := { last := 0, output := [] }
        status := .stopped
        waitingForInput := false
        pauseFlag := false
        loaded := some p
        agenda := s.agenda
        draws := draws
        reply := reply } ∧
    (∀ a v, p.image.lookup a = some v → mem.read a = v) ∧
    (∀ a, p.image.lookup a = none → p.policy = .zero → mem.read a = 0) ∧
    (∀ a, p.image.lookup a = none → p.policy = .preserve → s.loaded ≠ none → mem.read a = s.mem.read a)

/-- The highest-priority line that is pending and not masked is line `i` (60_exceptions.md R345). -/
def Selected (p : Pic) (i : Nat) : Prop :=
  i < 8 ∧ p.irr.getLsbD i = true ∧ p.imr.getLsbD i = false ∧
  ∀ j, j < i → ¬ (p.irr.getLsbD j = true ∧ p.imr.getLsbD j = false)

/-- INTi (R344). -/
def vectorOf (p : Pic) : Nat → Byte
  | 0 => p.int0
  | 1 => p.int1
  | 2 => p.int2
  | 3 => p.int3
  | 4 => p.int4
  | 5 => p.int5
  | 6 => p.int6
  | _ => p.int7

/-- A byte with bit `i` set to `v`, bit by bit. -/
def SetsBit (before after : Byte) (i : Nat) (v : Bool) : Prop :=
  ∀ j, j < 8 → after.getLsbD j = if j = i then v else before.getLsbD j

/-- `t` is `s` with line `i` of the PIC asserted when there is a PIC, and `s` otherwise (R340, R348, R349). -/
def Asserts (s t : State) (i : Nat) : Prop :=
  if s.devices.pic = true then ∃ irr, SetsBit s.pic.irr irr i true ∧ t = { s with pic := { s.pic with irr := irr } } else t = s

/-- Byte 0 is illegal (30_encoding.md R112 item 1). -/
def illegalOpcode (op : Nat) : Prop :=
  (0x01 ≤ op ∧ op ≤ 0x0F) ∨ (0xCA ≤ op ∧ op ≤ 0xCF) ∨ (0xDB ≤ op ∧ op ≤ 0xDF) ∨ (0xEC ≤ op ∧ op ≤ 0xFE) ∨
  op ∈ [0xA6, 0xA7, 0xAE, 0xAF, 0xB6, 0xB7, 0xBE, 0xBF]

/-- Byte 0 is followed by a register byte of layout RR (R104, R105). -/
def layoutRR (op : Nat) : Prop := 0x10 ≤ op ∧ op ≤ 0x9F ∧ op / 2 % 8 = 0

/-- Byte 0 is followed by a register byte of layout R (R104, R105, R107). -/
def layoutR (op : Nat) : Prop :=
  (0x10 ≤ op ∧ op ≤ 0x9F ∧ 1 ≤ op / 2 % 8 ∧ op / 2 % 8 ≤ 5) ∨ (0xA0 ≤ op ∧ op ≤ 0xBF ∧ op / 2 % 4 = 0)

/-- The register byte is illegal under byte 0 (R112 items 2 and 3). -/
def illegalRegisterByte (op rb : Nat) : Prop :=
  (layoutRR op ∧ (64 ≤ rb ∨ (op % 2 = 1 ∧ (4 ≤ rb / 8 % 8 ∨ 4 ≤ rb % 8)))) ∨
  (layoutR op ∧ (8 ≤ rb ∨ (op % 2 = 1 ∧ 4 ≤ rb % 8)))

/-- `Length(op)` for a legal byte 0 (R113). -/
def lengthOf (op : Nat) : Nat :=
  if op = 0x00 ∨ op = 0xFF then 1
  else if op < 0xA0 then
    match op / 2 % 8 with
    | 0 => 2
    | 1 => 4
    | 2 => 2
    | 3 => 3 + op % 2
    | 4 => 4
    | 5 => 2
    | 6 => 4 + op % 2
    | _ => 2 + op % 2
  else if op < 0xC0 then
    match op / 2 % 4 with
    | 0 => 2
    | 1 => 3
    | _ => 1
  else if op < 0xD0 then 1
  else if op < 0xDA then 3
  else if op = 0xDA then 1
  else if op ∈ [0xE0, 0xE4, 0xE5, 0xE8, 0xE9] then 2
  else 1

/-- Byte 0 of an instruction that reads nothing after it: no operand byte and no data (40_instruction_cycle.md R140, R142). -/
def readsNothing (op : Nat) : Prop :=
  op ∈ [0x00, 0xFF, 0xC0, 0xC1, 0xC2, 0xC3, 0xC8, 0xE2, 0xE3, 0xEA, 0xEB]

/-- The sub-steps of `fetching-operands` and of `writeback` of an instruction (R181, R198, R224, R246, R272, R286, R303). -/
def counts : Opcode → Nat × Nat
  | .bin .mov .regReg _ => (1, 1)
  | .bin .mov .regDir w => (3 + size w, 1)
  | .bin .mov .regInd w => (1 + size w, 1)
  | .bin .mov .regImm w => (1 + size w, 1)
  | .bin .mov .dirReg w => (3, size w)
  | .bin .mov .indReg w => (1, size w)
  | .bin .mov .dirImm w => (2 + size w, size w)
  | .bin .mov .indImm w => (size w, size w)
  | .bin _ .regReg _ => (1, 1)
  | .bin _ .regDir w => (3 + size w, 1)
  | .bin _ .regInd w => (1 + size w, 1)
  | .bin _ .regImm w => (1 + size w, 1)
  | .bin o .dirReg w => (3 + size w, if o = .cmp then 1 else size w)
  | .bin o .indReg w => (1 + size w, if o = .cmp then 1 else size w)
  | .bin o .dirImm w => (2 + 2 * size w, if o = .cmp then 1 else size w)
  | .bin o .indImm w => (2 * size w, if o = .cmp then 1 else size w)
  | .un _ .reg _ => (1, 1)
  | .un _ .dir w => (2 + size w, size w)
  | .un _ .ind w => (size w, size w)
  | .push _ => (0, 2)
  | .pop _ => (2, 1)
  | .pushf => (0, 2)
  | .popf => (2, 1)
  | .jmp => (2, 1)
  | .jcc _ => (2, 1)
  | .call => (2, 2)
  | .ret => (2, 1)
  | .int => (1, 1)
  | .iret => (4, 1)
  | .cli => (0, 1)
  | .sti => (0, 1)
  | .inp fromDX w => (if fromDX then size w else 1 + size w, 1)
  | .out toDX w => (if toDX then 0 else 1, size w)
  | .nop => (0, 1)
  | .hlt => (0, 0)

end Sys2Proof.Claims

open Sys2Proof Sys2Proof.Machine Sys2Proof.Config Sys2Proof.Claims

/-! ## Encoding -/

/-- 30_encoding.md R100 to R110: decoding the bytes of a well-formed instruction, whatever follows them, gives it back, and leaves
what follows. -/
def Obligations.DecodeOfEncode : Prop :=
  ∀ (i : Instr) (rest : List Byte), i.wf = true → decode (encode i ++ rest) = .ok (i, rest)

/-- 30_encoding.md R100 to R110: each instruction has one spelling, and the decoder gives only well-formed instructions. -/
def Obligations.EncodeOfDecode : Prop :=
  ∀ (i : Instr) (bytes rest : List Byte), decode bytes = .ok (i, rest) → i.wf = true ∧ bytes = encode i ++ rest

/-- The worked encodings of 41_transfer.md to 47_io.md, one or more of each family. -/
def Obligations.DecodedWords : Prop :=
  decode [0x16, 0x00, 0x03] = .ok (.movRegImm .w8 0 3, []) ∧
  decode [0x20, 0x01] = .ok (.addRegReg .w8 0 1, []) ∧
  decode [0x57, 0x00, 0x00, 0x00] = .ok (.sbbRegImm .w16 0 0, []) ∧
  decode [0x8A, 0x00] = .ok (.orIndReg .w8 0, []) ∧
  decode [0xB8, 0x00] = .ok (.notReg .w8 0, []) ∧
  decode [0xC6] = .ok (.pop .cx, []) ∧
  decode [0xD1, 0x00, 0x21] = .ok (.jz 0x2100, []) ∧
  decode [0xD9, 0x00, 0x30] = .ok (.call 0x3000, []) ∧
  decode [0xE0, 0x05] = .ok (.int 5, []) ∧
  decode [0xE8, 0x30] = .ok (.outPortAl 0x30, []) ∧
  decode [0xFF] = .ok (.hlt, [])

/-- 30_encoding.md R112 item 1, R113: byte 0 decodes exactly when it is legal, and then fixes the length. -/
def Obligations.OpcodeMap : Prop :=
  ∀ op : Byte,
    (illegalOpcode op.toNat → decodeOpcode op = none) ∧
    (¬ illegalOpcode op.toNat → ∃ oc, decodeOpcode op = some oc ∧ opcodeLength oc = lengthOf op.toNat)

/-- 30_encoding.md R112: the fault of an illegal byte 0, in `fetching`, and of an illegal register byte, in `fetching-operands`;
nothing else of the core is written, and IP is past the bytes read. -/
def Obligations.IllegalEncodings : Prop :=
  (∀ s : State, s.phase = .fetching → s.ip.toNat < s.params.memSize → s.ip ≠ 0xFFFF →
    illegalOpcode (s.mem.read s.ip.toNat).toNat →
    ∃ md, coreSubStep none s =
      .next (faulted .illegalInstruction (.instruction s.ip (s.mem.read s.ip.toNat)) .fetching (some s.ip)
        (some (s.mem.read s.ip.toNat)) { past s 1 with md := md })) ∧
  (∀ (s : State) (start : Word) (op : Byte), s.phase = .fetchingOperands → s.md.sub = 0 → s.md.op = some op →
    s.md.start = some start → s.ip.toNat < s.params.memSize → s.ip ≠ 0xFFFF →
    illegalRegisterByte op.toNat (s.mem.read s.ip.toNat).toNat →
    ∃ md, coreSubStep none s =
      .next (faulted .illegalInstruction (.instruction start op) .fetchingOperands (some start) (some op)
        { past s 1 with md := md }))

/-- 40_instruction_cycle.md R142, R146: the `fetching` sub-step. -/
def Obligations.FetchingStep : Prop :=
  ∀ s : State, s.phase = .fetching →
    (¬ s.ip.toNat < s.params.memSize →
      ∃ md, coreSubStep none s =
        .next (faulted .addressOutOfRange (.bus .memory s.ip.toNat) .fetching (some s.ip) none { s with md := md })) ∧
    (s.ip.toNat < s.params.memSize → s.ip = 0xFFFF →
      ∃ md, coreSubStep none s =
        .next (faulted .addressOutOfRange (.bus .memory 0x10000) .fetching (some s.ip) (some (s.mem.read s.ip.toNat))
          { s with md := md })) ∧
    (s.ip.toNat < s.params.memSize → s.ip ≠ 0xFFFF → ¬ illegalOpcode (s.mem.read s.ip.toNat).toNat →
      ∃ phase,
        coreSubStep none s =
          .next { past s 1 with phase := phase, md := { start := some s.ip, op := some (s.mem.read s.ip.toNat) } } ∧
        (readsNothing (s.mem.read s.ip.toNat).toNat → phase = .executing) ∧
        (¬ readsNothing (s.mem.read s.ip.toNat).toNat → phase = .fetchingOperands))

/-! ## The step -/

/-- A step with an empty agenda runs the instruction whose bytes stand at IP: `exec` of it, the trap entry of an accepted
hardware interrupt, and the pause of the run. -/
def Obligations.StepRunsDecoded : Prop :=
  ∀ (s : State) (i : Instr), Begins s → At s i → ∃ t, exec i (running s) = .next t ∧ step s = .next (settled t)

/-- 40_instruction_cycle.md R140 to R149: the core's sub-steps, taken one by one to the end of the instruction with no other agent
in between, lead where the meaning of the whole instruction leads. -/
def Obligations.InstructionIsItsSubSteps : Prop :=
  ∀ s : State, s.coreRuns = true → s.wholeInstruction = true → instructionStep s = runToBoundary maxSubSteps s

/-- 40_instruction_cycle.md R140, 60_exceptions.md R320, R322: every instruction has a next state from every state; none is refused. A
well-formed one leaves the error record as it was or ends in one of the two faults of a bus access, which is a next state (log 4). A
term whose operands no encoding holds raises illegal-instruction (log 18). -/
def Obligations.EveryInstructionExecutes : Prop :=
  ∀ (i : Instr) (s : State),
    ∃ t, exec i s = .next t ∧
      (i.wf = true →
        t.error = s.error ∨
        (t.phase = .stopped ∧ t.outcome = .stoppedError ∧
          ∃ e, t.error = some e ∧ (e.kind = .addressOutOfRange ∨ e.kind = .ioMemoryNotConnected))) ∧
      (i.wf = false →
        ∃ op md, (encode i).head? = some op ∧
          t =
            faulted .illegalInstruction (.instruction s.ip op) .fetchingOperands (some s.ip) (some op)
              { past s (encode i).length with md := md })

/-- 40_instruction_cycle.md R140, R145, R148, 60_exceptions.md R331, R332: the legal transitions between phases, and when each is taken:
a phase is left at its last sub-step, and not before. -/
def Obligations.PhaseTransitions : Prop :=
  ∀ (key : Option Byte) (s t : State), coreSubStep key s = .next t →
    (t.phase = .stopped → (s.phase = .halting ∧ t.outcome = .halted) ∨ t.outcome = .stoppedError) ∧
    (t.phase ≠ .stopped →
      match s.phase with
      | .fetching =>
        (readsNothing (s.mem.read s.ip.toNat).toNat → t.phase = .executing) ∧
        (¬ readsNothing (s.mem.read s.ip.toNat).toNat → t.phase = .fetchingOperands)
      | .fetchingOperands =>
        (key = none ∧ t = { s with waitingForInput := true }) ∨
        ∃ oc, currentOpcode s = some oc ∧ t.phase = if s.md.sub + 1 = (counts oc).1 then .executing else .fetchingOperands
      | .executing => t.phase = if s.md.op = some 0xFF then .halting else .writeback
      | .writeback =>
        ∃ oc, currentOpcode s = some oc ∧
          t.phase =
            if s.md.sub + 1 = (counts oc).2 then
              if s.md.op = some 0xE0 then
                if s.md.vec = some 6 then .int6 else if s.md.vec = some 7 then .int7 else .interrupt
              else if interruptRequested t then .interrupt
              else .fetching
            else .writeback
      | .interrupt => t.phase = if s.md.sub + 1 = 6 then .fetching else .interrupt
      | .int6 => t.phase = if s.md.sub + 1 = 6 then .fetching else .int6
      | .int7 => t.phase = if s.md.sub + 1 = 6 then .fetching else .int7
      | .halting => False
      | .stopped => False)

/-- R181, R198, R224, R246, R272, R286, R303: how many sub-steps the phases `fetching-operands` and `writeback` of every
instruction have, and a trap entry. -/
def Obligations.SubStepCounts : Prop :=
  (∀ oc : Opcode, (reads oc).length = (counts oc).1 ∧ (writes oc).length = (counts oc).2) ∧ trapSubSteps.length = 6

/-! ## Data transfer, arithmetic, logic -/

/-- 41_transfer.md R180. -/
def Obligations.MovEffect : Prop :=
  ∀ (s : State) (w : Width) (a b : RegNum) (addr v : Word),
    let op := Binary (fun _ _ x f => (x, f)) true .writeback s w
    op (.movRegReg w a b) (.reg a) (.reg b) 0x10 2 ∧
    op (.movRegDir w a addr) (.reg a) (.mem addr) 0x12 4 ∧
    op (.movRegInd w a) (.reg a) (.mem s.bx) 0x14 2 ∧
    op (.movRegImm w a v) (.reg a) (.imm v) 0x16 (2 + size w) ∧
    op (.movDirReg w addr b) (.mem addr) (.reg b) 0x18 4 ∧
    op (.movIndReg w b) (.mem s.bx) (.reg b) 0x1A 2 ∧
    op (.movDirImm w addr v) (.mem addr) (.imm v) 0x1C (3 + size w) ∧
    op (.movIndImm w v) (.mem s.bx) (.imm v) 0x1E (1 + size w)

/-- 42_arithmetic.md R190. -/
def Obligations.AddEffect : Prop :=
  ∀ (s : State) (w : Width) (a b : RegNum) (addr v : Word),
    let op := Binary (fun n a b f => addRule n a b 0 f) true .fetchingOperands s w
    op (.addRegReg w a b) (.reg a) (.reg b) 0x20 2 ∧
    op (.addRegDir w a addr) (.reg a) (.mem addr) 0x22 4 ∧
    op (.addRegInd w a) (.reg a) (.mem s.bx) 0x24 2 ∧
    op (.addRegImm w a v) (.reg a) (.imm v) 0x26 (2 + size w) ∧
    op (.addDirReg w addr b) (.mem addr) (.reg b) 0x28 4 ∧
    op (.addIndReg w b) (.mem s.bx) (.reg b) 0x2A 2 ∧
    op (.addDirImm w addr v) (.mem addr) (.imm v) 0x2C (3 + size w) ∧
    op (.addIndImm w v) (.mem s.bx) (.imm v) 0x2E (1 + size w)

/-- 42_arithmetic.md R191. -/
def Obligations.AdcEffect : Prop :=
  ∀ (s : State) (w : Width) (a b : RegNum) (addr v : Word),
    let op := Binary (fun n a b f => addRule n a b f.C.toNat f) true .fetchingOperands s w
    op (.adcRegReg w a b) (.reg a) (.reg b) 0x30 2 ∧
    op (.adcRegDir w a addr) (.reg a) (.mem addr) 0x32 4 ∧
    op (.adcRegInd w a) (.reg a) (.mem s.bx) 0x34 2 ∧
    op (.adcRegImm w a v) (.reg a) (.imm v) 0x36 (2 + size w) ∧
    op (.adcDirReg w addr b) (.mem addr) (.reg b) 0x38 4 ∧
    op (.adcIndReg w b) (.mem s.bx) (.reg b) 0x3A 2 ∧
    op (.adcDirImm w addr v) (.mem addr) (.imm v) 0x3C (3 + size w) ∧
    op (.adcIndImm w v) (.mem s.bx) (.imm v) 0x3E (1 + size w)

/-- 42_arithmetic.md R192. -/
def Obligations.SubEffect : Prop :=
  ∀ (s : State) (w : Width) (a b : RegNum) (addr v : Word),
    let op := Binary (fun n a b f => subRule n a b 0 f) true .fetchingOperands s w
    op (.subRegReg w a b) (.reg a) (.reg b) 0x40 2 ∧
    op (.subRegDir w a addr) (.reg a) (.mem addr) 0x42 4 ∧
    op (.subRegInd w a) (.reg a) (.mem s.bx) 0x44 2 ∧
    op (.subRegImm w a v) (.reg a) (.imm v) 0x46 (2 + size w) ∧
    op (.subDirReg w addr b) (.mem addr) (.reg b) 0x48 4 ∧
    op (.subIndReg w b) (.mem s.bx) (.reg b) 0x4A 2 ∧
    op (.subDirImm w addr v) (.mem addr) (.imm v) 0x4C (3 + size w) ∧
    op (.subIndImm w v) (.mem s.bx) (.imm v) 0x4E (1 + size w)

/-- 42_arithmetic.md R193. -/
def Obligations.SbbEffect : Prop :=
  ∀ (s : State) (w : Width) (a b : RegNum) (addr v : Word),
    let op := Binary (fun n a b f => subRule n a b f.C.toNat f) true .fetchingOperands s w
    op (.sbbRegReg w a b) (.reg a) (.reg b) 0x50 2 ∧
    op (.sbbRegDir w a addr) (.reg a) (.mem addr) 0x52 4 ∧
    op (.sbbRegInd w a) (.reg a) (.mem s.bx) 0x54 2 ∧
    op (.sbbRegImm w a v) (.reg a) (.imm v) 0x56 (2 + size w) ∧
    op (.sbbDirReg w addr b) (.mem addr) (.reg b) 0x58 4 ∧
    op (.sbbIndReg w b) (.mem s.bx) (.reg b) 0x5A 2 ∧
    op (.sbbDirImm w addr v) (.mem addr) (.imm v) 0x5C (3 + size w) ∧
    op (.sbbIndImm w v) (.mem s.bx) (.imm v) 0x5E (1 + size w)

/-- 42_arithmetic.md R194: the flags of the difference, and nothing else. -/
def Obligations.CmpEffect : Prop :=
  ∀ (s : State) (w : Width) (a b : RegNum) (addr v : Word),
    let op := Binary (fun n a b f => subRule n a b 0 f) false .fetchingOperands s w
    op (.cmpRegReg w a b) (.reg a) (.reg b) 0x60 2 ∧
    op (.cmpRegDir w a addr) (.reg a) (.mem addr) 0x62 4 ∧
    op (.cmpRegInd w a) (.reg a) (.mem s.bx) 0x64 2 ∧
    op (.cmpRegImm w a v) (.reg a) (.imm v) 0x66 (2 + size w) ∧
    op (.cmpDirReg w addr b) (.mem addr) (.reg b) 0x68 4 ∧
    op (.cmpIndReg w b) (.mem s.bx) (.reg b) 0x6A 2 ∧
    op (.cmpDirImm w addr v) (.mem addr) (.imm v) 0x6C (3 + size w) ∧
    op (.cmpIndImm w v) (.mem s.bx) (.imm v) 0x6E (1 + size w)

/-- 43_logic.md R220. -/
def Obligations.AndEffect : Prop :=
  ∀ (s : State) (w : Width) (a b : RegNum) (addr v : Word),
    let op := Binary (fun n a b f => logicRule n (a &&& b) f) true .fetchingOperands s w
    op (.andRegReg w a b) (.reg a) (.reg b) 0x70 2 ∧
    op (.andRegDir w a addr) (.reg a) (.mem addr) 0x72 4 ∧
    op (.andRegInd w a) (.reg a) (.mem s.bx) 0x74 2 ∧
    op (.andRegImm w a v) (.reg a) (.imm v) 0x76 (2 + size w) ∧
    op (.andDirReg w addr b) (.mem addr) (.reg b) 0x78 4 ∧
    op (.andIndReg w b) (.mem s.bx) (.reg b) 0x7A 2 ∧
    op (.andDirImm w addr v) (.mem addr) (.imm v) 0x7C (3 + size w) ∧
    op (.andIndImm w v) (.mem s.bx) (.imm v) 0x7E (1 + size w)

/-- 43_logic.md R221. -/
def Obligations.OrEffect : Prop :=
  ∀ (s : State) (w : Width) (a b : RegNum) (addr v : Word),
    let op := Binary (fun n a b f => logicRule n (a ||| b) f) true .fetchingOperands s w
    op (.orRegReg w a b) (.reg a) (.reg b) 0x80 2 ∧
    op (.orRegDir w a addr) (.reg a) (.mem addr) 0x82 4 ∧
    op (.orRegInd w a) (.reg a) (.mem s.bx) 0x84 2 ∧
    op (.orRegImm w a v) (.reg a) (.imm v) 0x86 (2 + size w) ∧
    op (.orDirReg w addr b) (.mem addr) (.reg b) 0x88 4 ∧
    op (.orIndReg w b) (.mem s.bx) (.reg b) 0x8A 2 ∧
    op (.orDirImm w addr v) (.mem addr) (.imm v) 0x8C (3 + size w) ∧
    op (.orIndImm w v) (.mem s.bx) (.imm v) 0x8E (1 + size w)

/-- 43_logic.md R222. -/
def Obligations.XorEffect : Prop :=
  ∀ (s : State) (w : Width) (a b : RegNum) (addr v : Word),
    let op := Binary (fun n a b f => logicRule n (a ^^^ b) f) true .fetchingOperands s w
    op (.xorRegReg w a b) (.reg a) (.reg b) 0x90 2 ∧
    op (.xorRegDir w a addr) (.reg a) (.mem addr) 0x92 4 ∧
    op (.xorRegInd w a) (.reg a) (.mem s.bx) 0x94 2 ∧
    op (.xorRegImm w a v) (.reg a) (.imm v) 0x96 (2 + size w) ∧
    op (.xorDirReg w addr b) (.mem addr) (.reg b) 0x98 4 ∧
    op (.xorIndReg w b) (.mem s.bx) (.reg b) 0x9A 2 ∧
    op (.xorDirImm w addr v) (.mem addr) (.imm v) 0x9C (3 + size w) ∧
    op (.xorIndImm w v) (.mem s.bx) (.imm v) 0x9E (1 + size w)

/-- 42_arithmetic.md R195. -/
def Obligations.NegEffect : Prop :=
  ∀ (s : State) (w : Width) (a : RegNum) (addr : Word),
    let op := Unary (fun n a f => subRule n 0 a 0 f) s w
    op (.negReg w a) (.reg a) 0xA0 2 ∧
    op (.negDir w addr) (.mem addr) 0xA2 3 ∧
    op (.negInd w) (.mem s.bx) 0xA4 1

/-- 42_arithmetic.md R196. -/
def Obligations.IncEffect : Prop :=
  ∀ (s : State) (w : Width) (a : RegNum) (addr : Word),
    let op := Unary (fun n a f => addRule n a 1 0 f) s w
    op (.incReg w a) (.reg a) 0xA8 2 ∧
    op (.incDir w addr) (.mem addr) 0xAA 3 ∧
    op (.incInd w) (.mem s.bx) 0xAC 1

/-- 42_arithmetic.md R197. -/
def Obligations.DecEffect : Prop :=
  ∀ (s : State) (w : Width) (a : RegNum) (addr : Word),
    let op := Unary (fun n a f => subRule n a 1 0 f) s w
    op (.decReg w a) (.reg a) 0xB0 2 ∧
    op (.decDir w addr) (.mem addr) 0xB2 3 ∧
    op (.decInd w) (.mem s.bx) 0xB4 1

/-- 43_logic.md R223. -/
def Obligations.NotEffect : Prop :=
  ∀ (s : State) (w : Width) (a : RegNum) (addr : Word),
    let op := Unary (fun n a f => logicRule n (a ^^^ (2 ^ n - 1)) f) s w
    op (.notReg w a) (.reg a) 0xB8 2 ∧
    op (.notDir w addr) (.mem addr) 0xBA 3 ∧
    op (.notInd w) (.mem s.bx) 0xBC 1

/-! ## Stack -/

/-- 44_stack.md R242, R240: PUSH. -/
def Obligations.PushEffect : Prop :=
  ∀ (s : State) (r : Reg16),
    Spells (.push r) (0xC0 + regNumber r) 1 ∧
    (within s .w16 (below s 1) →
      Ends (.push r) s { past s 1 with sp := BitVec.ofNat 16 (below s 1) }
        (bytesAt .w16 (below s 1) (regValue s .w16 (regNumber r)))) ∧
    (¬ within s .w16 (below s 1) → OutOfRange (.push r) s (below s 1) .writeback (past s 1) [])

/-- 44_stack.md R243, R241: POP. -/
def Obligations.PopEffect : Prop :=
  ∀ (s : State) (r : Reg16),
    Spells (.pop r) (0xC4 + regNumber r) 1 ∧
    (within s .w16 s.sp.toNat →
      Ends (.pop r) s
        (putReg { past s 1 with sp := BitVec.ofNat 16 (above s 1) } .w16 (regNumber r) (memValue s .w16 s.sp.toNat)) []) ∧
    (¬ within s .w16 s.sp.toNat → OutOfRange (.pop r) s s.sp.toNat .fetchingOperands (past s 1) [])

/-- 44_stack.md R244, R245, 10_state.md R29: PUSHF and POPF. -/
def Obligations.PushfPopfEffect : Prop :=
  ∀ s : State,
    (Spells .pushf 0xC8 1 ∧
      (within s .w16 (below s 1) →
        Ends .pushf s { past s 1 with sp := BitVec.ofNat 16 (below s 1) } (bytesAt .w16 (below s 1) (flagWord s.flags))) ∧
      (¬ within s .w16 (below s 1) → OutOfRange .pushf s (below s 1) .writeback (past s 1) [])) ∧
    (Spells .popf 0xC9 1 ∧
      (within s .w16 s.sp.toNat →
        Ends .popf s
          { past s 1 with sp := BitVec.ofNat 16 (above s 1), flags := flagsFrom (memValue s .w16 s.sp.toNat) } []) ∧
      (¬ within s .w16 s.sp.toNat → OutOfRange .popf s s.sp.toNat .fetchingOperands (past s 1) []))

/-! ## Control transfer -/

/-- 45_control.md R260 to R269: JMP, and the eight conditional jumps with their conditions. -/
def Obligations.JumpEffect : Prop :=
  ∀ (s : State) (target : Word),
    let jumps (i : Instr) (byte0 : Nat) (taken : Bool) : Prop :=
      Spells i byte0 3 ∧ Ends i s (if taken then { s with ip := target } else past s 3) []
    jumps (.jmp target) 0xD0 true ∧
    jumps (.jz target) 0xD1 s.flags.Z ∧
    jumps (.jnz target) 0xD2 (!s.flags.Z) ∧
    jumps (.jc target) 0xD3 s.flags.C ∧
    jumps (.jnc target) 0xD4 (!s.flags.C) ∧
    jumps (.js target) 0xD5 s.flags.S ∧
    jumps (.jns target) 0xD6 (!s.flags.S) ∧
    jumps (.jo target) 0xD7 s.flags.O ∧
    jumps (.jno target) 0xD8 (!s.flags.O)

/-- 45_control.md R270: CALL pushes the address after it and jumps. -/
def Obligations.CallEffect : Prop :=
  ∀ (s : State) (target : Word),
    Spells (.call target) 0xD9 3 ∧
    (within s .w16 (below s 1) →
      Ends (.call target) s { s with sp := BitVec.ofNat 16 (below s 1), ip := target }
        (bytesAt .w16 (below s 1) (wrap (s.ip.toNat + 3)))) ∧
    (¬ within s .w16 (below s 1) → OutOfRange (.call target) s (below s 1) .writeback (past s 3) [])

/-- 45_control.md R271: RET. -/
def Obligations.RetEffect : Prop :=
  ∀ s : State,
    Spells .ret 0xDA 1 ∧
    (within s .w16 s.sp.toNat →
      Ends .ret s
        { s with sp := BitVec.ofNat 16 (above s 1), ip := BitVec.ofNat 16 (memValue s .w16 s.sp.toNat) } []) ∧
    (¬ within s .w16 s.sp.toNat → OutOfRange .ret s s.sp.toNat .fetchingOperands (past s 1) [])

/-! ## System -/

/-- 46_system.md R280, 60_exceptions.md R331, R332: INT n, through its trap entry to the handler's first instruction. -/
def Obligations.IntEffect : Prop :=
  ∀ (s : State) (n : Byte),
    Spells (.int n) 0xE0 2 ∧
    Enters (past s 2) n.toNat (if n.toNat = 6 then .int6 else if n.toNat = 7 then .int7 else .interrupt) (some s.ip)
      (some 0xE0) (exec (.int n) s)

/-- 46_system.md R281: IRET restores IP and the flags from the two words on the stack. -/
def Obligations.IretEffect : Prop :=
  ∀ s : State,
    Spells .iret 0xE1 1 ∧
    (within s .w16 s.sp.toNat → within s .w16 (above s 1) →
      Ends .iret s
        { s with
          sp := BitVec.ofNat 16 (above s 2)
          ip := BitVec.ofNat 16 (memValue s .w16 s.sp.toNat)
          flags := flagsFrom (memValue s .w16 (above s 1)) } []) ∧
    (¬ within s .w16 s.sp.toNat → OutOfRange .iret s s.sp.toNat .fetchingOperands (past s 1) []) ∧
    (within s .w16 s.sp.toNat → ¬ within s .w16 (above s 1) →
      OutOfRange .iret s (above s 1) .fetchingOperands (past s 1) [])

/-- 46_system.md R282, R283, R284: CLI, STI and NOP. -/
def Obligations.CliStiNopEffect : Prop :=
  ∀ s : State,
    (Spells .cli 0xE2 1 ∧ Ends .cli s { past s 1 with flags := { s.flags with IF := false } } []) ∧
    (Spells .sti 0xE3 1 ∧ Ends .sti s { past s 1 with flags := { s.flags with IF := true } } []) ∧
    (Spells .nop 0x00 1 ∧ Ends .nop s (past s 1) [])

/-- 46_system.md R285, 40_instruction_cycle.md R149: HLT stops the core, and the run with it. -/
def Obligations.HltEffect : Prop :=
  ∀ s : State,
    Spells .hlt 0xFF 1 ∧
    ∃ md, exec .hlt s = .next { past s 1 with md := md, phase := .stopped, outcome := .halted, status := .stopped }

/-- 46_system.md R280, R281, 60_exceptions.md R331: IRET undoes the trap entry of INT n. IP is past the INT, SP and every flag are
as before it, no general register has changed, and no byte of memory but the four of the frame. -/
def Obligations.IretUndoesInt : Prop :=
  ∀ (s : State) (n : Byte), within s .w16 (below s 1) → within s .w16 (below s 2) → within s .w16 (4 * n.toNat) →
    ∃ t u, exec (.int n) s = .next t ∧ exec .iret t = .next u ∧
      u.ip = (past s 2).ip ∧ u.sp = s.sp ∧ u.flags = s.flags ∧ u.ax = s.ax ∧ u.bx = s.bx ∧ u.cx = s.cx ∧ u.dx = s.dx ∧
      ∀ a, a ≠ below s 1 → a ≠ below s 1 + 1 → a ≠ below s 2 → a ≠ below s 2 + 1 → u.mem.read a = s.mem.read a

/-! ## Input and output -/

/-- 47_io.md R300, R301: the four forms of IN. -/
def Obligations.InEffect : Prop :=
  ∀ (s : State) (p : Byte),
    InputByte (.inAlPort p) s p.toNat 0xE4 2 ∧
    InputWord (.inAxPort p) s p.toNat 0xE5 2 ∧
    InputByte .inAlDx s s.dx.toNat 0xE6 1 ∧
    InputWord .inAxDx s s.dx.toNat 0xE7 1

/-- 47_io.md R300, R302: the four forms of OUT. -/
def Obligations.OutEffect : Prop :=
  ∀ (s : State) (p : Byte),
    OutputByte (.outPortAl p) s p.toNat 0xE8 2 ∧
    OutputWord (.outPortAx p) s p.toNat 0xE9 2 ∧
    OutputByte .outDxAl s s.dx.toNat 0xEA 1 ∧
    OutputWord .outDxAx s s.dx.toNat 0xEB 1

/-- 20_memory.md R70 to R73: with no auto-enable, an access is resolved exactly when a present device claims the port, and
resolving changes nothing. -/
def Obligations.PortDecode : Prop :=
  ∀ (s : State) (p : Nat),
    (claimed s.devices p → ∃ r, resolve p s = some (r, s)) ∧
    (¬ claimed s.devices p → s.params.autoEnablePio = false → resolve p s = none) ∧
    (¬ claimed s.devices p → ¬ (0x30 ≤ p ∧ p ≤ 0x33) → resolve p s = none)

/-- 60_exceptions.md R324: the PIO auto-enable. -/
def Obligations.AutoEnable : Prop :=
  ∀ (s : State) (p : Nat), s.params.autoEnablePio = true → s.devices.pio = none → 0x30 ≤ p → p ≤ 0x33 →
    ∃ r t, resolve p s = some (r, t) ∧
      t = { s with
            devices := { s.devices with pio := some .switchesAndLeds }
            pio := { s.pio with la := 0x00, lb := 0x00, ca := 0xFF, cb := 0xFF, switches := 0x00 } } ∧
      resolve p t = some (r, t)

/-! ## Devices -/

/-- 60_exceptions.md R341 to R344, R346, R361, R362: the registers of the PIC and of the timer. -/
def Obligations.PicTimerRegisters : Prop :=
  ∀ (s : State) (v : Byte), s.devices.pic = true →
    Reads s 0x10 s.timer.cont ∧ Writes s 0x10 v { s with timer := { s.timer with cont := v } } ∧
    Reads s 0x11 s.timer.comp ∧ Writes s 0x11 v { s with timer := { s.timer with comp := v } } ∧
    Reads s 0x20 0x00 ∧
    (s.pic.isr = 0x00 → Writes s 0x20 v s) ∧
    (∀ i, i < 8 → s.pic.isr.getLsbD i = true → (∀ j, j < i → s.pic.isr.getLsbD j = false) →
      ∃ isr, SetsBit s.pic.isr isr i false ∧ Writes s 0x20 v { s with pic := { s.pic with isr := isr } }) ∧
    Reads s 0x21 s.pic.imr ∧ Writes s 0x21 v { s with pic := { s.pic with imr := v } } ∧
    Reads s 0x22 s.pic.irr ∧ Writes s 0x22 v { s with pic := { s.pic with irr := v } } ∧
    Reads s 0x23 s.pic.isr ∧ Writes s 0x23 v { s with pic := { s.pic with isr := v } } ∧
    Reads s 0x24 s.pic.int0 ∧ Writes s 0x24 v { s with pic := { s.pic with int0 := v } } ∧
    Reads s 0x25 s.pic.int1 ∧ Writes s 0x25 v { s with pic := { s.pic with int1 := v } } ∧
    Reads s 0x26 s.pic.int2 ∧ Writes s 0x26 v { s with pic := { s.pic with int2 := v } } ∧
    Reads s 0x27 s.pic.int3 ∧ Writes s 0x27 v { s with pic := { s.pic with int3 := v } } ∧
    Reads s 0x28 s.pic.int4 ∧ Writes s 0x28 v { s with pic := { s.pic with int4 := v } } ∧
    Reads s 0x29 s.pic.int5 ∧ Writes s 0x29 v { s with pic := { s.pic with int5 := v } } ∧
    Reads s 0x2A s.pic.int6 ∧ Writes s 0x2A v { s with pic := { s.pic with int6 := v } } ∧
    Reads s 0x2B s.pic.int7 ∧ Writes s 0x2B v { s with pic := { s.pic with int7 := v } }

/-- 60_exceptions.md R370 to R374, R382: the registers of the PIO with switches and LEDs, or with a printer whose strobe does not
rise: what the data ports read as, bit by bit, and what a write sets. -/
def Obligations.PioRegisters : Prop :=
  ∀ (s : State) (v : Byte) (kind : PioKind), s.devices.pio = some kind →
    (∃ pa, Reads s 0x30 pa ∧ ∀ i, i < 8 →
      pa.getLsbD i =
        if s.pio.ca.getLsbD i then
          match kind with
          | .switchesAndLeds => s.pio.switches.getLsbD i
          | .printer => decide (i = 0) && s.printer.busy
        else s.pio.la.getLsbD i) ∧
    (∃ pb, Reads s 0x31 pb ∧ ∀ i, i < 8 → pb.getLsbD i = (!s.pio.cb.getLsbD i && s.pio.lb.getLsbD i)) ∧
    Reads s 0x32 s.pio.ca ∧ Reads s 0x33 s.pio.cb ∧
    Writes s 0x31 v { s with pio := { s.pio with lb := v } } ∧
    Writes s 0x33 v { s with pio := { s.pio with cb := v } } ∧
    (kind = .switchesAndLeds →
      Writes s 0x30 v { s with pio := { s.pio with la := v } } ∧ Writes s 0x32 v { s with pio := { s.pio with ca := v } })

/-- 60_exceptions.md R371, R372, R382, R383: a write to PA or CA with a printer on the PIO, and its strobe check. -/
def Obligations.PrinterStrobe : Prop :=
  ∀ (s : State) (v : Byte), s.devices.pio = some .printer →
    let after (la ca : Byte) (t : State) : Prop :=
      let strobe := la.getLsbD 1 && !ca.getLsbD 1
      let pio := { s.pio with la := la, ca := ca, strobePrev := strobe }
      if s.pio.strobePrev = false ∧ strobe = true ∧ s.printer.busy = false then
        ∃ out, (∀ i, i < 8 → out.getLsbD i = (s.pio.lb.getLsbD i && !s.pio.cb.getLsbD i)) ∧
          t = { s with pio := pio, printer := { s.printer with pending := out, busy := true } }
      else t = { s with pio := pio }
    (∃ t, Writes s 0x30 v t ∧ after v s.pio.ca t) ∧ (∃ t, Writes s 0x32 v t ∧ after s.pio.la v t)

/-- 60_exceptions.md R390 to R392, R400, R402: the registers of the handshake link, the keyboard's write and its waiting read, and the
screen. -/
def Obligations.HandshakeKeyboardScreenRegisters : Prop :=
  ∀ (s : State) (v : Byte),
    (s.devices.handshake = true →
      Reads s 0x40 s.handshake.data ∧
      (s.printer.busy = false →
        Writes s 0x40 v
          { s with handshake := { s.handshake with data := v }, printer := { s.printer with pending := v, busy := true } }) ∧
      (s.printer.busy = true → Writes s 0x40 v s) ∧
      (∃ x, Reads s 0x41 x ∧ ∀ i, i < 8 →
        x.getLsbD i = ((decide (i = 0) && s.printer.busy) || (decide (i = 7) && s.handshake.ie))) ∧
      Writes s 0x41 v { s with handshake := { s.handshake with ie := v.getLsbD 7 } }) ∧
    (s.devices.keyboardAndScreen = true →
      (∃ r, resolve 0x50 s = some (r, s) ∧ deviceRead r s = none) ∧
      Writes s 0x50 v s ∧
      Reads s 0x60 s.screen.last ∧
      Writes s 0x60 v { s with screen := { last := v, output := s.screen.output ++ [v] } })

/-- 60_exceptions.md R333, R345: when a hardware interrupt is accepted. -/
def Obligations.InterruptRequest : Prop :=
  ∀ s : State,
    interruptRequested s = true ↔
      s.flags.IF = true ∧ s.devices.pic = true ∧
      ∃ i, Selected s.pic i ∧ ∀ j, j ≤ i → s.pic.isr.getLsbD j = false

/-- 60_exceptions.md R331, R347: the trap entry of a hardware interrupt: the highest-priority pending line is acknowledged, its
vector taken, and the handler entered. -/
def Obligations.HardwareTrapEntry : Prop :=
  ∀ (s : State) (i : Nat), s.phase = .interrupt → s.md.vec = none → Selected s.pic i →
    ∃ irr isr, SetsBit s.pic.irr irr i false ∧ SetsBit s.pic.isr isr i true ∧
      Enters { s with pic := { s.pic with irr := irr, isr := isr } } (vectorOf s.pic i).toNat .interrupt s.md.start s.md.op
        (.next (trapEntry s))

/-- 60_exceptions.md R360, R385, R393: the steps of the timer and of the printer, and when there is one. -/
def Obligations.TimerAndPrinterSteps : Prop :=
  ∀ (s : State) (rest : List AgentStep),
    let s0 : State := { s with agenda := rest }
    (s.agenda = .timerTick :: rest →
      (s.devices.pic = true →
        (s.timer.cont + 1 ≠ s.timer.comp → step s = .next { s0 with timer := { s.timer with cont := s.timer.cont + 1 } }) ∧
        (s.timer.cont + 1 = s.timer.comp →
          ∃ t, step s = .next t ∧ Asserts { s0 with timer := { s.timer with cont := 0x00 } } t 1)) ∧
      (s.devices.pic = false → step s = .fault (.agentHasNoStep .timerTick))) ∧
    (s.agenda = .printerConsume :: rest →
      (s.devices.pio = some .printer ∨ s.devices.handshake = true → s.printer.busy = true →
        let printed : State := { s0 with printer := { s.printer with paper := s.printer.paper ++ [s.printer.pending], busy := false } }
        ∃ t, step s = .next t ∧ if s.devices.handshake = true ∧ s.handshake.ie = true then Asserts printed t 2 else t = printed) ∧
      (s.printer.busy = false → step s = .fault (.agentHasNoStep .printerConsume)))

/-! ## Memory, reset, invariants -/

/-- 20_memory.md R62, R66, R67, R68: one byte on the bus. -/
def Obligations.MemoryBytes : Prop :=
  ∀ (s : State) (a : Nat) (v : Byte) (key : Option Byte),
    (a < s.params.memSize →
      busAccess { space := .memory, address := a, data := none } key s = .ok (s.mem.read a) s ∧
      ∃ mem, busAccess { space := .memory, address := a, data := some v } key s = .ok v { s with mem := mem } ∧
        Stores s.mem mem [(a, v)] ∧ (s.mem.wf = true → mem.wf = true)) ∧
    (¬ a < s.params.memSize →
      busAccess { space := .memory, address := a, data := none } key s = .error .addressOutOfRange ∧
      busAccess { space := .memory, address := a, data := some v } key s = .error .addressOutOfRange)

/-- The values that 10_state.md R25, R27, R31, R32, R33, R35 and R37 give the machine after reset, under the defaults of
00_scope.md R5, and the invariants in it. -/
def Obligations.ResetState : Prop :=
  State.reset.ip = 0x2000 ∧ State.reset.sp = 0x0000 ∧ State.reset.flags.IF = true ∧ State.reset.phase = .fetching ∧
  State.reset.outcome = .running ∧ State.reset.md = { } ∧ State.reset.error = none ∧
  State.reset.pic = { imr := 0xFF, irr := 0, isr := 0, int0 := 0, int1 := 0, int2 := 0, int3 := 0, int4 := 0, int5 := 0,
                      int6 := 0, int7 := 0 } ∧
  State.reset.timer = { cont := 0, comp := 0 } ∧
  State.reset.pio = { la := 0, lb := 0, ca := 0xFF, cb := 0xFF, switches := 0, strobePrev := false } ∧
  State.reset.handshake = { data := 0, ie := false } ∧
  State.reset.printer = { busy := false, pending := 0, paper := [] } ∧
  State.reset.screen = { last := 0, output := [] } ∧
  State.reset.status = .stopped ∧ State.reset.waitingForInput = false ∧ State.reset.loaded = none ∧
  State.reset.memoryOk = true ∧ State.reset.devicesOk = true ∧ State.reset.cycleOk = true

/-- Every step keeps memory in its canonical form and inside MEM_SIZE. -/
def Obligations.MemoryInvariant : Prop :=
  ∀ s t : State, s.memoryOk = true → step s = .next t → t.memoryOk = true

/-- Every step keeps the device configuration valid (00_scope.md R6) and an unwired printer idle (60_exceptions.md R384). -/
def Obligations.DeviceInvariant : Prop :=
  ∀ s t : State, s.devicesOk = true → step s = .next t → t.devicesOk = true

/-- Every step keeps the cycle state consistent, and a consistent core never answers that it is not. -/
def Obligations.CycleInvariant : Prop :=
  ∀ s : State, s.cycleOk = true →
    (∀ t, step s = .next t → t.cycleOk = true) ∧ step s ≠ .fault .cycleStateInconsistent

/-- 40_instruction_cycle.md R149, 70_reset_and_hazards.md R457: nothing but a reset moves a core that has halted or faulted. -/
def Obligations.StoppedCoreStays : Prop :=
  ∀ s t : State, s.cycleOk = true → s.outcome ≠ .running → step s = .next t →
    SameCore s t ∨ ∃ c rest, s.agenda = .host c :: rest ∧ resets c

/-- 20_memory.md R80, 70_reset_and_hazards.md R432, R458: the timer, the printer and the host's commands, but for those that step or
reset the core, touch no register, no flag, no byte of memory and no cycle state. -/
def Obligations.OtherAgentsSpareTheCore : Prop :=
  ∀ (s t : State) (a : AgentStep) (rest : List AgentStep), s.agenda = a :: rest → step s = .next t →
    a ≠ .core → a ≠ .instruction → a ≠ .host .step → (∀ ch, a ≠ .host (.sendKeyboardChar ch)) →
    (∀ c, a = .host c → ¬ resets c) → SameCore s t

/-- 00_scope.md R6, 70_reset_and_hazards.md R458: nothing changes the device configuration but a reset and the PIO auto-enable, and
nothing changes the parameters. -/
def Obligations.ConfigurationFixed : Prop :=
  ∀ s t : State, step s = .next t →
    t.params = s.params ∧
    (t.devices = s.devices ∨
      (s.params.autoEnablePio = true ∧ s.devices.pio = none ∧
        t.devices = { s.devices with pio := some .switchesAndLeds }) ∨
      ∃ c rest, s.agenda = .host c :: rest ∧ resets c)

/-! ## The host session -/

/-- 70_reset_and_hazards.md R452: a command that is not valid changes nothing but the answer, and a valid one is not answered as
invalid. -/
def Obligations.InvalidCommands : Prop :=
  ∀ (s : State) (c : HostCommand),
    (¬ Valid s c → hostStep c s = .next { s with reply := some .invalidAction }) ∧
    (Valid s c → ∀ t, hostStep c s = .next t → t.reply ≠ some .invalidAction)

/-- 70_reset_and_hazards.md R442, R445, R446, R448 to R451, R453: what the valid commands do that neither step nor reset the core. -/
def Obligations.CommandEffects : Prop :=
  ∀ s : State,
    (∀ m, Valid s (.run m) → hostStep (.run m) s = .next { s with status := .running m, pauseFlag := false, reply := some .ok }) ∧
    (Valid s .pause → hostStep .pause s = .next { s with pauseFlag := true, reply := some .ok }) ∧
    (Valid s (.stop false) →
      hostStep (.stop false) s = .next { s with status := .stopped, waitingForInput := false, reply := some .ok }) ∧
    (Valid s .pressF10 → ∃ t, hostStep .pressF10 s = .next { t with reply := some .ok } ∧ Asserts s t 0) ∧
    (∀ index, Valid s (.toggleSwitch index) →
      ∃ sw, SetsBit s.pio.switches sw index (!s.pio.switches.getLsbD index) ∧
        hostStep (.toggleSwitch index) s = .next { s with pio := { s.pio with switches := sw }, reply := some .ok }) ∧
    (Valid s .cleanScreen →
      hostStep .cleanScreen s = .next { s with screen := { s.screen with output := [] }, reply := some .ok }) ∧
    (Valid s .cleanPrinterBuffer →
      hostStep .cleanPrinterBuffer s = .next { s with printer := { s.printer with paper := [] }, reply := some .ok }) ∧
    (∃ view, hostStep .getComputerState s = .next { s with reply := some (.snapshot view) } ∧
      view.ax = s.ax ∧ view.bx = s.bx ∧ view.cx = s.cx ∧ view.dx = s.dx ∧ view.ip = s.ip ∧ view.sp = s.sp ∧
      view.flags = s.flags ∧ view.memory = s.mem ∧ view.pic = s.pic ∧ view.timer = s.timer ∧ view.pio = s.pio ∧
      view.handshake = s.handshake ∧ view.printer = s.printer ∧ view.screen = s.screen ∧ view.phase = s.phase ∧
      view.metadata = s.md ∧ view.outcome = s.outcome ∧ view.error = s.error)

/-- 70_reset_and_hazards.md R420, R421, R441, R446: `loadProgram` and `stop(true)` reset the machine. -/
def Obligations.ResetCommands : Prop :=
  ∀ (s : State) (p : LoadedProgram), (p.image.map Prod.fst).Nodup →
    (Valid s (.loadProgram p.image p.devices p.policy) →
      ∃ t, hostStep (.loadProgram p.image p.devices p.policy) s = .next t ∧ IsReset s t p (some .ok)) ∧
    (Valid s (.stop true) → s.loaded = some p →
      ∃ t, hostStep (.stop true) s = .next t ∧ IsReset s t p (some .ok))

/-- 70_reset_and_hazards.md R443, R444, R445: when a run pauses after a sub-step of the core, and the command `step`. -/
def Obligations.RunControl : Prop :=
  ∀ s u : State,
    let paused (m : RunMode) (was : Phase) : State :=
      if u.outcome = .running ∧ u.waitingForInput = false ∧
          (m = .cycleChange ∨ (m = .endOfInstruction ∧ u.phase = .fetching) ∨ (u.pauseFlag = true ∧ u.phase ≠ was)) then
        { u with status := .paused }
      else u
    (∀ m rest, s.agenda = .core :: rest → s.status = .running m → s.outcome = .running → s.waitingForInput = false →
      coreSubStep none { s with agenda := rest } = .next u → step s = .next (paused m s.phase)) ∧
    (Valid s .step →
      coreSubStep none { s with status := .running .cycleChange, pauseFlag := false, reply := some .ok } = .next u →
      hostStep .step s = .next (paused .cycleChange s.phase))

/-- 60_exceptions.md R400, 70_reset_and_hazards.md R446, R447: a keyboard read of IN AL waits; the character completes it, and the
core's next two sub-steps put it into AL, in a run that goes on, or is paused by its mode or by a pause asked for in the wait (R443,
R445); a stop abandons it, and the read is still to be done. -/
def Obligations.KeyboardRead : Prop :=
  ∀ (s : State) (ch : Byte) (m : RunMode) (i : Instr) (length : Nat),
    (i = .inAlPort 0x50 ∧ length = 2) ∨ (i = .inAlDx ∧ s.dx = 0x0050 ∧ length = 1) →
    s.devices.keyboardAndScreen = true → s.status = .running m → s.outcome = .running → s.waitingForInput = false →
    ∃ md,
      let p : State := { past s length with phase := .fetchingOperands, md := md, waitingForInput := true }
      let status : HostStatus := if m = .cycleChange ∨ s.pauseFlag = true then .paused else .running m
      exec i s = .next p ∧
      (∃ q u v md',
        hostStep (.sendKeyboardChar ch) p = .next q ∧ q.waitingForInput = false ∧ q.phase = .executing ∧ q.status = status ∧
        coreSubStep none q = .next u ∧ coreSubStep none u = .next v ∧
        v = { putReg (past s length) .w8 0 ch.toNat with
              md := md'
              status := status
              reply := some .ok
              phase := if interruptRequested s then .interrupt else .fetching }) ∧
      hostStep (.stop false) p =
        .next { p with status := .stopped, waitingForInput := false, reply := some .ok } ∧
      coreSubStep none { p with waitingForInput := false } = .next p

/-! ## Events -/

/-- 70_reset_and_hazards.md R454, R460: replaying the events of a step on the state before it gives the machine and the session after
it, for every step, a reset included; and so it is after each sub-step of the core, with the run control that follows it. What the
events carry, and those of the metadata and of the session, are the model's (log 19). -/
def Obligations.EventsReplay : Prop :=
  ∀ s t : State,
    (step s = .next t → SameMachine (replay (stepEvents s) s) t) ∧
    (∀ key, coreStep key s = .next t → SameMachine (replay (coreStepEvents key s) s) t)
end

