-- ==== Sys2Proof/Laws/Memory.lean ====
section
/-! SUPPORT. The laws of main memory: what a byte reads as after a write, and that every memory operation keeps the canonical
form. -/

namespace Sys2Proof.Machine

open Sys2Proof.Config

theorem findCell_insertCell (a : Nat) (v : Byte) (b : Nat) (cells : List Host.Cell) :
    findCell b (insertCell a v cells) = if b = a then some v else findCell b cells := by
  induction cells with
  | nil => simp [insertCell, findCell, eq_comm]
  | cons c rest ih =>
    simp only [insertCell]
    split
    · simp only [findCell]; split <;> simp_all [eq_comm]
    · split
      · simp only [findCell]; split <;> simp_all [eq_comm]
      · simp only [findCell, ih]; split <;> simp_all

theorem findCell_eraseCell (a b : Nat) (cells : List Host.Cell) :
    findCell b (eraseCell a cells) = if b = a then none else findCell b cells := by
  induction cells with
  | nil => simp [eraseCell, findCell]
  | cons c rest ih =>
    simp only [eraseCell, List.filter_cons] at ih ⊢
    split
    · simp only [findCell, ih]; split <;> simp_all
    · simp only [findCell, ih]; split <;> simp_all
      rintro rfl; contradiction

@[simp] theorem Memory.write_background (m : Memory) (a : Nat) (v : Byte) : (m.write a v).background = m.background := by
  unfold Memory.write; split <;> rfl

/-- 20_memory.md R68: a read returns the byte written at its address, and a write leaves every other address alone. -/
@[simp] theorem Memory.read_write (m : Memory) (a : Nat) (v : Byte) (b : Nat) :
    (m.write a v).read b = if b = a then v else m.read b := by
  unfold Memory.read
  rw [Memory.write_background]
  unfold Memory.write
  split
  · simp only [findCell_eraseCell]; split <;> simp_all
  · simp only [findCell_insertCell]; split <;> simp_all

theorem Memory.read_write_same (m : Memory) (a : Nat) (v : Byte) : (m.write a v).read a = v := by simp

theorem Memory.read_write_ne (m : Memory) {a b : Nat} (v : Byte) (h : b ≠ a) : (m.write a v).read b = m.read b := by
  simp [h]

/-- Writing a list of cells: the last one of an address counts, and the addresses it does not name keep their byte. -/
theorem Memory.read_writeAll (cells : List Host.Cell) (m : Memory) (b : Nat) :
    (m.writeAll cells).read b = (findCell b cells.reverse).getD (m.read b) := by
  induction cells generalizing m with
  | nil => rfl
  | cons c rest ih =>
    simp only [Memory.writeAll, ih, Memory.read_write, List.reverse_cons]
    have key : ∀ l : List Host.Cell,
        (findCell b l).getD (if b = c.1 then c.2 else m.read b) = (findCell b (l ++ [c])).getD (m.read b) := by
      intro l
      induction l with
      | nil =>
        simp only [List.nil_append, findCell, eq_comm (a := c.1)]
        split <;> rfl
      | cons d l ih => simp only [List.cons_append, findCell]; split <;> simp_all
    exact key _

/-! ## The canonical form -/

theorem insertCell_fst (a : Nat) (v : Byte) (cells : List Host.Cell) (c : Host.Cell) (h : c ∈ insertCell a v cells) :
    c = (a, v) ∨ c ∈ cells := by
  induction cells with
  | nil => simpa [insertCell] using h
  | cons d rest ih =>
    simp only [insertCell] at h
    split at h
    · simpa using h
    · split at h
      · simp only [List.mem_cons] at h ⊢; tauto
      · simp only [List.mem_cons] at h ⊢
        rcases h with h | h
        · tauto
        · rcases ih h with h | h <;> tauto

theorem insertCell_sorted (a : Nat) (v : Byte) (cells : List Host.Cell)
    (h : (cells.map Prod.fst).Pairwise (· < ·)) : ((insertCell a v cells).map Prod.fst).Pairwise (· < ·) := by
  induction cells with
  | nil => simp [insertCell]
  | cons d rest ih =>
    simp only [List.map_cons, List.pairwise_cons] at h
    simp only [insertCell]
    split
    · rename_i hlt
      simp only [List.map_cons, List.pairwise_cons, List.mem_cons]
      refine ⟨?_, h⟩
      rintro x (rfl | hx)
      · exact hlt
      · exact lt_trans hlt (h.1 x hx)
    · split
      · rename_i he
        simp only [List.map_cons, List.pairwise_cons]
        exact ⟨fun x hx => he ▸ h.1 x hx, h.2⟩
      · simp only [List.map_cons, List.pairwise_cons]
        refine ⟨?_, ih h.2⟩
        intro x hx
        obtain ⟨c, hc, rfl⟩ := List.mem_map.1 hx
        rcases insertCell_fst a v rest c hc with rfl | hc
        · show d.1 < a
          omega
        · exact h.1 _ (List.mem_map_of_mem hc)

/-- Every memory operation keeps the canonical form: a write of one byte. -/
theorem Memory.wf_write {m : Memory} (h : m.wf = true) (a : Nat) (v : Byte) : (m.write a v).wf = true := by
  simp only [Memory.wf, Bool.and_eq_true, decide_eq_true_eq, List.all_eq_true, bne_iff_ne] at h ⊢
  unfold Memory.write
  split
  · refine ⟨h.1.sublist ((List.filter_sublist).map _), fun c hc => h.2 c (List.mem_of_mem_filter hc)⟩
  · refine ⟨insertCell_sorted a v _ h.1, fun c hc => ?_⟩
    rcases insertCell_fst a v _ c hc with rfl | hc
    · assumption
    · exact h.2 c hc

/-- A write of a list of cells. -/
theorem Memory.wf_writeAll (cells : List Host.Cell) {m : Memory} (h : m.wf = true) : (m.writeAll cells).wf = true := by
  induction cells generalizing m with
  | nil => exact h
  | cons c rest ih => exact ih (Memory.wf_write h c.1 c.2)

/-- The placing of instruction bytes (`State.withFetchWord`). -/
theorem Memory.wf_storeBytes (n a : Nat) (bytes : List Byte) {m : Memory} (h : m.wf = true) :
    (storeBytes n a bytes m).wf = true := Memory.wf_writeAll _ h

/-- What a reset does to memory. -/
theorem Memory.wf_initMemory (p : MemoryInitPolicy) (n : Nat) {earlier : Option Memory} (h : ∀ m, earlier = some m → m.wf = true) :
    (initMemory p n earlier).wf = true := by
  cases p <;> cases earlier <;> first | rfl | exact h _ rfl

/-- The memory that a reset can preserve is the memory there is. -/
theorem earlierMemory_cases (s : State) :
    (s.loaded = none ∧ earlierMemory s = none) ∨ (s.loaded ≠ none ∧ earlierMemory s = some s.mem) := by
  unfold earlierMemory; cases s.loaded <;> simp

theorem State.reset_memory_wf : State.reset.mem.wf = true := by decide

/-- The canonical form is one: two memories in it with the same background that read alike are equal. -/
theorem Memory.ext_read {m n : Memory} (hm : m.wf = true) (hn : n.wf = true) (hb : m.background = n.background)
    (h : ∀ a, m.read a = n.read a) : m = n := by
  obtain ⟨cm, bm⟩ := m
  obtain ⟨cn, bn⟩ := n
  subst hb
  simp only [Memory.wf, Bool.and_eq_true, decide_eq_true_eq, List.all_eq_true, bne_iff_ne] at hm hn
  simp only [Memory.read] at h
  congr 1
  -- a cell of a sorted list is what the list finds at its address
  have mem_find : ∀ (l : List Host.Cell), (l.map Prod.fst).Pairwise (· < ·) → ∀ a v, findCell a l = some v ↔ (a, v) ∈ l := by
    intro l
    induction l with
    | nil => simp [findCell]
    | cons c rest ih =>
      intro hs a v
      simp only [List.map_cons, List.pairwise_cons] at hs
      simp only [findCell, List.mem_cons]
      split
      · rename_i he
        constructor
        · intro hv; left; cases hv; rw [← he]
        · rintro (hv | hv)
          · rw [← hv]
          · have := hs.1 a (List.mem_map_of_mem (f := Prod.fst) hv); omega
      · rename_i he
        rw [ih hs.2]
        constructor
        · exact Or.inr
        · rintro (hv | hv)
          · rw [← hv] at he; exact absurd rfl he
          · exact hv
  have sub : ∀ l k : List Host.Cell, (l.map Prod.fst).Pairwise (· < ·) → (k.map Prod.fst).Pairwise (· < ·) →
      (∀ c ∈ l, c.2 ≠ bm.byteAt c.1) → (∀ a, (findCell a l).getD (bm.byteAt a) = (findCell a k).getD (bm.byteAt a)) →
      ∀ c ∈ l, c ∈ k := by
    intro l k hl hk hne hr c hc
    have h1 := (mem_find l hl c.1 c.2).2 hc
    have h2 := hr c.1
    rw [h1] at h2
    simp only [Option.getD_some] at h2
    cases hf : findCell c.1 k with
    | none => rw [hf] at h2; exact absurd h2 (hne c hc)
    | some v =>
      rw [hf] at h2
      have h3 : c.2 = v := h2
      have h4 := (mem_find k hk c.1 v).1 hf
      rw [← h3] at h4
      exact h4
  have nodup : ∀ l : List Host.Cell, (l.map Prod.fst).Pairwise (· < ·) → l.Nodup := fun l hl =>
    List.Nodup.of_map Prod.fst (hl.imp fun h => Nat.ne_of_lt h)
  have perm : cm.Perm cn := (List.perm_ext_iff_of_nodup (nodup _ hm.1) (nodup _ hn.1)).2 fun c =>
    ⟨sub cm cn hm.1 hn.1 hm.2 h c, sub cn cm hn.1 hm.1 hn.2 (fun a => (h a).symm) c⟩
  refine List.Perm.eq_of_pairwise (le := fun c d => c.1 < d.1) ?_ (List.pairwise_map.1 hm.1) (List.pairwise_map.1 hn.1) perm
  intro c d _ _ h1 h2
  omega

end Sys2Proof.Machine
end

