-- ==== Sys2Proof/Laws/State.lean ====
section
/-! SUPPORT. One lemma per field of State for each named update of a state, so that no proof unfolds a record update. -/

namespace Sys2Proof.Machine

variable (s : State)

/-! ## `withMd` -/

@[simp] theorem State.withMd_ax (f : Metadata → Metadata) : (s.withMd f).ax = s.ax := by rfl
@[simp] theorem State.withMd_bx (f : Metadata → Metadata) : (s.withMd f).bx = s.bx := by rfl
@[simp] theorem State.withMd_cx (f : Metadata → Metadata) : (s.withMd f).cx = s.cx := by rfl
@[simp] theorem State.withMd_dx (f : Metadata → Metadata) : (s.withMd f).dx = s.dx := by rfl
@[simp] theorem State.withMd_ip (f : Metadata → Metadata) : (s.withMd f).ip = s.ip := by rfl
@[simp] theorem State.withMd_sp (f : Metadata → Metadata) : (s.withMd f).sp = s.sp := by rfl
@[simp] theorem State.withMd_flags (f : Metadata → Metadata) : (s.withMd f).flags = s.flags := by rfl
@[simp] theorem State.withMd_phase (f : Metadata → Metadata) : (s.withMd f).phase = s.phase := by rfl
@[simp] theorem State.withMd_outcome (f : Metadata → Metadata) : (s.withMd f).outcome = s.outcome := by rfl
@[simp] theorem State.withMd_error (f : Metadata → Metadata) : (s.withMd f).error = s.error := by rfl
@[simp] theorem State.withMd_md (f : Metadata → Metadata) : (s.withMd f).md = f s.md := by rfl
@[simp] theorem State.withMd_mem (f : Metadata → Metadata) : (s.withMd f).mem = s.mem := by rfl
@[simp] theorem State.withMd_params (f : Metadata → Metadata) : (s.withMd f).params = s.params := by rfl
@[simp] theorem State.withMd_devices (f : Metadata → Metadata) : (s.withMd f).devices = s.devices := by rfl
@[simp] theorem State.withMd_pic (f : Metadata → Metadata) : (s.withMd f).pic = s.pic := by rfl
@[simp] theorem State.withMd_timer (f : Metadata → Metadata) : (s.withMd f).timer = s.timer := by rfl
@[simp] theorem State.withMd_pio (f : Metadata → Metadata) : (s.withMd f).pio = s.pio := by rfl
@[simp] theorem State.withMd_handshake (f : Metadata → Metadata) : (s.withMd f).handshake = s.handshake := by rfl
@[simp] theorem State.withMd_printer (f : Metadata → Metadata) : (s.withMd f).printer = s.printer := by rfl
@[simp] theorem State.withMd_screen (f : Metadata → Metadata) : (s.withMd f).screen = s.screen := by rfl
@[simp] theorem State.withMd_status (f : Metadata → Metadata) : (s.withMd f).status = s.status := by rfl
@[simp] theorem State.withMd_waitingForInput (f : Metadata → Metadata) : (s.withMd f).waitingForInput = s.waitingForInput := by rfl
@[simp] theorem State.withMd_pauseFlag (f : Metadata → Metadata) : (s.withMd f).pauseFlag = s.pauseFlag := by rfl
@[simp] theorem State.withMd_loaded (f : Metadata → Metadata) : (s.withMd f).loaded = s.loaded := by rfl
@[simp] theorem State.withMd_agenda (f : Metadata → Metadata) : (s.withMd f).agenda = s.agenda := by rfl
@[simp] theorem State.withMd_draws (f : Metadata → Metadata) : (s.withMd f).draws = s.draws := by rfl
@[simp] theorem State.withMd_reply (f : Metadata → Metadata) : (s.withMd f).reply = s.reply := by rfl

/-- The state with the metadata replaced. -/
def State.setMd (m : Metadata) : State := { s with md := m }

/-! ## `setMd` -/

@[simp] theorem State.setMd_ax (m : Metadata) : (s.setMd m).ax = s.ax := by rfl
@[simp] theorem State.setMd_bx (m : Metadata) : (s.setMd m).bx = s.bx := by rfl
@[simp] theorem State.setMd_cx (m : Metadata) : (s.setMd m).cx = s.cx := by rfl
@[simp] theorem State.setMd_dx (m : Metadata) : (s.setMd m).dx = s.dx := by rfl
@[simp] theorem State.setMd_ip (m : Metadata) : (s.setMd m).ip = s.ip := by rfl
@[simp] theorem State.setMd_sp (m : Metadata) : (s.setMd m).sp = s.sp := by rfl
@[simp] theorem State.setMd_flags (m : Metadata) : (s.setMd m).flags = s.flags := by rfl
@[simp] theorem State.setMd_phase (m : Metadata) : (s.setMd m).phase = s.phase := by rfl
@[simp] theorem State.setMd_outcome (m : Metadata) : (s.setMd m).outcome = s.outcome := by rfl
@[simp] theorem State.setMd_error (m : Metadata) : (s.setMd m).error = s.error := by rfl
@[simp] theorem State.setMd_md (m : Metadata) : (s.setMd m).md = m := by rfl
@[simp] theorem State.setMd_mem (m : Metadata) : (s.setMd m).mem = s.mem := by rfl
@[simp] theorem State.setMd_params (m : Metadata) : (s.setMd m).params = s.params := by rfl
@[simp] theorem State.setMd_devices (m : Metadata) : (s.setMd m).devices = s.devices := by rfl
@[simp] theorem State.setMd_pic (m : Metadata) : (s.setMd m).pic = s.pic := by rfl
@[simp] theorem State.setMd_timer (m : Metadata) : (s.setMd m).timer = s.timer := by rfl
@[simp] theorem State.setMd_pio (m : Metadata) : (s.setMd m).pio = s.pio := by rfl
@[simp] theorem State.setMd_handshake (m : Metadata) : (s.setMd m).handshake = s.handshake := by rfl
@[simp] theorem State.setMd_printer (m : Metadata) : (s.setMd m).printer = s.printer := by rfl
@[simp] theorem State.setMd_screen (m : Metadata) : (s.setMd m).screen = s.screen := by rfl
@[simp] theorem State.setMd_status (m : Metadata) : (s.setMd m).status = s.status := by rfl
@[simp] theorem State.setMd_waitingForInput (m : Metadata) : (s.setMd m).waitingForInput = s.waitingForInput := by rfl
@[simp] theorem State.setMd_pauseFlag (m : Metadata) : (s.setMd m).pauseFlag = s.pauseFlag := by rfl
@[simp] theorem State.setMd_loaded (m : Metadata) : (s.setMd m).loaded = s.loaded := by rfl
@[simp] theorem State.setMd_agenda (m : Metadata) : (s.setMd m).agenda = s.agenda := by rfl
@[simp] theorem State.setMd_draws (m : Metadata) : (s.setMd m).draws = s.draws := by rfl
@[simp] theorem State.setMd_reply (m : Metadata) : (s.setMd m).reply = s.reply := by rfl

/-! ## `bumpSub` -/

@[simp] theorem State.bumpSub_ax : (s.bumpSub).ax = s.ax := by rfl
@[simp] theorem State.bumpSub_bx : (s.bumpSub).bx = s.bx := by rfl
@[simp] theorem State.bumpSub_cx : (s.bumpSub).cx = s.cx := by rfl
@[simp] theorem State.bumpSub_dx : (s.bumpSub).dx = s.dx := by rfl
@[simp] theorem State.bumpSub_ip : (s.bumpSub).ip = s.ip := by rfl
@[simp] theorem State.bumpSub_sp : (s.bumpSub).sp = s.sp := by rfl
@[simp] theorem State.bumpSub_flags : (s.bumpSub).flags = s.flags := by rfl
@[simp] theorem State.bumpSub_phase : (s.bumpSub).phase = s.phase := by rfl
@[simp] theorem State.bumpSub_outcome : (s.bumpSub).outcome = s.outcome := by rfl
@[simp] theorem State.bumpSub_error : (s.bumpSub).error = s.error := by rfl
@[simp] theorem State.bumpSub_md : (s.bumpSub).md = { s.md with sub := s.md.sub + 1 } := by rfl
@[simp] theorem State.bumpSub_mem : (s.bumpSub).mem = s.mem := by rfl
@[simp] theorem State.bumpSub_params : (s.bumpSub).params = s.params := by rfl
@[simp] theorem State.bumpSub_devices : (s.bumpSub).devices = s.devices := by rfl
@[simp] theorem State.bumpSub_pic : (s.bumpSub).pic = s.pic := by rfl
@[simp] theorem State.bumpSub_timer : (s.bumpSub).timer = s.timer := by rfl
@[simp] theorem State.bumpSub_pio : (s.bumpSub).pio = s.pio := by rfl
@[simp] theorem State.bumpSub_handshake : (s.bumpSub).handshake = s.handshake := by rfl
@[simp] theorem State.bumpSub_printer : (s.bumpSub).printer = s.printer := by rfl
@[simp] theorem State.bumpSub_screen : (s.bumpSub).screen = s.screen := by rfl
@[simp] theorem State.bumpSub_status : (s.bumpSub).status = s.status := by rfl
@[simp] theorem State.bumpSub_waitingForInput : (s.bumpSub).waitingForInput = s.waitingForInput := by rfl
@[simp] theorem State.bumpSub_pauseFlag : (s.bumpSub).pauseFlag = s.pauseFlag := by rfl
@[simp] theorem State.bumpSub_loaded : (s.bumpSub).loaded = s.loaded := by rfl
@[simp] theorem State.bumpSub_agenda : (s.bumpSub).agenda = s.agenda := by rfl
@[simp] theorem State.bumpSub_draws : (s.bumpSub).draws = s.draws := by rfl
@[simp] theorem State.bumpSub_reply : (s.bumpSub).reply = s.reply := by rfl

/-! ## `enter` -/

@[simp] theorem State.enter_ax (p : Phase) : (s.enter p).ax = s.ax := by rfl
@[simp] theorem State.enter_bx (p : Phase) : (s.enter p).bx = s.bx := by rfl
@[simp] theorem State.enter_cx (p : Phase) : (s.enter p).cx = s.cx := by rfl
@[simp] theorem State.enter_dx (p : Phase) : (s.enter p).dx = s.dx := by rfl
@[simp] theorem State.enter_ip (p : Phase) : (s.enter p).ip = s.ip := by rfl
@[simp] theorem State.enter_sp (p : Phase) : (s.enter p).sp = s.sp := by rfl
@[simp] theorem State.enter_flags (p : Phase) : (s.enter p).flags = s.flags := by rfl
@[simp] theorem State.enter_phase (p : Phase) : (s.enter p).phase = p := by rfl
@[simp] theorem State.enter_outcome (p : Phase) : (s.enter p).outcome = s.outcome := by rfl
@[simp] theorem State.enter_error (p : Phase) : (s.enter p).error = s.error := by rfl
@[simp] theorem State.enter_md (p : Phase) : (s.enter p).md = { s.md with sub := 0 } := by rfl
@[simp] theorem State.enter_mem (p : Phase) : (s.enter p).mem = s.mem := by rfl
@[simp] theorem State.enter_params (p : Phase) : (s.enter p).params = s.params := by rfl
@[simp] theorem State.enter_devices (p : Phase) : (s.enter p).devices = s.devices := by rfl
@[simp] theorem State.enter_pic (p : Phase) : (s.enter p).pic = s.pic := by rfl
@[simp] theorem State.enter_timer (p : Phase) : (s.enter p).timer = s.timer := by rfl
@[simp] theorem State.enter_pio (p : Phase) : (s.enter p).pio = s.pio := by rfl
@[simp] theorem State.enter_handshake (p : Phase) : (s.enter p).handshake = s.handshake := by rfl
@[simp] theorem State.enter_printer (p : Phase) : (s.enter p).printer = s.printer := by rfl
@[simp] theorem State.enter_screen (p : Phase) : (s.enter p).screen = s.screen := by rfl
@[simp] theorem State.enter_status (p : Phase) : (s.enter p).status = s.status := by rfl
@[simp] theorem State.enter_waitingForInput (p : Phase) : (s.enter p).waitingForInput = s.waitingForInput := by rfl
@[simp] theorem State.enter_pauseFlag (p : Phase) : (s.enter p).pauseFlag = s.pauseFlag := by rfl
@[simp] theorem State.enter_loaded (p : Phase) : (s.enter p).loaded = s.loaded := by rfl
@[simp] theorem State.enter_agenda (p : Phase) : (s.enter p).agenda = s.agenda := by rfl
@[simp] theorem State.enter_draws (p : Phase) : (s.enter p).draws = s.draws := by rfl
@[simp] theorem State.enter_reply (p : Phase) : (s.enter p).reply = s.reply := by rfl

/-! ## `toFetching` -/

@[simp] theorem State.toFetching_ax : (s.toFetching).ax = s.ax := by rfl
@[simp] theorem State.toFetching_bx : (s.toFetching).bx = s.bx := by rfl
@[simp] theorem State.toFetching_cx : (s.toFetching).cx = s.cx := by rfl
@[simp] theorem State.toFetching_dx : (s.toFetching).dx = s.dx := by rfl
@[simp] theorem State.toFetching_ip : (s.toFetching).ip = s.ip := by rfl
@[simp] theorem State.toFetching_sp : (s.toFetching).sp = s.sp := by rfl
@[simp] theorem State.toFetching_flags : (s.toFetching).flags = s.flags := by rfl
@[simp] theorem State.toFetching_phase : (s.toFetching).phase = .fetching := by rfl
@[simp] theorem State.toFetching_outcome : (s.toFetching).outcome = s.outcome := by rfl
@[simp] theorem State.toFetching_error : (s.toFetching).error = s.error := by rfl
@[simp] theorem State.toFetching_md : (s.toFetching).md = { } := by rfl
@[simp] theorem State.toFetching_mem : (s.toFetching).mem = s.mem := by rfl
@[simp] theorem State.toFetching_params : (s.toFetching).params = s.params := by rfl
@[simp] theorem State.toFetching_devices : (s.toFetching).devices = s.devices := by rfl
@[simp] theorem State.toFetching_pic : (s.toFetching).pic = s.pic := by rfl
@[simp] theorem State.toFetching_timer : (s.toFetching).timer = s.timer := by rfl
@[simp] theorem State.toFetching_pio : (s.toFetching).pio = s.pio := by rfl
@[simp] theorem State.toFetching_handshake : (s.toFetching).handshake = s.handshake := by rfl
@[simp] theorem State.toFetching_printer : (s.toFetching).printer = s.printer := by rfl
@[simp] theorem State.toFetching_screen : (s.toFetching).screen = s.screen := by rfl
@[simp] theorem State.toFetching_status : (s.toFetching).status = s.status := by rfl
@[simp] theorem State.toFetching_waitingForInput : (s.toFetching).waitingForInput = s.waitingForInput := by rfl
@[simp] theorem State.toFetching_pauseFlag : (s.toFetching).pauseFlag = s.pauseFlag := by rfl
@[simp] theorem State.toFetching_loaded : (s.toFetching).loaded = s.loaded := by rfl
@[simp] theorem State.toFetching_agenda : (s.toFetching).agenda = s.agenda := by rfl
@[simp] theorem State.toFetching_draws : (s.toFetching).draws = s.draws := by rfl
@[simp] theorem State.toFetching_reply : (s.toFetching).reply = s.reply := by rfl

/-! ## `setReg16` -/

@[simp] theorem State.setReg16_ip (r : Reg16) (v : Word) : (s.setReg16 r v).ip = s.ip := by cases r <;> rfl
@[simp] theorem State.setReg16_sp (r : Reg16) (v : Word) : (s.setReg16 r v).sp = s.sp := by cases r <;> rfl
@[simp] theorem State.setReg16_flags (r : Reg16) (v : Word) : (s.setReg16 r v).flags = s.flags := by cases r <;> rfl
@[simp] theorem State.setReg16_phase (r : Reg16) (v : Word) : (s.setReg16 r v).phase = s.phase := by cases r <;> rfl
@[simp] theorem State.setReg16_outcome (r : Reg16) (v : Word) : (s.setReg16 r v).outcome = s.outcome := by cases r <;> rfl
@[simp] theorem State.setReg16_error (r : Reg16) (v : Word) : (s.setReg16 r v).error = s.error := by cases r <;> rfl
@[simp] theorem State.setReg16_md (r : Reg16) (v : Word) : (s.setReg16 r v).md = s.md := by cases r <;> rfl
@[simp] theorem State.setReg16_mem (r : Reg16) (v : Word) : (s.setReg16 r v).mem = s.mem := by cases r <;> rfl
@[simp] theorem State.setReg16_params (r : Reg16) (v : Word) : (s.setReg16 r v).params = s.params := by cases r <;> rfl
@[simp] theorem State.setReg16_devices (r : Reg16) (v : Word) : (s.setReg16 r v).devices = s.devices := by cases r <;> rfl
@[simp] theorem State.setReg16_pic (r : Reg16) (v : Word) : (s.setReg16 r v).pic = s.pic := by cases r <;> rfl
@[simp] theorem State.setReg16_timer (r : Reg16) (v : Word) : (s.setReg16 r v).timer = s.timer := by cases r <;> rfl
@[simp] theorem State.setReg16_pio (r : Reg16) (v : Word) : (s.setReg16 r v).pio = s.pio := by cases r <;> rfl
@[simp] theorem State.setReg16_handshake (r : Reg16) (v : Word) : (s.setReg16 r v).handshake = s.handshake := by cases r <;> rfl
@[simp] theorem State.setReg16_printer (r : Reg16) (v : Word) : (s.setReg16 r v).printer = s.printer := by cases r <;> rfl
@[simp] theorem State.setReg16_screen (r : Reg16) (v : Word) : (s.setReg16 r v).screen = s.screen := by cases r <;> rfl
@[simp] theorem State.setReg16_status (r : Reg16) (v : Word) : (s.setReg16 r v).status = s.status := by cases r <;> rfl
@[simp] theorem State.setReg16_waitingForInput (r : Reg16) (v : Word) : (s.setReg16 r v).waitingForInput = s.waitingForInput := by cases r <;> rfl
@[simp] theorem State.setReg16_pauseFlag (r : Reg16) (v : Word) : (s.setReg16 r v).pauseFlag = s.pauseFlag := by cases r <;> rfl
@[simp] theorem State.setReg16_loaded (r : Reg16) (v : Word) : (s.setReg16 r v).loaded = s.loaded := by cases r <;> rfl
@[simp] theorem State.setReg16_agenda (r : Reg16) (v : Word) : (s.setReg16 r v).agenda = s.agenda := by cases r <;> rfl
@[simp] theorem State.setReg16_draws (r : Reg16) (v : Word) : (s.setReg16 r v).draws = s.draws := by cases r <;> rfl
@[simp] theorem State.setReg16_reply (r : Reg16) (v : Word) : (s.setReg16 r v).reply = s.reply := by cases r <;> rfl

/-- A register reads as what was written to it, and a write leaves the other three alone (10_state.md R21). -/
@[simp] theorem State.setReg16_reg16 (r q : Reg16) (v : Word) :
    (s.setReg16 r v).reg16 q = if q = r then v else s.reg16 q := by
  cases r <;> cases q <;> rfl

/-! ## `setReg8` -/

@[simp] theorem State.setReg8_ip (n : RegNum) (v : Byte) : (s.setReg8 n v).ip = s.ip := by unfold State.setReg8; split <;> simp
@[simp] theorem State.setReg8_sp (n : RegNum) (v : Byte) : (s.setReg8 n v).sp = s.sp := by unfold State.setReg8; split <;> simp
@[simp] theorem State.setReg8_flags (n : RegNum) (v : Byte) : (s.setReg8 n v).flags = s.flags := by unfold State.setReg8; split <;> simp
@[simp] theorem State.setReg8_phase (n : RegNum) (v : Byte) : (s.setReg8 n v).phase = s.phase := by unfold State.setReg8; split <;> simp
@[simp] theorem State.setReg8_outcome (n : RegNum) (v : Byte) : (s.setReg8 n v).outcome = s.outcome := by unfold State.setReg8; split <;> simp
@[simp] theorem State.setReg8_error (n : RegNum) (v : Byte) : (s.setReg8 n v).error = s.error := by unfold State.setReg8; split <;> simp
@[simp] theorem State.setReg8_md (n : RegNum) (v : Byte) : (s.setReg8 n v).md = s.md := by unfold State.setReg8; split <;> simp
@[simp] theorem State.setReg8_mem (n : RegNum) (v : Byte) : (s.setReg8 n v).mem = s.mem := by unfold State.setReg8; split <;> simp
@[simp] theorem State.setReg8_params (n : RegNum) (v : Byte) : (s.setReg8 n v).params = s.params := by unfold State.setReg8; split <;> simp
@[simp] theorem State.setReg8_devices (n : RegNum) (v : Byte) : (s.setReg8 n v).devices = s.devices := by unfold State.setReg8; split <;> simp
@[simp] theorem State.setReg8_pic (n : RegNum) (v : Byte) : (s.setReg8 n v).pic = s.pic := by unfold State.setReg8; split <;> simp
@[simp] theorem State.setReg8_timer (n : RegNum) (v : Byte) : (s.setReg8 n v).timer = s.timer := by unfold State.setReg8; split <;> simp
@[simp] theorem State.setReg8_pio (n : RegNum) (v : Byte) : (s.setReg8 n v).pio = s.pio := by unfold State.setReg8; split <;> simp
@[simp] theorem State.setReg8_handshake (n : RegNum) (v : Byte) : (s.setReg8 n v).handshake = s.handshake := by unfold State.setReg8; split <;> simp
@[simp] theorem State.setReg8_printer (n : RegNum) (v : Byte) : (s.setReg8 n v).printer = s.printer := by unfold State.setReg8; split <;> simp
@[simp] theorem State.setReg8_screen (n : RegNum) (v : Byte) : (s.setReg8 n v).screen = s.screen := by unfold State.setReg8; split <;> simp
@[simp] theorem State.setReg8_status (n : RegNum) (v : Byte) : (s.setReg8 n v).status = s.status := by unfold State.setReg8; split <;> simp
@[simp] theorem State.setReg8_waitingForInput (n : RegNum) (v : Byte) : (s.setReg8 n v).waitingForInput = s.waitingForInput := by unfold State.setReg8; split <;> simp
@[simp] theorem State.setReg8_pauseFlag (n : RegNum) (v : Byte) : (s.setReg8 n v).pauseFlag = s.pauseFlag := by unfold State.setReg8; split <;> simp
@[simp] theorem State.setReg8_loaded (n : RegNum) (v : Byte) : (s.setReg8 n v).loaded = s.loaded := by unfold State.setReg8; split <;> simp
@[simp] theorem State.setReg8_agenda (n : RegNum) (v : Byte) : (s.setReg8 n v).agenda = s.agenda := by unfold State.setReg8; split <;> simp
@[simp] theorem State.setReg8_draws (n : RegNum) (v : Byte) : (s.setReg8 n v).draws = s.draws := by unfold State.setReg8; split <;> simp
@[simp] theorem State.setReg8_reply (n : RegNum) (v : Byte) : (s.setReg8 n v).reply = s.reply := by unfold State.setReg8; split <;> simp

/-! ## `setReg` -/

@[simp] theorem State.setReg_ip (w : Width) (n : RegNum) (v : Word) : (s.setReg w n v).ip = s.ip := by cases w <;> simp [State.setReg]
@[simp] theorem State.setReg_sp (w : Width) (n : RegNum) (v : Word) : (s.setReg w n v).sp = s.sp := by cases w <;> simp [State.setReg]
@[simp] theorem State.setReg_flags (w : Width) (n : RegNum) (v : Word) : (s.setReg w n v).flags = s.flags := by cases w <;> simp [State.setReg]
@[simp] theorem State.setReg_phase (w : Width) (n : RegNum) (v : Word) : (s.setReg w n v).phase = s.phase := by cases w <;> simp [State.setReg]
@[simp] theorem State.setReg_outcome (w : Width) (n : RegNum) (v : Word) : (s.setReg w n v).outcome = s.outcome := by cases w <;> simp [State.setReg]
@[simp] theorem State.setReg_error (w : Width) (n : RegNum) (v : Word) : (s.setReg w n v).error = s.error := by cases w <;> simp [State.setReg]
@[simp] theorem State.setReg_md (w : Width) (n : RegNum) (v : Word) : (s.setReg w n v).md = s.md := by cases w <;> simp [State.setReg]
@[simp] theorem State.setReg_mem (w : Width) (n : RegNum) (v : Word) : (s.setReg w n v).mem = s.mem := by cases w <;> simp [State.setReg]
@[simp] theorem State.setReg_params (w : Width) (n : RegNum) (v : Word) : (s.setReg w n v).params = s.params := by cases w <;> simp [State.setReg]
@[simp] theorem State.setReg_devices (w : Width) (n : RegNum) (v : Word) : (s.setReg w n v).devices = s.devices := by cases w <;> simp [State.setReg]
@[simp] theorem State.setReg_pic (w : Width) (n : RegNum) (v : Word) : (s.setReg w n v).pic = s.pic := by cases w <;> simp [State.setReg]
@[simp] theorem State.setReg_timer (w : Width) (n : RegNum) (v : Word) : (s.setReg w n v).timer = s.timer := by cases w <;> simp [State.setReg]
@[simp] theorem State.setReg_pio (w : Width) (n : RegNum) (v : Word) : (s.setReg w n v).pio = s.pio := by cases w <;> simp [State.setReg]
@[simp] theorem State.setReg_handshake (w : Width) (n : RegNum) (v : Word) : (s.setReg w n v).handshake = s.handshake := by cases w <;> simp [State.setReg]
@[simp] theorem State.setReg_printer (w : Width) (n : RegNum) (v : Word) : (s.setReg w n v).printer = s.printer := by cases w <;> simp [State.setReg]
@[simp] theorem State.setReg_screen (w : Width) (n : RegNum) (v : Word) : (s.setReg w n v).screen = s.screen := by cases w <;> simp [State.setReg]
@[simp] theorem State.setReg_status (w : Width) (n : RegNum) (v : Word) : (s.setReg w n v).status = s.status := by cases w <;> simp [State.setReg]
@[simp] theorem State.setReg_waitingForInput (w : Width) (n : RegNum) (v : Word) : (s.setReg w n v).waitingForInput = s.waitingForInput := by cases w <;> simp [State.setReg]
@[simp] theorem State.setReg_pauseFlag (w : Width) (n : RegNum) (v : Word) : (s.setReg w n v).pauseFlag = s.pauseFlag := by cases w <;> simp [State.setReg]
@[simp] theorem State.setReg_loaded (w : Width) (n : RegNum) (v : Word) : (s.setReg w n v).loaded = s.loaded := by cases w <;> simp [State.setReg]
@[simp] theorem State.setReg_agenda (w : Width) (n : RegNum) (v : Word) : (s.setReg w n v).agenda = s.agenda := by cases w <;> simp [State.setReg]
@[simp] theorem State.setReg_draws (w : Width) (n : RegNum) (v : Word) : (s.setReg w n v).draws = s.draws := by cases w <;> simp [State.setReg]
@[simp] theorem State.setReg_reply (w : Width) (n : RegNum) (v : Word) : (s.setReg w n v).reply = s.reply := by cases w <;> simp [State.setReg]

/-! ## `raise` -/

@[simp] theorem raise_ax (k : FaultKind) (i : FaultInfo) : (raise k i s).ax = s.ax := by rfl
@[simp] theorem raise_bx (k : FaultKind) (i : FaultInfo) : (raise k i s).bx = s.bx := by rfl
@[simp] theorem raise_cx (k : FaultKind) (i : FaultInfo) : (raise k i s).cx = s.cx := by rfl
@[simp] theorem raise_dx (k : FaultKind) (i : FaultInfo) : (raise k i s).dx = s.dx := by rfl
@[simp] theorem raise_ip (k : FaultKind) (i : FaultInfo) : (raise k i s).ip = s.ip := by rfl
@[simp] theorem raise_sp (k : FaultKind) (i : FaultInfo) : (raise k i s).sp = s.sp := by rfl
@[simp] theorem raise_flags (k : FaultKind) (i : FaultInfo) : (raise k i s).flags = s.flags := by rfl
@[simp] theorem raise_phase (k : FaultKind) (i : FaultInfo) : (raise k i s).phase = .stopped := by rfl
@[simp] theorem raise_outcome (k : FaultKind) (i : FaultInfo) : (raise k i s).outcome = .stoppedError := by rfl
@[simp] theorem raise_error (k : FaultKind) (i : FaultInfo) : (raise k i s).error = some ⟨k, k.code, i, s.phase, s.md.start, s.md.op, s.ip⟩ := by rfl
@[simp] theorem raise_md (k : FaultKind) (i : FaultInfo) : (raise k i s).md = s.md := by rfl
@[simp] theorem raise_mem (k : FaultKind) (i : FaultInfo) : (raise k i s).mem = s.mem := by rfl
@[simp] theorem raise_params (k : FaultKind) (i : FaultInfo) : (raise k i s).params = s.params := by rfl
@[simp] theorem raise_devices (k : FaultKind) (i : FaultInfo) : (raise k i s).devices = s.devices := by rfl
@[simp] theorem raise_pic (k : FaultKind) (i : FaultInfo) : (raise k i s).pic = s.pic := by rfl
@[simp] theorem raise_timer (k : FaultKind) (i : FaultInfo) : (raise k i s).timer = s.timer := by rfl
@[simp] theorem raise_pio (k : FaultKind) (i : FaultInfo) : (raise k i s).pio = s.pio := by rfl
@[simp] theorem raise_handshake (k : FaultKind) (i : FaultInfo) : (raise k i s).handshake = s.handshake := by rfl
@[simp] theorem raise_printer (k : FaultKind) (i : FaultInfo) : (raise k i s).printer = s.printer := by rfl
@[simp] theorem raise_screen (k : FaultKind) (i : FaultInfo) : (raise k i s).screen = s.screen := by rfl
@[simp] theorem raise_status (k : FaultKind) (i : FaultInfo) : (raise k i s).status = .stopped := by rfl
@[simp] theorem raise_waitingForInput (k : FaultKind) (i : FaultInfo) : (raise k i s).waitingForInput = s.waitingForInput := by rfl
@[simp] theorem raise_pauseFlag (k : FaultKind) (i : FaultInfo) : (raise k i s).pauseFlag = s.pauseFlag := by rfl
@[simp] theorem raise_loaded (k : FaultKind) (i : FaultInfo) : (raise k i s).loaded = s.loaded := by rfl
@[simp] theorem raise_agenda (k : FaultKind) (i : FaultInfo) : (raise k i s).agenda = s.agenda := by rfl
@[simp] theorem raise_draws (k : FaultKind) (i : FaultInfo) : (raise k i s).draws = s.draws := by rfl
@[simp] theorem raise_reply (k : FaultKind) (i : FaultInfo) : (raise k i s).reply = s.reply := by rfl

/-! ## `haltStep` -/

@[simp] theorem haltStep_ax : (haltStep s).ax = s.ax := by rfl
@[simp] theorem haltStep_bx : (haltStep s).bx = s.bx := by rfl
@[simp] theorem haltStep_cx : (haltStep s).cx = s.cx := by rfl
@[simp] theorem haltStep_dx : (haltStep s).dx = s.dx := by rfl
@[simp] theorem haltStep_ip : (haltStep s).ip = s.ip := by rfl
@[simp] theorem haltStep_sp : (haltStep s).sp = s.sp := by rfl
@[simp] theorem haltStep_flags : (haltStep s).flags = s.flags := by rfl
@[simp] theorem haltStep_phase : (haltStep s).phase = .stopped := by rfl
@[simp] theorem haltStep_outcome : (haltStep s).outcome = .halted := by rfl
@[simp] theorem haltStep_error : (haltStep s).error = s.error := by rfl
@[simp] theorem haltStep_md : (haltStep s).md = s.md := by rfl
@[simp] theorem haltStep_mem : (haltStep s).mem = s.mem := by rfl
@[simp] theorem haltStep_params : (haltStep s).params = s.params := by rfl
@[simp] theorem haltStep_devices : (haltStep s).devices = s.devices := by rfl
@[simp] theorem haltStep_pic : (haltStep s).pic = s.pic := by rfl
@[simp] theorem haltStep_timer : (haltStep s).timer = s.timer := by rfl
@[simp] theorem haltStep_pio : (haltStep s).pio = s.pio := by rfl
@[simp] theorem haltStep_handshake : (haltStep s).handshake = s.handshake := by rfl
@[simp] theorem haltStep_printer : (haltStep s).printer = s.printer := by rfl
@[simp] theorem haltStep_screen : (haltStep s).screen = s.screen := by rfl
@[simp] theorem haltStep_status : (haltStep s).status = .stopped := by rfl
@[simp] theorem haltStep_waitingForInput : (haltStep s).waitingForInput = s.waitingForInput := by rfl
@[simp] theorem haltStep_pauseFlag : (haltStep s).pauseFlag = s.pauseFlag := by rfl
@[simp] theorem haltStep_loaded : (haltStep s).loaded = s.loaded := by rfl
@[simp] theorem haltStep_agenda : (haltStep s).agenda = s.agenda := by rfl
@[simp] theorem haltStep_draws : (haltStep s).draws = s.draws := by rfl
@[simp] theorem haltStep_reply : (haltStep s).reply = s.reply := by rfl

/-! ## `assertLine` -/

@[simp] theorem assertLine_ax (i : Nat) : (assertLine i s).ax = s.ax := by unfold assertLine; split <;> simp_all
@[simp] theorem assertLine_bx (i : Nat) : (assertLine i s).bx = s.bx := by unfold assertLine; split <;> simp_all
@[simp] theorem assertLine_cx (i : Nat) : (assertLine i s).cx = s.cx := by unfold assertLine; split <;> simp_all
@[simp] theorem assertLine_dx (i : Nat) : (assertLine i s).dx = s.dx := by unfold assertLine; split <;> simp_all
@[simp] theorem assertLine_ip (i : Nat) : (assertLine i s).ip = s.ip := by unfold assertLine; split <;> simp_all
@[simp] theorem assertLine_sp (i : Nat) : (assertLine i s).sp = s.sp := by unfold assertLine; split <;> simp_all
@[simp] theorem assertLine_flags (i : Nat) : (assertLine i s).flags = s.flags := by unfold assertLine; split <;> simp_all
@[simp] theorem assertLine_phase (i : Nat) : (assertLine i s).phase = s.phase := by unfold assertLine; split <;> simp_all
@[simp] theorem assertLine_outcome (i : Nat) : (assertLine i s).outcome = s.outcome := by unfold assertLine; split <;> simp_all
@[simp] theorem assertLine_error (i : Nat) : (assertLine i s).error = s.error := by unfold assertLine; split <;> simp_all
@[simp] theorem assertLine_md (i : Nat) : (assertLine i s).md = s.md := by unfold assertLine; split <;> simp_all
@[simp] theorem assertLine_mem (i : Nat) : (assertLine i s).mem = s.mem := by unfold assertLine; split <;> simp_all
@[simp] theorem assertLine_params (i : Nat) : (assertLine i s).params = s.params := by unfold assertLine; split <;> simp_all
@[simp] theorem assertLine_devices (i : Nat) : (assertLine i s).devices = s.devices := by unfold assertLine; split <;> simp_all
@[simp] theorem assertLine_pic (i : Nat) : (assertLine i s).pic = if s.devices.pic then s.pic.assert i else s.pic := by unfold assertLine; split <;> simp_all
@[simp] theorem assertLine_timer (i : Nat) : (assertLine i s).timer = s.timer := by unfold assertLine; split <;> simp_all
@[simp] theorem assertLine_pio (i : Nat) : (assertLine i s).pio = s.pio := by unfold assertLine; split <;> simp_all
@[simp] theorem assertLine_handshake (i : Nat) : (assertLine i s).handshake = s.handshake := by unfold assertLine; split <;> simp_all
@[simp] theorem assertLine_printer (i : Nat) : (assertLine i s).printer = s.printer := by unfold assertLine; split <;> simp_all
@[simp] theorem assertLine_screen (i : Nat) : (assertLine i s).screen = s.screen := by unfold assertLine; split <;> simp_all
@[simp] theorem assertLine_status (i : Nat) : (assertLine i s).status = s.status := by unfold assertLine; split <;> simp_all
@[simp] theorem assertLine_waitingForInput (i : Nat) : (assertLine i s).waitingForInput = s.waitingForInput := by unfold assertLine; split <;> simp_all
@[simp] theorem assertLine_pauseFlag (i : Nat) : (assertLine i s).pauseFlag = s.pauseFlag := by unfold assertLine; split <;> simp_all
@[simp] theorem assertLine_loaded (i : Nat) : (assertLine i s).loaded = s.loaded := by unfold assertLine; split <;> simp_all
@[simp] theorem assertLine_agenda (i : Nat) : (assertLine i s).agenda = s.agenda := by unfold assertLine; split <;> simp_all
@[simp] theorem assertLine_draws (i : Nat) : (assertLine i s).draws = s.draws := by unfold assertLine; split <;> simp_all
@[simp] theorem assertLine_reply (i : Nat) : (assertLine i s).reply = s.reply := by unfold assertLine; split <;> simp_all

end Sys2Proof.Machine
end

