-- ==== Sys2Proof/Laws/Ops.lean ====
section
/-! SUPPORT. One law per shared operation: what a bus access, a range check, an action and a list of sub-steps can do. The
states between two actions are written `s.setMd m`: within an instruction the operand reads change the metadata only. -/

namespace Sys2Proof.Machine

open Sys2Proof.Config

/-! ## Register bytes -/

@[simp] theorem rbB_rByte (r : RegNum) : rbB (rByte r) = r := by revert r; decide

@[simp] theorem rbA_rrByte (a b : RegNum) : rbA (rrByte a b) = a := by revert a b; decide

@[simp] theorem rbB_rrByte (a b : RegNum) : rbB (rrByte a b) = b := by revert a b; decide

/-! ## Metadata as a whole -/

theorem State.setMd_self (s : State) : s.setMd s.md = s := rfl

theorem State.withMd_setMd (s : State) (m : Metadata) (f : Metadata → Metadata) : (s.setMd m).withMd f = s.setMd (f m) := rfl

theorem State.bumpSub_setMd (s : State) (m : Metadata) :
    (s.setMd m).bumpSub = s.setMd { m with sub := m.sub + 1 } := rfl

theorem State.setReg16_setMd (s : State) (m : Metadata) (r : Reg16) (v : Word) :
    (s.setMd m).setReg16 r v = (s.setReg16 r v).setMd m := by cases r <;> rfl

theorem State.setReg_setMd (s : State) (m : Metadata) (w : Width) (r : RegNum) (v : Word) :
    (s.setMd m).setReg w r v = (s.setReg w r v).setMd m := by
  cases w
  · simp only [State.setReg, State.setReg8]
    split <;> exact State.setReg16_setMd ..
  · exact State.setReg16_setMd ..

theorem State.reg_setMd (s : State) (m : Metadata) (w : Width) (r : RegNum) : (s.setMd m).reg w r = s.reg w r := rfl

/-! ## Bus accesses (20_memory.md R62, R66, R67, R78) -/

/-- A memory read has three outcomes: the byte, in the same state, below MEM_SIZE; and the fault otherwise. -/
theorem busRead_memory (a : Nat) (key : Option Byte) (s : State) (k : Byte → State → Flow) :
    busRead .memory a key s k =
      if a < s.params.memSize then k (s.mem.read a) s else .stop (raise .addressOutOfRange (.bus .memory a) s) := by
  by_cases h : a < s.params.memSize <;> simp only [busRead, busAccess, h, if_true, if_false]

/-- A memory write puts its byte, or faults and changes nothing else. -/
theorem busWrite_memory (a : Nat) (v : Byte) (s : State) :
    busWrite .memory a v s =
      if a < s.params.memSize then .go { s with mem := s.mem.write a v }
      else .stop (raise .addressOutOfRange (.bus .memory a) s) := by
  by_cases h : a < s.params.memSize <;> simp only [busWrite, busAccess, h, if_true, if_false]

/-- An IO read: refused when no register answers, parked on the keyboard with no character, and the register's value
otherwise (20_memory.md R72, R76; 60_exceptions.md R400). -/
theorem busRead_io (p : Nat) (key : Option Byte) (s : State) (k : Byte → State → Flow) :
    busRead .io p key s k =
      match resolve p s with
      | none => .stop (raise .ioMemoryNotConnected (.bus .io p) s)
      | some (r, s') =>
        match deviceRead r s' with
        | some v => k v s'
        | none =>
          match key with
          | some ch => k ch s'
          | none => .park := by
  unfold busRead busAccess
  simp only
  cases resolve p s with
  | none => rfl
  | some q =>
    obtain ⟨r, s'⟩ := q
    simp only
    cases deviceRead r s' <;> cases key <;> rfl

/-- An IO write: refused when no register answers, and the register's write otherwise (20_memory.md R72, R77). It never
waits. -/
theorem busWrite_io (p : Nat) (v : Byte) (s : State) :
    busWrite .io p v s =
      match resolve p s with
      | none => .stop (raise .ioMemoryNotConnected (.bus .io p) s)
      | some (r, s') => .go (deviceWrite r v s') := by
  unfold busWrite busAccess
  simp only
  cases resolve p s <;> rfl

/-- The checks of a 2-byte access name the first address out of range (60_exceptions.md R321). -/
theorem claimMemory2_eq (a : Nat) (s : State) :
    claimMemory2 a s =
      if a + 1 < s.params.memSize then .go s
      else .stop (raise .addressOutOfRange (.bus .memory (if a < s.params.memSize then a + 1 else a)) s) := by
  unfold claimMemory2 claimMemory
  split
  · by_cases h : a + 1 < s.params.memSize <;> simp only [Flow.andThen, h, if_true, if_false]
  · rename_i h; rw [if_neg (by omega)]; rfl

theorem claimMemory2_ok {a : Nat} {s : State} (h : a + 1 < s.params.memSize) : claimMemory2 a s = .go s := by
  rw [claimMemory2_eq, if_pos h]

theorem busRead_memory_ok {a : Nat} {key : Option Byte} {s : State} {k : Byte → State → Flow}
    (h : a < s.params.memSize) : busRead .memory a key s k = k (s.mem.read a) s := by
  rw [busRead_memory, if_pos h]

theorem busWrite_memory_ok {a : Nat} {v : Byte} {s : State} (h : a < s.params.memSize) :
    busWrite .memory a v s = .go { s with mem := s.mem.write a v } := by
  rw [busWrite_memory, if_pos h]

/-! ## Lists of actions and of sub-steps -/

theorem runActs_cons {key : Option Byte} {act : Act} {rest : List Act} {s t : State} {f : Flow}
    (h : act.run key s = .go t) (hr : runActs key rest t = f) : runActs key (act :: rest) s = f := by
  simp only [runActs, h, Flow.andThen, hr]

theorem runActs_single {key : Option Byte} {act : Act} {s : State} : runActs key [act] s = act.run key s := by
  simp only [runActs]
  cases act.run key s <;> rfl

theorem runActs_append {key : Option Byte} {as bs : List Act} {s : State} :
    runActs key (as ++ bs) s = (runActs key as s).andThen (runActs key bs) := by
  induction as generalizing s with
  | nil => rfl
  | cons a as ih =>
    simp only [List.cons_append, runActs]
    cases a.run key s with
    | go t => simp only [Flow.andThen]; exact ih
    | stop t => rfl
    | park => rfl

/-- The sub-steps all complete, and lead from `s` to `t`. -/
def Runs (subs : List (List Act)) (s t : State) : Prop := ∀ k, runSubSteps subs s k = k t

theorem Runs.nil {s : State} : Runs [] s s := fun _ => rfl

theorem Runs.cons {acts : List Act} {rest : List (List Act)} {s t u : State} (h : runActs none acts s = .go t)
    (hr : Runs rest t.bumpSub u) : Runs (acts :: rest) s u := by
  intro k
  simp only [runSubSteps, h]
  exact hr k

theorem runSubSteps_append (as bs : List (List Act)) (s : State) (k : State → State) :
    runSubSteps (as ++ bs) s k = runSubSteps as s fun t => runSubSteps bs t k := by
  induction as generalizing s with
  | nil => rfl
  | cons a as ih =>
    simp only [List.cons_append, runSubSteps]
    cases runActs none a s with
    | go t => exact ih _
    | stop t => rfl
    | park => rfl

theorem Runs.append {as bs : List (List Act)} {s t u : State} (h : Runs as s t) (hr : Runs bs t u) :
    Runs (as ++ bs) s u := by
  intro k
  rw [runSubSteps_append, h, hr k]

/-- The sub-steps complete up to one that faults, which leaves `t`. -/
def Stops (subs : List (List Act)) (s t : State) : Prop := ∀ k, runSubSteps subs s k = t

theorem Stops.here {acts : List Act} {rest : List (List Act)} {s t : State} (h : runActs none acts s = .stop t) :
    Stops (acts :: rest) s t := by
  intro k
  simp only [runSubSteps, h]

theorem Stops.cons {acts : List Act} {rest : List (List Act)} {s t u : State} (h : runActs none acts s = .go t)
    (hr : Stops rest t.bumpSub u) : Stops (acts :: rest) s u := by
  intro k
  simp only [runSubSteps, h]
  exact hr k

theorem Stops.parked {acts : List Act} {rest : List (List Act)} {s : State} (h : runActs none acts s = .park) :
    Stops (acts :: rest) s { s with waitingForInput := true } := by
  intro k
  simp only [runSubSteps, h]

theorem Runs.stops {as bs : List (List Act)} {s t u : State} (h : Runs as s t) (hr : Stops bs t u) :
    Stops (as ++ bs) s u := by
  intro k
  rw [runSubSteps_append, h, hr k]

theorem Stops.append {as bs : List (List Act)} {s t : State} (h : Stops as s t) : Stops (as ++ bs) s t := by
  intro k
  rw [runSubSteps_append, h]

end Sys2Proof.Machine
end

