-- ==== Sys2Proof/Laws/Perform.lean ====
section
/-! SUPPORT. What one instruction does as a whole, per family: `perform` of an opcode whose accesses are all in range ends in
the state named, and one whose access is not ends in the fault. The meanings' results rest on these. -/

namespace Sys2Proof

open Sys2Proof.Machine

/-- How many bytes an operand of a width has. -/
def Width.bytes : Width → Nat
  | .w8 => 1
  | .w16 => 2

/-- The form has a memory operand (30_encoding.md R105). -/
def Form.hasMemory : Form → Bool
  | .regReg => false
  | .regImm => false
  | _ => true

/-- The address of the memory operand: the direct address, or BX (40_instruction_cycle.md R150). -/
def Form.address (f : Form) (x : Operands) (s : State) : Word :=
  match f with
  | .regInd => s.bx
  | .indReg => s.bx
  | .indImm => s.bx
  | _ => x.addr

/-- A value in memory at an operand width, as a word. -/
def Machine.State.memValue (s : State) (w : Width) (a : Word) : Word :=
  match w with
  | .w8 => zext (s.mem.read a.toNat)
  | .w16 => s.mem.readWord a.toNat

/-- A value put into memory at an operand width. -/
def Machine.State.putMem (s : State) (w : Width) (a v : Word) : State :=
  match w with
  | .w8 => { s with mem := s.mem.write a.toNat (low v) }
  | .w16 => { s with mem := (s.mem.write a.toNat (low v)).write (a.toNat + 1) (high v) }

/-- The source value of a form. -/
def Form.source (f : Form) (w : Width) (x : Operands) (s : State) : Word :=
  match f with
  | .regReg => s.reg w x.b
  | .dirReg => s.reg w x.b
  | .indReg => s.reg w x.b
  | .regDir => s.memValue w x.addr
  | .regInd => s.memValue w s.bx
  | _ => x.imm

/-- The old value of a form's destination. -/
def Form.dest (f : Form) (w : Width) (x : Operands) (s : State) : Word :=
  match f with
  | .regReg => s.reg w x.a
  | .regDir => s.reg w x.b
  | .regInd => s.reg w x.b
  | .regImm => s.reg w x.b
  | .dirReg => s.memValue w x.addr
  | .dirImm => s.memValue w x.addr
  | .indReg => s.memValue w s.bx
  | .indImm => s.memValue w s.bx

/-- A form's destination written. -/
def Form.commit (f : Form) (w : Width) (x : Operands) (v : Word) (s : State) : State :=
  match f with
  | .regReg => s.setReg w x.a v
  | .regDir => s.setReg w x.b v
  | .regInd => s.setReg w x.b v
  | .regImm => s.setReg w x.b v
  | .dirReg => s.putMem w x.addr v
  | .dirImm => s.putMem w x.addr v
  | .indReg => s.putMem w s.bx v
  | .indImm => s.putMem w s.bx v

/-- The form of format B whose destination is the operand of format U. -/
def UForm.form : UForm → Form
  | .reg => .regImm
  | .dir => .dirReg
  | .ind => .indReg

end Sys2Proof

namespace Sys2Proof.Machine

open Sys2Proof.Config

theorem dataReads_bin (o : BinOp) (f : Form) (w : Width) :
    dataReads (.bin o f w) = dataReads (.bin (if readsDst o then .add else .mov) f w) := by
  cases o <;> cases f <;> cases w <;> rfl

theorem run_readMem8 {s : State} {m : Metadata} {a : Word} (d : Slot) (he : m.ea = some a) (h : a.toNat < s.params.memSize) :
    (Act.readMem8 d).run none (s.setMd m) = .go (s.setMd (fillSlot d (zext (s.mem.read a.toNat)) m)) := by
  have ha : m.address = a.toNat := by simp [Metadata.address, he]
  exact (busRead_memory_ok (ha ▸ h)).trans (by rw [← ha]; rfl)

theorem run_readMemLo {s : State} {m : Metadata} {a : Word} (he : m.ea = some a) (h : a.toNat + 1 < s.params.memSize) :
    Act.readMemLo.run none (s.setMd m) = .go (s.setMd { m with lo := some (s.mem.read a.toNat) }) := by
  have ha : m.address = a.toNat := by simp [Metadata.address, he]
  simp only [Act.run]
  rw [claimMemory2_ok (by exact ha ▸ h)]
  exact (busRead_memory_ok (by show m.address < _; rw [ha]; exact Nat.lt_of_succ_lt h)).trans (by rw [← ha]; rfl)

theorem run_readMemHi {s : State} {m : Metadata} {a : Word} (d : Slot) (he : m.ea = some a)
    (h : a.toNat + 1 < s.params.memSize) :
    (Act.readMemHi d).run none (s.setMd m) = .go (s.setMd (fillSlot d (concat (s.mem.read (a.toNat + 1)) m.lowByte) m)) := by
  have ha : m.address = a.toNat := by simp [Metadata.address, he]
  exact (busRead_memory_ok (by show m.address + 1 < _; rw [ha]; exact h)).trans (by rw [← ha]; rfl)

theorem Runs.step {acts : List Act} {rest : List (List Act)} {s u : State} {m n : Metadata}
    (h : runActs none acts (s.setMd m) = .go (s.setMd n)) (hr : Runs rest (s.setMd { n with sub := n.sub + 1 }) u) :
    Runs (acts :: rest) (s.setMd m) u := Runs.cons h hr

/-- `ReadMem(ea)` in memory fills its slot and nothing else (but for the model's own `lo` and `sub`). -/
theorem runs_readMem {s : State} {m : Metadata} {a : Word} (w : Width) (d : Slot) (he : m.ea = some a)
    (h : a.toNat + w.bytes ≤ s.params.memSize) :
    Runs (readMem w d) (s.setMd m) (s.setMd { fillSlot d (s.memValue w a) m with sub := m.sub + w.bytes }) := by
  cases w with
  | w8 =>
    refine Runs.cons (runActs_single.trans (run_readMem8 d he h)) ?_
    cases d <;> exact Runs.nil
  | w16 =>
    refine Runs.cons (runActs_single.trans (run_readMemLo he (by exact h)))
      (Runs.cons (runActs_single.trans (run_readMemHi (m := { m with lo := _, sub := m.sub + 1 }) d he (by exact h))) ?_)
    cases d <;> exact Runs.nil

/-- What the operand reads of format B leave in the metadata. -/
structure BinRead (o : BinOp) (f : Form) (w : Width) (x : Operands) (s : State) (m n : Metadata) : Prop where
  start : n.start = m.start
  op : n.op = m.op
  vec : n.vec = m.vec
  dst : readsDst o = true → n.dstv = some (f.dest w x s)
  src : n.srcv = some (f.source w x s)
  ea : f.hasMemory = true → n.ea = some (f.address x s)
  rb : n.rb = m.rb

set_option linter.unusedSimpArgs false in
theorem reads_bin (o : BinOp) (f : Form) (w : Width) (x : Operands) (s : State) (m : Metadata)
    (hrr : f = .regReg → m.rb = some (rrByte x.a x.b))
    (hr : f ≠ .regReg ∧ f ≠ .dirImm ∧ f ≠ .indImm → m.rb = some (rByte x.b))
    (hea : f = .regDir ∨ f = .dirReg ∨ f = .dirImm → m.ea = some x.addr)
    (himm : f = .regImm ∨ f = .dirImm ∨ f = .indImm → m.imm = some x.imm)
    (h : f.hasMemory = true → readsDst o = true ∨ f = .regDir ∨ f = .regInd → (f.address x s).toNat + w.bytes ≤ s.params.memSize) :
    ∃ n, Runs (dataReads (.bin o f w)) (s.setMd m) (s.setMd n) ∧ BinRead o f w x s m n := by
  rw [dataReads_bin]
  cases ho : readsDst o <;> cases f <;> simp [ho, Form.hasMemory, Form.address] at hrr hr hea himm h
  all_goals try cases w
  all_goals try simp [Width.bytes] at h
  case false.regReg.w8 =>
    have hl : dataReads (.bin .mov .regReg .w8) = [[.srcFromReg .w8]] := rfl
    refine ⟨_, hl ▸ Runs.step rfl (Runs.nil), ?_⟩
    constructor <;> simp [hrr, hr, hea, himm, ho, Metadata.regByte, Metadata.lowByte, Form.source, Form.dest, Form.address, Form.hasMemory, State.reg_setMd, State.withMd_setMd, State.memValue, Memory.readWord, fillSlot]
  case false.regDir.w8 =>
    have hl : dataReads (.bin .mov .regDir .w8) = [[], [], [], [.readMem8 .src]] := rfl
    refine ⟨_, hl ▸ Runs.step rfl (Runs.step rfl (Runs.step rfl (Runs.step (runActs_cons (run_readMem8 .src (by exact hea) (by exact h)) rfl) (Runs.nil)))), ?_⟩
    constructor <;> simp [hrr, hr, hea, himm, ho, Metadata.regByte, Metadata.lowByte, Form.source, Form.dest, Form.address, Form.hasMemory, State.reg_setMd, State.withMd_setMd, State.memValue, Memory.readWord, fillSlot]
  case false.regInd.w8 =>
    have hl : dataReads (.bin .mov .regInd .w8) = [[.eaFromBX], [.readMem8 .src]] := rfl
    refine ⟨_, hl ▸ Runs.step rfl (Runs.step (runActs_cons (run_readMem8 .src (by rfl) (by exact h)) rfl) (Runs.nil)), ?_⟩
    constructor <;> simp [hrr, hr, hea, himm, ho, Metadata.regByte, Metadata.lowByte, Form.source, Form.dest, Form.address, Form.hasMemory, State.reg_setMd, State.withMd_setMd, State.memValue, Memory.readWord, fillSlot]
  case false.regImm.w8 =>
    have hl : dataReads (.bin .mov .regImm .w8) = [[], [.srcFromImm]] := rfl
    refine ⟨_, hl ▸ Runs.step rfl (Runs.step rfl (Runs.nil)), ?_⟩
    constructor <;> simp [hrr, hr, hea, himm, ho, Metadata.regByte, Metadata.lowByte, Form.source, Form.dest, Form.address, Form.hasMemory, State.reg_setMd, State.withMd_setMd, State.memValue, Memory.readWord, fillSlot]
  case false.dirReg.w8 =>
    have hl : dataReads (.bin .mov .dirReg .w8) = [[], [], [.srcFromReg .w8]] := rfl
    refine ⟨_, hl ▸ Runs.step rfl (Runs.step rfl (Runs.step rfl (Runs.nil))), ?_⟩
    constructor <;> simp [hrr, hr, hea, himm, ho, Metadata.regByte, Metadata.lowByte, Form.source, Form.dest, Form.address, Form.hasMemory, State.reg_setMd, State.withMd_setMd, State.memValue, Memory.readWord, fillSlot]
  case false.indReg.w8 =>
    have hl : dataReads (.bin .mov .indReg .w8) = [[.eaFromBX, .srcFromReg .w8]] := rfl
    refine ⟨_, hl ▸ Runs.step rfl (Runs.nil), ?_⟩
    constructor <;> simp [hrr, hr, hea, himm, ho, Metadata.regByte, Metadata.lowByte, Form.source, Form.dest, Form.address, Form.hasMemory, State.reg_setMd, State.withMd_setMd, State.memValue, Memory.readWord, fillSlot]
  case false.dirImm.w8 =>
    have hl : dataReads (.bin .mov .dirImm .w8) = [[], [], [.srcFromImm]] := rfl
    refine ⟨_, hl ▸ Runs.step rfl (Runs.step rfl (Runs.step rfl (Runs.nil))), ?_⟩
    constructor <;> simp [hrr, hr, hea, himm, ho, Metadata.regByte, Metadata.lowByte, Form.source, Form.dest, Form.address, Form.hasMemory, State.reg_setMd, State.withMd_setMd, State.memValue, Memory.readWord, fillSlot]
  case false.indImm.w8 =>
    have hl : dataReads (.bin .mov .indImm .w8) = [[.eaFromBX, .srcFromImm]] := rfl
    refine ⟨_, hl ▸ Runs.step rfl (Runs.nil), ?_⟩
    constructor <;> simp [hrr, hr, hea, himm, ho, Metadata.regByte, Metadata.lowByte, Form.source, Form.dest, Form.address, Form.hasMemory, State.reg_setMd, State.withMd_setMd, State.memValue, Memory.readWord, fillSlot]
  case false.regReg.w16 =>
    have hl : dataReads (.bin .mov .regReg .w16) = [[.srcFromReg .w16]] := rfl
    refine ⟨_, hl ▸ Runs.step rfl (Runs.nil), ?_⟩
    constructor <;> simp [hrr, hr, hea, himm, ho, Metadata.regByte, Metadata.lowByte, Form.source, Form.dest, Form.address, Form.hasMemory, State.reg_setMd, State.withMd_setMd, State.memValue, Memory.readWord, fillSlot]
  case false.regDir.w16 =>
    have hl : dataReads (.bin .mov .regDir .w16) = [[], [], [], [.readMemLo], [.readMemHi .src]] := rfl
    refine ⟨_, hl ▸ Runs.step rfl (Runs.step rfl (Runs.step rfl (Runs.step (runActs_cons (run_readMemLo (by exact hea) (by exact h)) rfl) (Runs.step (runActs_cons (run_readMemHi .src (by exact hea) (by exact h)) rfl) (Runs.nil))))), ?_⟩
    constructor <;> simp [hrr, hr, hea, himm, ho, Metadata.regByte, Metadata.lowByte, Form.source, Form.dest, Form.address, Form.hasMemory, State.reg_setMd, State.withMd_setMd, State.memValue, Memory.readWord, fillSlot]
  case false.regInd.w16 =>
    have hl : dataReads (.bin .mov .regInd .w16) = [[.eaFromBX], [.readMemLo], [.readMemHi .src]] := rfl
    refine ⟨_, hl ▸ Runs.step rfl (Runs.step (runActs_cons (run_readMemLo (by rfl) (by exact h)) rfl) (Runs.step (runActs_cons (run_readMemHi .src (by rfl) (by exact h)) rfl) (Runs.nil))), ?_⟩
    constructor <;> simp [hrr, hr, hea, himm, ho, Metadata.regByte, Metadata.lowByte, Form.source, Form.dest, Form.address, Form.hasMemory, State.reg_setMd, State.withMd_setMd, State.memValue, Memory.readWord, fillSlot]
  case false.regImm.w16 =>
    have hl : dataReads (.bin .mov .regImm .w16) = [[], [], [.srcFromImm]] := rfl
    refine ⟨_, hl ▸ Runs.step rfl (Runs.step rfl (Runs.step rfl (Runs.nil))), ?_⟩
    constructor <;> simp [hrr, hr, hea, himm, ho, Metadata.regByte, Metadata.lowByte, Form.source, Form.dest, Form.address, Form.hasMemory, State.reg_setMd, State.withMd_setMd, State.memValue, Memory.readWord, fillSlot]
  case false.dirReg.w16 =>
    have hl : dataReads (.bin .mov .dirReg .w16) = [[], [], [.srcFromReg .w16]] := rfl
    refine ⟨_, hl ▸ Runs.step rfl (Runs.step rfl (Runs.step rfl (Runs.nil))), ?_⟩
    constructor <;> simp [hrr, hr, hea, himm, ho, Metadata.regByte, Metadata.lowByte, Form.source, Form.dest, Form.address, Form.hasMemory, State.reg_setMd, State.withMd_setMd, State.memValue, Memory.readWord, fillSlot]
  case false.indReg.w16 =>
    have hl : dataReads (.bin .mov .indReg .w16) = [[.eaFromBX, .srcFromReg .w16]] := rfl
    refine ⟨_, hl ▸ Runs.step rfl (Runs.nil), ?_⟩
    constructor <;> simp [hrr, hr, hea, himm, ho, Metadata.regByte, Metadata.lowByte, Form.source, Form.dest, Form.address, Form.hasMemory, State.reg_setMd, State.withMd_setMd, State.memValue, Memory.readWord, fillSlot]
  case false.dirImm.w16 =>
    have hl : dataReads (.bin .mov .dirImm .w16) = [[], [], [], [.srcFromImm]] := rfl
    refine ⟨_, hl ▸ Runs.step rfl (Runs.step rfl (Runs.step rfl (Runs.step rfl (Runs.nil)))), ?_⟩
    constructor <;> simp [hrr, hr, hea, himm, ho, Metadata.regByte, Metadata.lowByte, Form.source, Form.dest, Form.address, Form.hasMemory, State.reg_setMd, State.withMd_setMd, State.memValue, Memory.readWord, fillSlot]
  case false.indImm.w16 =>
    have hl : dataReads (.bin .mov .indImm .w16) = [[.eaFromBX], [.srcFromImm]] := rfl
    refine ⟨_, hl ▸ Runs.step rfl (Runs.step rfl (Runs.nil)), ?_⟩
    constructor <;> simp [hrr, hr, hea, himm, ho, Metadata.regByte, Metadata.lowByte, Form.source, Form.dest, Form.address, Form.hasMemory, State.reg_setMd, State.withMd_setMd, State.memValue, Memory.readWord, fillSlot]
  case true.regReg.w8 =>
    have hl : dataReads (.bin .add .regReg .w8) = [[.srcFromReg .w8, .dstFromRegA .w8]] := rfl
    refine ⟨_, hl ▸ Runs.step rfl (Runs.nil), ?_⟩
    constructor <;> simp [hrr, hr, hea, himm, ho, Metadata.regByte, Metadata.lowByte, Form.source, Form.dest, Form.address, Form.hasMemory, State.reg_setMd, State.withMd_setMd, State.memValue, Memory.readWord, fillSlot]
  case true.regDir.w8 =>
    have hl : dataReads (.bin .add .regDir .w8) = [[], [], [], [.readMem8 .src, .dstFromReg .w8]] := rfl
    refine ⟨_, hl ▸ Runs.step rfl (Runs.step rfl (Runs.step rfl (Runs.step (runActs_cons (run_readMem8 .src (by exact hea) (by exact h)) rfl) (Runs.nil)))), ?_⟩
    constructor <;> simp [hrr, hr, hea, himm, ho, Metadata.regByte, Metadata.lowByte, Form.source, Form.dest, Form.address, Form.hasMemory, State.reg_setMd, State.withMd_setMd, State.memValue, Memory.readWord, fillSlot]
  case true.regInd.w8 =>
    have hl : dataReads (.bin .add .regInd .w8) = [[.eaFromBX], [.readMem8 .src, .dstFromReg .w8]] := rfl
    refine ⟨_, hl ▸ Runs.step rfl (Runs.step (runActs_cons (run_readMem8 .src (by rfl) (by exact h)) rfl) (Runs.nil)), ?_⟩
    constructor <;> simp [hrr, hr, hea, himm, ho, Metadata.regByte, Metadata.lowByte, Form.source, Form.dest, Form.address, Form.hasMemory, State.reg_setMd, State.withMd_setMd, State.memValue, Memory.readWord, fillSlot]
  case true.regImm.w8 =>
    have hl : dataReads (.bin .add .regImm .w8) = [[], [.srcFromImm, .dstFromReg .w8]] := rfl
    refine ⟨_, hl ▸ Runs.step rfl (Runs.step rfl (Runs.nil)), ?_⟩
    constructor <;> simp [hrr, hr, hea, himm, ho, Metadata.regByte, Metadata.lowByte, Form.source, Form.dest, Form.address, Form.hasMemory, State.reg_setMd, State.withMd_setMd, State.memValue, Memory.readWord, fillSlot]
  case true.dirReg.w8 =>
    have hl : dataReads (.bin .add .dirReg .w8) = [[], [], [.srcFromReg .w8], [.readMem8 .dst]] := rfl
    refine ⟨_, hl ▸ Runs.step rfl (Runs.step rfl (Runs.step rfl (Runs.step (runActs_cons (run_readMem8 .dst (by exact hea) (by exact h)) rfl) (Runs.nil)))), ?_⟩
    constructor <;> simp [hrr, hr, hea, himm, ho, Metadata.regByte, Metadata.lowByte, Form.source, Form.dest, Form.address, Form.hasMemory, State.reg_setMd, State.withMd_setMd, State.memValue, Memory.readWord, fillSlot]
  case true.indReg.w8 =>
    have hl : dataReads (.bin .add .indReg .w8) = [[.eaFromBX, .srcFromReg .w8], [.readMem8 .dst]] := rfl
    refine ⟨_, hl ▸ Runs.step rfl (Runs.step (runActs_cons (run_readMem8 .dst (by rfl) (by exact h)) rfl) (Runs.nil)), ?_⟩
    constructor <;> simp [hrr, hr, hea, himm, ho, Metadata.regByte, Metadata.lowByte, Form.source, Form.dest, Form.address, Form.hasMemory, State.reg_setMd, State.withMd_setMd, State.memValue, Memory.readWord, fillSlot]
  case true.dirImm.w8 =>
    have hl : dataReads (.bin .add .dirImm .w8) = [[], [], [.srcFromImm], [.readMem8 .dst]] := rfl
    refine ⟨_, hl ▸ Runs.step rfl (Runs.step rfl (Runs.step rfl (Runs.step (runActs_cons (run_readMem8 .dst (by exact hea) (by exact h)) rfl) (Runs.nil)))), ?_⟩
    constructor <;> simp [hrr, hr, hea, himm, ho, Metadata.regByte, Metadata.lowByte, Form.source, Form.dest, Form.address, Form.hasMemory, State.reg_setMd, State.withMd_setMd, State.memValue, Memory.readWord, fillSlot]
  case true.indImm.w8 =>
    have hl : dataReads (.bin .add .indImm .w8) = [[.eaFromBX, .srcFromImm], [.readMem8 .dst]] := rfl
    refine ⟨_, hl ▸ Runs.step rfl (Runs.step (runActs_cons (run_readMem8 .dst (by rfl) (by exact h)) rfl) (Runs.nil)), ?_⟩
    constructor <;> simp [hrr, hr, hea, himm, ho, Metadata.regByte, Metadata.lowByte, Form.source, Form.dest, Form.address, Form.hasMemory, State.reg_setMd, State.withMd_setMd, State.memValue, Memory.readWord, fillSlot]
  case true.regReg.w16 =>
    have hl : dataReads (.bin .add .regReg .w16) = [[.srcFromReg .w16, .dstFromRegA .w16]] := rfl
    refine ⟨_, hl ▸ Runs.step rfl (Runs.nil), ?_⟩
    constructor <;> simp [hrr, hr, hea, himm, ho, Metadata.regByte, Metadata.lowByte, Form.source, Form.dest, Form.address, Form.hasMemory, State.reg_setMd, State.withMd_setMd, State.memValue, Memory.readWord, fillSlot]
  case true.regDir.w16 =>
    have hl : dataReads (.bin .add .regDir .w16) = [[], [], [], [.readMemLo], [.readMemHi .src, .dstFromReg .w16]] := rfl
    refine ⟨_, hl ▸ Runs.step rfl (Runs.step rfl (Runs.step rfl (Runs.step (runActs_cons (run_readMemLo (by exact hea) (by exact h)) rfl) (Runs.step (runActs_cons (run_readMemHi .src (by exact hea) (by exact h)) rfl) (Runs.nil))))), ?_⟩
    constructor <;> simp [hrr, hr, hea, himm, ho, Metadata.regByte, Metadata.lowByte, Form.source, Form.dest, Form.address, Form.hasMemory, State.reg_setMd, State.withMd_setMd, State.memValue, Memory.readWord, fillSlot]
  case true.regInd.w16 =>
    have hl : dataReads (.bin .add .regInd .w16) = [[.eaFromBX], [.readMemLo], [.readMemHi .src, .dstFromReg .w16]] := rfl
    refine ⟨_, hl ▸ Runs.step rfl (Runs.step (runActs_cons (run_readMemLo (by rfl) (by exact h)) rfl) (Runs.step (runActs_cons (run_readMemHi .src (by rfl) (by exact h)) rfl) (Runs.nil))), ?_⟩
    constructor <;> simp [hrr, hr, hea, himm, ho, Metadata.regByte, Metadata.lowByte, Form.source, Form.dest, Form.address, Form.hasMemory, State.reg_setMd, State.withMd_setMd, State.memValue, Memory.readWord, fillSlot]
  case true.regImm.w16 =>
    have hl : dataReads (.bin .add .regImm .w16) = [[], [], [.srcFromImm, .dstFromReg .w16]] := rfl
    refine ⟨_, hl ▸ Runs.step rfl (Runs.step rfl (Runs.step rfl (Runs.nil))), ?_⟩
    constructor <;> simp [hrr, hr, hea, himm, ho, Metadata.regByte, Metadata.lowByte, Form.source, Form.dest, Form.address, Form.hasMemory, State.reg_setMd, State.withMd_setMd, State.memValue, Memory.readWord, fillSlot]
  case true.dirReg.w16 =>
    have hl : dataReads (.bin .add .dirReg .w16) = [[], [], [.srcFromReg .w16], [.readMemLo], [.readMemHi .dst]] := rfl
    refine ⟨_, hl ▸ Runs.step rfl (Runs.step rfl (Runs.step rfl (Runs.step (runActs_cons (run_readMemLo (by exact hea) (by exact h)) rfl) (Runs.step (runActs_cons (run_readMemHi .dst (by exact hea) (by exact h)) rfl) (Runs.nil))))), ?_⟩
    constructor <;> simp [hrr, hr, hea, himm, ho, Metadata.regByte, Metadata.lowByte, Form.source, Form.dest, Form.address, Form.hasMemory, State.reg_setMd, State.withMd_setMd, State.memValue, Memory.readWord, fillSlot]
  case true.indReg.w16 =>
    have hl : dataReads (.bin .add .indReg .w16) = [[.eaFromBX, .srcFromReg .w16], [.readMemLo], [.readMemHi .dst]] := rfl
    refine ⟨_, hl ▸ Runs.step rfl (Runs.step (runActs_cons (run_readMemLo (by rfl) (by exact h)) rfl) (Runs.step (runActs_cons (run_readMemHi .dst (by rfl) (by exact h)) rfl) (Runs.nil))), ?_⟩
    constructor <;> simp [hrr, hr, hea, himm, ho, Metadata.regByte, Metadata.lowByte, Form.source, Form.dest, Form.address, Form.hasMemory, State.reg_setMd, State.withMd_setMd, State.memValue, Memory.readWord, fillSlot]
  case true.dirImm.w16 =>
    have hl : dataReads (.bin .add .dirImm .w16) = [[], [], [], [.srcFromImm], [.readMemLo], [.readMemHi .dst]] := rfl
    refine ⟨_, hl ▸ Runs.step rfl (Runs.step rfl (Runs.step rfl (Runs.step rfl (Runs.step (runActs_cons (run_readMemLo (by exact hea) (by exact h)) rfl) (Runs.step (runActs_cons (run_readMemHi .dst (by exact hea) (by exact h)) rfl) (Runs.nil)))))), ?_⟩
    constructor <;> simp [hrr, hr, hea, himm, ho, Metadata.regByte, Metadata.lowByte, Form.source, Form.dest, Form.address, Form.hasMemory, State.reg_setMd, State.withMd_setMd, State.memValue, Memory.readWord, fillSlot]
  case true.indImm.w16 =>
    have hl : dataReads (.bin .add .indImm .w16) = [[.eaFromBX], [.srcFromImm], [.readMemLo], [.readMemHi .dst]] := rfl
    refine ⟨_, hl ▸ Runs.step rfl (Runs.step rfl (Runs.step (runActs_cons (run_readMemLo (by rfl) (by exact h)) rfl) (Runs.step (runActs_cons (run_readMemHi .dst (by rfl) (by exact h)) rfl) (Runs.nil)))), ?_⟩
    constructor <;> simp [hrr, hr, hea, himm, ho, Metadata.regByte, Metadata.lowByte, Form.source, Form.dest, Form.address, Form.hasMemory, State.reg_setMd, State.withMd_setMd, State.memValue, Memory.readWord, fillSlot]

/-! ## Commits and the end of an instruction -/

/-- `WriteMem(ea, res)` in memory. -/
theorem runs_writeMem {s : State} {m : Metadata} {a : Word} (w : Width) (he : m.ea = some a)
    (h : a.toNat + w.bytes ≤ s.params.memSize) :
    Runs (writeMem w) (s.setMd m) ((s.putMem w a m.result).setMd { m with sub := m.sub + w.bytes }) := by
  have ha : m.address = a.toNat := by simp [Metadata.address, he]
  cases w with
  | w8 =>
    have h8 : runActs none [.writeMem8] (s.setMd m) = .go ((s.putMem .w8 a m.result).setMd m) := by
      rw [runActs_single]
      exact (busWrite_memory_ok (by exact ha ▸ h)).trans (by simp only [State.setMd_md, ha]; rfl)
    exact Runs.cons h8 Runs.nil
  | w16 =>
    have hlo : runActs none [.writeMemLo] (s.setMd m) = .go ((s.putMem .w8 a m.result).setMd m) := by
      rw [runActs_single]
      simp only [Act.run]
      rw [claimMemory2_ok (by exact ha ▸ h)]
      exact (busWrite_memory_ok (by show m.address < _; rw [ha]; exact Nat.lt_of_succ_lt h)).trans (by simp only [State.setMd_md, ha]; rfl)
    have hhi : ∀ n, runActs none [.writeMemHi] ((s.putMem .w8 a m.result).setMd { m with sub := n }) =
        .go ((s.putMem .w16 a m.result).setMd { m with sub := n }) := by
      intro n
      rw [runActs_single]
      have ha' : ({ m with sub := n } : Metadata).address = a.toNat := ha
      exact (busWrite_memory_ok (by show m.address + 1 < _; rw [ha]; exact h)).trans (by simp only [State.setMd_md, ha']; rfl)
    exact Runs.cons hlo (Runs.cons (hhi _) Runs.nil)

/-- The state at the end of an instruction other than INT and HLT, from what it has committed (40_instruction_cycle.md
R148): `fetching`, or `interrupt` with the temporaries kept. -/
def State.settle (s : State) (m : Metadata) : State :=
  if interruptRequested s then { s with phase := .interrupt, md := { m with sub := 0 } }
  else { s with phase := .fetching, md := { } }

theorem closeInstruction_settle {oc : Opcode} (h : oc ≠ .int) (s : State) (m : Metadata) :
    closeInstruction oc (s.setMd m) = s.settle m := by
  simp only [closeInstruction, endOfInstruction, h, if_false, State.settle]
  rfl

theorem settle_phase (s : State) (p : Phase) (m : Metadata) : ({ s with phase := p } : State).settle m = s.settle m := rfl

theorem setReg16_phase (s : State) (p : Phase) (r : Reg16) (v : Word) :
    ({ s with phase := p } : State).setReg16 r v = { s.setReg16 r v with phase := p } := by cases r <;> rfl

theorem setReg_phase (s : State) (p : Phase) (w : Width) (r : RegNum) (v : Word) :
    ({ s with phase := p } : State).setReg w r v = { s.setReg w r v with phase := p } := by
  cases w
  · simp only [State.setReg, State.setReg8]
    split <;> exact setReg16_phase ..
  · exact setReg16_phase ..

theorem Form.commit_phase (f : Form) (w : Width) (x : Operands) (v : Word) (s : State) (p : Phase) :
    f.commit w x v { s with phase := p } = { f.commit w x v s with phase := p } := by
  cases f <;> first | exact setReg_phase .. | (cases w <;> rfl)

/-- The commit of format B: all operations but CMP write their destination. -/
theorem runs_binWrites (o : BinOp) (f : Form) (w : Width) (x : Operands) (s : State) (m : Metadata) (hc : o ≠ .cmp)
    (hrb : f = .regReg ∨ f = .regDir ∨ f = .regInd ∨ f = .regImm → m.rb = if f = .regReg then some (rrByte x.a x.b) else some (rByte x.b))
    (hea : f.hasMemory = true → m.ea = some (f.address x s))
    (h : f.hasMemory = true → (f.address x s).toNat + w.bytes ≤ s.params.memSize) :
    ∃ n, Runs (writes (.bin o f w)) (s.setMd m) ((f.commit w x m.result s).setMd n) ∧ n.vec = m.vec := by
  have ho : writes (.bin o f w) = writes (.bin .mov f w) := by cases o <;> first | rfl | contradiction
  rw [ho]
  have reg : ∀ (act : Act) (r : RegNum), act.run none (s.setMd m) = .go ((s.setMd m).setReg w r m.result) →
      ∃ n, Runs [[act]] (s.setMd m) ((s.setReg w r m.result).setMd n) ∧ n.vec = m.vec := by
    intro act r hr
    have hgo : runActs none [act] (s.setMd m) = .go ((s.setReg w r m.result).setMd m) := by
      rw [runActs_single, hr, State.setReg_setMd]
    exact ⟨_, Runs.cons hgo Runs.nil, rfl⟩
  cases f <;> simp [Form.hasMemory] at hrb hea h
  case regReg => exact reg (.setRegA w) x.a (by simp [Act.run, Metadata.regByte, hrb])
  case regDir => exact reg (.setReg w) x.b (by simp [Act.run, Metadata.regByte, hrb])
  case regInd => exact reg (.setReg w) x.b (by simp [Act.run, Metadata.regByte, hrb])
  case regImm => exact reg (.setReg w) x.b (by simp [Act.run, Metadata.regByte, hrb])
  all_goals exact ⟨_, runs_writeMem w hea h, rfl⟩


/-- The base state of an instruction: IP is past it. -/
def State.past (s : State) (oc : Opcode) : State := { s with ip := s.ip + BitVec.ofNat 16 (opcodeLength oc) }

/-- The operand values at hand after the instruction bytes are read. -/
theorem prefetched_bin (o : BinOp) (f : Form) (w : Width) (x : Operands) (s : State) :
    ∃ m, prefetched (.bin o f w) x s = ({ s.past (.bin o f w) with phase := afterFetching (.bin o f w) } : State).setMd m ∧
      m.start = some s.ip ∧ m.op = some (opcodeByte (.bin o f w)) ∧ m.vec = none ∧
      (f ≠ .dirImm → f ≠ .indImm → m.rb = if f = .regReg then some (rrByte x.a x.b) else some (rByte x.b)) ∧
      (f = .regDir ∨ f = .dirReg ∨ f = .dirImm → m.ea = some x.addr) ∧
      (f = .regImm ∨ f = .dirImm ∨ f = .indImm → m.imm = some x.imm) := by
  refine ⟨_, rfl, ?_⟩
  cases f <;> cases w <;> simp [layout, immField, prefetchField]

theorem executeStep_bin (o : BinOp) (f : Form) (w : Width) (s : State) (m : Metadata) :
    executeStep (.bin o f w) ((s.setMd m).enter .executing) =
      (let r := binCompute o w (m.dstv.getD 0) (m.srcv.getD 0) s.flags
       (({ s with flags := r.2, phase := .writeback } : State).setMd { m with res := some r.1, sub := 0 })) := rfl

/-- Format B, its operands legal and in memory: the destination takes the result, the flags are the operation's, and nothing
else changes (40_instruction_cycle.md R152). -/
theorem perform_bin (o : BinOp) (f : Form) (w : Width) (x : Operands) (s : State) (hx : x.fit (.bin o f w) = true)
    (h : f.hasMemory = true → (f.address x s).toNat + w.bytes ≤ s.params.memSize) :
    ∃ m, m.vec = none ∧
      perform (.bin o f w) x s =
        .next
          (let r := binCompute o w (if readsDst o then f.dest w x s else 0) (f.source w x s) s.flags
           let t : State := { s.past (.bin o f w) with flags := r.2 }
           (if o = .cmp then t else f.commit w x r.1 t).settle m) := by
  obtain ⟨m, hp, hstart, hop, hvec, hrb, hea, himm⟩ := prefetched_bin o f w x s
  set b : State := { s.past (.bin o f w) with phase := afterFetching (.bin o f w) } with hb
  obtain ⟨n, hrun, hn⟩ := reads_bin o f w x b m
    (by rintro rfl; simpa using hrb) (by rintro ⟨h1, h2, h3⟩; simpa [h1] using hrb h2 h3) hea himm
    (fun hm _ => h hm)
  have hb1 : f.source w x b = f.source w x s := by cases f <;> rfl
  have hb2 : f.dest w x b = f.dest w x s := by cases f <;> rfl
  have hdst : readsDst o = true → n.dstv = some (f.dest w x s) := fun ho => hb2 ▸ hn.dst ho
  have hres : binCompute o w (n.dstv.getD 0) (n.srcv.getD 0) s.flags =
      binCompute o w (if readsDst o then f.dest w x s else 0) (f.source w x s) s.flags := by
    rw [hn.src, hb1]
    cases ho : readsDst o
    · have : o = .mov := by cases o <;> first | rfl | cases ho
      subst this
      cases w <;> rfl
    · rw [hdst ho]; rfl
  simp only [perform, hx, if_true, finishInstruction, hp]
  rw [hrun]
  simp only [commitInstruction, reduceCtorEq, if_false, executeStep_bin]
  set r := binCompute o w (if readsDst o then f.dest w x s else 0) (f.source w x s) s.flags with hr
  have hres' : binCompute o w (n.dstv.getD 0) (n.srcv.getD 0) b.flags = r := hres
  rw [hres']
  set t : State := { s.past (.bin o f w) with flags := r.2 } with ht
  have hbt : ({ b with flags := r.2, phase := .writeback } : State) = { t with phase := .writeback } := rfl
  rw [hbt]
  by_cases hc : o = .cmp
  · subst hc
    refine ⟨{ n with res := some r.1, sub := 0 + 1 }, by rw [← hvec, ← hn.vec], ?_⟩
    rw [if_pos rfl]
    have : Runs (writes (.bin .cmp f w)) (({ t with phase := .writeback } : State).setMd { n with res := some r.1, sub := 0 })
        (({ t with phase := .writeback } : State).setMd { n with res := some r.1, sub := 0 + 1 }) := Runs.step rfl Runs.nil
    rw [this, closeInstruction_settle (by simp)]
    rfl
  · obtain ⟨q, hq, hqv⟩ := runs_binWrites o f w x { t with phase := .writeback } { n with res := some r.1, sub := 0 } hc
      (by intro hf; rw [← hrb (by rintro rfl; simp at hf) (by rintro rfl; simp at hf)]; exact hn.rb) (by intro hm; exact hn.ea hm) (by intro hm; exact h hm)
    refine ⟨q, by rw [hqv, ← hvec, ← hn.vec], ?_⟩
    rw [hq, closeInstruction_settle (by simp), if_neg hc, Form.commit_phase]
    rfl

/-! ## Memory operands out of range -/

/-- The first byte of an operand that is out of range (60_exceptions.md R321). -/
def firstOut (memSize a : Nat) : Nat := if a < memSize then a + 1 else a

/-- The fault of a memory access of the core at `a`, of `w.bytes` bytes. -/
def State.outOfRange (s : State) (a : Word) : State :=
  raise .addressOutOfRange (.bus .memory (firstOut s.params.memSize a.toNat)) s

theorem claimMemory2_out {a : Nat} {s : State} (h : ¬ a + 1 < s.params.memSize) :
    claimMemory2 a s = .stop (raise .addressOutOfRange (.bus .memory (firstOut s.params.memSize a)) s) := by
  rw [claimMemory2_eq, if_neg h]; rfl

theorem run_readMem8_out {s : State} {m : Metadata} {a : Word} (d : Slot) (he : m.ea = some a)
    (h : ¬ a.toNat < s.params.memSize) : (Act.readMem8 d).run none (s.setMd m) = .stop ((s.setMd m).outOfRange a) := by
  have ha : m.address = a.toNat := by simp [Metadata.address, he]
  simp only [Act.run, busRead_memory, State.setMd_md, State.setMd_params, ha, if_neg h, State.outOfRange, firstOut]

theorem run_readMemLo_out {s : State} {m : Metadata} {a : Word} (he : m.ea = some a)
    (h : ¬ a.toNat + 1 < s.params.memSize) : Act.readMemLo.run none (s.setMd m) = .stop ((s.setMd m).outOfRange a) := by
  have ha : m.address = a.toNat := by simp [Metadata.address, he]
  simp only [Act.run, State.setMd_md, ha]
  rw [claimMemory2_out (by exact h)]
  rfl

/-- `ReadMem(ea)` that leaves memory faults at its first sub-step, whatever work would follow it. -/
theorem stops_readMem_then {s : State} {m : Metadata} {a : Word} (w : Width) (d : Slot) (he : m.ea = some a)
    (tail : List Act) (h : ¬ a.toNat + w.bytes ≤ s.params.memSize) :
    Stops (thenActs (readMem w d) tail) (s.setMd m) ((s.setMd m).outOfRange a) := by
  cases w with
  | w8 => exact Stops.here (by simp only [List.cons_append, runActs, run_readMem8_out d he h, Flow.andThen])
  | w16 => exact Stops.here (runActs_single.trans (run_readMemLo_out he h))

theorem stops_readMem {s : State} {m : Metadata} {a : Word} (w : Width) (d : Slot) (he : m.ea = some a)
    (h : ¬ a.toNat + w.bytes ≤ s.params.memSize) : Stops (readMem w d) (s.setMd m) ((s.setMd m).outOfRange a) := by
  have := stops_readMem_then w d he [] h
  cases w <;> exact this

/-- `WriteMem(ea, res)` that leaves memory faults at its first sub-step, before a byte moves. -/
theorem stops_writeMem {s : State} {m : Metadata} {a : Word} (w : Width) (he : m.ea = some a)
    (h : ¬ a.toNat + w.bytes ≤ s.params.memSize) : Stops (writeMem w) (s.setMd m) ((s.setMd m).outOfRange a) := by
  have ha : m.address = a.toNat := by simp [Metadata.address, he]
  cases w with
  | w8 =>
    have h' : ¬ a.toNat < s.params.memSize := h
    have h8 : Act.writeMem8.run none (s.setMd m) = .stop ((s.setMd m).outOfRange a) := by
      simp only [Act.run, busWrite_memory, State.setMd_md, State.setMd_params, ha, if_neg h', State.outOfRange, firstOut]
    exact Stops.here (runActs_single.trans h8)
  | w16 =>
    have h' : ¬ a.toNat + 1 < s.params.memSize := h
    have hlo : Act.writeMemLo.run none (s.setMd m) = .stop ((s.setMd m).outOfRange a) := by
      simp only [Act.run, State.setMd_md, ha]
      rw [claimMemory2_out (by exact h')]
      rfl
    exact Stops.here (runActs_single.trans hlo)

theorem Stops.of_eq {as bs : List (List Act)} {s t : State} (h : as = bs) (hs : Stops bs s t) : Stops as s t := h ▸ hs

theorem Stops.step {acts : List Act} {rest : List (List Act)} {s u : State} {m n : Metadata}
    (h : runActs none acts (s.setMd m) = .go (s.setMd n)) (hr : Stops rest (s.setMd { n with sub := n.sub + 1 }) u) :
    Stops (acts :: rest) (s.setMd m) u := Stops.cons h hr

/-- The operand reads of format B with the memory operand out of range. -/
theorem reads_bin_out (o : BinOp) (f : Form) (w : Width) (x : Operands) (s : State) (m : Metadata)
    (hea : f = .regDir ∨ f = .dirReg ∨ f = .dirImm → m.ea = some x.addr) (hf : f.hasMemory = true)
    (hr : readsDst o = true ∨ f = .regDir ∨ f = .regInd) (h : ¬ (f.address x s).toNat + w.bytes ≤ s.params.memSize) :
    ∃ n, Stops (dataReads (.bin o f w)) (s.setMd m) ((s.setMd n).outOfRange (f.address x s)) ∧
      n.start = m.start ∧ n.op = m.op := by
  rw [dataReads_bin]
  cases ho : readsDst o <;> cases f <;> simp [ho, Form.hasMemory, Form.address] at hr hea hf h
  all_goals try cases w
  case false.regDir.w8 =>
    have hl : dataReads (.bin .mov .regDir .w8) = [] :: [] :: [] :: thenActs (readMem .w8 .src) [] := rfl
    exact ⟨_, Stops.of_eq hl (Stops.step rfl (Stops.step rfl (Stops.step rfl (stops_readMem_then (a := x.addr) .w8 .src (by exact hea) [] (by exact Nat.not_le.2 h))))), rfl, rfl⟩
  case false.regInd.w8 =>
    have hl : dataReads (.bin .mov .regInd .w8) = [.eaFromBX] :: thenActs (readMem .w8 .src) [] := rfl
    exact ⟨_, Stops.of_eq hl (Stops.step rfl (stops_readMem_then (a := s.bx) .w8 .src (by exact rfl) [] (by exact Nat.not_le.2 h))), rfl, rfl⟩
  case false.regDir.w16 =>
    have hl : dataReads (.bin .mov .regDir .w16) = [] :: [] :: [] :: thenActs (readMem .w16 .src) [] := rfl
    exact ⟨_, Stops.of_eq hl (Stops.step rfl (Stops.step rfl (Stops.step rfl (stops_readMem_then (a := x.addr) .w16 .src (by exact hea) [] (by exact Nat.not_le.2 h))))), rfl, rfl⟩
  case false.regInd.w16 =>
    have hl : dataReads (.bin .mov .regInd .w16) = [.eaFromBX] :: thenActs (readMem .w16 .src) [] := rfl
    exact ⟨_, Stops.of_eq hl (Stops.step rfl (stops_readMem_then (a := s.bx) .w16 .src (by exact rfl) [] (by exact Nat.not_le.2 h))), rfl, rfl⟩
  case true.regDir.w8 =>
    have hl : dataReads (.bin .add .regDir .w8) = [] :: [] :: [] :: thenActs (readMem .w8 .src) [.dstFromReg .w8] := rfl
    exact ⟨_, Stops.of_eq hl (Stops.step rfl (Stops.step rfl (Stops.step rfl (stops_readMem_then (a := x.addr) .w8 .src (by exact hea) [.dstFromReg .w8] (by exact Nat.not_le.2 h))))), rfl, rfl⟩
  case true.regInd.w8 =>
    have hl : dataReads (.bin .add .regInd .w8) = [.eaFromBX] :: thenActs (readMem .w8 .src) [.dstFromReg .w8] := rfl
    exact ⟨_, Stops.of_eq hl (Stops.step rfl (stops_readMem_then (a := s.bx) .w8 .src (by exact rfl) [.dstFromReg .w8] (by exact Nat.not_le.2 h))), rfl, rfl⟩
  case true.dirReg.w8 =>
    have hl : dataReads (.bin .add .dirReg .w8) = [] :: [] :: [.srcFromReg .w8] :: readMem .w8 .dst := rfl
    exact ⟨_, Stops.of_eq hl (Stops.step rfl (Stops.step rfl (Stops.step rfl (stops_readMem (a := x.addr) .w8 .dst (by exact hea) (by exact Nat.not_le.2 h))))), rfl, rfl⟩
  case true.indReg.w8 =>
    have hl : dataReads (.bin .add .indReg .w8) = [.eaFromBX, .srcFromReg .w8] :: readMem .w8 .dst := rfl
    exact ⟨_, Stops.of_eq hl (Stops.step rfl (stops_readMem (a := s.bx) .w8 .dst (by exact rfl) (by exact Nat.not_le.2 h))), rfl, rfl⟩
  case true.dirImm.w8 =>
    have hl : dataReads (.bin .add .dirImm .w8) = [] :: [] :: [.srcFromImm] :: readMem .w8 .dst := rfl
    exact ⟨_, Stops.of_eq hl (Stops.step rfl (Stops.step rfl (Stops.step rfl (stops_readMem (a := x.addr) .w8 .dst (by exact hea) (by exact Nat.not_le.2 h))))), rfl, rfl⟩
  case true.indImm.w8 =>
    have hl : dataReads (.bin .add .indImm .w8) = [.eaFromBX, .srcFromImm] :: readMem .w8 .dst := rfl
    exact ⟨_, Stops.of_eq hl (Stops.step rfl (stops_readMem (a := s.bx) .w8 .dst (by exact rfl) (by exact Nat.not_le.2 h))), rfl, rfl⟩
  case true.regDir.w16 =>
    have hl : dataReads (.bin .add .regDir .w16) = [] :: [] :: [] :: thenActs (readMem .w16 .src) [.dstFromReg .w16] := rfl
    exact ⟨_, Stops.of_eq hl (Stops.step rfl (Stops.step rfl (Stops.step rfl (stops_readMem_then (a := x.addr) .w16 .src (by exact hea) [.dstFromReg .w16] (by exact Nat.not_le.2 h))))), rfl, rfl⟩
  case true.regInd.w16 =>
    have hl : dataReads (.bin .add .regInd .w16) = [.eaFromBX] :: thenActs (readMem .w16 .src) [.dstFromReg .w16] := rfl
    exact ⟨_, Stops.of_eq hl (Stops.step rfl (stops_readMem_then (a := s.bx) .w16 .src (by exact rfl) [.dstFromReg .w16] (by exact Nat.not_le.2 h))), rfl, rfl⟩
  case true.dirReg.w16 =>
    have hl : dataReads (.bin .add .dirReg .w16) = [] :: [] :: [.srcFromReg .w16] :: readMem .w16 .dst := rfl
    exact ⟨_, Stops.of_eq hl (Stops.step rfl (Stops.step rfl (Stops.step rfl (stops_readMem (a := x.addr) .w16 .dst (by exact hea) (by exact Nat.not_le.2 h))))), rfl, rfl⟩
  case true.indReg.w16 =>
    have hl : dataReads (.bin .add .indReg .w16) = [.eaFromBX, .srcFromReg .w16] :: readMem .w16 .dst := rfl
    exact ⟨_, Stops.of_eq hl (Stops.step rfl (stops_readMem (a := s.bx) .w16 .dst (by exact rfl) (by exact Nat.not_le.2 h))), rfl, rfl⟩
  case true.dirImm.w16 =>
    have hl : dataReads (.bin .add .dirImm .w16) = [] :: [] :: [] :: [.srcFromImm] :: readMem .w16 .dst := rfl
    exact ⟨_, Stops.of_eq hl (Stops.step rfl (Stops.step rfl (Stops.step rfl (Stops.step rfl (stops_readMem (a := x.addr) .w16 .dst (by exact hea) (by exact Nat.not_le.2 h)))))), rfl, rfl⟩
  case true.indImm.w16 =>
    have hl : dataReads (.bin .add .indImm .w16) = [.eaFromBX] :: [.srcFromImm] :: readMem .w16 .dst := rfl
    exact ⟨_, Stops.of_eq hl (Stops.step rfl (Stops.step rfl (stops_readMem (a := s.bx) .w16 .dst (by exact rfl) (by exact Nat.not_le.2 h)))), rfl, rfl⟩

/-- Format B with its memory operand out of range: the fault, and no commit. The phase is `writeback` for a MOV to memory,
which does not read its destination, and `fetching-operands` otherwise (41_transfer.md R180). -/
theorem perform_bin_out (o : BinOp) (f : Form) (w : Width) (x : Operands) (s : State) (hx : x.fit (.bin o f w) = true)
    (hf : f.hasMemory = true) (h : ¬ (f.address x s).toNat + w.bytes ≤ s.params.memSize) :
    ∃ m, m.start = some s.ip ∧ m.op = some (opcodeByte (.bin o f w)) ∧
      perform (.bin o f w) x s =
        .next
          ((({ s.past (.bin o f w) with
                phase := if readsDst o = true ∨ f = .regDir ∨ f = .regInd then .fetchingOperands else .writeback } : State).setMd
              m).outOfRange (f.address x s)) := by
  obtain ⟨m, hp, hstart, hop, hvec, hrb, hea, himm⟩ := prefetched_bin o f w x s
  have haf : afterFetching (.bin o f w) = .fetchingOperands := by cases o <;> cases f <;> cases w <;> rfl
  rw [haf] at hp
  simp only [perform, hx, if_true, finishInstruction, hp]
  by_cases hr : readsDst o = true ∨ f = .regDir ∨ f = .regInd
  · obtain ⟨n, hn, h1, h2⟩ := reads_bin_out o f w x { s.past (.bin o f w) with phase := .fetchingOperands } m hea hf hr
      (by cases f <;> exact h)
    refine ⟨n, h1.trans hstart, h2.trans hop, ?_⟩
    rw [hn, if_pos hr]
    cases f <;> rfl
  · have hro : readsDst o = false := by simp_all
    have ho : o = .mov := by cases o <;> first | rfl | cases hro
    subst ho
    obtain ⟨n, hrun, hn⟩ := reads_bin .mov f w x { s.past (.bin .mov f w) with phase := .fetchingOperands } m
      (by rintro rfl; simpa using hrb) (by rintro ⟨h1, h2, h3⟩; simpa [h1] using hrb h2 h3) hea himm
      (fun _ h' => absurd h' hr)
    rw [hrun]
    simp only [commitInstruction, reduceCtorEq, if_false, executeStep_bin]
    have hw : writes (.bin .mov f w) = writeMem w := by cases f <;> first | rfl | (simp [Form.hasMemory] at hf hr)
    have hfl : ∀ d v g, (binCompute .mov w d v g).2 = g := by intro d v g; cases w <;> rfl
    rw [hw, if_neg hr, hfl]
    have hea' : n.ea = some (f.address x s) := by rw [hn.ea hf]; cases f <;> rfl
    refine ⟨_, ?_, ?_, congrArg _ (stops_writeMem (s := { s.past (.bin .mov f w) with phase := .writeback })
      (m := { n with res := _, sub := 0 }) w hea' h _)⟩
    · exact hn.start.trans hstart
    · exact hn.op.trans hop

/-! ## Format U -/

/-- The operand reads of format U. -/
theorem reads_un (u : UnOp) (f : UForm) (w : Width) (x : Operands) (s : State) (m : Metadata)
    (hr : f = .reg → m.rb = some (rByte x.b)) (hea : f = .dir → m.ea = some x.addr)
    (h : f ≠ .reg → (f.form.address x s).toNat + w.bytes ≤ s.params.memSize) :
    ∃ n, Runs (dataReads (.un u f w)) (s.setMd m) (s.setMd n) ∧ n.start = m.start ∧ n.op = m.op ∧ n.vec = m.vec ∧
      n.rb = m.rb ∧ n.dstv = some (f.form.dest w x s) ∧ (f ≠ .reg → n.ea = some (f.form.address x s)) := by
  cases f <;> simp [UForm.form, Form.address] at hr hea h
  case reg =>
    have hl : dataReads (.un u .reg w) = [[.dstFromReg w]] := rfl
    refine ⟨_, hl ▸ Runs.step rfl Runs.nil, ?_⟩
    simp [hr, Metadata.regByte, State.reg_setMd, UForm.form, Form.dest]
  case dir =>
    have hl : dataReads (.un u .dir w) = [] :: [] :: readMem w .dst := by cases w <;> rfl
    refine ⟨_, hl ▸ Runs.step rfl (Runs.step rfl (runs_readMem w .dst (by exact hea) (by exact h))), ?_⟩
    simp [fillSlot, UForm.form, Form.dest, Form.address, hea]
  case ind =>
    cases w
    · have hl : dataReads (.un u .ind .w8) = [[.eaFromBX, .readMem8 .dst]] := rfl
      refine ⟨_, hl ▸ Runs.step (runActs_cons rfl (runActs_single.trans (run_readMem8 .dst (by rfl) (by exact h)))) Runs.nil, ?_⟩
      simp [fillSlot, UForm.form, Form.dest, Form.address, State.memValue]
    · have hl : dataReads (.un u .ind .w16) = [[.eaFromBX, .readMemLo], [.readMemHi .dst]] := rfl
      refine ⟨_, hl ▸ Runs.step (runActs_cons rfl (runActs_single.trans (run_readMemLo (by rfl) (by exact h))))
        (Runs.step (runActs_single.trans (run_readMemHi .dst (by rfl) (by exact h))) Runs.nil), ?_⟩
      simp [fillSlot, UForm.form, Form.dest, Form.address, State.memValue, Memory.readWord, Metadata.lowByte]

theorem prefetched_un (u : UnOp) (f : UForm) (w : Width) (x : Operands) (s : State) :
    ∃ m, prefetched (.un u f w) x s = ({ s.past (.un u f w) with phase := .fetchingOperands } : State).setMd m ∧
      m.start = some s.ip ∧ m.op = some (opcodeByte (.un u f w)) ∧ m.vec = none ∧
      (f = .reg → m.rb = some (rByte x.b)) ∧ (f = .dir → m.ea = some x.addr) := by
  have hp : afterFetching (.un u f w) = .fetchingOperands := by cases f <;> cases w <;> rfl
  refine ⟨_, by rw [prefetched, hp]; rfl, ?_⟩
  cases f <;> simp [layout, prefetchField]

theorem executeStep_un (u : UnOp) (f : UForm) (w : Width) (s : State) (m : Metadata) :
    executeStep (.un u f w) ((s.setMd m).enter .executing) =
      (let r := unCompute u w (m.dstv.getD 0) s.flags
       (({ s with flags := r.2, phase := .writeback } : State).setMd { m with res := some r.1, sub := 0 })) := rfl

/-- Format U, its operand legal and in memory: the operand takes the result, the flags are the operation's, and nothing else
changes (40_instruction_cycle.md R153). -/
theorem perform_un (u : UnOp) (f : UForm) (w : Width) (x : Operands) (s : State) (hx : x.fit (.un u f w) = true)
    (h : f ≠ .reg → (f.form.address x s).toNat + w.bytes ≤ s.params.memSize) :
    ∃ m, m.vec = none ∧
      perform (.un u f w) x s =
        .next
          (let r := unCompute u w (f.form.dest w x s) s.flags
           (f.form.commit w x r.1 { s.past (.un u f w) with flags := r.2 }).settle m) := by
  obtain ⟨m, hp, hstart, hop, hvec, hrb, hea⟩ := prefetched_un u f w x s
  set b : State := { s.past (.un u f w) with phase := .fetchingOperands } with hb
  obtain ⟨n, hrun, -, -, hnv, hnr, hnd, hne⟩ := reads_un u f w x b m hrb hea (by intro hf; have := h hf; cases f <;> exact this)
  have hb2 : f.form.dest w x b = f.form.dest w x s := by cases f <;> rfl
  simp only [perform, hx, if_true, finishInstruction, hp]
  rw [hrun]
  have hd : n.dstv.getD 0 = f.form.dest w x s := by rw [hnd, hb2]; rfl
  simp only [commitInstruction, reduceCtorEq, if_false, executeStep_un, hd]
  set r := unCompute u w (f.form.dest w x s) b.flags with hr
  have hw : writes (.un u f w) = writes (.bin .mov f.form w) := by cases f <;> rfl
  obtain ⟨q, hq, hqv⟩ := runs_binWrites .mov f.form w x { b with flags := r.2, phase := .writeback }
    { n with res := some r.1, sub := 0 } (by simp)
    (by intro hf; cases f <;> simp [UForm.form, hnr, hrb] at hf ⊢)
    (by intro hm; cases f <;> first | exact absurd hm (by decide) | exact hne (by simp))
    (by intro hm; cases f <;> first | exact absurd hm (by decide) | exact h (by simp))
  refine ⟨q, by rw [hqv, ← hvec, ← hnv], ?_⟩
  rw [hw, hq, closeInstruction_settle (by simp)]
  have : ({ b with flags := r.2, phase := .writeback } : State) = { ({ s.past (.un u f w) with flags := r.2 } : State) with phase := .writeback } := rfl
  rw [this, Form.commit_phase]
  rfl

/-- Format U with its operand out of range: it is always read first (42_arithmetic.md). -/
theorem perform_un_out (u : UnOp) (f : UForm) (w : Width) (x : Operands) (s : State) (hx : x.fit (.un u f w) = true)
    (hf : f ≠ .reg) (h : ¬ (f.form.address x s).toNat + w.bytes ≤ s.params.memSize) :
    ∃ m, m.start = some s.ip ∧ m.op = some (opcodeByte (.un u f w)) ∧
      perform (.un u f w) x s =
        .next ((({ s.past (.un u f w) with phase := .fetchingOperands } : State).setMd m).outOfRange (f.form.address x s)) := by
  obtain ⟨m, hp, hstart, hop, hvec, hrb, hea⟩ := prefetched_un u f w x s
  simp only [perform, hx, if_true, finishInstruction, hp]
  set b : State := { s.past (.un u f w) with phase := .fetchingOperands } with hb
  cases f
  case reg => exact absurd rfl hf
  case dir =>
    have hl : dataReads (.un u .dir w) = [] :: [] :: readMem w .dst := by cases w <;> rfl
    refine ⟨_, ?_, ?_, congrArg _ (Stops.of_eq hl (Stops.step rfl (Stops.step rfl
      (stops_readMem (a := x.addr) w .dst (by exact hea rfl) (by exact h)))) _)⟩
    · exact hstart
    · exact hop
  case ind =>
    have hl : dataReads (.un u .ind w) = beforeActs [.eaFromBX] (readMem w .dst) := by cases w <;> rfl
    refine ⟨{ m with ea := some s.bx }, hstart, hop, congrArg _ ((Stops.of_eq hl ?_) _)⟩
    cases w with
    | w8 => exact Stops.here (runActs_cons rfl (runActs_single.trans (run_readMem8_out .dst rfl h)))
    | w16 => exact Stops.here (runActs_cons rfl (runActs_single.trans (run_readMemLo_out rfl h)))

/-! ## The stack (44_stack.md R240, R241) -/

/-- A word pushed. -/
def State.pushed (s : State) (v : Word) : State := { s.putMem .w16 s.pushAddress v with sp := s.pushAddress }

theorem run_pushLo {s : State} {m : Metadata} (v : PushValue) (h : s.pushAddress.toNat + 2 ≤ s.params.memSize) :
    (Act.pushLo v).run none (s.setMd m) =
      .go (({ s with mem := s.mem.write s.pushAddress.toNat (low (s.pushValue v)) } : State).setMd m) := by
  have h1 : s.pushAddress.toNat + 1 < s.params.memSize := h
  show (claimMemory2 s.pushAddress.toNat (s.setMd m)).andThen _ = _
  rw [claimMemory2_ok (by exact h1)]
  exact busWrite_memory_ok (s := s.setMd m) (by exact Nat.lt_of_succ_lt h1)

theorem run_pushHi {s : State} {m : Metadata} (v : PushValue) (h : s.pushAddress.toNat + 2 ≤ s.params.memSize) :
    (Act.pushHi v).run none
        (({ s with mem := s.mem.write s.pushAddress.toNat (low (s.pushValue v)) } : State).setMd m) =
      .go ((s.pushed (s.pushValue v)).setMd m) := by
  have h1 : s.pushAddress.toNat + 1 < s.params.memSize := h
  have hv : (({ s with mem := s.mem.write s.pushAddress.toNat (low (s.pushValue v)) } : State).setMd m).pushValue v =
      s.pushValue v := by cases v <;> rfl
  have ha : (({ s with mem := s.mem.write s.pushAddress.toNat (low (s.pushValue v)) } : State).setMd m).pushAddress =
      s.pushAddress := rfl
  simp only [Act.run, hv]
  rw [ha, busWrite_memory_ok (by exact h1)]
  rfl

/-- A faulting push changes nothing (44_stack.md R240). -/
theorem run_pushLo_out {s : State} {m : Metadata} (v : PushValue) (h : ¬ s.pushAddress.toNat + 2 ≤ s.params.memSize) :
    (Act.pushLo v).run none (s.setMd m) = .stop ((s.setMd m).outOfRange s.pushAddress) := by
  have h1 : ¬ s.pushAddress.toNat + 1 < s.params.memSize := h
  show (claimMemory2 s.pushAddress.toNat (s.setMd m)).andThen _ = _
  rw [claimMemory2_out (by exact h1)]
  rfl

theorem runs_push16 {s : State} {m : Metadata} (v : PushValue) (h : s.pushAddress.toNat + 2 ≤ s.params.memSize) :
    Runs (push16 v) (s.setMd m) ((s.pushed (s.pushValue v)).setMd { m with sub := m.sub + 2 }) :=
  Runs.cons (runActs_single.trans (run_pushLo v h))
    (Runs.cons (runActs_single.trans (run_pushHi (m := { m with sub := m.sub + 1 }) v h)) Runs.nil)

theorem stops_push16 {s : State} {m : Metadata} (v : PushValue) (tail : List Act)
    (h : ¬ s.pushAddress.toNat + 2 ≤ s.params.memSize) :
    Stops (thenActs (push16 v) tail) (s.setMd m) ((s.setMd m).outOfRange s.pushAddress) :=
  Stops.here (runActs_single.trans (run_pushLo_out v h))

theorem runs_stackRead {s : State} {m : Metadata} (k : Nat) (d : Slot)
    (h : (s.stackAddress k).toNat + 2 ≤ s.params.memSize) :
    Runs [[.stackLo k], [.stackHi k d]] (s.setMd m)
      (s.setMd { fillSlot d (s.mem.readWord (s.stackAddress k).toNat) m with sub := m.sub + 2 }) := by
  have h1 : (s.stackAddress k).toNat + 1 < s.params.memSize := h
  have hlo : runActs none [.stackLo k] (s.setMd m) =
      .go (s.setMd { m with lo := some (s.mem.read (s.stackAddress k).toNat) }) := by
    rw [runActs_single]
    show (claimMemory2 (s.stackAddress k).toNat (s.setMd m)).andThen _ = _
    rw [claimMemory2_ok (by exact h1)]
    exact busRead_memory_ok (s := s.setMd m) (by exact Nat.lt_of_succ_lt h1)
  have hhi : ∀ n : Metadata, runActs none [.stackHi k d] (s.setMd n) =
      .go (s.setMd (fillSlot d (concat (s.mem.read ((s.stackAddress k).toNat + 1)) n.lowByte) n)) := by
    intro n
    rw [runActs_single]
    exact busRead_memory_ok (s := s.setMd n) (by exact h1)
  refine Runs.step hlo (Runs.step (hhi _) ?_)
  cases d <;> exact Runs.nil

theorem stops_stackRead {s : State} {m : Metadata} (k : Nat) (d : Slot) (rest : List (List Act))
    (h : ¬ (s.stackAddress k).toNat + 2 ≤ s.params.memSize) :
    Stops ([.stackLo k] :: [.stackHi k d] :: rest) (s.setMd m) ((s.setMd m).outOfRange (s.stackAddress k)) := by
  have h1 : ¬ (s.stackAddress k).toNat + 1 < s.params.memSize := h
  refine Stops.here ?_
  rw [runActs_single]
  show (claimMemory2 (s.stackAddress k).toNat (s.setMd m)).andThen _ = _
  rw [claimMemory2_out (by exact h1)]
  rfl

/-! ## Instructions by their sub-steps -/

/-- An instruction whose reads and commits all complete. -/
theorem perform_of_runs {oc : Opcode} {x : Operands} {s p t e u : State} {rs ws : List (List Act)} (hx : x.fit oc = true)
    (ho : oc ≠ .hlt) (hd : dataReads oc = rs) (hp : prefetched oc x s = p) (hr : Runs rs p t) (hw : writes oc = ws)
    (he : executeStep oc (t.enter .executing) = e) (hs : Runs ws e u) :
    perform oc x s = .next (closeInstruction oc u) := by
  subst hd hp hw he
  simp only [perform, hx, if_true, finishInstruction]
  rw [hr]
  simp only [commitInstruction, ho, if_false]
  rw [hs]

/-- An instruction whose reads end in a fault, or park. -/
theorem perform_of_stops {oc : Opcode} {x : Operands} {s p t : State} {rs : List (List Act)} (hx : x.fit oc = true)
    (hd : dataReads oc = rs) (hp : prefetched oc x s = p) (hr : Stops rs p t) : perform oc x s = .next t := by
  subst hd hp
  simp only [perform, hx, if_true, finishInstruction]
  rw [hr]

/-- An instruction whose commits end in a fault. -/
theorem perform_of_runs_stops {oc : Opcode} {x : Operands} {s p t e u : State} {rs ws : List (List Act)}
    (hx : x.fit oc = true) (ho : oc ≠ .hlt) (hd : dataReads oc = rs) (hp : prefetched oc x s = p) (hr : Runs rs p t)
    (hw : writes oc = ws) (he : executeStep oc (t.enter .executing) = e) (hs : Stops ws e u) :
    perform oc x s = .next u := by
  subst hd hp hw he
  simp only [perform, hx, if_true, finishInstruction]
  rw [hr]
  simp only [commitInstruction, ho, if_false]
  rw [hs]

/-- PUSH and PUSHF: one word pushed (44_stack.md R242, R244). -/
theorem perform_push (oc : Opcode) (v : PushValue) (x : Operands) (s : State)
    (ho : (∃ r, oc = .push r ∧ v = .reg r) ∨ (oc = .pushf ∧ v = .flags)) :
    (s.pushAddress.toNat + 2 ≤ s.params.memSize →
      ∃ m, m.vec = none ∧ perform oc x s = .next (((s.past oc).pushed (s.pushValue v)).settle m)) ∧
    (¬ s.pushAddress.toNat + 2 ≤ s.params.memSize →
      ∃ m, m.start = some s.ip ∧ m.op = some (opcodeByte oc) ∧
        perform oc x s = .next ((({ s.past oc with phase := .writeback } : State).setMd m).outOfRange s.pushAddress)) := by
  have hx : x.fit oc = true := by rcases ho with ⟨r, rfl, rfl⟩ | ⟨rfl, rfl⟩ <;> rfl
  have hn : oc ≠ .hlt ∧ oc ≠ .int := by rcases ho with ⟨r, rfl, rfl⟩ | ⟨rfl, rfl⟩ <;> simp
  have hr : dataReads oc = [] := by rcases ho with ⟨r, rfl, rfl⟩ | ⟨rfl, rfl⟩ <;> rfl
  have hw : writes oc = push16 v := by rcases ho with ⟨r, rfl, rfl⟩ | ⟨rfl, rfl⟩ <;> rfl
  have he : executeStep oc ((prefetched oc x s).enter .executing) =
      ({ s.past oc with phase := .writeback } : State).setMd { start := some s.ip, op := some (opcodeByte oc) } := by
    rcases ho with ⟨r, rfl, rfl⟩ | ⟨rfl, rfl⟩ <;> rfl
  have hv : ({ s.past oc with phase := .writeback } : State).pushValue v = s.pushValue v := by
    rcases ho with ⟨r, rfl, rfl⟩ | ⟨rfl, rfl⟩
    · cases r <;> rfl
    · rfl
  constructor
  · intro h
    refine ⟨{ start := some s.ip, op := some (opcodeByte oc), sub := 2 }, rfl,
      (perform_of_runs hx hn.1 hr rfl Runs.nil hw he (runs_push16 v (by exact h))).trans ?_⟩
    rw [closeInstruction_settle hn.2, hv]
    rfl
  · intro h
    exact ⟨{ start := some s.ip, op := some (opcodeByte oc) }, rfl, rfl,
      perform_of_runs_stops hx hn.1 hr rfl Runs.nil hw he (stops_push16 v [] (by exact h))⟩

/-- POP, POPF and RET read the top of the stack (44_stack.md R243, R245; 45_control.md R271). -/
theorem perform_popping (oc : Opcode) (x : Operands) (s : State)
    (ho : (∃ r, oc = .pop r) ∨ oc = .popf ∨ oc = .ret) :
    (s.sp.toNat + 2 ≤ s.params.memSize →
      ∃ m, m.vec = none ∧
        perform oc x s =
          .next
            ((let v := s.mem.readWord s.sp.toNat
              let t : State := { s.past oc with sp := s.sp + 2 }
              match oc with
              | .pop r => t.setReg16 r v
              | .popf => { t with flags := loadFlags16 v }
              | _ => { t with ip := v }).settle m)) ∧
    (¬ s.sp.toNat + 2 ≤ s.params.memSize →
      ∃ m, m.start = some s.ip ∧ m.op = some (opcodeByte oc) ∧
        perform oc x s = .next ((({ s.past oc with phase := .fetchingOperands } : State).setMd m).outOfRange s.sp)) := by
  have hx : x.fit oc = true := by rcases ho with ⟨r, rfl⟩ | rfl | rfl <;> rfl
  have hn : oc ≠ .hlt ∧ oc ≠ .int := by rcases ho with ⟨r, rfl⟩ | rfl | rfl <;> simp
  have hr : dataReads oc = [[.stackLo 0], [.stackHi 0 .src]] := by rcases ho with ⟨r, rfl⟩ | rfl | rfl <;> rfl
  have hp : prefetched oc x s =
      ({ s.past oc with phase := .fetchingOperands } : State).setMd { start := some s.ip, op := some (opcodeByte oc) } := by
    rcases ho with ⟨r, rfl⟩ | rfl | rfl <;> rfl
  have ha : ({ s.past oc with phase := .fetchingOperands } : State).stackAddress 0 = s.sp := by
    show s.sp + 0 = s.sp
    exact BitVec.add_zero _
  set b : State := { s.past oc with phase := .fetchingOperands } with hb
  have hmem : ∀ a, b.mem.readWord a = s.mem.readWord a := fun _ => rfl
  constructor
  · intro h
    have hrun := runs_stackRead (s := b) (m := { start := some s.ip, op := some (opcodeByte oc) }) 0 .src (by rw [ha]; exact h)
    rw [ha, hmem] at hrun
    refine ⟨{ start := some s.ip, op := some (opcodeByte oc), srcv := some (s.mem.readWord s.sp.toNat), sub := 1 }, rfl, ?_⟩
    rcases ho with ⟨r, rfl⟩ | rfl | rfl
    · refine (perform_of_runs hx hn.1 hr hp hrun rfl rfl (u := ((({ s.past (.pop r) with sp := s.sp + 2, phase := .writeback } : State).setReg16 r
        (s.mem.readWord s.sp.toNat)).setMd
        { start := some s.ip, op := some (opcodeByte (.pop r)), srcv := some (s.mem.readWord s.sp.toNat), sub := 1 }))
        (Runs.cons (t := (({ s.past (.pop r) with sp := s.sp + 2, phase := .writeback } : State).setReg16 r
        (s.mem.readWord s.sp.toNat)).setMd
        { start := some s.ip, op := some (opcodeByte (.pop r)), srcv := some (s.mem.readWord s.sp.toNat) }) (by rw [← State.setReg16_setMd]; rfl) Runs.nil)).trans ?_
      rw [closeInstruction_settle hn.2]
      have := setReg16_phase { s.past (.pop r) with sp := s.sp + 2 } .writeback r (s.mem.readWord s.sp.toNat)
      exact congrArg _ ((congrArg (fun z => State.settle z _) this).trans (settle_phase ..))
    · refine (perform_of_runs hx hn.1 hr hp hrun rfl rfl (Runs.cons rfl Runs.nil)).trans ?_
      exact congrArg _ (closeInstruction_settle hn.2 { s.past .popf with sp := s.sp + 2, flags := loadFlags16 (s.mem.readWord s.sp.toNat) } _)
    · refine (perform_of_runs hx hn.1 hr hp hrun rfl rfl (Runs.cons rfl Runs.nil)).trans ?_
      exact congrArg _ (closeInstruction_settle hn.2 { s.past .ret with sp := s.sp + 2, ip := s.mem.readWord s.sp.toNat } _)
  · intro h
    have hst := stops_stackRead (s := b) (m := { start := some s.ip, op := some (opcodeByte oc) }) 0 .src [] (by rw [ha]; exact h)
    rw [ha] at hst
    exact ⟨{ start := some s.ip, op := some (opcodeByte oc) }, rfl, rfl, perform_of_stops hx hr hp hst⟩

/-! ## Control transfer and system instructions -/

/-- JMP and the conditional jumps (45_control.md R260, R261). -/
theorem perform_jump (oc : Opcode) (x : Operands) (s : State) (ho : oc = .jmp ∨ ∃ cond, oc = .jcc cond) :
    ∃ m, m.vec = none ∧
      perform oc x s =
        .next
          ((match oc with
            | .jcc cond => if condHolds cond s.flags then { s.past oc with ip := x.imm } else s.past oc
            | _ => { s.past oc with ip := x.imm } : State).settle m) := by
  have hx : x.fit oc = true := by rcases ho with rfl | ⟨c, rfl⟩ <;> rfl
  have hn : oc ≠ .hlt ∧ oc ≠ .int := by rcases ho with rfl | ⟨c, rfl⟩ <;> simp
  have hr : dataReads oc = [[], []] := by rcases ho with rfl | ⟨c, rfl⟩ <;> rfl
  have hp : prefetched oc x s = ({ s.past oc with phase := .fetchingOperands } : State).setMd
      { start := some s.ip, op := some (opcodeByte oc), imm := some x.imm } := by rcases ho with rfl | ⟨c, rfl⟩ <;> rfl
  have hrun : Runs [[], []] (({ s.past oc with phase := .fetchingOperands } : State).setMd
      { start := some s.ip, op := some (opcodeByte oc), imm := some x.imm }) _ := Runs.step rfl (Runs.step rfl Runs.nil)
  rcases ho with rfl | ⟨c, rfl⟩
  · refine ⟨{ start := some s.ip, op := some (opcodeByte .jmp), imm := some x.imm, taken := some true, sub := 1 }, rfl, ?_⟩
    refine (perform_of_runs hx hn.1 hr hp hrun rfl rfl (Runs.cons rfl Runs.nil)).trans ?_
    exact congrArg _ (closeInstruction_settle hn.2 { s.past .jmp with ip := x.imm, phase := .writeback } _)
  · obtain ⟨tk, hc⟩ : ∃ tk, condHolds c s.flags = tk := ⟨_, rfl⟩
    refine ⟨{ start := some s.ip, op := some (opcodeByte (.jcc c)), imm := some x.imm, taken := some tk, sub := 1 }, rfl, ?_⟩
    have he : executeStep (.jcc c) ((({ s.past (.jcc c) with phase := .fetchingOperands } : State).setMd
        { start := some s.ip, op := some (opcodeByte (.jcc c)), imm := some x.imm, sub := 2 }).enter .executing) =
        ({ s.past (.jcc c) with phase := .writeback } : State).setMd
          { start := some s.ip, op := some (opcodeByte (.jcc c)), imm := some x.imm, taken := some tk } := by
      rw [← hc]; rfl
    simp only [hc]
    cases tk
    · exact (perform_of_runs hx hn.1 hr hp hrun rfl he (Runs.step rfl Runs.nil)).trans
        (congrArg _ (closeInstruction_settle hn.2 { s.past (.jcc c) with phase := .writeback } _))
    · exact (perform_of_runs hx hn.1 hr hp hrun rfl he (Runs.cons (t := ({ s.past (.jcc c) with
        ip := x.imm, phase := .writeback } : State).setMd
          { start := some s.ip, op := some (opcodeByte (.jcc c)), imm := some x.imm, taken := some true }) rfl Runs.nil)).trans
        (congrArg _ (closeInstruction_settle hn.2 { s.past (.jcc c) with ip := x.imm, phase := .writeback } _))

/-- CALL: the address after it is pushed, and control goes to the target (45_control.md R270). -/
theorem perform_call (x : Operands) (s : State) :
    (s.pushAddress.toNat + 2 ≤ s.params.memSize →
      ∃ m, m.vec = none ∧
        perform .call x s = .next (({ (s.past .call).pushed (s.past .call).ip with ip := x.imm } : State).settle m)) ∧
    (¬ s.pushAddress.toNat + 2 ≤ s.params.memSize →
      ∃ m, m.start = some s.ip ∧ m.op = some (opcodeByte .call) ∧
        perform .call x s = .next ((({ s.past .call with phase := .writeback } : State).setMd m).outOfRange s.pushAddress)) := by
  have hr : dataReads .call = [[], []] := rfl
  have hp : prefetched .call x s = ({ s.past .call with phase := .fetchingOperands } : State).setMd
      { start := some s.ip, op := some (opcodeByte .call), imm := some x.imm } := rfl
  have hrun : Runs [[], []] (({ s.past .call with phase := .fetchingOperands } : State).setMd
      { start := some s.ip, op := some (opcodeByte .call), imm := some x.imm }) _ := Runs.step rfl (Runs.step rfl Runs.nil)
  constructor
  · intro h
    refine ⟨{ start := some s.ip, op := some (opcodeByte .call), imm := some x.imm, sub := 2 }, rfl, ?_⟩
    have hw : Runs (writes .call) (({ s.past .call with phase := .writeback } : State).setMd
        { start := some s.ip, op := some (opcodeByte .call), imm := some x.imm })
        (({ ({ s.past .call with phase := .writeback } : State).pushed (s.past .call).ip with ip := x.imm } : State).setMd
          { start := some s.ip, op := some (opcodeByte .call), imm := some x.imm, sub := 2 }) := by
      refine Runs.cons (runActs_single.trans (run_pushLo .ip (by exact h))) (Runs.cons (runActs_cons
        (run_pushHi (s := { s.past .call with phase := .writeback })
          (m := { start := some s.ip, op := some (opcodeByte .call), imm := some x.imm, sub := 1 }) .ip (by exact h)) rfl) ?_)
      exact Runs.nil
    refine (perform_of_runs rfl (by simp) hr hp hrun rfl rfl hw).trans ?_
    rw [closeInstruction_settle (by simp)]
    rfl
  · intro h
    exact ⟨{ start := some s.ip, op := some (opcodeByte .call), imm := some x.imm }, rfl, rfl,
      perform_of_runs_stops rfl (by simp) hr hp hrun rfl rfl
        (stops_push16 (s := { s.past .call with phase := .writeback }) .ip [.jump] (by exact h))⟩

/-- CLI, STI and NOP (46_system.md R282 to R284). -/
theorem perform_plain (oc : Opcode) (x : Operands) (s : State) (ho : oc = .cli ∨ oc = .sti ∨ oc = .nop) :
    ∃ m, m.vec = none ∧
      perform oc x s =
        .next
          ((match oc with
            | .cli => { s.past oc with flags := { s.flags with IF := false } }
            | .sti => { s.past oc with flags := { s.flags with IF := true } }
            | _ => s.past oc : State).settle m) := by
  rcases ho with rfl | rfl | rfl
  · exact ⟨{ start := some s.ip, op := some (opcodeByte .cli), sub := 1 }, rfl,
      (perform_of_runs (oc := .cli) (rs := []) (ws := [[.setIF false]]) rfl (by simp) rfl rfl Runs.nil rfl rfl (Runs.cons rfl Runs.nil)).trans
        (congrArg _ (closeInstruction_settle (oc := .cli) (by simp)
          { s.past .cli with flags := { s.flags with IF := false }, phase := .writeback } _))⟩
  · exact ⟨{ start := some s.ip, op := some (opcodeByte .sti), sub := 1 }, rfl,
      (perform_of_runs (oc := .sti) (rs := []) (ws := [[.setIF true]]) rfl (by simp) rfl rfl Runs.nil rfl rfl (Runs.cons rfl Runs.nil)).trans
        (congrArg _ (closeInstruction_settle (oc := .sti) (by simp)
          { s.past .sti with flags := { s.flags with IF := true }, phase := .writeback } _))⟩
  · exact ⟨{ start := some s.ip, op := some (opcodeByte .nop), sub := 1 }, rfl,
      (perform_of_runs (oc := .nop) (rs := []) (ws := [[]]) rfl (by simp) rfl rfl Runs.nil rfl rfl (Runs.cons rfl Runs.nil)).trans
        (congrArg _ (closeInstruction_settle (oc := .nop) (by simp) { s.past .nop with phase := .writeback } _))⟩

/-- HLT (46_system.md R285). -/
theorem perform_hlt (x : Operands) (s : State) :
    perform .hlt x s =
      .next
        (haltStep (({ s.past .hlt with phase := .halting } : State).setMd
          { start := some s.ip, op := some (opcodeByte .hlt) })) := rfl

/-- IRET (46_system.md R281). -/
theorem perform_iret (x : Operands) (s : State) :
    (s.sp.toNat + 2 ≤ s.params.memSize → (s.sp + 2).toNat + 2 ≤ s.params.memSize →
      ∃ m, m.vec = none ∧
        perform .iret x s =
          .next
            (({ s.past .iret with
                sp := s.sp + 4
                ip := s.mem.readWord s.sp.toNat
                flags := loadFlags16 (s.mem.readWord (s.sp + 2).toNat) } : State).settle m)) ∧
    (¬ (s.sp.toNat + 2 ≤ s.params.memSize ∧ (s.sp + 2).toNat + 2 ≤ s.params.memSize) →
      ∃ m, m.start = some s.ip ∧ m.op = some (opcodeByte .iret) ∧
        perform .iret x s =
          .next ((({ s.past .iret with phase := .fetchingOperands } : State).setMd m).outOfRange
            (if s.sp.toNat + 2 ≤ s.params.memSize then s.sp + 2 else s.sp))) := by
  set b : State := { s.past .iret with phase := .fetchingOperands } with hb
  have hp : prefetched .iret x s = b.setMd { start := some s.ip, op := some (opcodeByte .iret) } := rfl
  have hr : dataReads .iret = [.stackLo 0] :: [.stackHi 0 .src] :: [[.stackLo 1], [.stackHi 1 .dst]] := rfl
  have h0 : b.stackAddress 0 = s.sp := BitVec.add_zero _
  have h1 : b.stackAddress 1 = s.sp + 2 := rfl
  have run0 := fun (h : s.sp.toNat + 2 ≤ s.params.memSize) => runs_stackRead (s := b)
    (m := { start := some s.ip, op := some (opcodeByte .iret) }) 0 .src (by rw [h0]; exact h)
  rw [h0] at run0
  constructor
  · intro ha hc
    have run1 := runs_stackRead (s := b) 
      (m := { start := some s.ip, op := some (opcodeByte .iret), srcv := some (s.mem.readWord s.sp.toNat), sub := 2 }) 1 .dst (by rw [h1]; exact hc)
    rw [h1] at run1
    refine ⟨{ start := some s.ip, op := some (opcodeByte .iret), srcv := some (s.mem.readWord s.sp.toNat),
              dstv := some (s.mem.readWord (s.sp + 2).toNat), sub := 1 }, rfl, ?_⟩
    refine (perform_of_runs rfl (by simp) hr hp (Runs.append (as := [[.stackLo 0], [.stackHi 0 .src]]) (run0 ha) run1)
      rfl rfl (Runs.cons rfl Runs.nil)).trans ?_
    exact congrArg _ (closeInstruction_settle (oc := .iret) (by simp)
      { s.past .iret with
        sp := s.sp + 4
        ip := s.mem.readWord s.sp.toNat
        flags := loadFlags16 (s.mem.readWord (s.sp + 2).toNat)
        phase := .writeback } _)
  · intro h
    by_cases ha : s.sp.toNat + 2 ≤ s.params.memSize
    · have hc : ¬ (s.sp + 2).toNat + 2 ≤ s.params.memSize := fun hc => h ⟨ha, hc⟩
      have st1 := stops_stackRead (s := b) 
        (m := { start := some s.ip, op := some (opcodeByte .iret), srcv := some (s.mem.readWord s.sp.toNat), sub := 2 }) 1 .dst [] (by rw [h1]; exact hc)
      rw [h1] at st1
      refine ⟨_, ?_, ?_, (perform_of_stops rfl hr hp
        (Runs.stops (as := [[.stackLo 0], [.stackHi 0 .src]]) (run0 ha) st1)).trans (by rw [if_pos ha])⟩
      · rfl
      · rfl
    · have st0 := stops_stackRead (s := b) (m := { start := some s.ip, op := some (opcodeByte .iret) }) 0 .src
        [[.stackLo 1], [.stackHi 1 .dst]] (by rw [h0]; exact ha)
      rw [h0] at st0
      refine ⟨{ start := some s.ip, op := some (opcodeByte .iret) }, rfl, rfl,
        (perform_of_stops rfl hr hp st0).trans (by rw [if_neg ha])⟩

/-! ## Trap entry (60_exceptions.md R331) -/

/-- FLAGS16 pushed and IF cleared: the first two sub-steps of a trap entry. -/
def State.trapFlags (s : State) : State :=
  { s.pushed (flags16 s.flags) with flags := { s.flags with IF := false } }

/-- IP pushed too: the first four sub-steps of a trap entry. -/
def State.trapFrame (s : State) : State := s.trapFlags.pushed s.ip

/-- What a trap entry with vector `n` leaves (60_exceptions.md R331), or the fault that ends it (R323). The vector is read
from memory as the two pushes leave it. -/
def State.trapped (s : State) (n : Byte) : State :=
  if s.pushAddress.toNat + 2 ≤ s.params.memSize then
    if s.trapFlags.pushAddress.toNat + 2 ≤ s.params.memSize then
      if 4 * n.toNat + 2 ≤ s.params.memSize then
        { s.trapFrame with ip := s.trapFrame.mem.readWord (4 * n.toNat), phase := .fetching, md := { } }
      else
        raise .addressOutOfRange (.bus .memory (firstOut s.params.memSize (4 * n.toNat)))
          (s.trapFrame.setMd { s.md with sub := s.md.sub + 4 })
    else (s.trapFlags.setMd { s.md with sub := s.md.sub + 2 }).outOfRange s.trapFlags.pushAddress
  else s.outOfRange s.pushAddress

theorem acknowledgeInterrupt_vec {s : State} {n : Byte} (h : s.md.vec = some n) : acknowledgeInterrupt s = s := by
  simp only [acknowledgeInterrupt, h]

/-- The vector read from memory (60_exceptions.md R330). -/
theorem runs_vector {s : State} {m : Metadata} {n : Byte} (hv : m.vec = some n) (h : 4 * n.toNat + 2 ≤ s.params.memSize) :
    ∃ q, Runs [[.vectorLo], [.vectorHi]] (s.setMd m)
      (({ s with ip := s.mem.readWord (4 * n.toNat) } : State).setMd q) := by
  have h1 : 4 * n.toNat + 1 < s.params.memSize := h
  have hva : ∀ q : Metadata, q.vec = some n → (s.setMd q).vectorAddress = 4 * n.toNat := by
    intro q hq
    show 4 * (q.vec.getD 0).toNat = _
    rw [hq]; rfl
  have lo : runActs none [.vectorLo] (s.setMd m) = .go (s.setMd { m with lo := some (s.mem.read (4 * n.toNat)) }) := by
    rw [runActs_single]
    simp only [Act.run]
    rw [hva m hv, claimMemory2_ok (by exact h1)]
    show busRead .memory (s.setMd m).vectorAddress none (s.setMd m) _ = _
    rw [hva m hv]
    exact busRead_memory_ok (s := s.setMd m) (by exact Nat.lt_of_succ_lt h1)
  have hi : ∀ q : Metadata, q.vec = some n → runActs none [.vectorHi] (s.setMd q) =
      .go (({ s with ip := concat (s.mem.read (4 * n.toNat + 1)) q.lowByte } : State).setMd q) := by
    intro q hq
    rw [runActs_single]
    simp only [Act.run]
    rw [hva q hq]
    exact busRead_memory_ok (s := s.setMd q) (by exact h1)
  exact ⟨_, Runs.step lo (Runs.cons (hi { m with lo := _, sub := m.sub + 1 } hv) Runs.nil)⟩

theorem stops_vector {s : State} {m : Metadata} {n : Byte} (hv : m.vec = some n) (h : ¬ 4 * n.toNat + 2 ≤ s.params.memSize) :
    Stops [[.vectorLo], [.vectorHi]] (s.setMd m)
      (raise .addressOutOfRange (.bus .memory (firstOut s.params.memSize (4 * n.toNat))) (s.setMd m)) := by
  have h1 : ¬ 4 * n.toNat + 1 < s.params.memSize := h
  refine Stops.here ?_
  have hva : (s.setMd m).vectorAddress = 4 * n.toNat := by
    show 4 * (m.vec.getD 0).toNat = _
    rw [hv]; rfl
  rw [runActs_single]
  simp only [Act.run]
  rw [hva, claimMemory2_out (by exact h1)]
  rfl

/-- FLAGS16 pushed and IF cleared. -/
theorem runs_trapFlags {s : State} {m : Metadata} {n : Byte} (hv : m.vec = some n)
    (h : s.pushAddress.toNat + 2 ≤ s.params.memSize) :
    Runs [[.acknowledge, .pushLo .flags], [.pushHi .flags, .setIF false]] (s.setMd m)
      (s.trapFlags.setMd { m with sub := m.sub + 2 }) := by
  refine Runs.cons (runActs_cons (t := s.setMd m) ?_ (runActs_single.trans (run_pushLo .flags h))) (Runs.cons
    (runActs_cons (run_pushHi (m := { m with sub := m.sub + 1 }) .flags h) rfl) Runs.nil)
  simp only [Act.run]
  rw [acknowledgeInterrupt_vec (s := s.setMd m) hv]

/-- A trap entry whose vector is known: INT's, or a hardware one that has acknowledged its line. -/
theorem trapEntry_vec (s : State) (n : Byte) (hv : s.md.vec = some n) : trapEntry s = s.trapped n := by
  have hs : s.setMd s.md = s := rfl
  unfold State.trapped
  by_cases h1 : s.pushAddress.toNat + 2 ≤ s.params.memSize
  · have r1 := runs_trapFlags hv h1
    rw [hs] at r1
    rw [if_pos h1]
    have hpar : s.trapFlags.params = s.params := rfl
    by_cases h2 : s.trapFlags.pushAddress.toNat + 2 ≤ s.params.memSize
    · rw [if_pos h2]
      have r2 : Runs [[.pushLo .ip], [.pushHi .ip]] (s.trapFlags.setMd { s.md with sub := s.md.sub + 2 })
          (s.trapFrame.setMd { s.md with sub := s.md.sub + 4 }) :=
        runs_push16 (s := s.trapFlags) (m := { s.md with sub := s.md.sub + 2 }) .ip (by rw [hpar]; exact h2)
      have r12 := Runs.append r1 r2
      have hpar2 : s.trapFrame.params = s.params := rfl
      by_cases h3 : 4 * n.toNat + 2 ≤ s.params.memSize
      · rw [if_pos h3]
        obtain ⟨q, hq⟩ := runs_vector (s := s.trapFrame) (m := { s.md with sub := s.md.sub + 4 }) hv (by rw [hpar2]; exact h3)
        exact Runs.append r12 hq State.toFetching
      · rw [if_neg h3]
        exact Runs.stops r12 (stops_vector (s := s.trapFrame) (m := { s.md with sub := s.md.sub + 4 }) hv
          (by rw [hpar2]; exact h3)) State.toFetching
    · rw [if_neg h2]
      have st := stops_push16 (s := s.trapFlags) (m := { s.md with sub := s.md.sub + 2 }) .ip [] (by rw [hpar]; exact h2)
      exact Runs.stops r1 (Stops.append (bs := [[.vectorLo], [.vectorHi]]) st) State.toFetching
  · rw [if_neg h1]
    refine Stops.here (runActs_cons (t := s) ?_ (runActs_single.trans (run_pushLo_out (s := s) (m := s.md) .flags h1)))
      State.toFetching
    simp only [Act.run, acknowledgeInterrupt_vec hv]

/-- A hardware trap entry first acknowledges its line (60_exceptions.md R347). -/
theorem trapEntry_acknowledge (s : State) : trapEntry s = trapEntry (acknowledgeInterrupt s) := by
  have hk : acknowledgeInterrupt (acknowledgeInterrupt s) = acknowledgeInterrupt s := by
    unfold acknowledgeInterrupt
    cases hv : s.md.vec with
    | some n => simp only [hv]
    | none =>
      simp only
      cases hsel : s.pic.selected with
      | some i => simp only
      | none => simp only [hv, hsel]
  have hr : runActs none [.acknowledge, .pushLo .flags] s =
      runActs none [.acknowledge, .pushLo .flags] (acknowledgeInterrupt s) := by
    simp only [runActs, Act.run, Flow.andThen, hk]
  have hnp : ∀ t : State, (Act.pushLo .flags).run none t ≠ .park := by
    intro t
    by_cases h : t.pushAddress.toNat + 2 ≤ t.params.memSize
    · rw [← State.setMd_self t, run_pushLo (s := t) (m := t.md) .flags h]; simp
    · rw [← State.setMd_self t, run_pushLo_out (s := t) (m := t.md) .flags h]; simp
  unfold trapEntry trapSubSteps
  simp only [runSubSteps, hr]
  cases h : runActs none [.acknowledge, .pushLo .flags] (acknowledgeInterrupt s) with
  | park =>
    refine absurd (Eq.trans ?_ h) (hnp (acknowledgeInterrupt s))
    rw [← runActs_single (key := none)]
    simp only [runActs, Act.run, Flow.andThen, hk]
  | go t => rfl
  | stop t => rfl

/-- INT n (46_system.md R280): its trap entry is part of it. -/
theorem perform_int (x : Operands) (s : State) (hx : x.fit .int = true) :
    ∃ m, m.start = some s.ip ∧ m.op = some (opcodeByte .int) ∧ m.vec = some (low x.imm) ∧
      perform .int x s =
        .next ((({ s.past .int with phase := trapPhase (low x.imm) } : State).setMd m).trapped (low x.imm)) := by
  have hr : dataReads .int = [[]] := rfl
  have hp : prefetched .int x s = ({ s.past .int with phase := .fetchingOperands } : State).setMd
      { start := some s.ip, op := some (opcodeByte .int), vec := some (low x.imm) } := rfl
  refine ⟨{ start := some s.ip, op := some (opcodeByte .int), vec := some (low x.imm) }, rfl, rfl, rfl, ?_⟩
  refine (perform_of_runs hx (by simp) hr hp (Runs.step rfl Runs.nil) (ws := [[]]) rfl rfl (Runs.cons rfl Runs.nil)).trans ?_
  refine congrArg _ (Eq.trans ?_ (trapEntry_vec _ (low x.imm) rfl))
  rfl

end Sys2Proof.Machine
end

