-- ==== Sys2Proof/Laws/InputOutput.lean ====
section
/-! SUPPORT. What IN and OUT do as a whole (47_io.md R301, R302), through the chip-select decoder. -/

namespace Sys2Proof.Machine

open Sys2Proof.Config

/-! ## The chip-select decoder (20_memory.md R72) -/

/-- The core's own fields that an access of the core does not read: IP, the phase and the metadata. -/
def State.atCore (s : State) (ip : Word) (p : Phase) (m : Metadata) : State := { s with ip := ip, phase := p, md := m }

theorem resolve_atCore (port : Nat) (s : State) (ip : Word) (p : Phase) (m : Metadata) :
    resolve port (s.atCore ip p m) = (resolve port s).map fun q => (q.1, q.2.atCore ip p m) := by
  unfold resolve
  cases portRegister port with
  | none => rfl
  | some r =>
    have hd : (s.atCore ip p m).devices = s.devices := rfl
    have hp : (s.atCore ip p m).params = s.params := rfl
    simp only [hd, hp]
    split
    · rfl
    · split <;> rfl

theorem deviceRead_atCore (r : DeviceReg) (s : State) (ip : Word) (p : Phase) (m : Metadata) :
    deviceRead r (s.atCore ip p m) = deviceRead r s := by cases r <;> rfl

theorem strobeCheck_atCore (s : State) (ip : Word) (p : Phase) (m : Metadata) :
    strobeCheck (s.atCore ip p m) = (strobeCheck s).atCore ip p m := by
  unfold strobeCheck
  have hd : (s.atCore ip p m).devices = s.devices := rfl
  rw [hd]
  split <;> rfl

theorem writeHandshakeData_atCore (v : Byte) (s : State) (ip : Word) (p : Phase) (m : Metadata) :
    writeHandshakeData v (s.atCore ip p m) = (writeHandshakeData v s).atCore ip p m := by
  unfold writeHandshakeData
  have hd : (s.atCore ip p m).printer = s.printer := rfl
  rw [hd]
  by_cases h : s.printer.busy <;> simp only [h, if_true, if_false, Bool.false_eq_true] <;> rfl

theorem deviceWrite_atCore (r : DeviceReg) (v : Byte) (s : State) (ip : Word) (p : Phase) (m : Metadata) :
    deviceWrite r v (s.atCore ip p m) = (deviceWrite r v s).atCore ip p m := by
  cases r
  case pa => exact strobeCheck_atCore { s with pio := { s.pio with la := v } } ip p m
  case ca => exact strobeCheck_atCore { s with pio := { s.pio with ca := v } } ip p m
  case data => exact writeHandshakeData_atCore v s ip p m
  all_goals rfl

theorem setReg_atCore (s : State) (ip : Word) (p : Phase) (m : Metadata) (w : Width) (r : RegNum) (v : Word) :
    (s.atCore ip p m).setReg w r v = (s.setReg w r v).atCore ip p m := by
  have h16 : ∀ (r : Reg16) (v : Word), (s.atCore ip p m).setReg16 r v = (s.setReg16 r v).atCore ip p m := by
    intro r v; cases r <;> rfl
  cases w
  · simp only [State.setReg, State.setReg8]
    split <;> exact h16 ..
  · exact h16 ..

theorem resolve_present {port : Nat} {s t : State} {r : DeviceReg} (h : resolve port s = some (r, t)) :
    portRegister port = some r ∧ r.present t.devices = true ∧
      (t = s ∨ (t = autoEnable s ∧ r.present s.devices = false ∧ r.isPio = true)) := by
  unfold resolve at h
  cases hp : portRegister port with
  | none => rw [hp] at h; cases h
  | some r' =>
    rw [hp] at h
    simp only at h
    split at h
    · simp only [Option.some.injEq, Prod.mk.injEq] at h
      obtain ⟨rfl, rfl⟩ := h
      exact ⟨rfl, by assumption, Or.inl rfl⟩
    · split at h
      · rename_i h1 h2
        simp only [Option.some.injEq, Prod.mk.injEq] at h
        obtain ⟨rfl, rfl⟩ := h
        simp only [Bool.and_eq_true] at h2
        refine ⟨rfl, ?_, Or.inr ⟨rfl, by simpa using h1, h2.1⟩⟩
        have := h2.1
        cases r' <;> first | rfl | cases this
      · cases h

theorem resolve_of_present {port : Nat} {s : State} {r : DeviceReg} (h : portRegister port = some r)
    (hp : r.present s.devices = true) : resolve port s = some (r, s) := by
  unfold resolve
  rw [h]
  simp only [hp, if_true]

theorem present_autoEnable {s : State} {r : DeviceReg} (h : r.present s.devices = true) :
    r.present (autoEnable s).devices = true := by
  cases r <;> first | exact h | rfl

/-- A port that has been resolved stays resolved when another is. -/
theorem resolve_stays {p q : Nat} {s t u : State} {r r' : DeviceReg} (h : resolve p s = some (r, t))
    (h' : resolve q t = some (r', u)) : resolve p u = some (r, u) := by
  obtain ⟨hp, hpr, -⟩ := resolve_present h
  obtain ⟨-, -, hu⟩ := resolve_present h'
  refine resolve_of_present hp ?_
  rcases hu with rfl | ⟨rfl, -, -⟩
  · exact hpr
  · exact present_autoEnable hpr

theorem deviceWrite_devices (r : DeviceReg) (v : Byte) (s : State) : (deviceWrite r v s).devices = s.devices := by
  cases r <;> first
    | rfl
    | (simp only [deviceWrite, strobeCheck]; split <;> rfl)
    | (simp only [deviceWrite, writeHandshakeData]; split <;> rfl)

/-! ## IN and OUT (47_io.md R301, R302) -/

/-- The port of IN and OUT (47_io.md R300). -/
def State.port (s : State) (fromDX : Bool) (x : Operands) : Nat := if fromDX then s.dx.toNat else x.imm.toNat

/-- Both ports of a 2-byte access resolved, the second in the state that the first leaves (20_memory.md R76, R77): the
registers and the state, or the first port refused with the state at its refusal. -/
def resolve2 (p : Nat) (s : State) : Except (Nat × State) (DeviceReg × DeviceReg × State) :=
  match resolve p s with
  | none => .error (p, s)
  | some (r, t) =>
    match resolve (p + 1) t with
    | none => .error (p + 1, t)
    | some (r', u) => .ok (r, r', u)

theorem claimPort2_eq (p : Nat) (s : State) :
    claimPort2 p s =
      match resolve2 p s with
      | .ok (_, _, u) => .go u
      | .error (q, t) => .stop (raise .ioMemoryNotConnected (.bus .io q) t) := by
  unfold claimPort2 claimPort resolve2
  cases resolve p s with
  | none => rfl
  | some a =>
    obtain ⟨r, t⟩ := a
    simp only [Flow.andThen]
    cases resolve (p + 1) t with
    | none => rfl
    | some b => rfl


theorem resolve2_atCore (p : Nat) (s : State) (ip : Word) (ph : Phase) (m : Metadata) :
    resolve2 p (s.atCore ip ph m) =
      match resolve2 p s with
      | .ok (r, r', u) => .ok (r, r', u.atCore ip ph m)
      | .error (q, t) => .error (q, t.atCore ip ph m) := by
  unfold resolve2
  rw [resolve_atCore]
  cases resolve p s with
  | none => rfl
  | some a =>
    obtain ⟨r, t⟩ := a
    simp only [Option.map_some]
    rw [resolve_atCore]
    cases resolve (p + 1) t with
    | none => rfl
    | some b => rfl

/-- The operand reads of IN, for the two kinds of port. -/
theorem dataReads_inp (dx : Bool) (w : Width) :
    dataReads (.inp dx w) =
      match dx, w with
      | true, .w8 => [[.portFromDX, .readPort8]]
      | true, .w16 => [[.portFromDX, .readPortLo], [.readPortHi]]
      | false, .w8 => [[], [.readPort8]]
      | false, .w16 => [[], [.readPortLo], [.readPortHi]] := by
  cases dx <;> cases w <;> rfl

/-- The state in which the reads of IN begin, its port at hand. -/
def State.atPort (s : State) (oc : Opcode) (ph : Phase) (p : Word) (n : Nat) : State :=
  s.atCore (s.ip + BitVec.ofNat 16 (opcodeLength oc)) ph
    { start := some s.ip, op := some (opcodeByte oc), port := some p, sub := n }

/-- How many sub-steps are done when the port of IN is at hand. -/
def portSubs (dx : Bool) : Nat := if dx then 0 else 1

/-- The reads of IN from the point where its port is at hand. -/
theorem inp_reads (dx : Bool) (w : Width) (x : Operands) (s : State) (k : State → State) :
    runSubSteps (dataReads (.inp dx w)) (prefetched (.inp dx w) x s) k =
      match runActs none (match w with | .w8 => [.readPort8] | .w16 => [.readPortLo])
          (s.atPort (.inp dx w) .fetchingOperands (if dx then s.dx else x.imm) (portSubs dx)) with
      | .go t => runSubSteps (match w with | .w8 => [] | .w16 => [[.readPortHi]]) t.bumpSub k
      | .stop t => t
      | .park =>
        { s.atCore (s.ip + BitVec.ofNat 16 (opcodeLength (.inp dx w))) .fetchingOperands
            { start := some s.ip, op := some (opcodeByte (.inp dx w)), port := if dx then none else some x.imm,
              sub := portSubs dx } with waitingForInput := true } := by
  cases dx <;> cases w <;> rfl

theorem resolve_ip {port : Nat} {s t : State} {r : DeviceReg} (h : resolve port s = some (r, t)) : t.ip = s.ip := by
  obtain ⟨-, -, h⟩ := resolve_present h
  rcases h with rfl | ⟨rfl, -, -⟩ <;> rfl

theorem settle_atCore (s : State) (ip : Word) (p : Phase) (m n : Metadata) :
    (s.atCore ip p m).settle n = ({ s with ip := ip } : State).settle n := rfl

/-- The end of IN: the accumulator takes the value. -/
theorem inp_commit (dx : Bool) (w : Width) (s : State) (ip : Word) (m : Metadata) (v : Word) (hm : m.srcv = some v)
    (hv : m.vec = none) :
    ∃ n : Metadata, n.vec = none ∧
      commitInstruction (.inp dx w) ((s.atCore ip .fetchingOperands m).enter .executing) =
        (({ s with ip := ip } : State).setReg w 0 v).settle n := by
  simp only [commitInstruction, reduceCtorEq, if_false]
  have he : executeStep (.inp dx w) ((s.atCore ip .fetchingOperands m).enter .executing) =
      ({ s with ip := ip, phase := .writeback } : State).setMd { m with res := some v, sub := 0 } := by rw [← hm]; rfl
  rw [he]
  have hr : Runs (writes (.inp dx w)) (({ s with ip := ip, phase := .writeback } : State).setMd { m with res := some v, sub := 0 })
      ((({ s with ip := ip, phase := .writeback } : State).setReg w 0 v).setMd { m with res := some v, sub := 1 }) := by
    refine Runs.cons (t := ((({ s with ip := ip, phase := .writeback } : State).setReg w 0 v).setMd
      { m with res := some v, sub := 0 })) ?_ Runs.nil
    rw [runActs_single, ← State.setReg_setMd]
    rfl
  refine ⟨{ m with res := some v, sub := 1 }, hv, ?_⟩
  rw [hr, closeInstruction_settle (by simp)]
  have := setReg_phase { s with ip := ip } .writeback w 0 v
  exact (congrArg (fun z => State.settle z _) this).trans (settle_phase ..)

/-- IN AL (47_io.md R301). -/
theorem perform_inp8 (dx : Bool) (x : Operands) (s : State) (hx : x.fit (.inp dx .w8) = true) :
    let oc : Opcode := .inp dx .w8
    let p := (if dx then s.dx else x.imm).toNat
    (resolve p s = none →
      ∃ m, m.start = some s.ip ∧ m.op = some (opcodeByte oc) ∧
        perform oc x s =
          .next (raise .ioMemoryNotConnected (.bus .io p) ((({ s.past oc with phase := .fetchingOperands } : State)).setMd m))) ∧
    (∀ r t v, resolve p s = some (r, t) → deviceRead r t = some v →
      ∃ m, m.vec = none ∧ perform oc x s = .next (((t.past oc).setReg .w8 0 (zext v)).settle m)) ∧
    (∀ r t, resolve p s = some (r, t) → deviceRead r t = none →
      ∃ m, m.start = some s.ip ∧ m.op = some (opcodeByte oc) ∧ (dx = false → m.port = some x.imm) ∧
        m.sub = (if dx then 0 else 1) ∧
        perform oc x s =
          .next { (({ s.past oc with phase := .fetchingOperands } : State)).setMd m with waitingForInput := true }) := by
  intro oc p
  have hrun := inp_reads dx .w8 x s
  have hperf : perform oc x s = .next (runSubSteps (dataReads oc) (prefetched oc x s)
      fun t => commitInstruction oc (t.enter .executing)) := by simp only [perform, hx, if_true, finishInstruction, oc]
  have hread : runActs none [.readPort8] (s.atPort oc .fetchingOperands (if dx then s.dx else x.imm) (portSubs dx)) =
      busRead .io p none (s.atPort oc .fetchingOperands (if dx then s.dx else x.imm) (portSubs dx)) fun b s =>
        .go (s.withMd fun m => { m with srcv := some (zext b) }) := by
    rw [runActs_single]; rfl
  rw [busRead_io, State.atPort, resolve_atCore] at hread
  refine ⟨?_, ?_, ?_⟩
  · intro h
    rw [h] at hread
    refine ⟨{ start := some s.ip, op := some (opcodeByte oc), port := some (if dx then s.dx else x.imm), sub := portSubs dx },
      rfl, rfl, hperf.trans (congrArg _ ((hrun _).trans ?_))⟩
    simp only []
    rw [State.atPort, hread]
    rfl
  · intro r t v h hv
    obtain ⟨m, hm, hc⟩ := inp_commit dx .w8 t (s.ip + BitVec.ofNat 16 (opcodeLength oc))
      { start := some s.ip, op := some (opcodeByte oc), port := some (if dx then s.dx else x.imm), srcv := some (zext v),
        sub := portSubs dx + 1 } (zext v) rfl rfl
    refine ⟨m, hm, hperf.trans (congrArg _ ((hrun _).trans ?_))⟩
    rw [h] at hread
    simp only [Option.map_some, deviceRead_atCore, hv] at hread
    simp only []
    rw [State.atPort, hread]
    refine Eq.trans ?_ (hc.trans ?_)
    · rfl
    · have := resolve_ip h
      rw [State.past, this]
  · intro r t h hv
    rw [h] at hread
    simp only [Option.map_some, deviceRead_atCore, hv] at hread
    refine ⟨{ start := some s.ip, op := some (opcodeByte oc), port := if dx then none else some x.imm, sub := portSubs dx },
      rfl, rfl, by rintro rfl; rfl, rfl, hperf.trans (congrArg _ ((hrun _).trans ?_))⟩
    simp only []
    rw [State.atPort, hread]
    rfl

/-- IN AX (47_io.md R301): both ports are resolved before a byte is read. -/
theorem perform_inp16 (dx : Bool) (x : Operands) (s : State) (hx : x.fit (.inp dx .w16) = true) :
    let oc : Opcode := .inp dx .w16
    let p := (if dx then s.dx else x.imm).toNat
    (∀ q t, resolve2 p s = .error (q, t) →
      ∃ m, m.start = some s.ip ∧ m.op = some (opcodeByte oc) ∧
        perform oc x s =
          .next (raise .ioMemoryNotConnected (.bus .io q) ((({ t.past oc with phase := .fetchingOperands } : State)).setMd m))) ∧
    (∀ r r' t, resolve2 p s = .ok (r, r', t) →
      ∃ v v' m, deviceRead r t = some v ∧ deviceRead r' t = some v' ∧ m.vec = none ∧
        perform oc x s = .next (((t.past oc).setReg .w16 0 (concat v' v)).settle m)) := by
  intro oc p
  have hrun := inp_reads dx .w16 x s
  have hperf : perform oc x s = .next (runSubSteps (dataReads oc) (prefetched oc x s)
      fun t => commitInstruction oc (t.enter .executing)) := by simp only [perform, hx, if_true, finishInstruction, oc]
  have hread : runActs none [.readPortLo] (s.atPort oc .fetchingOperands (if dx then s.dx else x.imm) (portSubs dx)) =
      (claimPort2 p (s.atPort oc .fetchingOperands (if dx then s.dx else x.imm) (portSubs dx))).andThen fun s =>
        busRead .io s.md.portNumber none s fun b s => .go (s.withMd fun m => { m with lo := some b }) := by
    rw [runActs_single]; rfl
  rw [claimPort2_eq, State.atPort, resolve2_atCore] at hread
  constructor
  · intro q t h
    rw [h] at hread
    have hip : t.ip = s.ip := by
      unfold resolve2 at h
      cases h1 : resolve p s with
      | none => rw [h1] at h; cases h; rfl
      | some a =>
        obtain ⟨r, u⟩ := a
        rw [h1] at h
        simp only at h
        cases h2 : resolve (p + 1) u with
        | none => rw [h2] at h; cases h; exact resolve_ip h1
        | some b => rw [h2] at h; cases h
    refine ⟨{ start := some s.ip, op := some (opcodeByte oc), port := some (if dx then s.dx else x.imm), sub := portSubs dx },
      rfl, rfl, hperf.trans (congrArg _ ((hrun _).trans ?_))⟩
    simp only []
    rw [State.atPort, hread, State.past, hip]
    rfl
  · intro r r' t h
    rw [h] at hread
    obtain ⟨u, h1, h2⟩ : ∃ u, resolve p s = some (r, u) ∧ resolve (p + 1) u = some (r', t) := by
      unfold resolve2 at h
      cases h1 : resolve p s with
      | none => rw [h1] at h; cases h
      | some a =>
        obtain ⟨r0, u⟩ := a
        rw [h1] at h
        simp only at h
        cases h2 : resolve (p + 1) u with
        | none => rw [h2] at h; cases h
        | some b =>
          obtain ⟨r1, u1⟩ := b
          rw [h2] at h
          cases h
          exact ⟨u, rfl, h2⟩
    have h1' : resolve p t = some (r, t) := resolve_stays h1 h2
    have h2' : resolve (p + 1) t = some (r', t) := resolve_of_present (resolve_present h2).1 (resolve_present h2).2.1
    have hp1 := (resolve_present h1).1
    have hp2 := (resolve_present h2).1
    have hkey : ∀ q, portRegister q = some .key → q = 0x50 := by
      intro q hq
      unfold portRegister at hq
      split at hq <;> first | rfl | cases hq
    have hr : r ≠ .key := by
      rintro rfl
      have := hkey p hp1
      rw [this] at hp2
      cases hp2
    have hr' : r' ≠ .key := by
      rintro rfl
      have : p = 0x4F := by have := hkey _ hp2; omega
      rw [this] at hp1
      cases hp1
    obtain ⟨v, hv⟩ : ∃ v, deviceRead r t = some v := by cases r <;> first | exact ⟨_, rfl⟩ | exact absurd rfl hr
    obtain ⟨v', hv'⟩ : ∃ v, deviceRead r' t = some v := by cases r' <;> first | exact ⟨_, rfl⟩ | exact absurd rfl hr'
    obtain ⟨m, hm, hc⟩ := inp_commit dx .w16 t (s.ip + BitVec.ofNat 16 (opcodeLength oc))
      { start := some s.ip, op := some (opcodeByte oc), port := some (if dx then s.dx else x.imm),
        srcv := some (concat v' v), sub := portSubs dx + 2 } (concat v' v) rfl rfl
    refine ⟨v, v', m, hv, hv', hm, hperf.trans (congrArg _ ((hrun _).trans ?_))⟩
    have hlo : ∀ q : Metadata, q.port = some (if dx then s.dx else x.imm) →
        busRead .io (t.atCore (s.ip + BitVec.ofNat 16 (opcodeLength oc)) .fetchingOperands q).md.portNumber none
          (t.atCore (s.ip + BitVec.ofNat 16 (opcodeLength oc)) .fetchingOperands q)
          (fun b s => .go (s.withMd fun m => { m with lo := some b })) =
        .go (t.atCore (s.ip + BitVec.ofNat 16 (opcodeLength oc)) .fetchingOperands { q with lo := some v }) := by
      intro q hq
      have : (t.atCore (s.ip + BitVec.ofNat 16 (opcodeLength oc)) .fetchingOperands q).md.portNumber = p := by
        show (q.port.getD 0).toNat = p
        rw [hq]; rfl
      rw [this, busRead_io, resolve_atCore, h1']
      simp only [Option.map_some, deviceRead_atCore, hv]
      rfl
    have hhi : ∀ q : Metadata, q.port = some (if dx then s.dx else x.imm) → q.lo = some v →
        runActs none [.readPortHi] (t.atCore (s.ip + BitVec.ofNat 16 (opcodeLength oc)) .fetchingOperands q) =
        .go (t.atCore (s.ip + BitVec.ofNat 16 (opcodeLength oc)) .fetchingOperands
          { q with srcv := some (concat v' v), lo := none }) := by
      intro q hq hl
      have : (t.atCore (s.ip + BitVec.ofNat 16 (opcodeLength oc)) .fetchingOperands q).md.portNumber = p := by
        show (q.port.getD 0).toNat = p
        rw [hq]; rfl
      rw [runActs_single]
      simp only [Act.run]
      rw [this, busRead_io, resolve_atCore, h2']
      simp only [Option.map_some, deviceRead_atCore, hv']
      have hlb : q.lowByte = v := by simp [Metadata.lowByte, hl]
      rw [← hlb]
      rfl
    simp only []
    simp only [Flow.andThen] at hread
    rw [State.atPort, hread]
    rw [hlo _ rfl]
    simp only [runSubSteps]
    rw [show State.bumpSub (t.atCore (s.ip + BitVec.ofNat 16 (opcodeLength oc)) .fetchingOperands
      { start := some s.ip, op := some (opcodeByte oc), port := some (if dx then s.dx else x.imm), lo := some v, sub := portSubs dx }) =
      t.atCore (s.ip + BitVec.ofNat 16 (opcodeLength oc)) .fetchingOperands
      { start := some s.ip, op := some (opcodeByte oc), port := some (if dx then s.dx else x.imm), lo := some v,
        sub := portSubs dx + 1 } from rfl, hhi _ rfl rfl]
    refine Eq.trans ?_ (hc.trans ?_)
    · rfl
    · have : t.ip = s.ip := (resolve_ip h2).trans (resolve_ip h1)
      rw [State.past, this]

/-- The state in which the writes of OUT begin: the port and the value are at hand. -/
def State.atOutput (s : State) (dx : Bool) (w : Width) (p : Word) : State :=
  s.atCore (s.ip + BitVec.ofNat 16 (opcodeLength (.out dx w))) .writeback
    { start := some s.ip, op := some (opcodeByte (.out dx w)), port := some p, res := some (s.reg w 0) }

/-- OUT up to its writes. -/
theorem perform_out (dx : Bool) (w : Width) (x : Operands) (s : State) (hx : x.fit (.out dx w) = true) :
    perform (.out dx w) x s =
      .next (runSubSteps (writePort w) (s.atOutput dx w (if dx then s.dx else x.imm)) (closeInstruction (.out dx w))) := by
  simp only [perform, hx, if_true]
  cases dx <;> cases w <;> rfl

theorem deviceWrite_ip (r : DeviceReg) (v : Byte) (s : State) : (deviceWrite r v s).ip = s.ip := by
  cases r <;> first
    | rfl
    | (simp only [deviceWrite, strobeCheck]; split <;> rfl)
    | (simp only [deviceWrite, writeHandshakeData]; split <;> rfl)

/-- OUT of AL (47_io.md R302). -/
theorem perform_out8 (dx : Bool) (x : Operands) (s : State) (hx : x.fit (.out dx .w8) = true) :
    let oc : Opcode := .out dx .w8
    let p := (if dx then s.dx else x.imm).toNat
    (resolve p s = none →
      ∃ m, m.start = some s.ip ∧ m.op = some (opcodeByte oc) ∧
        perform oc x s =
          .next (raise .ioMemoryNotConnected (.bus .io p) ((({ s.past oc with phase := .writeback } : State)).setMd m))) ∧
    (∀ r t, resolve p s = some (r, t) →
      ∃ m, m.vec = none ∧ perform oc x s = .next (((deviceWrite r (s.reg8 0) t).past oc).settle m)) := by
  intro oc p
  have hperf := perform_out dx .w8 x s hx
  have hlow : low (zext (s.reg8 0)) = s.reg8 0 := by
    unfold low zext; ext i hi; simp
  have hwrite : runActs none [.writePort8] (s.atOutput dx .w8 (if dx then s.dx else x.imm)) =
      busWrite .io p (s.reg8 0) (s.atOutput dx .w8 (if dx then s.dx else x.imm)) := by
    rw [runActs_single]
    exact congrArg (fun v => busWrite .io p v (s.atOutput dx .w8 (if dx then s.dx else x.imm))) hlow
  rw [busWrite_io, State.atOutput, resolve_atCore] at hwrite
  constructor
  · intro h
    rw [h] at hwrite
    refine ⟨{ start := some s.ip, op := some (opcodeByte oc), port := some (if dx then s.dx else x.imm),
              res := some (s.reg .w8 0) }, rfl, rfl, hperf.trans (congrArg _ ?_)⟩
    simp only [writePort, runSubSteps]
    rw [State.atOutput, hwrite]
    rfl
  · intro r t h
    rw [h] at hwrite
    simp only [Option.map_some, deviceWrite_atCore] at hwrite
    refine ⟨{ start := some s.ip, op := some (opcodeByte oc), port := some (if dx then s.dx else x.imm),
              res := some (s.reg .w8 0), sub := 1 }, rfl, hperf.trans (congrArg _ ?_)⟩
    simp only [writePort, runSubSteps]
    rw [State.atOutput, hwrite]
    have hip : (deviceWrite r (s.reg8 0) t).ip = s.ip := (deviceWrite_ip ..).trans (resolve_ip h)
    rw [State.past, hip]
    exact closeInstruction_settle (by simp) ({ deviceWrite r (s.reg8 0) t with
      ip := s.ip + BitVec.ofNat 16 (opcodeLength oc), phase := .writeback }) _

/-- OUT of AX (47_io.md R302): both ports are resolved before a byte is written. -/
theorem perform_out16 (dx : Bool) (x : Operands) (s : State) (hx : x.fit (.out dx .w16) = true) :
    let oc : Opcode := .out dx .w16
    let p := (if dx then s.dx else x.imm).toNat
    (∀ q t, resolve2 p s = .error (q, t) →
      ∃ m, m.start = some s.ip ∧ m.op = some (opcodeByte oc) ∧
        perform oc x s =
          .next (raise .ioMemoryNotConnected (.bus .io q) ((({ t.past oc with phase := .writeback } : State)).setMd m))) ∧
    (∀ r r' t, resolve2 p s = .ok (r, r', t) →
      ∃ m, m.vec = none ∧
        perform oc x s =
          .next (((deviceWrite r' (high s.ax) (deviceWrite r (low s.ax) t)).past oc).settle m)) := by
  intro oc p
  have hperf := perform_out dx .w16 x s hx
  have hwrite : runActs none [.writePortLo] (s.atOutput dx .w16 (if dx then s.dx else x.imm)) =
      (claimPort2 p (s.atOutput dx .w16 (if dx then s.dx else x.imm))).andThen fun s =>
        busWrite .io s.md.portNumber (low s.md.result) s := by
    rw [runActs_single]; rfl
  rw [claimPort2_eq, State.atOutput, resolve2_atCore] at hwrite
  constructor
  · intro q t h
    rw [h] at hwrite
    have hip : t.ip = s.ip := by
      unfold resolve2 at h
      cases h1 : resolve p s with
      | none => rw [h1] at h; cases h; rfl
      | some a =>
        obtain ⟨r, u⟩ := a
        rw [h1] at h
        simp only at h
        cases h2 : resolve (p + 1) u with
        | none => rw [h2] at h; cases h; exact resolve_ip h1
        | some b => rw [h2] at h; cases h
    refine ⟨{ start := some s.ip, op := some (opcodeByte oc), port := some (if dx then s.dx else x.imm),
              res := some (s.reg .w16 0) }, rfl, rfl, hperf.trans (congrArg _ ?_)⟩
    simp only [writePort, runSubSteps]
    rw [State.atOutput, hwrite, State.past, hip]
    rfl
  · intro r r' t h
    rw [h] at hwrite
    obtain ⟨u, h1, h2⟩ : ∃ u, resolve p s = some (r, u) ∧ resolve (p + 1) u = some (r', t) := by
      unfold resolve2 at h
      cases h1 : resolve p s with
      | none => rw [h1] at h; cases h
      | some a =>
        obtain ⟨r0, u⟩ := a
        rw [h1] at h
        simp only at h
        cases h2 : resolve (p + 1) u with
        | none => rw [h2] at h; cases h
        | some b =>
          obtain ⟨r1, u1⟩ := b
          rw [h2] at h
          cases h
          exact ⟨u, rfl, h2⟩
    have h1' : resolve p t = some (r, t) := resolve_stays h1 h2
    have hp2 := resolve_present h2
    have h2' : resolve (p + 1) (deviceWrite r (low s.ax) t) = some (r', deviceWrite r (low s.ax) t) :=
      resolve_of_present hp2.1 (by rw [deviceWrite_devices]; exact hp2.2.1)
    refine ⟨{ start := some s.ip, op := some (opcodeByte oc), port := some (if dx then s.dx else x.imm),
              res := some (s.reg .w16 0), sub := 2 }, rfl, hperf.trans (congrArg _ ?_)⟩
    have hlo : ∀ q : Metadata, q.port = some (if dx then s.dx else x.imm) → q.res = some s.ax →
        busWrite .io (t.atCore (s.ip + BitVec.ofNat 16 (opcodeLength oc)) .writeback q).md.portNumber
          (low (t.atCore (s.ip + BitVec.ofNat 16 (opcodeLength oc)) .writeback q).md.result)
          (t.atCore (s.ip + BitVec.ofNat 16 (opcodeLength oc)) .writeback q) =
        .go ((deviceWrite r (low s.ax) t).atCore (s.ip + BitVec.ofNat 16 (opcodeLength oc)) .writeback q) := by
      intro q hq hr
      have e1 : (t.atCore (s.ip + BitVec.ofNat 16 (opcodeLength oc)) .writeback q).md.portNumber = p := by
        show (q.port.getD 0).toNat = p
        rw [hq]; rfl
      have e2 : (t.atCore (s.ip + BitVec.ofNat 16 (opcodeLength oc)) .writeback q).md.result = s.ax := by
        show q.res.getD 0 = s.ax
        rw [hr]; rfl
      rw [e1, e2, busWrite_io, resolve_atCore, h1']
      simp only [Option.map_some, deviceWrite_atCore]
    have hhi : ∀ q : Metadata, q.port = some (if dx then s.dx else x.imm) → q.res = some s.ax →
        runActs none [.writePortHi]
          ((deviceWrite r (low s.ax) t).atCore (s.ip + BitVec.ofNat 16 (opcodeLength oc)) .writeback q) =
        .go ((deviceWrite r' (high s.ax) (deviceWrite r (low s.ax) t)).atCore (s.ip + BitVec.ofNat 16 (opcodeLength oc))
          .writeback q) := by
      intro q hq hr
      have e1 : ((deviceWrite r (low s.ax) t).atCore (s.ip + BitVec.ofNat 16 (opcodeLength oc)) .writeback q).md.portNumber = p := by
        show (q.port.getD 0).toNat = p
        rw [hq]; rfl
      have e2 : ((deviceWrite r (low s.ax) t).atCore (s.ip + BitVec.ofNat 16 (opcodeLength oc)) .writeback q).md.result = s.ax := by
        show q.res.getD 0 = s.ax
        rw [hr]; rfl
      rw [runActs_single]
      simp only [Act.run]
      rw [e1, e2, busWrite_io, resolve_atCore, h2']
      simp only [Option.map_some, deviceWrite_atCore]
    simp only [Flow.andThen] at hwrite
    simp only [writePort, runSubSteps]
    rw [State.atOutput, hwrite, hlo _ rfl rfl]
    simp only []
    rw [show State.bumpSub ((deviceWrite r (low s.ax) t).atCore (s.ip + BitVec.ofNat 16 (opcodeLength oc)) .writeback
      { start := some s.ip, op := some (opcodeByte oc), port := some (if dx then s.dx else x.imm),
        res := some (s.reg .w16 0) }) =
      (deviceWrite r (low s.ax) t).atCore (s.ip + BitVec.ofNat 16 (opcodeLength oc)) .writeback
      { start := some s.ip, op := some (opcodeByte oc), port := some (if dx then s.dx else x.imm),
        res := some (s.reg .w16 0), sub := 1 } from rfl, hhi _ rfl rfl]
    have hip : (deviceWrite r' (high s.ax) (deviceWrite r (low s.ax) t)).ip = s.ip := by
      rw [deviceWrite_ip, deviceWrite_ip, resolve_ip h2, resolve_ip h1]
    simp only []
    rw [State.past, hip]
    exact closeInstruction_settle (by simp) ({ deviceWrite r' (high s.ax) (deviceWrite r (low s.ax) t) with
      ip := s.ip + BitVec.ofNat 16 (opcodeLength oc), phase := .writeback }) _

end Sys2Proof.Machine
end

