-- ==== Sys2Proof/Laws/Exec.lean ====
section
/-! SUPPORT. Every meaning is `perform` of its instruction's opcode and operands, so the laws of `perform` are laws of
`exec`. -/

namespace Sys2Proof.Machine

theorem exec_eq_perform (i : Instr) (s : State) : exec i s = perform i.opcode i.operands s := by
  cases i <;> rfl

end Sys2Proof.Machine
end

