-- ==== Sys2Proof/Laws/Frame.lean ====
section
/-! SUPPORT. What no sub-step of the core changes: the parameters, the stored program, the schedule, the host's flags, the draws
and the reply; the memory's canonical form and the device configuration's validity are kept, and the configuration changes by the PIO
auto-enable at most. -/

namespace Sys2Proof.Machine

open Sys2Proof.Config

/-- The core has led from `s` to `t`. -/
structure Kept (s t : State) : Prop where
  params : t.params = s.params
  loaded : t.loaded = s.loaded
  agenda : t.agenda = s.agenda
  draws : t.draws = s.draws
  reply : t.reply = s.reply
  pauseFlag : t.pauseFlag = s.pauseFlag
  waitingForInput : t.waitingForInput = s.waitingForInput ∨ t.waitingForInput = true
  background : t.mem.background = s.mem.background
  devices : t.devices = s.devices ∨
    (s.params.autoEnablePio = true ∧ s.devices.pio = none ∧ t.devices = { s.devices with pio := some .switchesAndLeds })
  memoryOk : s.memoryOk = true → t.memoryOk = true
  devicesOk : s.devicesOk = true → t.devicesOk = true

theorem Kept.refl (s : State) : Kept s s := ⟨rfl, rfl, rfl, rfl, rfl, rfl, .inl rfl, rfl, .inl rfl, id, id⟩

theorem Kept.trans {s t u : State} (h : Kept s t) (k : Kept t u) : Kept s u where
  params := k.params.trans h.params
  loaded := k.loaded.trans h.loaded
  agenda := k.agenda.trans h.agenda
  draws := k.draws.trans h.draws
  reply := k.reply.trans h.reply
  pauseFlag := k.pauseFlag.trans h.pauseFlag
  waitingForInput := by
    rcases k.waitingForInput with hk | hk
    · rw [hk]; exact h.waitingForInput
    · exact .inr hk
  background := k.background.trans h.background
  devices := by
    rcases k.devices with hk | ⟨a, b, c⟩
    · rw [hk]; exact h.devices
    · rcases h.devices with hd | ⟨_, _, hd⟩
      · right; rw [h.params] at a; rw [hd] at b c; exact ⟨a, b, c⟩
      · rw [hd] at b; cases b
  memoryOk := k.memoryOk ∘ h.memoryOk
  devicesOk := k.devicesOk ∘ h.devicesOk

/-- An update of the registers, the flags, the cycle state, the outcome, the error record and the status only. -/
theorem Kept.core {s t : State} (h1 : t.params = s.params) (h2 : t.loaded = s.loaded) (h3 : t.agenda = s.agenda)
    (h4 : t.draws = s.draws) (h5 : t.reply = s.reply) (h6 : t.pauseFlag = s.pauseFlag)
    (h7 : t.waitingForInput = s.waitingForInput) (h8 : t.mem = s.mem) (h9 : t.devices = s.devices)
    (h10 : t.printer = s.printer) : Kept s t where
  params := h1
  loaded := h2
  agenda := h3
  draws := h4
  reply := h5
  pauseFlag := h6
  waitingForInput := .inl h7
  background := by rw [h8]
  devices := .inl h9
  memoryOk := by unfold State.memoryOk; rw [h1, h2, h8]; exact id
  devicesOk := by unfold State.devicesOk; rw [h2, h9, h10]; exact id

/-- However an action ends, the state it leaves is `Kept` from `s`. -/
def Flow.Keeps (s : State) : Flow → Prop
  | .go t => Kept s t
  | .stop t => Kept s t
  | .park => True

theorem Flow.Keeps.andThen {s : State} {f : Flow} {k : State → Flow} (h : f.Keeps s) (hk : ∀ t, Kept s t → (k t).Keeps s) :
    (f.andThen k).Keeps s := by
  cases f with
  | go t => exact hk t h
  | stop t => exact h
  | park => trivial

theorem kept_raise (kind : FaultKind) (info : FaultInfo) (s : State) : Kept s (raise kind info s) :=
  .core rfl rfl rfl rfl rfl rfl rfl rfl rfl rfl

theorem kept_setReg16 (r : Reg16) (v : Word) (s : State) : Kept s (s.setReg16 r v) := by
  cases r <;> exact .core rfl rfl rfl rfl rfl rfl rfl rfl rfl rfl

theorem kept_setReg (w : Width) (r : RegNum) (v : Word) (s : State) : Kept s (s.setReg w r v) := by
  cases w
  · simp only [State.setReg, State.setReg8]
    split <;> exact kept_setReg16 _ _ _
  · exact kept_setReg16 _ _ _

theorem insertCell_below {n a : Nat} {v : Byte} {cells : List Host.Cell} (ha : a < n)
    (h : cells.all (fun c => decide (c.1 < n)) = true) : (insertCell a v cells).all (fun c => decide (c.1 < n)) = true := by
  simp only [List.all_eq_true, decide_eq_true_eq] at h ⊢
  intro c hc
  rcases insertCell_fst a v cells c hc with h' | h'
  · rw [h']; exact ha
  · exact h c h'

theorem write_below {n a : Nat} {v : Byte} {m : Memory} (ha : a < n)
    (h : m.cells.all (fun c => decide (c.1 < n)) = true) : (m.write a v).cells.all (fun c => decide (c.1 < n)) = true := by
  unfold Memory.write
  split
  · simp only [List.all_eq_true, decide_eq_true_eq, eraseCell, List.mem_filter] at h ⊢
    exact fun c hc => h c hc.1
  · exact insertCell_below ha h

theorem Memory.background_write (m : Memory) (a : Nat) (v : Byte) : (m.write a v).background = m.background := by
  unfold Memory.write
  split <;> rfl

theorem kept_writeMem {s : State} {a : Nat} (ha : a < s.params.memSize) (v : Byte) :
    Kept s { s with mem := s.mem.write a v } where
  params := rfl
  loaded := rfl
  agenda := rfl
  draws := rfl
  reply := rfl
  pauseFlag := rfl
  waitingForInput := .inl rfl
  background := Memory.background_write ..
  devices := .inl rfl
  memoryOk := by
    unfold State.memoryOk
    simp only [Bool.and_eq_true]
    rintro ⟨⟨⟨hp, hw⟩, hc⟩, hl⟩
    exact ⟨⟨⟨hp, Memory.wf_write hw a v⟩, write_below ha hc⟩, hl⟩
  devicesOk := id

theorem kept_resolve {p : Nat} {s t : State} {r : DeviceReg} (h : resolve p s = some (r, t)) :
    Kept s t ∧ (r = .data → t.devices.handshake = true) := by
  unfold resolve at h
  split at h
  · cases h
  · split at h
    · rename_i hp
      cases h
      refine ⟨.refl _, ?_⟩
      rintro rfl
      exact hp
    · split at h
      · rename_i r' hp hn ha
        simp only [Bool.and_eq_true] at ha
        cases h
        have hpio : s.devices.pio = none := by
          cases hd : s.devices.pio with
          | none => rfl
          | some x => cases r <;> simp_all [DeviceReg.isPio, DeviceReg.present]
        refine ⟨⟨rfl, rfl, rfl, rfl, rfl, rfl, .inl rfl, rfl, .inr ⟨ha.2, hpio, rfl⟩, id, ?_⟩, ?_⟩
        · simp only [State.devicesOk, autoEnable, Devices.valid, Devices.hasPrinter, hpio]
          simp
        · rintro rfl
          cases ha.1
      · cases h

theorem kept_deviceWrite (r : DeviceReg) (v : Byte) (s : State) (hr : r = .data → s.devices.handshake = true) :
    Kept s (deviceWrite r v s) := by
  cases r <;> simp only [deviceWrite, strobeCheck, writeHandshakeData]
  case data =>
    split
    · exact .refl _
    · refine ⟨rfl, rfl, rfl, rfl, rfl, rfl, .inl rfl, rfl, .inl rfl, id, ?_⟩
      simp only [State.devicesOk, Devices.hasPrinter, hr rfl]
      simp
  case pa | ca =>
    split
    · rename_i hp
      refine ⟨rfl, rfl, rfl, rfl, rfl, rfl, .inl rfl, rfl, .inl rfl, id, ?_⟩
      simp only [State.devicesOk, Devices.hasPrinter]
      have hp' : s.devices.pio = some .printer := hp
      simp [hp']
    · exact .core rfl rfl rfl rfl rfl rfl rfl rfl rfl rfl
  all_goals exact .core rfl rfl rfl rfl rfl rfl rfl rfl rfl rfl

theorem keeps_busRead {sp : Space} {a : Nat} {key : Option Byte} {s0 s : State} {k : Byte → State → Flow} (h : Kept s0 s)
    (hk : ∀ v t, Kept s0 t → (k v t).Keeps s0) : (busRead sp a key s k).Keeps s0 := by
  cases sp
  · rw [busRead_memory]
    split
    · exact hk _ _ h
    · exact h.trans (kept_raise ..)
  · rw [busRead_io]
    split
    · exact h.trans (kept_raise ..)
    · rename_i hr
      have := h.trans (kept_resolve hr).1
      split
      · exact hk _ _ this
      · split
        · exact hk _ _ this
        · trivial

theorem keeps_busWrite {sp : Space} {a : Nat} {v : Byte} {s0 s : State} (h : Kept s0 s) : (busWrite sp a v s).Keeps s0 := by
  cases sp
  · rw [busWrite_memory]
    split
    · rename_i ha; exact h.trans (kept_writeMem ha v)
    · exact h.trans (kept_raise ..)
  · rw [busWrite_io]
    split
    · exact h.trans (kept_raise ..)
    · rename_i hr
      exact (h.trans (kept_resolve hr).1).trans (kept_deviceWrite _ _ _ (kept_resolve hr).2)

theorem keeps_claimMemory2 {a : Nat} {s0 s : State} (h : Kept s0 s) : (claimMemory2 a s).Keeps s0 := by
  rw [claimMemory2_eq]
  split
  · exact h
  · exact h.trans (kept_raise ..)

theorem keeps_claimPort {p : Nat} {s0 s : State} (h : Kept s0 s) : (claimPort p s).Keeps s0 := by
  unfold claimPort
  split
  · rename_i hr; exact h.trans (kept_resolve hr).1
  · exact h.trans (kept_raise ..)

theorem keeps_claimPort2 {p : Nat} {s0 s : State} (h : Kept s0 s) : (claimPort2 p s).Keeps s0 :=
  (keeps_claimPort h).andThen fun _ ht => keeps_claimPort ht

theorem keeps_fetchByte {s0 s : State} {k : Byte → State → Flow} (h : Kept s0 s)
    (hk : ∀ v t, Kept s0 t → (k v t).Keeps s0) : (fetchByte s k).Keeps s0 := by
  refine keeps_busRead h fun v t ht => ?_
  unfold advanceIP
  split
  · exact ht.trans (kept_raise ..)
  · exact hk _ _ (ht.trans (.core rfl rfl rfl rfl rfl rfl rfl rfl rfl rfl))

theorem kept_withMd (s : State) (f : Metadata → Metadata) : Kept s (s.withMd f) :=
  .core rfl rfl rfl rfl rfl rfl rfl rfl rfl rfl

theorem kept_acknowledge (s : State) : Kept s (acknowledgeInterrupt s) := by
  unfold acknowledgeInterrupt
  split
  · exact .refl _
  · split
    · exact .core rfl rfl rfl rfl rfl rfl rfl rfl rfl rfl
    · exact .refl _

/-- One action. -/
theorem keeps_act (key : Option Byte) (act : Act) (s : State) : (act.run key s).Keeps s := by
  have r := Kept.refl s
  cases act <;> simp only [Act.run]
  case fetchRR | fetchR =>
    refine keeps_fetchByte r fun v t ht => ?_
    split
    · exact ht.trans (kept_withMd ..)
    · exact (ht.trans (kept_withMd ..)).trans (kept_raise ..)
  case fetchAddrLo | fetchAddrHi | fetchImm8 | fetchImmLo | fetchImmHi | fetchVec | fetchPort =>
    exact keeps_fetchByte r fun v t ht => ht.trans (kept_withMd ..)
  case eaFromBX | portFromDX | srcFromReg | srcFromImm | dstFromRegA | dstFromReg => exact kept_withMd ..
  case readMem8 | readMemHi | stackHi | readPort8 | readPortHi => exact keeps_busRead r fun v t ht => ht.trans (kept_withMd ..)
  case readMemLo | stackLo | vectorLo =>
    exact (keeps_claimMemory2 r).andThen fun _ h => keeps_busRead h fun v t ht => ht.trans (kept_withMd ..)
  case readPortLo => exact (keeps_claimPort2 r).andThen fun _ h => keeps_busRead h fun v t ht => ht.trans (kept_withMd ..)
  case setRegA | setReg | setAcc => exact kept_setReg ..
  case writeMem8 | writeMemHi | writePort8 | writePortHi => exact keeps_busWrite r
  case writeMemLo | pushLo => exact (keeps_claimMemory2 r).andThen fun _ h => keeps_busWrite h
  case writePortLo => exact (keeps_claimPort2 r).andThen fun _ h => keeps_busWrite h
  case pushHi => exact (keeps_busWrite r).andThen fun _ h => h.trans (.core rfl rfl rfl rfl rfl rfl rfl rfl rfl rfl)
  case popReg r' =>
    have h : Kept s { s with sp := s.sp + 2 } := .core rfl rfl rfl rfl rfl rfl rfl rfl rfl rfl
    exact h.trans (kept_setReg16 ..)
  case popFlags | returnNear | returnTrap | jump | setIF => exact .core rfl rfl rfl rfl rfl rfl rfl rfl rfl rfl
  case jumpIfTaken =>
    split
    · exact .core rfl rfl rfl rfl rfl rfl rfl rfl rfl rfl
    · exact r
  case acknowledge => exact kept_acknowledge s
  case vectorHi =>
    exact keeps_busRead r fun v t ht => ht.trans (.core rfl rfl rfl rfl rfl rfl rfl rfl rfl rfl)

/-- The actions of a sub-step. -/
theorem keeps_runActs (key : Option Byte) (acts : List Act) (s : State) : (runActs key acts s).Keeps s := by
  induction acts generalizing s with
  | nil => exact .refl s
  | cons act rest ih =>
    refine (keeps_act key act s).andThen fun t ht => ?_
    have := ih t
    generalize runActs key rest t = f at this ⊢
    cases f with
    | go u => exact ht.trans this
    | stop u => exact ht.trans this
    | park => trivial

theorem kept_compute (oc : Opcode) (s : State) : Kept s (compute oc s) := by
  cases oc <;> simp only [compute] <;> first
    | exact .refl _
    | exact .core rfl rfl rfl rfl rfl rfl rfl rfl rfl rfl
    | (rename_i b w; cases b <;> exact .core rfl rfl rfl rfl rfl rfl rfl rfl rfl rfl)

theorem kept_endOfInstruction (oc : Opcode) (s : State) : Kept s (endOfInstruction oc s) := by
  unfold endOfInstruction
  split
  · exact .core rfl rfl rfl rfl rfl rfl rfl rfl rfl rfl
  · split <;> exact .core rfl rfl rfl rfl rfl rfl rfl rfl rfl rfl

theorem kept_fetchStep (s : State) : Kept s (fetchStep s) := by
  unfold fetchStep
  simp only
  have h : (busRead .memory s.ip.toNat none { s with md := { start := some s.ip } } fun op s =>
    advanceIP (s.withMd fun m => { m with op := some op }) fun s =>
      match decodeOpcode op with
      | none => .stop (raiseIllegal s)
      | some oc => .go (s.enter (afterFetching oc))).Keeps s := by
    refine keeps_busRead (.core rfl rfl rfl rfl rfl rfl rfl rfl rfl rfl) fun v t ht => ?_
    unfold advanceIP
    split
    · exact (ht.trans (kept_withMd ..)).trans (kept_raise ..)
    · split
      · exact ht.trans (.core rfl rfl rfl rfl rfl rfl rfl rfl rfl rfl)
      · exact ht.trans (.core rfl rfl rfl rfl rfl rfl rfl rfl rfl rfl)
  revert h
  generalize busRead .memory _ none _ _ = f
  cases f with
  | go t => exact id
  | stop t => exact id
  | park => exact fun _ => .core rfl rfl rfl rfl rfl rfl rfl rfl rfl rfl

theorem kept_waits (s : State) : Kept s { s with waitingForInput := true } :=
  ⟨rfl, rfl, rfl, rfl, rfl, rfl, .inr rfl, rfl, .inl rfl, id, id⟩

theorem kept_enter (p : Phase) (s : State) : Kept s (s.enter p) := .core rfl rfl rfl rfl rfl rfl rfl rfl rfl rfl

theorem kept_toFetching (s : State) : Kept s s.toFetching := .core rfl rfl rfl rfl rfl rfl rfl rfl rfl rfl

theorem kept_haltStep (s : State) : Kept s (haltStep s) := .core rfl rfl rfl rfl rfl rfl rfl rfl rfl rfl

theorem kept_phaseStep {key : Option Byte} {subs : List (List Act)} {k : State → State} {s t : State}
    (hk : ∀ u, Kept u (k u)) (h : phaseStep key subs k s = .next t) : Kept s t := by
  unfold phaseStep at h
  split at h
  · cases h
  · rename_i acts _
    have ha := keeps_runActs key acts s
    generalize runActs key acts s = f at h ha
    cases f with
    | go u =>
      simp only [Host.Outcome.next.injEq] at h
      subst h
      split
      · exact (ha.trans (kept_withMd ..)).trans (hk _)
      · exact ha.trans (kept_withMd ..)
    | stop u => cases h; exact ha
    | park => cases h; exact kept_waits s

/-- A sub-step of the core. -/
theorem kept_coreSubStep {key : Option Byte} {s t : State} (h : coreSubStep key s = .next t) : Kept s t := by
  unfold coreSubStep at h
  split at h
  · cases h; exact kept_fetchStep s
  · split at h
    · exact kept_phaseStep (kept_enter _) h
    · cases h
  · split at h
    · cases h; exact (kept_compute _ s).trans (kept_enter _ _)
    · cases h
  · split at h
    · exact kept_phaseStep (kept_endOfInstruction _) h
    · cases h
  · exact kept_phaseStep kept_toFetching h
  · exact kept_phaseStep kept_toFetching h
  · exact kept_phaseStep kept_toFetching h
  · cases h; exact kept_haltStep s
  · cases h

theorem kept_runControl (was : Phase) (s : State) : Kept s (runControl was s) := by
  unfold runControl
  split
  · split
    · split
      · exact .core rfl rfl rfl rfl rfl rfl rfl rfl rfl rfl
      · exact .refl _
    · exact .refl _
  · exact .refl _

/-- A sub-step of the core with the run control after it. -/
theorem kept_coreStep {key : Option Byte} {s t : State} (h : coreStep key s = .next t) : Kept s t := by
  unfold coreStep at h
  cases hs : coreSubStep key s with
  | next u =>
    rw [hs] at h
    cases h
    exact (kept_coreSubStep hs).trans (kept_runControl ..)
  | fault f => rw [hs] at h; cases h
  | refused r => rw [hs] at h; cases h

theorem kept_runSubSteps {subs : List (List Act)} {k : State → State} (hk : ∀ u, Kept u (k u)) (s : State) :
    Kept s (runSubSteps subs s k) := by
  induction subs generalizing s with
  | nil => exact hk s
  | cons acts rest ih =>
    have ha := keeps_runActs none acts s
    simp only [runSubSteps]
    generalize runActs none acts s = f at ha
    cases f with
    | go u => exact (ha.trans (kept_withMd ..)).trans (ih _)
    | stop u => exact ha
    | park => exact kept_waits s

theorem kept_trapEntry (s : State) : Kept s (trapEntry s) := kept_runSubSteps kept_toFetching s

theorem kept_closeInstruction (oc : Opcode) (s : State) : Kept s (closeInstruction oc s) := by
  unfold closeInstruction
  split
  · exact (kept_endOfInstruction ..).trans (kept_trapEntry _)
  · exact kept_endOfInstruction ..

theorem kept_commitInstruction (oc : Opcode) (s : State) : Kept s (commitInstruction oc s) := by
  have h : Kept s (executeStep oc s) := (kept_compute oc s).trans (kept_enter _ _)
  unfold commitInstruction
  split
  · exact h.trans (kept_haltStep _)
  · exact h.trans (kept_runSubSteps (kept_closeInstruction oc) _)

/-- A whole instruction. -/
theorem kept_perform {oc : Opcode} {x : Operands} {s t : State} (h : perform oc x s = .next t) : Kept s t := by
  have hp : Kept s (prefetched oc x s) := .core rfl rfl rfl rfl rfl rfl rfl rfl rfl rfl
  unfold perform at h
  split at h
  · cases h
    exact hp.trans (kept_runSubSteps (fun u => (kept_enter _ u).trans (kept_commitInstruction oc _)) _)
  · cases h
    exact hp.trans (kept_raise ..)

theorem kept_afterInstruction (s : State) : Kept s (afterInstruction s) := by
  unfold afterInstruction
  split
  · exact (kept_trapEntry s).trans (kept_runControl ..)
  · exact kept_runControl ..

theorem kept_runToBoundary {n : Nat} {s t : State} (h : runToBoundary n s = .next t) : Kept s t := by
  induction n generalizing s with
  | zero => cases h; exact .refl _
  | succ n ih =>
    simp only [runToBoundary] at h
    cases hs : coreStep none s with
    | next u =>
      rw [hs] at h
      simp only at h
      have hu := kept_coreStep hs
      split at h
      · exact hu.trans (ih h)
      · cases h; exact hu
    | fault f => rw [hs] at h; cases h
    | refused r => rw [hs] at h; cases h

/-- The core to the end of its instruction. -/
theorem kept_instructionStep {s t : State} (h : instructionStep s = .next t) : Kept s t := by
  unfold instructionStep at h
  split at h
  · split at h
    · split at h
      · rename_i i _
        cases he : exec i s with
        | next u =>
          rw [he] at h
          cases h
          rw [exec_eq_perform] at he
          exact (kept_perform he).trans (kept_afterInstruction u)
        | fault f => rw [he] at h; cases h
        | refused r => rw [he] at h; cases h
      · exact kept_runToBoundary h
    · exact kept_runToBoundary h
  · cases h

end Sys2Proof.Machine
end

