-- ==== Sys2Proof/Laws/Cycle.lean ====
section
/-! SUPPORT. What the actions of a sub-step do to the cycle state: one that completes leaves the phase, the outcome, the error
record, the status, byte 0 and the sub-step count; one that faults leaves a stopped core with an error record. -/

namespace Sys2Proof.Machine

open Sys2Proof.Config

/-- The core is still in the same sub-step. -/
structure Going (s t : State) : Prop where
  phase : t.phase = s.phase
  outcome : t.outcome = s.outcome
  error : t.error = s.error
  status : t.status = s.status
  waitingForInput : t.waitingForInput = s.waitingForInput
  op : t.md.op = s.md.op
  start : t.md.start = s.md.start
  sub : t.md.sub = s.md.sub
  picPresent : t.devices.pic = s.devices.pic
  vec : s.md.vec.isSome = true → t.md.vec.isSome = true

theorem Going.refl (s : State) : Going s s := ⟨rfl, rfl, rfl, rfl, rfl, rfl, rfl, rfl, rfl, id⟩

theorem Going.trans {s t u : State} (h : Going s t) (k : Going t u) : Going s u :=
  ⟨k.phase.trans h.phase, k.outcome.trans h.outcome, k.error.trans h.error, k.status.trans h.status,
   k.waitingForInput.trans h.waitingForInput, k.op.trans h.op, k.start.trans h.start, k.sub.trans h.sub,
   k.picPresent.trans h.picPresent, k.vec ∘ h.vec⟩

/-- The core has faulted, in a session whose run it has ended (60_exceptions.md R320). -/
structure Faulted (s t : State) : Prop where
  phase : t.phase = .stopped
  outcome : t.outcome = .stoppedError
  error : t.error.isSome = true
  status : t.status = .stopped
  waitingForInput : t.waitingForInput = s.waitingForInput

theorem Going.faulted {s t u : State} (h : Going s t) (k : Faulted t u) : Faulted s u :=
  ⟨k.phase, k.outcome, k.error, k.status, k.waitingForInput.trans h.waitingForInput⟩

theorem faulted_raise (kind : FaultKind) (info : FaultInfo) (s : State) : Faulted s (raise kind info s) :=
  ⟨rfl, rfl, rfl, rfl, rfl⟩

/-- An action that completes is `Going`, and one that faults has `Faulted`. -/
def Flow.Cycles (s : State) : Flow → Prop
  | .go t => Going s t
  | .stop t => Faulted s t
  | .park => True

theorem Flow.Cycles.after {s t : State} {f : Flow} (h : Going s t) (k : f.Cycles t) : f.Cycles s := by
  cases f with
  | go u => exact h.trans k
  | stop u => exact h.faulted k
  | park => trivial

theorem Flow.Cycles.andThen {s : State} {f : Flow} {k : State → Flow} (h : f.Cycles s) (hk : ∀ t, (k t).Cycles t) :
    (f.andThen k).Cycles s := by
  cases f with
  | go t => exact .after h (hk t)
  | stop t => exact h
  | park => trivial

theorem going_setReg16 (r : Reg16) (v : Word) (s : State) : Going s (s.setReg16 r v) := by
  cases r <;> exact ⟨rfl, rfl, rfl, rfl, rfl, rfl, rfl, rfl, rfl, id⟩

theorem going_setReg (w : Width) (r : RegNum) (v : Word) (s : State) : Going s (s.setReg w r v) := by
  cases w
  · simp only [State.setReg, State.setReg8]
    split <;> exact going_setReg16 _ _ _
  · exact going_setReg16 _ _ _

theorem going_resolve {p : Nat} {s t : State} {r : DeviceReg} (h : resolve p s = some (r, t)) : Going s t := by
  unfold resolve at h
  split at h
  · cases h
  · split at h
    · cases h; exact .refl _
    · split at h
      · cases h; exact ⟨rfl, rfl, rfl, rfl, rfl, rfl, rfl, rfl, rfl, id⟩
      · cases h

theorem going_deviceWrite (r : DeviceReg) (v : Byte) (s : State) : Going s (deviceWrite r v s) := by
  cases r <;> simp only [deviceWrite, strobeCheck, writeHandshakeData] <;> (try split) <;>
    exact ⟨rfl, rfl, rfl, rfl, rfl, rfl, rfl, rfl, rfl, id⟩

theorem cycles_busRead {sp : Space} {a : Nat} {key : Option Byte} {s : State} {k : Byte → State → Flow}
    (hk : ∀ v t, (k v t).Cycles t) : (busRead sp a key s k).Cycles s := by
  cases sp
  · rw [busRead_memory]
    split
    · exact hk _ _
    · exact faulted_raise ..
  · rw [busRead_io]
    split
    · exact faulted_raise ..
    · rename_i hr
      split
      · exact .after (going_resolve hr) (hk _ _)
      · split
        · exact .after (going_resolve hr) (hk _ _)
        · trivial

theorem cycles_busWrite {sp : Space} {a : Nat} {v : Byte} {s : State} : (busWrite sp a v s).Cycles s := by
  cases sp
  · rw [busWrite_memory]
    split
    · exact ⟨rfl, rfl, rfl, rfl, rfl, rfl, rfl, rfl, rfl, id⟩
    · exact faulted_raise ..
  · rw [busWrite_io]
    split
    · exact faulted_raise ..
    · rename_i hr
      exact (going_resolve hr).trans (going_deviceWrite ..)

theorem cycles_claimMemory2 {a : Nat} {s : State} : (claimMemory2 a s).Cycles s := by
  rw [claimMemory2_eq]
  split
  · exact .refl _
  · exact faulted_raise ..

theorem cycles_claimPort {p : Nat} {s : State} : (claimPort p s).Cycles s := by
  unfold claimPort
  split
  · rename_i hr; exact going_resolve hr
  · exact faulted_raise ..

theorem cycles_claimPort2 {p : Nat} {s : State} : (claimPort2 p s).Cycles s :=
  cycles_claimPort.andThen fun _ => cycles_claimPort

theorem cycles_fetchByte {s : State} {k : Byte → State → Flow} (hk : ∀ v t, (k v t).Cycles t) :
    (fetchByte s k).Cycles s := by
  refine cycles_busRead fun v t => ?_
  unfold advanceIP
  split
  · exact faulted_raise ..
  · have hn := hk v { t with ip := t.ip + 1 }
    have hg : Going t { t with ip := t.ip + 1 } := ⟨rfl, rfl, rfl, rfl, rfl, rfl, rfl, rfl, rfl, id⟩
    exact .after hg hn

theorem going_acknowledge (s : State) : Going s (acknowledgeInterrupt s) := by
  unfold acknowledgeInterrupt
  split
  · exact .refl _
  · split
    · exact ⟨rfl, rfl, rfl, rfl, rfl, rfl, rfl, rfl, rfl, fun _ => rfl⟩
    · exact .refl _

/-- One action. -/
theorem cycles_act (key : Option Byte) (act : Act) (s : State) : (act.run key s).Cycles s := by
  have r := Going.refl s
  cases act <;> simp only [Act.run]
  case fetchRR | fetchR =>
    refine cycles_fetchByte fun v t => ?_
    split
    · exact ⟨rfl, rfl, rfl, rfl, rfl, rfl, rfl, rfl, rfl, id⟩
    · exact ⟨rfl, rfl, rfl, rfl, rfl⟩
  case fetchVec => exact cycles_fetchByte fun v t => ⟨rfl, rfl, rfl, rfl, rfl, rfl, rfl, rfl, rfl, fun _ => rfl⟩
  case fetchAddrLo | fetchAddrHi | fetchImm8 | fetchImmLo | fetchImmHi | fetchPort =>
    exact cycles_fetchByte fun v t => ⟨rfl, rfl, rfl, rfl, rfl, rfl, rfl, rfl, rfl, id⟩
  case eaFromBX | portFromDX | srcFromReg | srcFromImm | dstFromRegA | dstFromReg | popFlags | returnNear | returnTrap | jump |
      setIF =>
    exact ⟨rfl, rfl, rfl, rfl, rfl, rfl, rfl, rfl, rfl, id⟩
  case readMem8 d | readMemHi d | stackHi _ d =>
    exact cycles_busRead fun v t => by cases d <;> exact ⟨rfl, rfl, rfl, rfl, rfl, rfl, rfl, rfl, rfl, id⟩
  case readPort8 | readPortHi => exact cycles_busRead fun v t => ⟨rfl, rfl, rfl, rfl, rfl, rfl, rfl, rfl, rfl, id⟩
  case readMemLo | stackLo | vectorLo =>
    exact cycles_claimMemory2.andThen fun _ => cycles_busRead fun v t => ⟨rfl, rfl, rfl, rfl, rfl, rfl, rfl, rfl, rfl, id⟩
  case readPortLo =>
    exact cycles_claimPort2.andThen fun _ => cycles_busRead fun v t => ⟨rfl, rfl, rfl, rfl, rfl, rfl, rfl, rfl, rfl, id⟩
  case setRegA | setReg | setAcc => exact going_setReg ..
  case writeMem8 | writeMemHi | writePort8 | writePortHi => exact cycles_busWrite
  case writeMemLo | pushLo => exact cycles_claimMemory2.andThen fun _ => cycles_busWrite
  case writePortLo => exact cycles_claimPort2.andThen fun _ => cycles_busWrite
  case pushHi => exact cycles_busWrite.andThen fun _ => ⟨rfl, rfl, rfl, rfl, rfl, rfl, rfl, rfl, rfl, id⟩
  case popReg r' =>
    have h : Going s { s with sp := s.sp + 2 } := ⟨rfl, rfl, rfl, rfl, rfl, rfl, rfl, rfl, rfl, id⟩
    exact h.trans (going_setReg16 ..)
  case jumpIfTaken =>
    split
    · exact ⟨rfl, rfl, rfl, rfl, rfl, rfl, rfl, rfl, rfl, id⟩
    · exact r
  case acknowledge => exact going_acknowledge s
  case vectorHi => exact cycles_busRead fun v t => ⟨rfl, rfl, rfl, rfl, rfl, rfl, rfl, rfl, rfl, id⟩

/-- The actions of a sub-step. -/
theorem cycles_runActs (key : Option Byte) (acts : List Act) (s : State) : (runActs key acts s).Cycles s := by
  induction acts generalizing s with
  | nil => exact .refl s
  | cons act rest ih => exact (cycles_act key act s).andThen fun t => ih t

theorem going_compute (oc : Opcode) (s : State) : Going s (compute oc s) := by
  cases oc <;> simp only [compute] <;> first
    | exact .refl _
    | exact ⟨rfl, rfl, rfl, rfl, rfl, rfl, rfl, rfl, rfl, id⟩
    | (rename_i b w; cases b <;> exact ⟨rfl, rfl, rfl, rfl, rfl, rfl, rfl, rfl, rfl, id⟩)

/-- The sub-step `fetching`: a fault, or the next phase with byte 0 recorded. -/
theorem fetchStep_cases (s : State) :
    Faulted s (fetchStep s) ∨
    ∃ op oc, decodeOpcode op = some oc ∧
      fetchStep s =
        { s with ip := s.ip + 1, phase := afterFetching oc, md := { start := some s.ip, op := some op } } := by
  unfold fetchStep
  simp only [busRead_memory, advanceIP]
  by_cases h1 : s.ip.toNat < s.params.memSize
  · simp only [h1, if_true]
    by_cases h2 : s.ip = 0xFFFF
    · left; simp only [State.withMd, h2, if_true]; exact ⟨rfl, rfl, rfl, rfl, rfl⟩
    · simp only [State.withMd, h2, if_false]
      cases hd : decodeOpcode (s.mem.read s.ip.toNat) with
      | none => left; exact ⟨rfl, rfl, rfl, rfl, rfl⟩
      | some oc => right; exact ⟨_, oc, hd, rfl⟩
  · left; simp only [h1, if_false]; exact ⟨rfl, rfl, rfl, rfl, rfl⟩

/-- A sub-step of a phase that is a list of sub-steps: a fault, a park, or the next sub-step. -/
theorem phaseStep_cases {key : Option Byte} {subs : List (List Act)} {k : State → State} {s t : State}
    (h : phaseStep key subs k s = .next t) :
    Faulted s t ∨ t = { s with waitingForInput := true } ∨
    ∃ acts u, subs[s.md.sub]? = some acts ∧ runActs key acts s = .go u ∧ Going s u ∧
      t = if s.md.sub + 1 = subs.length then k u.bumpSub else u.bumpSub := by
  unfold phaseStep at h
  split at h
  · cases h
  · rename_i acts hs
    have ha := cycles_runActs key acts s
    generalize hf : runActs key acts s = f at h ha
    cases f with
    | go u =>
      simp only [Host.Outcome.next.injEq] at h
      exact .inr (.inr ⟨acts, u, hs, hf, ha, h.symm⟩)
    | stop u => cases h; exact .inl ha
    | park => cases h; exact .inr (.inl rfl)

end Sys2Proof.Machine
end

