-- ==== Sys2Proof/Laws/Numbers.lean ====
section
/-! SUPPORT. The model's operations against the terms of the statements: a word as a number, a register, a memory value, and what
the ALU computes. -/

namespace Sys2Proof.Claims

open Sys2Proof.Machine Sys2Proof.Config

/-! ## Bytes and words -/

theorem concat_toNat (hi lo : Byte) : (concat hi lo).toNat = hi.toNat * 256 + lo.toNat := by
  have : concat hi lo = (hi ++ lo : BitVec 16) := by
    unfold concat
    ext i h
    rw [BitVec.getElem_append]
    simp
    by_cases h8 : i < 8
    · simp [h8]
    · have : lo.getLsbD i = false := BitVec.getLsbD_of_ge _ _ (by omega)
      simp [h8, this]
      exact BitVec.getLsbD_eq_getElem (by omega)
  rw [this, BitVec.toNat_append]
  have := lo.isLt
  rw [← Nat.shiftLeft_add_eq_or_of_lt this]
  simp [Nat.shiftLeft_eq]

theorem low_toNat (v : Word) : (low v).toNat = v.toNat % 256 := by unfold low; simp

theorem high_toNat (v : Word) : (high v).toNat = v.toNat / 256 := by
  unfold high
  simp [Nat.shiftRight_eq_div_pow]
  have := v.isLt; omega

theorem zext_toNat (v : Byte) : (zext v).toNat = v.toNat := by unfold zext; simp; omega

theorem low_zext (v : Byte) : low (zext v) = v := by
  apply BitVec.eq_of_toNat_eq; rw [low_toNat, zext_toNat]; have := v.isLt; omega

theorem ofNat_low (v : Word) : BitVec.ofNat 8 v.toNat = low v := by
  apply BitVec.eq_of_toNat_eq; rw [low_toNat]; simp

theorem ofNat_high (v : Word) : BitVec.ofNat 8 (v.toNat / 256) = high v := by
  apply BitVec.eq_of_toNat_eq; rw [high_toNat]; have := v.isLt; simp; omega

/-! ## Registers -/

theorem regNum_cases : ∀ k : RegNum, k = 0 ∨ k = 1 ∨ k = 2 ∨ k = 3 ∨ k = 4 ∨ k = 5 ∨ k = 6 ∨ k = 7 := by decide

theorem reg_toNat (s : State) (w : Width) (k : RegNum) (h : w = .w8 ∨ k.toNat < 4) :
    (s.reg w k).toNat = regValue s w k.toNat := by
  have hk : k = 0 ∨ k = 1 ∨ k = 2 ∨ k = 3 ∨ k = 4 ∨ k = 5 ∨ k = 6 ∨ k = 7 := regNum_cases k
  cases w with
  | w8 =>
    rcases hk with rfl | rfl | rfl | rfl | rfl | rfl | rfl | rfl <;>
      (show (zext _).toNat = _; rw [zext_toNat]; first | exact low_toNat _ | exact high_toNat _)
  | w16 =>
    rcases h with h | h
    · cases h
    · rcases hk with rfl | rfl | rfl | rfl | rfl | rfl | rfl | rfl <;> first | rfl | exact absurd h (by decide)

theorem withLow_eq (v : Word) (b : Byte) : withLow v b = lowByte v b.toNat := by
  apply BitVec.eq_of_toNat_eq
  unfold withLow lowByte
  rw [concat_toNat, high_toNat]
  have := v.isLt; have := b.isLt
  simp; omega

theorem withHigh_eq (v : Word) (b : Byte) : withHigh v b = highByte v b.toNat := by
  apply BitVec.eq_of_toNat_eq
  unfold withHigh highByte
  rw [concat_toNat, low_toNat]
  have := v.isLt; have := b.isLt
  simp; omega

/-- A word as a number at a width. -/
def num : Width → Word → Nat
  | .w8, v => v.toNat % 256
  | .w16, v => v.toNat

theorem setReg_eq (s : State) (w : Width) (k : RegNum) (v : Word) (h : w = .w8 ∨ k.toNat < 4) :
    s.setReg w k v = putReg s w k.toNat (num w v) := by
  have hk : k = 0 ∨ k = 1 ∨ k = 2 ∨ k = 3 ∨ k = 4 ∨ k = 5 ∨ k = 6 ∨ k = 7 := regNum_cases k
  cases w with
  | w8 =>
    have e : num .w8 v = (low v).toNat := (low_toNat v).symm
    rw [e]
    rcases hk with rfl | rfl | rfl | rfl | rfl | rfl | rfl | rfl
    · exact congrArg (fun z => ({ s with ax := z } : State)) (withLow_eq s.ax (low v))
    · exact congrArg (fun z => ({ s with bx := z } : State)) (withLow_eq s.bx (low v))
    · exact congrArg (fun z => ({ s with cx := z } : State)) (withLow_eq s.cx (low v))
    · exact congrArg (fun z => ({ s with dx := z } : State)) (withLow_eq s.dx (low v))
    · exact congrArg (fun z => ({ s with ax := z } : State)) (withHigh_eq s.ax (low v))
    · exact congrArg (fun z => ({ s with bx := z } : State)) (withHigh_eq s.bx (low v))
    · exact congrArg (fun z => ({ s with cx := z } : State)) (withHigh_eq s.cx (low v))
    · exact congrArg (fun z => ({ s with dx := z } : State)) (withHigh_eq s.dx (low v))
  | w16 =>
    rcases h with h | h
    · cases h
    · have e : BitVec.ofNat 16 (num .w16 v) = v := by simp [num]
      rcases hk with rfl | rfl | rfl | rfl | rfl | rfl | rfl | rfl <;> try exact absurd h (by decide)
      · exact congrArg (fun z => ({ s with ax := z } : State)) e.symm
      · exact congrArg (fun z => ({ s with bx := z } : State)) e.symm
      · exact congrArg (fun z => ({ s with cx := z } : State)) e.symm
      · exact congrArg (fun z => ({ s with dx := z } : State)) e.symm

/-! ## Memory -/

theorem memValue_eq (s : State) (w : Width) (a : Word) : (s.memValue w a).toNat = memValue s w a.toNat := by
  cases w
  · exact zext_toNat _
  · exact concat_toNat _ _

/-! ## The ALU -/

theorem msb_byte (a : BitVec 8) : a.msb = decide (128 ≤ a.toNat) := by
  rw [BitVec.msb_eq_decide]

theorem msb_word (a : BitVec 16) : a.msb = decide (32768 ≤ a.toNat) := by
  rw [BitVec.msb_eq_decide]

/-- 40_instruction_cycle.md R157: carry and overflow from the sums. -/
theorem addN_byte (a b : Byte) (c : Bool) (f : Flags) :
    ((addN a b c).res.toNat, f.update (addN a b c).flags) = addRule 8 a.toNat b.toNat c.toNat f := by
  have := a.isLt; have := b.isLt; have : c.toNat ≤ 1 := Bool.toNat_le c
  simp only [addN, addRule, flagsOf, Flags.update, zeroFlag, signFlag, msb_byte, BitVec.toNat_ofNat, outside, signed,
    Nat.reducePow, Nat.reduceSub, Int.reducePow, Int.reduceNeg, Prod.mk.injEq, Flags.mk.injEq]
  refine ⟨trivial, trivial, trivial, trivial, ?_, trivial⟩
  generalize c.toNat = k at *
  rw [Bool.eq_iff_iff]
  simp only [Bool.and_eq_true, beq_iff_eq, bne_iff_ne, ne_eq, decide_eq_decide, Bool.or_eq_true, decide_eq_true_eq]
  constructor
  · rintro ⟨h1, h2⟩; split <;> split <;> omega
  · split <;> split <;> intro h <;> omega

theorem addN_word (a b : Word) (c : Bool) (f : Flags) :
    ((addN a b c).res.toNat, f.update (addN a b c).flags) = addRule 16 a.toNat b.toNat c.toNat f := by
  have := a.isLt; have := b.isLt; have : c.toNat ≤ 1 := Bool.toNat_le c
  simp only [addN, addRule, flagsOf, Flags.update, zeroFlag, signFlag, msb_word, BitVec.toNat_ofNat, outside, signed,
    Nat.reducePow, Nat.reduceSub, Int.reducePow, Int.reduceNeg, Prod.mk.injEq, Flags.mk.injEq]
  refine ⟨trivial, trivial, trivial, trivial, ?_, trivial⟩
  generalize c.toNat = k at *
  rw [Bool.eq_iff_iff]
  simp only [Bool.and_eq_true, beq_iff_eq, bne_iff_ne, ne_eq, decide_eq_decide, Bool.or_eq_true, decide_eq_true_eq]
  constructor
  · rintro ⟨h1, h2⟩; split <;> split <;> omega
  · split <;> split <;> intro h <;> omega

/-- R158. -/
theorem subN_byte (a b : Byte) (c : Bool) (f : Flags) :
    ((subN a b c).res.toNat, f.update (subN a b c).flags) = subRule 8 a.toNat b.toNat c.toNat f := by
  have := a.isLt; have := b.isLt; have : c.toNat ≤ 1 := Bool.toNat_le c
  simp only [subN, subRule, flagsOf, Flags.update, zeroFlag, signFlag, msb_byte, BitVec.toNat_ofInt, outside, signed,
    Nat.reducePow, Nat.reduceSub, Int.reducePow, Int.reduceNeg, Nat.cast_ofNat, Prod.mk.injEq, Flags.mk.injEq]
  generalize c.toNat = k at *
  refine ⟨by simp, ?_, by simp, by simp, ?_, trivial⟩
  · rw [decide_eq_decide]; omega
  · rw [Bool.eq_iff_iff]
    simp only [Bool.and_eq_true, beq_iff_eq, bne_iff_ne, ne_eq, decide_eq_decide, Bool.or_eq_true, decide_eq_true_eq]
    constructor
    · rintro ⟨h1, h2⟩; split <;> split <;> omega
    · split <;> split <;> intro h <;> omega

theorem subN_word (a b : Word) (c : Bool) (f : Flags) :
    ((subN a b c).res.toNat, f.update (subN a b c).flags) = subRule 16 a.toNat b.toNat c.toNat f := by
  have := a.isLt; have := b.isLt; have : c.toNat ≤ 1 := Bool.toNat_le c
  simp only [subN, subRule, flagsOf, Flags.update, zeroFlag, signFlag, msb_word, BitVec.toNat_ofInt, outside, signed,
    Nat.reducePow, Nat.reduceSub, Int.reducePow, Int.reduceNeg, Nat.cast_ofNat, Prod.mk.injEq, Flags.mk.injEq]
  generalize c.toNat = k at *
  refine ⟨by simp, ?_, by simp, by simp, ?_, trivial⟩
  · rw [decide_eq_decide]; omega
  · rw [Bool.eq_iff_iff]
    simp only [Bool.and_eq_true, beq_iff_eq, bne_iff_ne, ne_eq, decide_eq_decide, Bool.or_eq_true, decide_eq_true_eq]
    constructor
    · rintro ⟨h1, h2⟩; split <;> split <;> omega
    · split <;> split <;> intro h <;> omega

/-- R159. -/
theorem logicN_byte (r : Byte) (f : Flags) :
    ((logicN r).res.toNat, f.update (logicN r).flags) = logicRule 8 r.toNat f := by
  simp only [logicN, logicRule, flagsOf, Flags.update, zeroFlag, signFlag, msb_byte, Nat.reducePow, Nat.reduceSub]

theorem logicN_word (r : Word) (f : Flags) :
    ((logicN r).res.toNat, f.update (logicN r).flags) = logicRule 16 r.toNat f := by
  simp only [logicN, logicRule, flagsOf, Flags.update, zeroFlag, signFlag, msb_word, Nat.reducePow, Nat.reduceSub]

/-- The rule of an operation of format B, as its statement writes it. -/
def binRule : BinOp → Rule
  | .mov => fun _ _ x f => (x, f)
  | .add => fun n a b f => addRule n a b 0 f
  | .adc => fun n a b f => addRule n a b f.C.toNat f
  | .sub => fun n a b f => subRule n a b 0 f
  | .sbb => fun n a b f => subRule n a b f.C.toNat f
  | .cmp => fun n a b f => subRule n a b 0 f
  | .and => fun n a b f => logicRule n (a &&& b) f
  | .or => fun n a b f => logicRule n (a ||| b) f
  | .xor => fun n a b f => logicRule n (a ^^^ b) f

/-- The rule of an operation of format U, as its statement writes it. -/
def unRule : UnOp → Nat → Nat → Flags → Nat × Flags
  | .neg => fun n a f => subRule n 0 a 0 f
  | .inc => fun n a f => addRule n a 1 0 f
  | .dec => fun n a f => subRule n a 1 0 f
  | .not => fun n a f => logicRule n (a ^^^ (2 ^ n - 1)) f

theorem num_zext (v : Byte) : num .w8 (zext v) = v.toNat := by
  unfold num; simp only [zext_toNat]; have := v.isLt; omega

/-- The ALU computes the rule of every operation of format B. -/
theorem binCompute_eq_rule (o : BinOp) (w : Width) (d s : Word) (f : Flags) :
    (num w (binCompute o w d s f).1, (binCompute o w d s f).2) = binRule o (bits w) (num w d) (num w s) f := by
  have c0 : (false : Bool).toNat = 0 := rfl
  cases w with
  | w8 =>
    have hd : num .w8 d = (low d).toNat := (low_toNat d).symm
    have hs : num .w8 s = (low s).toNat := (low_toNat s).symm
    rw [hd, hs]
    have e : ∀ r : AluOut 8, num .w8 r.toWord = r.res.toNat := fun r => num_zext r.res
    cases o <;> simp only [binCompute, binAlu, e, binRule, bits]
    · rfl
    · exact addN_byte _ _ _ _
    · exact addN_byte _ _ _ _
    · exact subN_byte _ _ _ _
    · exact subN_byte _ _ _ _
    · exact subN_byte _ _ _ _
    · rw [logicN_byte, BitVec.toNat_and]
    · rw [logicN_byte, BitVec.toNat_or]
    · rw [logicN_byte, BitVec.toNat_xor]
  | w16 =>
    have e : ∀ r : AluOut 16, num .w16 r.toWord = r.res.toNat := by intro r; simp [num, AluOut.toWord]
    cases o <;> simp only [binCompute, binAlu, e, binRule, bits]
    · rfl
    · exact addN_word _ _ _ _
    · exact addN_word _ _ _ _
    · exact subN_word _ _ _ _
    · exact subN_word _ _ _ _
    · exact subN_word _ _ _ _
    · rw [logicN_word, BitVec.toNat_and]; rfl
    · rw [logicN_word, BitVec.toNat_or]; rfl
    · rw [logicN_word, BitVec.toNat_xor]; rfl

/-- The ALU computes the rule of every operation of format U. -/
theorem unCompute_eq_rule (u : UnOp) (w : Width) (d : Word) (f : Flags) :
    (num w (unCompute u w d f).1, (unCompute u w d f).2) = unRule u (bits w) (num w d) f := by
  cases w with
  | w8 =>
    have hd : num .w8 d = (low d).toNat := (low_toNat d).symm
    rw [hd]
    have e : ∀ r : AluOut 8, num .w8 r.toWord = r.res.toNat := fun r => num_zext r.res
    cases u <;> simp only [unCompute, unAlu, e, unRule, bits]
    · exact subN_byte 0 _ false _
    · exact addN_byte _ 1 false _
    · exact subN_byte _ 1 false _
    · rw [logicN_byte]
      congr 1
      have : ∀ x : Byte, (~~~x).toNat = x.toNat ^^^ (2^8-1) := by decide
      exact this _
  | w16 =>
    have e : ∀ r : AluOut 16, num .w16 r.toWord = r.res.toNat := by intro r; simp [num, AluOut.toWord]
    cases u <;> simp only [unCompute, unAlu, e, unRule, bits]
    · exact subN_word 0 _ false _
    · exact addN_word _ 1 false _
    · exact subN_word _ 1 false _
    · rw [logicN_word]
      congr 1
      have : (~~~d) = d ^^^ BitVec.allOnes 16 := by rw [BitVec.xor_allOnes]
      rw [this, BitVec.toNat_xor]
      rfl

end Sys2Proof.Claims
end

