-- ==== Sys2Proof/Laws/PerInstr.lean ====
section
/-! SUPPORT. Statements about every instruction, made per instruction: the encoding has the length that byte 0 alone gives
(30_encoding.md R113), and that length is 1 to 5 (R100). -/

namespace Sys2Proof.Laws.EncodeLength

/-- The bytes of the instruction number what its byte 0 says, at least 1 and at most `maxLength`. -/
def Statement (i : Instr) : Prop :=
  (encode i).length = opcodeLength i.opcode ∧ 1 ≤ (encode i).length ∧ (encode i).length ≤ maxLength

/-- The bytes of the fields number what the fields' sizes say. -/
theorem length_of_encoding (i : Instr) : Statement i := by
  have fields : ∀ (x : Operands) (fs : List Field),
      (fs.flatMap (encodeField x)).length = (fs.map Field.size).sum := by
    intro x fs
    induction fs with
    | nil => rfl
    | cons f fs ih =>
      simp only [List.flatMap_cons, List.length_append, List.map_cons, List.sum_cons, ih]
      cases f <;> rfl
  have bound : ∀ oc : Opcode, opcodeLength oc ≤ maxLength := by
    intro oc
    cases oc with
    | bin o f w => cases f <;> cases w <;> exact of_decide_eq_true rfl
    | un u f w => cases f <;> exact of_decide_eq_true rfl
    | inp dx w => cases dx <;> exact of_decide_eq_true rfl
    | out dx w => cases dx <;> exact of_decide_eq_true rfl
    | _ => exact of_decide_eq_true rfl
  have length : (encode i).length = opcodeLength i.opcode := by
    simp only [encode, List.length_cons, fields, opcodeLength, Nat.add_comm]
  exact ⟨length, by rw [length, opcodeLength]; omega, by rw [length]; exact bound _⟩

theorem movRegReg (w : Width) (a b : RegNum) : Statement (.movRegReg w a b) := length_of_encoding _

theorem movRegDir (w : Width) (r : RegNum) (addr : Word) : Statement (.movRegDir w r addr) := length_of_encoding _

theorem movRegInd (w : Width) (r : RegNum) : Statement (.movRegInd w r) := length_of_encoding _

theorem movRegImm (w : Width) (r : RegNum) (imm : Word) : Statement (.movRegImm w r imm) := length_of_encoding _

theorem movDirReg (w : Width) (addr : Word) (r : RegNum) : Statement (.movDirReg w addr r) := length_of_encoding _

theorem movIndReg (w : Width) (r : RegNum) : Statement (.movIndReg w r) := length_of_encoding _

theorem movDirImm (w : Width) (addr imm : Word) : Statement (.movDirImm w addr imm) := length_of_encoding _

theorem movIndImm (w : Width) (imm : Word) : Statement (.movIndImm w imm) := length_of_encoding _

theorem addRegReg (w : Width) (a b : RegNum) : Statement (.addRegReg w a b) := length_of_encoding _

theorem addRegDir (w : Width) (r : RegNum) (addr : Word) : Statement (.addRegDir w r addr) := length_of_encoding _

theorem addRegInd (w : Width) (r : RegNum) : Statement (.addRegInd w r) := length_of_encoding _

theorem addRegImm (w : Width) (r : RegNum) (imm : Word) : Statement (.addRegImm w r imm) := length_of_encoding _

theorem addDirReg (w : Width) (addr : Word) (r : RegNum) : Statement (.addDirReg w addr r) := length_of_encoding _

theorem addIndReg (w : Width) (r : RegNum) : Statement (.addIndReg w r) := length_of_encoding _

theorem addDirImm (w : Width) (addr imm : Word) : Statement (.addDirImm w addr imm) := length_of_encoding _

theorem addIndImm (w : Width) (imm : Word) : Statement (.addIndImm w imm) := length_of_encoding _

theorem adcRegReg (w : Width) (a b : RegNum) : Statement (.adcRegReg w a b) := length_of_encoding _

theorem adcRegDir (w : Width) (r : RegNum) (addr : Word) : Statement (.adcRegDir w r addr) := length_of_encoding _

theorem adcRegInd (w : Width) (r : RegNum) : Statement (.adcRegInd w r) := length_of_encoding _

theorem adcRegImm (w : Width) (r : RegNum) (imm : Word) : Statement (.adcRegImm w r imm) := length_of_encoding _

theorem adcDirReg (w : Width) (addr : Word) (r : RegNum) : Statement (.adcDirReg w addr r) := length_of_encoding _

theorem adcIndReg (w : Width) (r : RegNum) : Statement (.adcIndReg w r) := length_of_encoding _

theorem adcDirImm (w : Width) (addr imm : Word) : Statement (.adcDirImm w addr imm) := length_of_encoding _

theorem adcIndImm (w : Width) (imm : Word) : Statement (.adcIndImm w imm) := length_of_encoding _

theorem subRegReg (w : Width) (a b : RegNum) : Statement (.subRegReg w a b) := length_of_encoding _

theorem subRegDir (w : Width) (r : RegNum) (addr : Word) : Statement (.subRegDir w r addr) := length_of_encoding _

theorem subRegInd (w : Width) (r : RegNum) : Statement (.subRegInd w r) := length_of_encoding _

theorem subRegImm (w : Width) (r : RegNum) (imm : Word) : Statement (.subRegImm w r imm) := length_of_encoding _

theorem subDirReg (w : Width) (addr : Word) (r : RegNum) : Statement (.subDirReg w addr r) := length_of_encoding _

theorem subIndReg (w : Width) (r : RegNum) : Statement (.subIndReg w r) := length_of_encoding _

theorem subDirImm (w : Width) (addr imm : Word) : Statement (.subDirImm w addr imm) := length_of_encoding _

theorem subIndImm (w : Width) (imm : Word) : Statement (.subIndImm w imm) := length_of_encoding _

theorem sbbRegReg (w : Width) (a b : RegNum) : Statement (.sbbRegReg w a b) := length_of_encoding _

theorem sbbRegDir (w : Width) (r : RegNum) (addr : Word) : Statement (.sbbRegDir w r addr) := length_of_encoding _

theorem sbbRegInd (w : Width) (r : RegNum) : Statement (.sbbRegInd w r) := length_of_encoding _

theorem sbbRegImm (w : Width) (r : RegNum) (imm : Word) : Statement (.sbbRegImm w r imm) := length_of_encoding _

theorem sbbDirReg (w : Width) (addr : Word) (r : RegNum) : Statement (.sbbDirReg w addr r) := length_of_encoding _

theorem sbbIndReg (w : Width) (r : RegNum) : Statement (.sbbIndReg w r) := length_of_encoding _

theorem sbbDirImm (w : Width) (addr imm : Word) : Statement (.sbbDirImm w addr imm) := length_of_encoding _

theorem sbbIndImm (w : Width) (imm : Word) : Statement (.sbbIndImm w imm) := length_of_encoding _

theorem cmpRegReg (w : Width) (a b : RegNum) : Statement (.cmpRegReg w a b) := length_of_encoding _

theorem cmpRegDir (w : Width) (r : RegNum) (addr : Word) : Statement (.cmpRegDir w r addr) := length_of_encoding _

theorem cmpRegInd (w : Width) (r : RegNum) : Statement (.cmpRegInd w r) := length_of_encoding _

theorem cmpRegImm (w : Width) (r : RegNum) (imm : Word) : Statement (.cmpRegImm w r imm) := length_of_encoding _

theorem cmpDirReg (w : Width) (addr : Word) (r : RegNum) : Statement (.cmpDirReg w addr r) := length_of_encoding _

theorem cmpIndReg (w : Width) (r : RegNum) : Statement (.cmpIndReg w r) := length_of_encoding _

theorem cmpDirImm (w : Width) (addr imm : Word) : Statement (.cmpDirImm w addr imm) := length_of_encoding _

theorem cmpIndImm (w : Width) (imm : Word) : Statement (.cmpIndImm w imm) := length_of_encoding _

theorem andRegReg (w : Width) (a b : RegNum) : Statement (.andRegReg w a b) := length_of_encoding _

theorem andRegDir (w : Width) (r : RegNum) (addr : Word) : Statement (.andRegDir w r addr) := length_of_encoding _

theorem andRegInd (w : Width) (r : RegNum) : Statement (.andRegInd w r) := length_of_encoding _

theorem andRegImm (w : Width) (r : RegNum) (imm : Word) : Statement (.andRegImm w r imm) := length_of_encoding _

theorem andDirReg (w : Width) (addr : Word) (r : RegNum) : Statement (.andDirReg w addr r) := length_of_encoding _

theorem andIndReg (w : Width) (r : RegNum) : Statement (.andIndReg w r) := length_of_encoding _

theorem andDirImm (w : Width) (addr imm : Word) : Statement (.andDirImm w addr imm) := length_of_encoding _

theorem andIndImm (w : Width) (imm : Word) : Statement (.andIndImm w imm) := length_of_encoding _

theorem orRegReg (w : Width) (a b : RegNum) : Statement (.orRegReg w a b) := length_of_encoding _

theorem orRegDir (w : Width) (r : RegNum) (addr : Word) : Statement (.orRegDir w r addr) := length_of_encoding _

theorem orRegInd (w : Width) (r : RegNum) : Statement (.orRegInd w r) := length_of_encoding _

theorem orRegImm (w : Width) (r : RegNum) (imm : Word) : Statement (.orRegImm w r imm) := length_of_encoding _

theorem orDirReg (w : Width) (addr : Word) (r : RegNum) : Statement (.orDirReg w addr r) := length_of_encoding _

theorem orIndReg (w : Width) (r : RegNum) : Statement (.orIndReg w r) := length_of_encoding _

theorem orDirImm (w : Width) (addr imm : Word) : Statement (.orDirImm w addr imm) := length_of_encoding _

theorem orIndImm (w : Width) (imm : Word) : Statement (.orIndImm w imm) := length_of_encoding _

theorem xorRegReg (w : Width) (a b : RegNum) : Statement (.xorRegReg w a b) := length_of_encoding _

theorem xorRegDir (w : Width) (r : RegNum) (addr : Word) : Statement (.xorRegDir w r addr) := length_of_encoding _

theorem xorRegInd (w : Width) (r : RegNum) : Statement (.xorRegInd w r) := length_of_encoding _

theorem xorRegImm (w : Width) (r : RegNum) (imm : Word) : Statement (.xorRegImm w r imm) := length_of_encoding _

theorem xorDirReg (w : Width) (addr : Word) (r : RegNum) : Statement (.xorDirReg w addr r) := length_of_encoding _

theorem xorIndReg (w : Width) (r : RegNum) : Statement (.xorIndReg w r) := length_of_encoding _

theorem xorDirImm (w : Width) (addr imm : Word) : Statement (.xorDirImm w addr imm) := length_of_encoding _

theorem xorIndImm (w : Width) (imm : Word) : Statement (.xorIndImm w imm) := length_of_encoding _

theorem negReg (w : Width) (r : RegNum) : Statement (.negReg w r) := length_of_encoding _

theorem negDir (w : Width) (addr : Word) : Statement (.negDir w addr) := length_of_encoding _

theorem negInd (w : Width) : Statement (.negInd w) := length_of_encoding _

theorem incReg (w : Width) (r : RegNum) : Statement (.incReg w r) := length_of_encoding _

theorem incDir (w : Width) (addr : Word) : Statement (.incDir w addr) := length_of_encoding _

theorem incInd (w : Width) : Statement (.incInd w) := length_of_encoding _

theorem decReg (w : Width) (r : RegNum) : Statement (.decReg w r) := length_of_encoding _

theorem decDir (w : Width) (addr : Word) : Statement (.decDir w addr) := length_of_encoding _

theorem decInd (w : Width) : Statement (.decInd w) := length_of_encoding _

theorem notReg (w : Width) (r : RegNum) : Statement (.notReg w r) := length_of_encoding _

theorem notDir (w : Width) (addr : Word) : Statement (.notDir w addr) := length_of_encoding _

theorem notInd (w : Width) : Statement (.notInd w) := length_of_encoding _

theorem push (r : Reg16) : Statement (.push r) := length_of_encoding _

theorem pop (r : Reg16) : Statement (.pop r) := length_of_encoding _

theorem pushf : Statement .pushf := length_of_encoding _

theorem popf : Statement .popf := length_of_encoding _

theorem jmp (target : Word) : Statement (.jmp target) := length_of_encoding _

theorem jz (target : Word) : Statement (.jz target) := length_of_encoding _

theorem jnz (target : Word) : Statement (.jnz target) := length_of_encoding _

theorem jc (target : Word) : Statement (.jc target) := length_of_encoding _

theorem jnc (target : Word) : Statement (.jnc target) := length_of_encoding _

theorem js (target : Word) : Statement (.js target) := length_of_encoding _

theorem jns (target : Word) : Statement (.jns target) := length_of_encoding _

theorem jo (target : Word) : Statement (.jo target) := length_of_encoding _

theorem jno (target : Word) : Statement (.jno target) := length_of_encoding _

theorem call (target : Word) : Statement (.call target) := length_of_encoding _

theorem ret : Statement .ret := length_of_encoding _

theorem int (n : Byte) : Statement (.int n) := length_of_encoding _

theorem iret : Statement .iret := length_of_encoding _

theorem cli : Statement .cli := length_of_encoding _

theorem sti : Statement .sti := length_of_encoding _

theorem inAlPort (p : Byte) : Statement (.inAlPort p) := length_of_encoding _

theorem inAxPort (p : Byte) : Statement (.inAxPort p) := length_of_encoding _

theorem inAlDx : Statement .inAlDx := length_of_encoding _

theorem inAxDx : Statement .inAxDx := length_of_encoding _

theorem outPortAl (p : Byte) : Statement (.outPortAl p) := length_of_encoding _

theorem outPortAx (p : Byte) : Statement (.outPortAx p) := length_of_encoding _

theorem outDxAl : Statement .outDxAl := length_of_encoding _

theorem outDxAx : Statement .outDxAx := length_of_encoding _

theorem nop : Statement .nop := length_of_encoding _

theorem hlt : Statement .hlt := length_of_encoding _

end Sys2Proof.Laws.EncodeLength
end

