-- ==== Sys2Proof/Laws/Ends.lean ====
section
/-! SUPPORT. From the whole-instruction laws to the terms in which the statements say how an instruction ends: `Ends`, `Faults`,
`Stores`, stack addresses, and single bits of a byte. -/

namespace Sys2Proof.Claims

open Sys2Proof.Machine Sys2Proof.Config

theorem past_eq (s : State) (n : Nat) : past s n = { s with ip := s.ip + BitVec.ofNat 16 n } := by
  unfold past wrap
  congr 1
  apply BitVec.eq_of_toNat_eq
  simp

/-- An instruction that settles `Ends`. -/
theorem ends_of_settle {i : Instr} {s r t : State} {m q : Metadata} {mm : Memory} {p : Phase} {stored : List (Nat × Byte)}
    (he : exec i s = .next (t.settle m)) (hm : m.vec = none) (hr : t = { r with mem := mm, phase := p, md := q })
    (hs : Stores s.mem t.mem stored) : Ends i s r stored := by
  subst hr
  have hi : interruptRequested ({ r with mem := mm, phase := p, md := q } : State) = interruptRequested r := rfl
  unfold State.settle at he
  rw [hi] at he
  by_cases hb : interruptRequested r = true
  · rw [if_pos hb] at he
    exact ⟨mm, { m with sub := 0 }, he.trans (by rw [if_pos hb]), hs, fun h => (by rw [hb] at h; cases h), fun _ => ⟨hm, rfl⟩⟩
  · rw [if_neg hb] at he
    exact ⟨mm, { }, he.trans (by rw [if_neg hb]), hs, fun _ => rfl, fun h => absurd h hb⟩

theorem code_eq_codeOf (k : FaultKind) : k.code = codeOf k := by cases k <;> rfl

/-- An instruction that raises `Faults`. -/
theorem faults_of_raise {i : Instr} {s r t : State} {m : Metadata} {kind : FaultKind} {info : FaultInfo} {p : Phase}
    {stored : List (Nat × Byte)}
    {q : Metadata} {mm : Memory}
    (he : exec i s = .next (raise kind info (t.setMd m))) (h1 : m.start = some s.ip) (h2 : m.op = (encode i).head?)
    (hr : t = { r with mem := mm, phase := p, md := q })
    (hs : Stores s.mem t.mem stored) : Faults i s kind info p r stored := by
  refine ⟨t.mem, m, he.trans ?_, hs⟩
  subst hr
  simp only [raise, faulted, State.setMd, h1, h2, code_eq_codeOf]

theorem stores_nil (m : Memory) : Stores m m [] := fun _ => rfl

/-- Writing a value stores its bytes. -/
theorem stores_put (s : State) (w : Width) (a v : Word) :
    Stores s.mem (s.putMem w a v).mem (bytesAt w a.toNat (num w v)) := by
  intro b
  cases w with
  | w8 =>
    have : BitVec.ofNat 8 (v.toNat % 256) = low v := by
      apply BitVec.eq_of_toNat_eq; rw [low_toNat]; simp
    simp only [State.putMem, Memory.read_write, bytesAt, num, List.lookup, this]
    by_cases h : b = a.toNat
    · simp [h]
    · have : (b == a.toNat) = false := by simp [h]
      simp [h, this]
  | w16 =>
    simp only [State.putMem, Memory.read_write, bytesAt, num, List.lookup, ofNat_low, ofNat_high]
    by_cases h : b = a.toNat
    · have h1 : ¬ a.toNat = a.toNat + 1 := by omega
      subst h; simp
    · have h' : (b == a.toNat) = false := by simp [h]
      by_cases h1 : b = a.toNat + 1
      · have h2 : (a.toNat + 1 == a.toNat) = false := by simp
        simp [h1, h2]
      · have h1' : (b == a.toNat + 1) = false := by simp [h1]
        simp [h, h1, h', h1']

/-- The destination of an operand form. -/
def dstPlace (f : Form) (x : Operands) (s : State) : Place :=
  match f with
  | .regReg => .reg x.a
  | .regDir => .reg x.b
  | .regInd => .reg x.b
  | .regImm => .reg x.b
  | .dirReg => .mem x.addr
  | .dirImm => .mem x.addr
  | .indReg => .mem s.bx
  | .indImm => .mem s.bx

/-- The source of an operand form. -/
def srcPlace (f : Form) (x : Operands) (s : State) : Place :=
  match f with
  | .regReg => .reg x.b
  | .dirReg => .reg x.b
  | .indReg => .reg x.b
  | .regDir => .mem x.addr
  | .regInd => .mem s.bx
  | _ => .imm x.imm

theorem legal_fit (o : BinOp) (f : Form) (w : Width) (x : Operands) (s : State)
    (h1 : (dstPlace f x s).legal w) (h2 : (srcPlace f x s).legal w) : x.fit (.bin o f w) = true := by
  have hreg : ∀ k : RegNum, (w = .w8 ∨ k.toNat < 4) → regLegal w k = true := by
    intro k h; cases w <;> simp_all [regLegal]
  have himm : ∀ v : Word, (w = .w16 ∨ v.toNat < 256) → immFits w v = true := by
    intro k h; cases w <;> simp_all [immFits]
  cases f <;> simp only [dstPlace, srcPlace, Place.legal] at h1 h2 <;> simp [Operands.fit, hreg, himm, *]

theorem num_reg (s : State) (w : Width) (k : RegNum) : num w (s.reg w k) = (s.reg w k).toNat := by
  cases w
  · exact (num_zext _).trans (zext_toNat _).symm
  · rfl

theorem num_mem (s : State) (w : Width) (a : Word) : num w (s.memValue w a) = (s.memValue w a).toNat := by
  cases w
  · exact (num_zext _).trans (zext_toNat _).symm
  · rfl

theorem num_imm (w : Width) (v : Word) (h : w = .w16 ∨ v.toNat < 256) : num w v = v.toNat := by
  cases w
  · simp at h; exact Nat.mod_eq_of_lt h
  · rfl

theorem source_num (f : Form) (w : Width) (x : Operands) (s : State) (h : (srcPlace f x s).legal w) :
    num w (f.source w x s) = (srcPlace f x s).value s w := by
  cases f <;> simp only [srcPlace, Place.legal, Form.source, Place.value] at h ⊢ <;> first
    | (rw [num_reg]; exact reg_toNat s w _ h)
    | (rw [num_mem]; exact memValue_eq s w _)
    | exact num_imm w _ h

theorem dest_num (f : Form) (w : Width) (x : Operands) (s : State) (h : (dstPlace f x s).legal w) :
    num w (f.dest w x s) = (dstPlace f x s).value s w := by
  cases f <;> simp only [dstPlace, Place.legal, Form.dest, Place.value] at h ⊢ <;> first
    | (rw [num_reg]; exact reg_toNat s w _ h)
    | (rw [num_mem]; exact memValue_eq s w _)

theorem spells (i : Instr) (n l : Nat) (h1 : opcodeByte i.opcode = BitVec.ofNat 8 n) (h2 : opcodeLength i.opcode = l) :
  Spells i n l := by
  refine ⟨?_, ?_⟩
  · show some (opcodeByte i.opcode) = _
    rw [h1]
  · rw [(Sys2Proof.Laws.EncodeLength.length_of_encoding i).1, h2]

theorem putReg_fields (s : State) (w : Width) (k v : Nat) (mem : Memory) (p : Phase) (m : Metadata) :
    ({ putReg s w k v with mem := mem, phase := p, md := m } : State) =
      putReg { s with mem := mem, phase := p, md := m } w k v := by
  unfold putReg
  split <;> rfl

theorem commit_mem (f : Form) (w : Width) (x : Operands) (s : State) (v : Word) (hm : (dstPlace f x s).legal w) :
    f.commit w x v s =
      { (dstPlace f x s).put s w (num w v) with mem := (f.commit w x v s).mem, phase := s.phase, md := s.md } := by
  cases f <;> simp only [dstPlace, Place.legal, Form.commit, Place.put] at hm ⊢ <;> first
    | (rw [setReg_eq s w _ v hm]
       unfold putReg
       split <;> rfl)
    | (cases w <;> rfl)

theorem putReg_mem (s : State) (w : Width) (k v : Nat) : (putReg s w k v).mem = s.mem := by unfold putReg; split <;> rfl

theorem commit_stores (f : Form) (w : Width) (x : Operands) (s : State) (v : Word) (hm : (dstPlace f x s).legal w) :
    Stores s.mem (f.commit w x v s).mem ((dstPlace f x s).stored w (num w v)) := by
  have hreg : ∀ k : RegNum, (w = .w8 ∨ k.toNat < 4) → Stores s.mem (s.setReg w k v).mem [] := by
    intro k hk
    rw [setReg_eq s w _ v hk, putReg_mem]; exact stores_nil _
  cases f
  case regReg => exact hreg _ hm
  case regDir => exact hreg _ hm
  case regInd => exact hreg _ hm
  case regImm => exact hreg _ hm
  all_goals exact stores_put s w _ v

/-! ## The stack -/

theorem below1 (s : State) : s.pushAddress.toNat = below s 1 := by
  unfold State.pushAddress below wrap
  have := s.sp.isLt
  simp [BitVec.toNat_sub]; omega

theorem below1' (s : State) : s.pushAddress = BitVec.ofNat 16 (below s 1) := by
  apply BitVec.eq_of_toNat_eq; rw [below1]; simp [below, wrap]

theorem above0 (s : State) : s.sp.toNat = above s 0 := by
  unfold above wrap; have := s.sp.isLt; simp; omega

theorem above1 (s : State) : (s.sp + 2).toNat = above s 1 := by
  unfold above wrap; simp

theorem above1' (s : State) : s.sp + 2 = BitVec.ofNat 16 (above s 1) := by
  apply BitVec.eq_of_toNat_eq; rw [above1]; simp [above, wrap]

theorem above2' (s : State) : s.sp + 4 = BitVec.ofNat 16 (above s 2) := by
  apply BitVec.eq_of_toNat_eq; simp [above, wrap]

theorem word16 (v : Nat) (w : Word) (h : w.toNat = v) : BitVec.ofNat 16 v = w := by subst h; simp

theorem readWord_eq (s : State) (a : Nat) : (s.mem.readWord a).toNat = memValue s .w16 a := concat_toNat _ _

theorem flags16_toNat (f : Flags) : (flags16 f).toNat = flagWord f := by
  obtain ⟨a, b, c, d, e⟩ := f
  revert a b c d e; decide

theorem loadFlags_eq (v : Word) : loadFlags16 v = flagsFrom v.toNat := rfl

theorem regNumber_eq (s : State) (r : Reg16) : (s.reg16 r).toNat = regValue s .w16 (regNumber r) := by cases r <;> rfl

theorem bytesAt_low (a v : Nat) (h : v < 65536) : bytesAt .w16 a v = [(a, low (BitVec.ofNat 16 v)), (a + 1,
  high (BitVec.ofNat 16 v))] := by
  have e : (BitVec.ofNat 16 v).toNat = v := by simp; omega
  unfold bytesAt
  rw [← ofNat_low, ← ofNat_high, e]

theorem pushed_stores (s : State) (v : Word) : Stores s.mem (s.pushed v).mem (bytesAt .w16 (below s 1) v.toNat) := by
  have := stores_put s .w16 s.pushAddress v
  rw [below1] at this
  exact this

/-- An instruction that ends with a push. -/
theorem ends_push {i : Instr} {s r : State} {v : Word} {m : Metadata}
    (he : exec i s = .next (r.pushed v |>.settle m)) (hm : m.vec = none) (hsp : r.sp = s.sp) (hmem : r.mem = s.mem) :
    Ends i s { r with sp := BitVec.ofNat 16 (below s 1) } (bytesAt .w16 (below s 1) v.toNat) := by
  have hb : below r 1 = below s 1 := by unfold below; rw [hsp]
  refine ends_of_settle (mm := (r.pushed v).mem) (p := r.phase) (q := r.md) he hm ?_ ?_
  · rw [← hb, ← below1']
    rfl
  · rw [← hmem, ← hb]; exact pushed_stores r v

/-- An instruction whose access leaves memory. -/
theorem outOfRange_of {i : Instr} {s r : State} {m : Metadata} {a : Word} {n : Nat} {p : Phase} (hn : a.toNat = n)
    (he : exec i s = .next ((({ r with phase := p } : State).setMd m).outOfRange a)) (h1 : m.start = some s.ip) (h2 : m.op =
      (encode i).head?)
    (hp : r.params = s.params) (hmem : r.mem = s.mem) : OutOfRange i s n p r [] := by
  subst hn
  have : firstBad s a.toNat = firstOut (r.params.memSize) a.toNat := by rw [hp]; rfl
  unfold OutOfRange
  rw [this]
  exact faults_of_raise he h1 h2 rfl (hmem ▸ stores_nil _)

theorem stores_trans {a b c : Memory} {x y : List (Nat × Byte)} (h1 : Stores a b x) (h2 : Stores b c y) : Stores a c (y ++ x)
  := by
  intro k
  rw [h2 k, h1 k, List.lookup_append]
  cases y.lookup k <;> rfl

theorem below2 (s : State) : s.trapFlags.pushAddress.toNat = below s 2 := by
  show (s.sp - 2 - 2).toNat = _
  unfold below wrap
  have := s.sp.isLt
  simp [BitVec.toNat_sub]; omega

theorem below2' (s : State) : s.trapFlags.pushAddress = BitVec.ofNat 16 (below s 2) := by
  apply BitVec.eq_of_toNat_eq; rw [below2]; simp [below, wrap]

theorem trapFlags_stores (s : State) : Stores s.mem s.trapFlags.mem (bytesAt .w16 (below s 1) (flagWord s.flags)) := by
  rw [← flags16_toNat]
  exact pushed_stores s (flags16 s.flags)

theorem trapFrame_stores (s : State) :
    Stores s.mem s.trapFrame.mem (bytesAt .w16 (below s 2) s.ip.toNat ++ bytesAt .w16 (below s 1) (flagWord s.flags)) := by
  refine stores_trans (trapFlags_stores s) ?_
  have := pushed_stores s.trapFlags s.ip
  have hb : below s.trapFlags 1 = below s 2 := by rw [← below1, below2]
  rw [hb] at this
  exact this

/-! ## Bits of a byte -/

theorem getLsbD_clearBit (x : Byte) (i j : Nat) (hj : j < 8) : (x &&& ~~~lineBit i).getLsbD j = if j = i then false else
  x.getLsbD j := by
  have hb : (lineBit i).getLsbD j = decide (j = i) := by
    unfold lineBit
    rw [BitVec.getLsbD_ofNat, Nat.testBit_two_pow]
    simp only [hj, decide_true, Bool.true_and, eq_comm]
  rw [BitVec.getLsbD_and, BitVec.getLsbD_not, hb]
  by_cases h : j = i <;> simp [h, hj]

theorem getLsbD_setBit (x : Byte) (i j : Nat) (hj : j < 8) : (x ||| lineBit i).getLsbD j = if j = i then true else x.getLsbD
  j := by
  have hb : (lineBit i).getLsbD j = decide (j = i) := by
    unfold lineBit
    rw [BitVec.getLsbD_ofNat, Nat.testBit_two_pow]
    simp only [hj, decide_true, Bool.true_and, eq_comm]
  simp [hb]
  by_cases h : j = i <;> simp [h]

theorem getLsbD_flipBit (x : Byte) (i j : Nat) (hj : j < 8) : (x ^^^ lineBit i).getLsbD j = if j = i then !x.getLsbD i else
  x.getLsbD j := by
  have hb : (lineBit i).getLsbD j = decide (j = i) := by
    unfold lineBit
    rw [BitVec.getLsbD_ofNat, Nat.testBit_two_pow]
    simp only [hj, decide_true, Bool.true_and, eq_comm]
  simp [hb]
  by_cases h : j = i <;> simp [h]

theorem lowestBit_eq_some (v : Byte) (i : Nat) : lowestBit v = some i ↔ i < 8 ∧ v.getLsbD i = true ∧ ∀ j,
  j < i → v.getLsbD j = false := by
  unfold lowestBit
  rw [List.find?_range_eq_some]
  simp only [List.mem_range]
  constructor
  · rintro ⟨a, b, c⟩; exact ⟨b, a, fun j hj => by simpa using c j hj⟩
  · rintro ⟨a, b, c⟩; exact ⟨b, a, fun j hj => by simpa using c j hj⟩

theorem selected_iff (p : Pic) (i : Nat) : p.selected = some i ↔ Selected p i := by
  unfold Pic.selected Selected
  rw [lowestBit_eq_some]
  constructor
  · rintro ⟨a, b, c⟩
    simp only [BitVec.getLsbD_and, BitVec.getLsbD_not, Bool.and_eq_true, Bool.not_eq_true', decide_eq_true_eq] at b
    refine ⟨a, b.1, b.2.2, fun j hj hh => ?_⟩
    have := c j hj
    simp [hh.1, hh.2] at this
    omega
  · rintro ⟨a, b, c, d⟩
    refine ⟨a, by rw [BitVec.getLsbD_and, BitVec.getLsbD_not, b, c]; simp [a], fun j hj => ?_⟩
    have := d j hj
    simp only [BitVec.getLsbD_and, BitVec.getLsbD_not]
    cases h1 : p.irr.getLsbD j <;> cases h2 : p.imr.getLsbD j <;> simp_all

end Sys2Proof.Claims
end

