-- ==== Sys2Proof/Laws/Events.lean ====
section
/-! SUPPORT. The replay of the event stream: the changes from one committed state to the next, replayed on a state that agrees with
the first, give a state that agrees with the second. The statement about the events of a step follows state by state. -/

namespace Sys2Proof.Claims

open Sys2Proof.Machine Sys2Proof.Config

/-! ## Streams -/

@[simp] theorem replay_nil (s : State) : replay [] s = s := rfl

@[simp] theorem replay_cons (e : Event) (es : List Event) (s : State) : replay (e :: es) s = replay es (applyEvent e s) := rfl

@[simp] theorem replay_append (es fs : List Event) (s : State) : replay (es ++ fs) s = replay fs (replay es s) := by
  simp [replay, List.foldl_append]

/-- A change that the state replayed on has already is no change of it. -/
theorem replay_changed {α : Type} [DecidableEq α] {e : α → Event} {x y : α} {u : State}
    (h : x = y → applyEvent (e y) u = u) : replay (changed e x y) u = applyEvent (e y) u := by
  unfold changed
  split
  · next hxy => rw [h hxy]; rfl
  · rfl

theorem replay_deviceChanged {α : Type} [DecidableEq α] {d : α → DeviceValue} {x y : α} {u : State}
    (h : x = y → putDeviceValue (d y) u = u) : replay (deviceChanged d x y) u = putDeviceValue (d y) u :=
  replay_changed (e := fun v => .deviceRegisterChanged (d v)) h

/-! ## Devices -/

theorem replay_picChanges {u : State} (p q : Pic) (h : u.pic = p) : replay (picChanges p q) u = { u with pic := q } := by
  subst h
  have hv : List.range 8 = [0, 1, 2, 3, 4, 5, 6, 7] := by decide
  simp only [picChanges, hv, List.flatMap_cons, List.flatMap_nil, List.append_nil, replay_append, Pic.vector]
  simp (disch := (intro h; simp only [putDeviceValue, Pic.setVector, ← h])) only
    [replay_deviceChanged, putDeviceValue, Pic.setVector]
  rfl

theorem replay_deviceChanges {u : State} (s t : State) (h1 : u.devices = s.devices) (h2 : u.pic = s.pic)
    (h3 : u.timer = s.timer) (h4 : u.pio = s.pio) (h5 : u.handshake = s.handshake) (h6 : u.printer = s.printer)
    (h7 : u.screen = s.screen) :
    replay (deviceChanges s t) u =
      { u with devices := t.devices, pic := t.pic, timer := t.timer, pio := t.pio, handshake := t.handshake
               printer := t.printer, screen := t.screen } := by
  simp only [deviceChanges, replay_append, ← h1, ← h2, ← h3, ← h4, ← h5, ← h6, ← h7]
  simp (disch := first | rfl | (intro h; simp only [putDeviceValue, ← h])) only
    [replay_deviceChanged, replay_picChanges, putDeviceValue]

/-! ## Registers, cycle state, session, memory -/

theorem replay_registerChanges {u : State} (s t : State) (h1 : u.ax = s.ax) (h2 : u.bx = s.bx) (h3 : u.cx = s.cx)
    (h4 : u.dx = s.dx) (h5 : u.ip = s.ip) (h6 : u.sp = s.sp) (h7 : u.flags = s.flags) :
    replay (registerChanges s t) u =
      { u with ax := t.ax, bx := t.bx, cx := t.cx, dx := t.dx, ip := t.ip, sp := t.sp, flags := t.flags } := by
  simp only [registerChanges, replay_append, ← h1, ← h2, ← h3, ← h4, ← h5, ← h6, ← h7]
  simp (disch := (intro h; simp only [applyEvent, State.setReg16, ← h])) only [replay_changed, applyEvent, State.setReg16]

theorem replay_cycleChanges {u : State} (s t : State) (h1 : u.phase = s.phase) (h2 : u.outcome = s.outcome)
    (h3 : u.error = s.error) (h4 : u.md = s.md) :
    replay (cycleChanges s t) u = { u with phase := t.phase, outcome := t.outcome, error := t.error, md := t.md } := by
  simp only [cycleChanges, replay_append, ← h1, ← h2, ← h3, ← h4]
  simp (disch := (intro h; simp only [applyEvent, ← h])) only [replay_changed, applyEvent]
  rw [replay_changed]
  · rfl
  · intro h
    simp only [Prod.mk.injEq] at h
    simp only [applyEvent, ← h.1, ← h.2]

/-- Bytes stored one after the other: the last one at an address counts, and every other address is unchanged. -/
theorem replay_cells (n : Memory) (as : List Nat) (u : State) :
    ∃ mem, replay (as.map fun a => .memoryCellChanged a (n.read a)) u = { u with mem := mem } ∧
      ∀ b, mem.read b = if b ∈ as then n.read b else u.mem.read b := by
  induction as generalizing u with
  | nil => exact ⟨u.mem, rfl, by simp⟩
  | cons a as ih =>
    obtain ⟨mem, h, hr⟩ := ih (applyEvent (.memoryCellChanged a (n.read a)) u)
    refine ⟨mem, by rw [List.map_cons, replay_cons, h]; rfl, fun b => ?_⟩
    simp only [hr, applyEvent, Memory.read_write, List.mem_cons]
    by_cases hb : b = a <;> by_cases hm : b ∈ as <;> simp [hb, hm]

theorem replay_memoryChanges {u : State} (size : Nat) (m n : Memory) (h : ∀ a, a < size → u.mem.read a = m.read a) :
    ∃ mem, replay (memoryChanges size m n) u = { u with mem := mem } ∧ ∀ a, a < size → mem.read a = n.read a := by
  unfold memoryChanges
  split
  · next hmn => exact ⟨u.mem, rfl, fun a ha => by rw [h a ha, hmn]⟩
  · obtain ⟨mem, hu, hr⟩ := replay_cells n ((List.range size).filter fun a => m.read a != n.read a) u
    refine ⟨mem, hu, fun a ha => ?_⟩
    rw [hr]
    split
    · rfl
    · next hn =>
      rw [h a ha]
      simpa [ha] using hn

/-- Bus accesses change nothing. -/
theorem replay_busAccess {bus : List Event} (h : ∀ e ∈ bus, ∃ r v, e = .busAccess r v) (u : State) : replay bus u = u := by
  induction bus with
  | nil => rfl
  | cons e es ih =>
    obtain ⟨r, v, rfl⟩ := h e (by simp)
    exact ih fun e he => h e (by simp [he])

/-! ## One change, and a trail of them -/

theorem SameMachine.refl (s : State) : SameMachine s s := ⟨rfl, fun _ _ => rfl⟩

/-- The changes from `s` to `t`, replayed on a state that agrees with `s`, give one that agrees with `t`. -/
theorem replay_changes {u s t : State} {bus : List Event} (hu : SameMachine u s) (hp : t.params = s.params)
    (hb : ∀ e ∈ bus, ∃ r v, e = .busAccess r v) : SameMachine (replay (changes s t bus) u) t := by
  obtain ⟨hu, hm⟩ := hu
  generalize u.mem = m, u.agenda = ag, u.draws = dr, u.reply = re at hu hm
  subst hu
  simp only [changes, replay_append]
  rw [replay_deviceChanges (u := { s with mem := m, agenda := ag, draws := dr, reply := re }) s t rfl rfl rfl rfl rfl rfl rfl]
  obtain ⟨mem, hmem, hread⟩ := replay_memoryChanges (u := { s with
    mem := m, agenda := ag, draws := dr, reply := re, devices := t.devices, pic := t.pic, timer := t.timer, pio := t.pio
    handshake := t.handshake, printer := t.printer, screen := t.screen }) s.params.memSize s.mem t.mem hm
  rw [hmem, replay_busAccess hb, replay_registerChanges s t, replay_cycleChanges s t, replay_changed] <;> try rfl
  · refine ⟨?_, fun a ha => hread a (hp ▸ ha)⟩
    simp only [applyEvent, State.session, ← hp]
  · intro h
    simp only [State.session, Session.mk.injEq] at h
    simp only [applyEvent, State.session, ← h.1, ← h.2.1, ← h.2.2.1, ← h.2.2.2]

theorem replay_trail {u s : State} {ts : List State} (hu : SameMachine u s) (hp : ∀ t ∈ ts, t.params = s.params) :
    SameMachine (replay (trail s ts) u) (ts.getLast?.getD s) := by
  induction ts generalizing u s with
  | nil => exact hu
  | cons t ts ih =>
    have ht := hp t (by simp)
    rw [trail, replay_append]
    have := ih (replay_changes (bus := []) hu ht (by simp)) fun t' h' => (hp t' (by simp [h'])).trans ht.symm
    rw [List.getLast?_cons]
    exact this

end Sys2Proof.Claims
end

