-- ==== Sys2Proof/Machine/Assembler.lean ====
section
/-! DEFINITION. The assembler's input syntax and the program image it hands over (30_encoding.md R120 to R129): source text to
tokens, tokens to lines, lines to addresses and bytes. It is no part of the machine (70_reset_and_hazards.md R455): its image is
what `loadProgram` takes. Assembler software as such is out of scope (00_scope.md R4); what its grammar leaves open is log 33. -/

namespace Sys2Proof.Asm

/-! ## Tokens (R120, R123) -/

/-- A label, a constant, a mnemonic: its letters as written. -/
abbrev Name := List Char

/-- What a line is made of. -/
inductive Token where
  | word (w : Name)
  | number (n : Nat)
  /-- A string in double quotes. -/
  | text (cs : List Char)
  | comma
  | colon
  | opening
  | closing
  | plus
  | minus
  | query
  | eol
  /-- A character, or a number, that is no token. -/
  | bad (cs : List Char)
deriving DecidableEq, Repr

/-- Why a program does not assemble (R129). -/
inductive AsmError where
  | badToken (cs : List Char)
  | syntaxError
  | unknownMnemonic (w : Name)
  | duplicate (n : Name)
  | undefined (n : Name)
  | circularConstant
  /-- The operands have no form in R124 and R127, or their widths differ (R125). -/
  | operandMismatch
  /-- A memory operand whose width nothing fixes (R125). -/
  | widthNotFixed
  /-- A label where R123 has a number: its address is written `OFFSET label`. -/
  | labelAsNumber (n : Name)
  | outOfRange (v : Int)
  /-- Two items are given one address (R126). -/
  | overlap (a : Nat)
deriving DecidableEq, Repr

/-- The upper-case form, for what is case-insensitive (R120). -/
def upper (w : Name) : Name := w.map Char.toUpper

/-- A letter of a word. DESIGN CHOICE (log 33): the spec does not say of which characters a name is made; here they are the ASCII
letters and digits and the underscore, and a word that starts with a digit is a number. -/
def wordChar (c : Char) : Bool := c.isAlphanum || c = '_'

/-- The value of a digit. -/
def digit (c : Char) : Option Nat :=
  if c.isDigit then some (c.toNat - '0'.toNat)
  else if 'A' ≤ c ∧ c ≤ 'F' then some (c.toNat - 'A'.toNat + 10)
  else none

/-- A number in a base, its most significant digit first. -/
def digits (base : Nat) (cs : List Char) : Option Nat :=
  cs.foldl
    (fun acc c =>
      match acc, digit c with
      | some n, some d => if d < base then some (base * n + d) else none
      | _, _ => none)
    (some 0)

/-- A word that starts with a digit is a number: `h` hexadecimal, `b` binary, otherwise decimal (R123). -/
def numberToken (w : Name) : Token :=
  let u := upper w
  let value :=
    match u.getLast? with
    | some 'H' => digits 16 u.dropLast
    | some 'B' => digits 2 u.dropLast
    | _ => digits 10 u
  match value with
  | some n => .number n
  | none => .bad w

/-- The token of a run of word letters. -/
def wordToken (w : Name) : Token :=
  match w with
  | [] => .bad []
  | c :: _ => if c.isDigit then numberToken w else .word w

/-- Where the reader of characters is; the letters read so far are held last one first. -/
inductive Mode where
  | idle
  | word (acc : List Char)
  | text (acc : List Char)
  | quoted (acc : List Char)
  | comment
deriving DecidableEq, Repr

/-- The tokens so far, last one first, and the mode. -/
structure Lexer where
  tokens : List Token
  mode : Mode
deriving DecidableEq, Repr

/-- One character between tokens. -/
def lexIdle (c : Char) (done : List Token) : Lexer :=
  if c = '\n' then ⟨.eol :: done, .idle⟩
  else if c.isWhitespace then ⟨done, .idle⟩
  else if wordChar c then ⟨done, .word [c]⟩
  else
    match c with
    | ';' => ⟨done, .comment⟩
    | '"' => ⟨done, .text []⟩
    | '\'' => ⟨done, .quoted []⟩
    | ',' => ⟨.comma :: done, .idle⟩
    | ':' => ⟨.colon :: done, .idle⟩
    | '[' => ⟨.opening :: done, .idle⟩
    | ']' => ⟨.closing :: done, .idle⟩
    | '+' => ⟨.plus :: done, .idle⟩
    | '-' => ⟨.minus :: done, .idle⟩
    | '?' => ⟨.query :: done, .idle⟩
    | _ => ⟨.bad [c] :: done, .idle⟩

/-- The token of what stands between two quotes: one character is its code (R123). -/
def quotedToken (acc : List Char) : Token :=
  match acc with
  | [c] => .number c.toNat
  | _ => .bad acc.reverse

/-- One character. A comment, and anything unclosed, ends with the line. -/
def lexChar (s : Lexer) (c : Char) : Lexer :=
  match s.mode with
  | .idle => lexIdle c s.tokens
  | .word acc => if wordChar c then ⟨s.tokens, .word (c :: acc)⟩ else lexIdle c (wordToken acc.reverse :: s.tokens)
  | .comment => if c = '\n' then ⟨.eol :: s.tokens, .idle⟩ else s
  | .text acc =>
    if c = '"' then ⟨.text acc.reverse :: s.tokens, .idle⟩
    else if c = '\n' then ⟨.eol :: .bad acc.reverse :: s.tokens, .idle⟩
    else ⟨s.tokens, .text (c :: acc)⟩
  | .quoted acc =>
    if c = '\'' then ⟨quotedToken acc :: s.tokens, .idle⟩
    else if c = '\n' then ⟨.eol :: .bad acc.reverse :: s.tokens, .idle⟩
    else ⟨s.tokens, .quoted (c :: acc)⟩

/-- The tokens of a source text; line boundaries are kept as `eol` (R120). -/
def lex (source : List Char) : List Token := ((source ++ ['\n']).foldl lexChar ⟨[], .idle⟩).tokens.reverse

/-- The parts of a token list between separators. -/
def splitAt (sep : Token) (ts : List Token) : List (List Token) :=
  ts.foldr
    (fun t parts =>
      if t = sep then [] :: parts
      else
        match parts with
        | [] => [[t]]
        | p :: ps => (t :: p) :: ps)
    [[]]

/-! ## Expressions (R121, R123) -/

/-- Numbers, constants and labels by name, `OFFSET label`, sums and differences. -/
inductive Expr where
  | num (n : Int)
  | name (n : Name)
  | offset (n : Name)
  | add (a b : Expr)
  | sub (a b : Expr)
deriving DecidableEq, Repr

def kwOffset : Name := ['O', 'F', 'F', 'S', 'E', 'T']

/-- One term of an expression. -/
def parseTerm : List Token → Option (Expr × List Token)
  | .number n :: rest => some (.num n, rest)
  | .word w :: rest =>
    if upper w = kwOffset then
      match rest with
      | .word l :: rest' => some (.offset l, rest')
      | _ => none
    else some (.name w, rest)
  | _ => none

/-- The terms after the first; `fuel` bounds how many. -/
def parseTerms : Nat → Expr → List Token → Option Expr
  | _, acc, [] => some acc
  | fuel + 1, acc, .plus :: rest => (parseTerm rest).bind fun p => parseTerms fuel (.add acc p.1) p.2
  | fuel + 1, acc, .minus :: rest => (parseTerm rest).bind fun p => parseTerms fuel (.sub acc p.1) p.2
  | _, _, _ => none

/-- A whole expression, with a sign before its first term if it has one. -/
def parseExpr (ts : List Token) : Except AsmError Expr :=
  let parsed :=
    match ts with
    | .minus :: rest => parseTerms ts.length (.num 0) (.minus :: rest)
    | .plus :: rest => parseTerms ts.length (.num 0) (.plus :: rest)
    | _ => (parseTerm ts).bind fun p => parseTerms ts.length p.1 p.2
  match parsed with
  | some e => .ok e
  | none => .error .syntaxError

/-! ## Lines (R120 to R122, R124, R127) -/

/-- An operand as written (R124). -/
inductive Written where
  | reg (w : Width) (k : RegNum)
  /-- `[BX]`, with its width prefix if it has one. -/
  | indirect (w : Option Width)
  /-- `[n]`. -/
  | address (w : Option Width) (e : Expr)
  /-- An expression: a direct reference when it names a label, and an immediate otherwise. -/
  | value (w : Option Width) (e : Expr)
deriving DecidableEq, Repr

/-- The mnemonics (R127). -/
inductive Mnemonic where
  | bin (o : BinOp)
  | un (u : UnOp)
  | push
  | pop
  /-- No operand. -/
  | plain (oc : Opcode)
  /-- A jump or CALL. -/
  | jump (oc : Opcode)
  | int
  | inp
  | out
deriving DecidableEq, Repr

/-- A value of DB or DW (R122). -/
inductive Datum where
  | unset
  | text (cs : List Char)
  | expr (e : Expr)
deriving DecidableEq, Repr

/-- What emits bytes. -/
inductive Item where
  | instruction (m : Mnemonic) (operands : List Written)
  | data (w : Width) (values : List Datum)
deriving DecidableEq, Repr

/-- What a line does besides defining a label. -/
inductive Body where
  | empty
  | item (i : Item)
  | org (e : Expr)
  | equ (n : Name) (e : Expr)
  | stop
deriving DecidableEq, Repr

/-- A line. -/
structure Line where
  number : Nat
  label : Option Name
  body : Body
deriving DecidableEq, Repr

/-- The register names (10_state.md R22). -/
def registers : List (Name × Width × RegNum) :=
  [(['A', 'L'], .w8, 0), (['B', 'L'], .w8, 1), (['C', 'L'], .w8, 2), (['D', 'L'], .w8, 3), (['A', 'H'], .w8, 4),
   (['B', 'H'], .w8, 5), (['C', 'H'], .w8, 6), (['D', 'H'], .w8, 7), (['A', 'X'], .w16, 0), (['B', 'X'], .w16, 1),
   (['C', 'X'], .w16, 2), (['D', 'X'], .w16, 3)]

/-- The mnemonics of R127. -/
def mnemonics : List (Name × Mnemonic) :=
  [(['M', 'O', 'V'], .bin .mov), (['A', 'D', 'D'], .bin .add), (['A', 'D', 'C'], .bin .adc), (['S', 'U', 'B'], .bin .sub),
   (['S', 'B', 'B'], .bin .sbb), (['C', 'M', 'P'], .bin .cmp), (['A', 'N', 'D'], .bin .and), (['O', 'R'], .bin .or),
   (['X', 'O', 'R'], .bin .xor), (['N', 'E', 'G'], .un .neg), (['I', 'N', 'C'], .un .inc), (['D', 'E', 'C'], .un .dec),
   (['N', 'O', 'T'], .un .not), (['P', 'U', 'S', 'H'], .push), (['P', 'O', 'P'], .pop)] ++
  [(['P', 'U', 'S', 'H', 'F'], .plain .pushf), (['P', 'O', 'P', 'F'], .plain .popf), (['R', 'E', 'T'], .plain .ret),
   (['I', 'R', 'E', 'T'], .plain .iret), (['C', 'L', 'I'], .plain .cli), (['S', 'T', 'I'], .plain .sti),
   (['N', 'O', 'P'], .plain .nop), (['H', 'L', 'T'], .plain .hlt), (['J', 'M', 'P'], .jump .jmp),
   (['J', 'Z'], .jump (.jcc .z)), (['J', 'N', 'Z'], .jump (.jcc .nz)), (['J', 'C'], .jump (.jcc .c)),
   (['J', 'N', 'C'], .jump (.jcc .nc)), (['J', 'S'], .jump (.jcc .s)), (['J', 'N', 'S'], .jump (.jcc .ns)),
   (['J', 'O'], .jump (.jcc .o)), (['J', 'N', 'O'], .jump (.jcc .no)), (['C', 'A', 'L', 'L'], .jump .call),
   (['I', 'N', 'T'], .int), (['I', 'N'], .inp), (['O', 'U', 'T'], .out)]

def kwOrg : Name := ['O', 'R', 'G']

def kwEnd : Name := ['E', 'N', 'D']

def kwEqu : Name := ['E', 'Q', 'U']

def kwPtr : Name := ['P', 'T', 'R']

/-- `DB` and `DW`. -/
def dataWidth (w : Name) : Option Width :=
  if upper w = ['D', 'B'] then some .w8 else if upper w = ['D', 'W'] then some .w16 else none

/-- `BYTE` and `WORD`. -/
def ptrWidth (w : Name) : Option Width :=
  if upper w = ['B', 'Y', 'T', 'E'] then some .w8 else if upper w = ['W', 'O', 'R', 'D'] then some .w16 else none

/-- An operand after its width prefix. -/
def parseReference (w : Option Width) (ts : List Token) : Except AsmError Written :=
  match ts with
  | .opening :: rest =>
    match rest.getLast? with
    | some .closing =>
      match rest.dropLast with
      | [.word n] =>
        if upper n = ['B', 'X'] then .ok (.indirect w) else (parseExpr [.word n]).map (.address w)
      | inner => (parseExpr inner).map (.address w)
    | _ => .error .syntaxError
  | _ => (parseExpr ts).map (.value w)

/-- An operand (R124, R125). -/
def parseOperand (ts : List Token) : Except AsmError Written :=
  match ts with
  | [.word n] =>
    match registers.lookup (upper n) with
    | some r => .ok (.reg r.1 r.2)
    | none => parseReference none ts
  | .word p :: .word q :: rest =>
    match ptrWidth p with
    | some w => if upper q = kwPtr then parseReference (some w) rest else .error .syntaxError
    | none => parseReference none ts
  | _ => parseReference none ts

/-- A value of a data directive of width `w`; a string stands on a DB line only. -/
def parseDatum (w : Width) (ts : List Token) : Except AsmError Datum :=
  match ts with
  | [.query] => .ok .unset
  | [.text cs] => if w = .w8 then .ok (.text cs) else .error .syntaxError
  | _ => (parseExpr ts).map .expr

/-- Do `f` to each, up to the first error. -/
def each {α β : Type} (f : α → Except AsmError β) : List α → Except AsmError (List β)
  | [] => .ok []
  | x :: xs =>
    match f x, each f xs with
    | .ok y, .ok ys => .ok (y :: ys)
    | .error e, _ => .error e
    | _, .error e => .error e

/-- A line after its label. -/
def parseBody (ts : List Token) : Except AsmError Body :=
  match ts with
  | [] => .ok .empty
  | .word w :: rest =>
    if upper w = kwOrg then (parseExpr rest).map .org
    else if upper w = kwEnd then if rest = [] then .ok .stop else .error .syntaxError
    else
      match dataWidth w with
      | some width => (each (parseDatum width) (splitAt .comma rest)).map fun vs => .item (.data width vs)
      | none =>
        match mnemonics.lookup (upper w) with
        | none => .error (.unknownMnemonic w)
        | some m =>
          if rest = [] then .ok (.item (.instruction m []))
          else (each parseOperand (splitAt .comma rest)).map fun os => .item (.instruction m os)
  | _ => .error .syntaxError

/-- The characters of a bad token, if the line has one. -/
def badToken (ts : List Token) : Option (List Char) :=
  ts.findSome? fun t =>
    match t with
    | .bad cs => some cs
    | _ => none

/-- What may follow `name:` on its line: an instruction or a data directive, or nothing (R120). -/
def Body.followsLabel : Body → Bool
  | .empty => true
  | .item _ => true
  | _ => false

/-- A line that defines the label `n` and has a body. -/
def labelledLine (number : Nat) (n : Name) (b : Body) : Except AsmError Line :=
  if b.followsLabel then .ok ⟨number, some n, b⟩ else .error .syntaxError

/-- A line: `name:` and what may follow it, `name EQU expr`, `name DB ...`, or a body (R120 to R122). DESIGN CHOICE (log 33): the
spec does not reserve the names of registers, mnemonics and directives, and `AX: HLT` or `ADD EQU 5` defines its name. -/
def parseLine (number : Nat) (ts : List Token) : Except AsmError Line :=
  match badToken ts with
  | some cs => .error (.badToken cs)
  | none =>
    match ts with
    | .word n :: .colon :: rest => (parseBody rest).bind (labelledLine number n)
    | .word n :: .word d :: rest =>
      if upper d = kwEqu then (parseExpr rest).map fun e => ⟨number, none, .equ n e⟩
      else if (dataWidth d).isSome && (mnemonics.lookup (upper n)).isNone then
        (parseBody (.word d :: rest)).map fun b => ⟨number, some n, b⟩
      else (parseBody ts).map fun b => ⟨number, none, b⟩
    | _ => (parseBody ts).map fun b => ⟨number, none, b⟩

/-! ## Symbols (R121, R125) -/

/-- The symbol table: constants by expression, labels by declared width. -/
structure Symbols where
  constants : List (Name × Expr)
  labels : List (Name × Option Width)
deriving DecidableEq, Repr

/-- The width a label's line declares: that of its data, and none otherwise (R122). -/
def declaredWidth (b : Body) : Option Width :=
  match b with
  | .item (.data w _) => some w
  | _ => none

/-- The names that the lines define. -/
def symbolsOf (ls : List Line) : Symbols :=
  { constants :=
      ls.filterMap fun l =>
        match l.body with
        | .equ n e => some (n, e)
        | _ => none
    labels := ls.filterMap fun l => l.label.map fun n => (n, declaredWidth l.body) }

/-- The names a line defines. -/
def defines (l : Line) : List Name :=
  l.label.toList ++
  match l.body with
  | .equ n _ => [n]
  | _ => []

/-- The errors of names defined twice (R121), each at its later line. -/
def duplicates : List Name → List Line → List (Nat × AsmError)
  | _, [] => []
  | seen, l :: ls =>
    ((defines l).filter fun n => seen.contains n).map (fun n => (l.number, .duplicate n)) ++
    duplicates (defines l ++ seen) ls

/-- The value of an expression, from the values of its names. -/
def Expr.eval (value address : Name → Except AsmError Int) : Expr → Except AsmError Int
  | .num n => .ok n
  | .name n => value n
  | .offset n => address n
  | .add a b =>
    match a.eval value address, b.eval value address with
    | .ok x, .ok y => .ok (x + y)
    | .error e, _ => .error e
    | _, .error e => .error e
  | .sub a b =>
    match a.eval value address, b.eval value address with
    | .ok x, .ok y => .ok (x - y)
    | .error e, _ => .error e
    | _, .error e => .error e

/-- The value of a name where R123 has a number: a constant's expression, followed at most `fuel` constants deep. -/
def constantValue (s : Symbols) (address : Name → Except AsmError Int) : Nat → Name → Except AsmError Int
  | 0, _ => .error .circularConstant
  | fuel + 1, n =>
    match s.constants.lookup n with
    | some e => e.eval (constantValue s address fuel) address
    | none => .error (if (s.labels.lookup n).isSome then .labelAsNumber n else .undefined n)

/-- The value of a constant of a symbol table. -/
def numberOf (s : Symbols) (address : Name → Except AsmError Int) (n : Name) : Except AsmError Int :=
  constantValue s address (s.constants.length + 1) n

/-- The value of a numeric expression: numbers, constants, `OFFSET label` (R123). -/
def value (s : Symbols) (address : Name → Except AsmError Int) (e : Expr) : Except AsmError Int :=
  e.eval (numberOf s address) address

/-- The value of a direct reference `label + k` (R124, R126), in which a label stands for its address. -/
def referenceValue (s : Symbols) (address : Name → Except AsmError Int) (e : Expr) : Except AsmError Int :=
  e.eval (fun n => if (s.labels.lookup n).isSome then address n else numberOf s address n) address

/-- No label has an address yet: for ORG (log 33). -/
def noAddress (n : Name) : Except AsmError Int := .error (.undefined n)

/-- A value that fits a field of so many bits: -2^(N-1) to 2^N - 1 (R123). -/
def field (bits : Nat) (v : Int) : Except AsmError Word :=
  if -(2 ^ (bits - 1) : Int) ≤ v ∧ v < 2 ^ bits then .ok (BitVec.ofInt 16 (v % 2 ^ bits)) else .error (.outOfRange v)

/-- An address that a label or an ORG gives: 0000h to FFFFh (R126; for ORG log 33). -/
def addressField (v : Int) : Except AsmError Word :=
  if 0 ≤ v ∧ v < 65536 then .ok (BitVec.ofInt 16 v) else .error (.outOfRange v)

/-! ## Operand forms (R124, R125, R127) -/

/-- An operand with its kind decided. -/
inductive Kind where
  | reg (w : Width) (k : RegNum)
  /-- A memory operand: the width its label declares, the width its prefix names, and its address; `[BX]` has none. -/
  | mem (declared ptr : Option Width) (e : Option Expr)
  | imm (e : Expr)
deriving DecidableEq, Repr

/-- The labels that an expression names outside `OFFSET`: with `true` where they are added. -/
def Expr.labelsIn (s : Symbols) (sign : Bool) : Expr → List (Name × Bool)
  | .num _ => []
  | .name n => if (s.labels.lookup n).isSome then [(n, sign)] else []
  | .offset _ => []
  | .add a b => a.labelsIn s sign ++ b.labelsIn s sign
  | .sub a b => a.labelsIn s sign ++ b.labelsIn s (!sign)

/-- The expression has `OFFSET` in it. -/
def Expr.hasOffset : Expr → Bool
  | .num _ => false
  | .name _ => false
  | .offset _ => true
  | .add a b => a.hasOffset || b.hasOffset
  | .sub a b => a.hasOffset || b.hasOffset

/-- The expression is a number or a constant, or made of them by `+` and `-`: what R124 has in `[n]` and `[n + k]`, and R127 as a
vector, a port and a numeric target. -/
def Expr.isPlain (s : Symbols) (e : Expr) : Bool := e.labelsIn s true == [] && !e.hasOffset

/-- The label of a direct reference `label + k` or `label - k`: the expression's one label, added and not subtracted, with a
constant beside it (R124). -/
def Expr.reference (s : Symbols) (e : Expr) : Option Name :=
  match e.labelsIn s true with
  | [(l, true)] => if e.hasOffset then none else some l
  | _ => none

/-- The kind of an operand (R124). The address in brackets is numeric, so that `[OFFSET label]` is no operand (log 33). -/
def kindOf (s : Symbols) (o : Written) : Except AsmError Kind :=
  match o with
  | .reg w k => .ok (.reg w k)
  | .indirect ptr => .ok (.mem none ptr none)
  | .address ptr e => if e.isPlain s then .ok (.mem none ptr (some e)) else .error .operandMismatch
  | .value ptr e =>
    match e.reference s, ptr with
    | some l, _ => .ok (.mem ((s.labels.lookup l).getD none) ptr (some e))
    | none, none => if e.labelsIn s true = [] then .ok (.imm e) else .error .operandMismatch
    | none, some _ => .error .operandMismatch

/-- An instruction with its opcode chosen and its fields still expressions. -/
structure Chosen where
  opcode : Opcode
  a : RegNum := 0
  b : RegNum := 0
  addr : Option Expr := none
  imm : Option Expr := none
deriving DecidableEq, Repr

/-- The direct or the indirect one of two. -/
def direct {α : Type} (e : Option Expr) (dir ind : α) : α := if e.isSome then dir else ind

/-- A memory operand may stand beside a register of width `w`. Its label declares that width or none (R125). DESIGN CHOICE (log 33):
its prefix too names that width or is absent, for R125, in which the register fixes the width, says nothing of a prefix there. -/
def agrees (w : Width) (declared ptr : Option Width) : Bool :=
  (declared == none || declared == some w) && (ptr == none || ptr == some w)

/-- The width of a memory operand with no register beside it: its prefix's, or the one its label declares (R125). DESIGN CHOICE
(log 33): of two that differ, the prefix's. -/
def ownWidth (declared ptr : Option Width) : Except AsmError Width :=
  match ptr, declared with
  | some w, _ => .ok w
  | none, some w => .ok w
  | none, none => .error .widthNotFixed

/-- The form of a two-operand instruction (R105, R124, R125). A register fixes the width, and one that does not agree with the memory
operand beside it is an error, also where only a prefix disagrees (DESIGN CHOICE, log 33). -/
def chooseBin (o : BinOp) (d s : Kind) : Except AsmError Chosen :=
  match d, s with
  | .reg w a, .reg w' b => if w = w' then .ok { opcode := .bin o .regReg w, a := a, b := b } else .error .operandMismatch
  | .reg w k, .mem declared ptr e =>
    if agrees w declared ptr then .ok { opcode := .bin o (direct e .regDir .regInd) w, b := k, addr := e } else .error .operandMismatch
  | .reg w k, .imm i => .ok { opcode := .bin o .regImm w, b := k, imm := some i }
  | .mem declared ptr e, .reg w k =>
    if agrees w declared ptr then .ok { opcode := .bin o (direct e .dirReg .indReg) w, b := k, addr := e } else .error .operandMismatch
  | .mem declared ptr e, .imm i =>
    match ownWidth declared ptr with
    | .ok w => .ok { opcode := .bin o (direct e .dirImm .indImm) w, addr := e, imm := some i }
    | .error err => .error err
  | _, _ => .error .operandMismatch

/-- The form of a one-operand instruction (R107). DESIGN CHOICE (log 33): R125 fixes the width of a memory operand only beside a
register or an immediate; here the one memory operand of NEG, INC, DEC or NOT takes it as a destination with an immediate does, from
the label's declaration or the prefix, and one with neither is an error. -/
def chooseUn (u : UnOp) (m : Kind) : Except AsmError Chosen :=
  match m with
  | .reg w k => .ok { opcode := .un u .reg w, b := k }
  | .mem declared ptr e =>
    match ownWidth declared ptr with
    | .ok w => .ok { opcode := .un u (direct e .dir .ind) w, addr := e }
    | .error err => .error err
  | .imm _ => .error .operandMismatch

/-- A 16-bit register by number. -/
def reg16Of (k : RegNum) : Reg16 :=
  match k.toNat with
  | 0 => .ax
  | 1 => .bx
  | 2 => .cx
  | _ => .dx

/-- A vector or a port: an 8-bit number or constant (R127). -/
def chooseByte (s : Symbols) (oc : Opcode) (e : Expr) : Except AsmError Chosen :=
  if e.isPlain s then .ok { opcode := oc, imm := some e } else .error .operandMismatch

/-- A jump target: a label or a 16-bit number (R127). With a label, the expression is that label alone (log 33). -/
def chooseTarget (s : Symbols) (oc : Opcode) (e : Expr) : Except AsmError Chosen :=
  match e with
  | .name _ => .ok { opcode := oc, imm := some e }
  | _ => if e.isPlain s then .ok { opcode := oc, imm := some e } else .error .operandMismatch

/-- The opcode of an instruction, from its mnemonic and its operands (R127). -/
def choose (s : Symbols) (m : Mnemonic) (os : List Written) : Except AsmError Chosen :=
  match m, os with
  | .plain oc, [] => .ok { opcode := oc }
  | .jump oc, [.value none e] => chooseTarget s oc e
  | .bin o, [d, x] =>
    match kindOf s d, kindOf s x with
    | .ok d', .ok x' => chooseBin o d' x'
    | .error e, _ => .error e
    | _, .error e => .error e
  | .un u, [d] =>
    match kindOf s d with
    | .ok d' => chooseUn u d'
    | .error e => .error e
  | .push, [.reg .w16 k] => .ok { opcode := .push (reg16Of k) }
  | .pop, [.reg .w16 k] => .ok { opcode := .pop (reg16Of k) }
  | .int, [.value none e] => chooseByte s .int e
  | .inp, [.reg w 0, .value none e] => chooseByte s (.inp false w) e
  | .inp, [.reg w 0, .reg .w16 3] => .ok { opcode := .inp true w }
  | .out, [.value none e, .reg w 0] => chooseByte s (.out false w) e
  | .out, [.reg .w16 3, .reg w 0] => .ok { opcode := .out true w }
  | _, _ => .error .operandMismatch

/-! ## Addresses and bytes (R126) -/

/-- How many bits the immediate, the vector or the port of an opcode has. -/
def immBits (oc : Opcode) : Nat :=
  match oc with
  | .bin _ _ .w16 => 16
  | _ => 8

/-- The 16 bits of a direct address or a target: a label's address and what is added to it must stay an address (R126), and a
number is a 16-bit field (R123). -/
def addressValue (s : Symbols) (address : Name → Except AsmError Int) (e : Expr) : Except AsmError Word :=
  match e.reference s with
  | some _ => (referenceValue s address e).bind addressField
  | none => (value s address e).bind (field 16)

/-- The bits of an immediate, a vector, a port or a target. -/
def immValue (s : Symbols) (address : Name → Except AsmError Int) (oc : Opcode) (e : Expr) : Except AsmError Word :=
  match oc with
  | .jmp => addressValue s address e
  | .jcc _ => addressValue s address e
  | .call => addressValue s address e
  | _ => (value s address e).bind (field (immBits oc))

/-- The bytes of a value of a data directive: a word's low byte first. -/
def datumBytes (s : Symbols) (address : Name → Except AsmError Int) (w : Width) (d : Datum) : Except AsmError (List Byte) :=
  match d, w with
  | .unset, .w8 => .ok [0x00]
  | .unset, .w16 => .ok [0x00, 0x00]
  | .text cs, _ => each (fun c => (field 8 c.toNat).map low) cs
  | .expr e, .w8 => ((value s address e).bind (field 8)).map fun v => [low v]
  | .expr e, .w16 => ((value s address e).bind (field 16)).map fun v => [low v, high v]

/-- A field that an opcode may lack. -/
def optional (e : Option Expr) (f : Expr → Except AsmError Word) : Except AsmError Word :=
  match e with
  | some e => f e
  | none => .ok 0

/-- The bytes of an item, with every address known: the second pass. -/
def itemBytes (s : Symbols) (address : Name → Except AsmError Int) (i : Item) : Except AsmError (List Byte) :=
  match i with
  | .data w vs => (each (datumBytes s address w) vs).map List.flatten
  | .instruction m os =>
    match choose s m os with
    | .error e => .error e
    | .ok c =>
      match optional c.addr (addressValue s address), optional c.imm (immValue s address c.opcode) with
      | .ok a, .ok v => .ok (encode (Instr.ofParts c.opcode { a := c.a, b := c.b, addr := a, imm := v }))
      | .error e, _ => .error e
      | _, .error e => .error e

/-- How many bytes an item takes, from its opcode alone (R113); an item in error takes none. -/
def itemSize (s : Symbols) (i : Item) : Nat :=
  match i with
  | .instruction m os =>
    match choose s m os with
    | .ok c => opcodeLength c.opcode
    | .error _ => 0
  | .data w vs =>
    (vs.map fun d =>
      match d with
      | .text cs => cs.length
      | _ => if w = .w8 then 1 else 2).sum

/-- A line with its address. -/
structure Placed where
  line : Line
  addr : Nat
deriving DecidableEq, Repr

/-- The first pass: each line's address, and the errors of its ORGs. An item follows the one before it (R122). -/
def place (s : Symbols) : Nat → List Line → List Placed × List (Nat × AsmError)
  | _, [] => ([], [])
  | a, l :: ls =>
    match l.body with
    | .org e =>
      match (value s noAddress e).bind addressField with
      | .ok v => let r := place s v.toNat ls; (⟨l, v.toNat⟩ :: r.1, r.2)
      | .error err => let r := place s a ls; (⟨l, a⟩ :: r.1, (l.number, err) :: r.2)
    | .item i => let r := place s (a + itemSize s i) ls; (⟨l, a⟩ :: r.1, r.2)
    | _ => let r := place s a ls; (⟨l, a⟩ :: r.1, r.2)

/-- The address of the first item from here on; of no item, where the next would stand. -/
def nextItem (a : Nat) : List Placed → Nat
  | [] => a
  | p :: ps =>
    match p.line.body with
    | .item _ => p.addr
    | _ => nextItem p.addr ps

/-- Label to address: that of the item that follows the label (R121). -/
def labelAddresses : List Placed → List (Name × Nat)
  | [] => []
  | p :: ps => (p.line.label.toList.map fun n => (n, nextItem p.addr (p :: ps))) ++ labelAddresses ps

/-- The cells of a list of bytes. -/
def cellsAt (a : Nat) (bytes : List Byte) : List (Nat × Byte) := bytes.zipIdx.map fun p => (a + p.2, p.1)

/-- The cells of every item, and the errors met. -/
def emit (s : Symbols) (address : Name → Except AsmError Int) : List Placed → List (Nat × Byte) × List (Nat × AsmError)
  | [] => ([], [])
  | p :: ps =>
    let r := emit s address ps
    match p.line.body with
    | .item i =>
      match itemBytes s address i with
      | .ok bytes =>
        if p.addr + bytes.length ≤ 65536 then (cellsAt p.addr bytes ++ r.1, r.2)
        else (r.1, (p.line.number, .outOfRange (p.addr + bytes.length)) :: r.2)
      | .error e => (r.1, (p.line.number, e) :: r.2)
    | .equ _ e =>
      match value s address e with
      | .ok _ => r
      | .error err => (r.1, (p.line.number, err) :: r.2)
    | _ => r

/-- The addresses given to two items. -/
def overlaps : List Nat → List (Nat × AsmError)
  | [] => []
  | a :: as => if as.contains a then (0, .overlap a) :: overlaps as else overlaps as

/-- What `assemble` returns (R126, R129): the image is there only when there is no error, and each error has the number of its
line, from 1; 0 stands for the whole program. -/
structure Assembly where
  success : Bool
  image : List (Nat × Byte)
  /-- Each label's address and each constant's value (R121, R126). -/
  symbols : List (Name × Int)
  /-- (address, source line) of each item. -/
  lines : List (Nat × Nat)
  errors : List (Nat × AsmError)
deriving DecidableEq, Repr

/-- Label to address and constant to value; a constant in error has none (R121, R126). -/
def symbolTable (s : Symbols) (address : Name → Except AsmError Int) (labels : List (Name × Nat)) : List (Name × Int) :=
  (labels.map fun l => (l.1, (l.2 : Int))) ++
  s.constants.filterMap fun c =>
    match value s address c.2 with
    | .ok v => some (c.1, v)
    | .error _ => none

/-- The lines of the source up to `END` (R122), and the errors of those that are none. DESIGN CHOICE (log 33): a source text
without an `END` line ends with its last line, and that is no error. -/
def parse : Nat → List (List Token) → List Line × List (Nat × AsmError)
  | _, [] => ([], [])
  | n, ts :: rest =>
    match parseLine n ts with
    | .ok l => if l.body = .stop then ([], []) else let r := parse (n + 1) rest; (l :: r.1, r.2)
    | .error e => let r := parse (n + 1) rest; (r.1, (n, e) :: r.2)

/-- The address of the first item with no ORG: 2000h (R122). -/
def origin : Nat := 0x2000

/-- `assemble(sourceText)` (R126, 70_reset_and_hazards.md R455). -/
def assemble (source : List Char) : Assembly :=
  let parsed := parse 1 (splitAt .eol (lex source))
  let ls := parsed.1
  let s := symbolsOf ls
  let placed := place s origin ls
  let table := labelAddresses placed.1
  let address := fun n =>
    match table.lookup n with
    | some a => .ok (a : Int)
    | none => .error (.undefined n)
  let out := emit s address placed.1
  let errors := parsed.2 ++ duplicates [] ls ++ placed.2 ++ out.2 ++ overlaps (out.1.map Prod.fst)
  { success := errors.isEmpty
    image := if errors.isEmpty then out.1 else []
    symbols := symbolTable s address table
    lines :=
      placed.1.filterMap fun p =>
        match p.line.body with
        | .item _ => some (p.addr, p.line.number)
        | _ => none
    errors := errors }

end Sys2Proof.Asm
end

