-- ==== Sys2Proof/Tests/Slice0.lean ====
section
/-! SUPPORT. Checks of the model against the spec: which terms WellFormed refuses, the encodings of 30_encoding.md written out
byte by byte, one-step examples of 95_test_vectors.md and of the instruction rules, and, for each statement that has
hypotheses, a state that meets them. -/

namespace Sys2Proof.Tests

open Sys2Proof.Machine Sys2Proof.Config Sys2Proof.Claims

set_option Elab.async false

/-! ## WellFormed: ill-formed terms are refused (30_encoding.md R105, R106, R112) -/

/-- With w = 1 register numbers 4 to 7 name nothing, in either field and in every form that has a register. -/
theorem test_wf_register :
    (Instr.movRegReg .w16 4 0).wf = false ∧ (Instr.movRegReg .w16 0 4).wf = false ∧ (Instr.addRegDir .w16 7 0).wf = false ∧
    (Instr.cmpRegInd .w16 5).wf = false ∧ (Instr.subRegImm .w16 6 0).wf = false ∧ (Instr.xorDirReg .w16 0 4).wf = false ∧
    (Instr.orIndReg .w16 4).wf = false ∧ (Instr.negReg .w16 4).wf = false ∧
    (Instr.movRegReg .w16 3 3).wf = true ∧ (Instr.movRegReg .w8 7 7).wf = true ∧ (Instr.notReg .w8 7).wf = true := by
  decide

/-- With w = 0 an immediate is 8 bits; so are a vector and a port. -/
theorem test_wf_immediate :
    (Instr.andRegImm .w8 0 0x100).wf = false ∧ (Instr.adcDirImm .w8 0 0x100).wf = false ∧
    (Instr.sbbIndImm .w8 0xFFFF).wf = false ∧
    (Instr.andRegImm .w8 0 0xFF).wf = true ∧ (Instr.andRegImm .w16 3 0xFFFF).wf = true ∧ (Instr.int 0xFF).wf = true ∧
    (Instr.inAxPort 0xFF).wf = true ∧ (Instr.outPortAl 0xFF).wf = true := by
  decide

/-! ## Decoding: bytes written out from the tables of 30_encoding.md -/

/-- R102 to R105: MOV, every form at both widths. -/
theorem test_decode_mov :
    decode [0x10, 0x2A] = .ok (.movRegReg .w8 5 2, []) ∧
    decode [0x11, 0x19] = .ok (.movRegReg .w16 3 1, []) ∧
    decode [0x12, 0x06, 0x34, 0x12] = .ok (.movRegDir .w8 6 0x1234, []) ∧
    decode [0x13, 0x02, 0x34, 0x12] = .ok (.movRegDir .w16 2 0x1234, []) ∧
    decode [0x14, 0x07] = .ok (.movRegInd .w8 7, []) ∧
    decode [0x15, 0x03] = .ok (.movRegInd .w16 3, []) ∧
    decode [0x16, 0x04, 0xFE] = .ok (.movRegImm .w8 4 0xFE, []) ∧
    decode [0x17, 0x01, 0xCD, 0xAB] = .ok (.movRegImm .w16 1 0xABCD, []) ∧
    decode [0x18, 0x05, 0x34, 0x12] = .ok (.movDirReg .w8 0x1234 5, []) ∧
    decode [0x19, 0x00, 0xFE, 0xFF] = .ok (.movDirReg .w16 0xFFFE 0, []) ∧
    decode [0x1A, 0x03] = .ok (.movIndReg .w8 3, []) ∧
    decode [0x1B, 0x02] = .ok (.movIndReg .w16 2, []) ∧
    decode [0x1C, 0x34, 0x12, 0x80] = .ok (.movDirImm .w8 0x1234 0x80, []) ∧
    decode [0x1D, 0x34, 0x12, 0xCD, 0xAB] = .ok (.movDirImm .w16 0x1234 0xABCD, []) ∧
    decode [0x1E, 0x7F] = .ok (.movIndImm .w8 0x7F, []) ∧
    decode [0x1F, 0xCD, 0xAB] = .ok (.movIndImm .w16 0xABCD, []) :=
  ⟨rfl, rfl, rfl, rfl, rfl, rfl, rfl, rfl, rfl, rfl, rfl, rfl, rfl, rfl, rfl, rfl⟩

/-- R102 to R105: ADD, every form at both widths. -/
theorem test_decode_add :
    decode [0x20, 0x2A] = .ok (.addRegReg .w8 5 2, []) ∧
    decode [0x21, 0x19] = .ok (.addRegReg .w16 3 1, []) ∧
    decode [0x22, 0x06, 0x34, 0x12] = .ok (.addRegDir .w8 6 0x1234, []) ∧
    decode [0x23, 0x02, 0x34, 0x12] = .ok (.addRegDir .w16 2 0x1234, []) ∧
    decode [0x24, 0x07] = .ok (.addRegInd .w8 7, []) ∧
    decode [0x25, 0x03] = .ok (.addRegInd .w16 3, []) ∧
    decode [0x26, 0x04, 0xFE] = .ok (.addRegImm .w8 4 0xFE, []) ∧
    decode [0x27, 0x01, 0xCD, 0xAB] = .ok (.addRegImm .w16 1 0xABCD, []) ∧
    decode [0x28, 0x05, 0x34, 0x12] = .ok (.addDirReg .w8 0x1234 5, []) ∧
    decode [0x29, 0x00, 0xFE, 0xFF] = .ok (.addDirReg .w16 0xFFFE 0, []) ∧
    decode [0x2A, 0x03] = .ok (.addIndReg .w8 3, []) ∧
    decode [0x2B, 0x02] = .ok (.addIndReg .w16 2, []) ∧
    decode [0x2C, 0x34, 0x12, 0x80] = .ok (.addDirImm .w8 0x1234 0x80, []) ∧
    decode [0x2D, 0x34, 0x12, 0xCD, 0xAB] = .ok (.addDirImm .w16 0x1234 0xABCD, []) ∧
    decode [0x2E, 0x7F] = .ok (.addIndImm .w8 0x7F, []) ∧
    decode [0x2F, 0xCD, 0xAB] = .ok (.addIndImm .w16 0xABCD, []) :=
  ⟨rfl, rfl, rfl, rfl, rfl, rfl, rfl, rfl, rfl, rfl, rfl, rfl, rfl, rfl, rfl, rfl⟩

/-- R102 to R105: ADC, every form at both widths. -/
theorem test_decode_adc :
    decode [0x30, 0x2A] = .ok (.adcRegReg .w8 5 2, []) ∧
    decode [0x31, 0x19] = .ok (.adcRegReg .w16 3 1, []) ∧
    decode [0x32, 0x06, 0x34, 0x12] = .ok (.adcRegDir .w8 6 0x1234, []) ∧
    decode [0x33, 0x02, 0x34, 0x12] = .ok (.adcRegDir .w16 2 0x1234, []) ∧
    decode [0x34, 0x07] = .ok (.adcRegInd .w8 7, []) ∧
    decode [0x35, 0x03] = .ok (.adcRegInd .w16 3, []) ∧
    decode [0x36, 0x04, 0xFE] = .ok (.adcRegImm .w8 4 0xFE, []) ∧
    decode [0x37, 0x01, 0xCD, 0xAB] = .ok (.adcRegImm .w16 1 0xABCD, []) ∧
    decode [0x38, 0x05, 0x34, 0x12] = .ok (.adcDirReg .w8 0x1234 5, []) ∧
    decode [0x39, 0x00, 0xFE, 0xFF] = .ok (.adcDirReg .w16 0xFFFE 0, []) ∧
    decode [0x3A, 0x03] = .ok (.adcIndReg .w8 3, []) ∧
    decode [0x3B, 0x02] = .ok (.adcIndReg .w16 2, []) ∧
    decode [0x3C, 0x34, 0x12, 0x80] = .ok (.adcDirImm .w8 0x1234 0x80, []) ∧
    decode [0x3D, 0x34, 0x12, 0xCD, 0xAB] = .ok (.adcDirImm .w16 0x1234 0xABCD, []) ∧
    decode [0x3E, 0x7F] = .ok (.adcIndImm .w8 0x7F, []) ∧
    decode [0x3F, 0xCD, 0xAB] = .ok (.adcIndImm .w16 0xABCD, []) :=
  ⟨rfl, rfl, rfl, rfl, rfl, rfl, rfl, rfl, rfl, rfl, rfl, rfl, rfl, rfl, rfl, rfl⟩

/-- R102 to R105: SUB, every form at both widths. -/
theorem test_decode_sub :
    decode [0x40, 0x2A] = .ok (.subRegReg .w8 5 2, []) ∧
    decode [0x41, 0x19] = .ok (.subRegReg .w16 3 1, []) ∧
    decode [0x42, 0x06, 0x34, 0x12] = .ok (.subRegDir .w8 6 0x1234, []) ∧
    decode [0x43, 0x02, 0x34, 0x12] = .ok (.subRegDir .w16 2 0x1234, []) ∧
    decode [0x44, 0x07] = .ok (.subRegInd .w8 7, []) ∧
    decode [0x45, 0x03] = .ok (.subRegInd .w16 3, []) ∧
    decode [0x46, 0x04, 0xFE] = .ok (.subRegImm .w8 4 0xFE, []) ∧
    decode [0x47, 0x01, 0xCD, 0xAB] = .ok (.subRegImm .w16 1 0xABCD, []) ∧
    decode [0x48, 0x05, 0x34, 0x12] = .ok (.subDirReg .w8 0x1234 5, []) ∧
    decode [0x49, 0x00, 0xFE, 0xFF] = .ok (.subDirReg .w16 0xFFFE 0, []) ∧
    decode [0x4A, 0x03] = .ok (.subIndReg .w8 3, []) ∧
    decode [0x4B, 0x02] = .ok (.subIndReg .w16 2, []) ∧
    decode [0x4C, 0x34, 0x12, 0x80] = .ok (.subDirImm .w8 0x1234 0x80, []) ∧
    decode [0x4D, 0x34, 0x12, 0xCD, 0xAB] = .ok (.subDirImm .w16 0x1234 0xABCD, []) ∧
    decode [0x4E, 0x7F] = .ok (.subIndImm .w8 0x7F, []) ∧
    decode [0x4F, 0xCD, 0xAB] = .ok (.subIndImm .w16 0xABCD, []) :=
  ⟨rfl, rfl, rfl, rfl, rfl, rfl, rfl, rfl, rfl, rfl, rfl, rfl, rfl, rfl, rfl, rfl⟩

/-- R102 to R105: SBB, every form at both widths. -/
theorem test_decode_sbb :
    decode [0x50, 0x2A] = .ok (.sbbRegReg .w8 5 2, []) ∧
    decode [0x51, 0x19] = .ok (.sbbRegReg .w16 3 1, []) ∧
    decode [0x52, 0x06, 0x34, 0x12] = .ok (.sbbRegDir .w8 6 0x1234, []) ∧
    decode [0x53, 0x02, 0x34, 0x12] = .ok (.sbbRegDir .w16 2 0x1234, []) ∧
    decode [0x54, 0x07] = .ok (.sbbRegInd .w8 7, []) ∧
    decode [0x55, 0x03] = .ok (.sbbRegInd .w16 3, []) ∧
    decode [0x56, 0x04, 0xFE] = .ok (.sbbRegImm .w8 4 0xFE, []) ∧
    decode [0x57, 0x01, 0xCD, 0xAB] = .ok (.sbbRegImm .w16 1 0xABCD, []) ∧
    decode [0x58, 0x05, 0x34, 0x12] = .ok (.sbbDirReg .w8 0x1234 5, []) ∧
    decode [0x59, 0x00, 0xFE, 0xFF] = .ok (.sbbDirReg .w16 0xFFFE 0, []) ∧
    decode [0x5A, 0x03] = .ok (.sbbIndReg .w8 3, []) ∧
    decode [0x5B, 0x02] = .ok (.sbbIndReg .w16 2, []) ∧
    decode [0x5C, 0x34, 0x12, 0x80] = .ok (.sbbDirImm .w8 0x1234 0x80, []) ∧
    decode [0x5D, 0x34, 0x12, 0xCD, 0xAB] = .ok (.sbbDirImm .w16 0x1234 0xABCD, []) ∧
    decode [0x5E, 0x7F] = .ok (.sbbIndImm .w8 0x7F, []) ∧
    decode [0x5F, 0xCD, 0xAB] = .ok (.sbbIndImm .w16 0xABCD, []) :=
  ⟨rfl, rfl, rfl, rfl, rfl, rfl, rfl, rfl, rfl, rfl, rfl, rfl, rfl, rfl, rfl, rfl⟩

/-- R102 to R105: CMP, every form at both widths. -/
theorem test_decode_cmp :
    decode [0x60, 0x2A] = .ok (.cmpRegReg .w8 5 2, []) ∧
    decode [0x61, 0x19] = .ok (.cmpRegReg .w16 3 1, []) ∧
    decode [0x62, 0x06, 0x34, 0x12] = .ok (.cmpRegDir .w8 6 0x1234, []) ∧
    decode [0x63, 0x02, 0x34, 0x12] = .ok (.cmpRegDir .w16 2 0x1234, []) ∧
    decode [0x64, 0x07] = .ok (.cmpRegInd .w8 7, []) ∧
    decode [0x65, 0x03] = .ok (.cmpRegInd .w16 3, []) ∧
    decode [0x66, 0x04, 0xFE] = .ok (.cmpRegImm .w8 4 0xFE, []) ∧
    decode [0x67, 0x01, 0xCD, 0xAB] = .ok (.cmpRegImm .w16 1 0xABCD, []) ∧
    decode [0x68, 0x05, 0x34, 0x12] = .ok (.cmpDirReg .w8 0x1234 5, []) ∧
    decode [0x69, 0x00, 0xFE, 0xFF] = .ok (.cmpDirReg .w16 0xFFFE 0, []) ∧
    decode [0x6A, 0x03] = .ok (.cmpIndReg .w8 3, []) ∧
    decode [0x6B, 0x02] = .ok (.cmpIndReg .w16 2, []) ∧
    decode [0x6C, 0x34, 0x12, 0x80] = .ok (.cmpDirImm .w8 0x1234 0x80, []) ∧
    decode [0x6D, 0x34, 0x12, 0xCD, 0xAB] = .ok (.cmpDirImm .w16 0x1234 0xABCD, []) ∧
    decode [0x6E, 0x7F] = .ok (.cmpIndImm .w8 0x7F, []) ∧
    decode [0x6F, 0xCD, 0xAB] = .ok (.cmpIndImm .w16 0xABCD, []) :=
  ⟨rfl, rfl, rfl, rfl, rfl, rfl, rfl, rfl, rfl, rfl, rfl, rfl, rfl, rfl, rfl, rfl⟩

/-- R102 to R105: AND, every form at both widths. -/
theorem test_decode_and :
    decode [0x70, 0x2A] = .ok (.andRegReg .w8 5 2, []) ∧
    decode [0x71, 0x19] = .ok (.andRegReg .w16 3 1, []) ∧
    decode [0x72, 0x06, 0x34, 0x12] = .ok (.andRegDir .w8 6 0x1234, []) ∧
    decode [0x73, 0x02, 0x34, 0x12] = .ok (.andRegDir .w16 2 0x1234, []) ∧
    decode [0x74, 0x07] = .ok (.andRegInd .w8 7, []) ∧
    decode [0x75, 0x03] = .ok (.andRegInd .w16 3, []) ∧
    decode [0x76, 0x04, 0xFE] = .ok (.andRegImm .w8 4 0xFE, []) ∧
    decode [0x77, 0x01, 0xCD, 0xAB] = .ok (.andRegImm .w16 1 0xABCD, []) ∧
    decode [0x78, 0x05, 0x34, 0x12] = .ok (.andDirReg .w8 0x1234 5, []) ∧
    decode [0x79, 0x00, 0xFE, 0xFF] = .ok (.andDirReg .w16 0xFFFE 0, []) ∧
    decode [0x7A, 0x03] = .ok (.andIndReg .w8 3, []) ∧
    decode [0x7B, 0x02] = .ok (.andIndReg .w16 2, []) ∧
    decode [0x7C, 0x34, 0x12, 0x80] = .ok (.andDirImm .w8 0x1234 0x80, []) ∧
    decode [0x7D, 0x34, 0x12, 0xCD, 0xAB] = .ok (.andDirImm .w16 0x1234 0xABCD, []) ∧
    decode [0x7E, 0x7F] = .ok (.andIndImm .w8 0x7F, []) ∧
    decode [0x7F, 0xCD, 0xAB] = .ok (.andIndImm .w16 0xABCD, []) :=
  ⟨rfl, rfl, rfl, rfl, rfl, rfl, rfl, rfl, rfl, rfl, rfl, rfl, rfl, rfl, rfl, rfl⟩

/-- R102 to R105: OR, every form at both widths. -/
theorem test_decode_or :
    decode [0x80, 0x2A] = .ok (.orRegReg .w8 5 2, []) ∧
    decode [0x81, 0x19] = .ok (.orRegReg .w16 3 1, []) ∧
    decode [0x82, 0x06, 0x34, 0x12] = .ok (.orRegDir .w8 6 0x1234, []) ∧
    decode [0x83, 0x02, 0x34, 0x12] = .ok (.orRegDir .w16 2 0x1234, []) ∧
    decode [0x84, 0x07] = .ok (.orRegInd .w8 7, []) ∧
    decode [0x85, 0x03] = .ok (.orRegInd .w16 3, []) ∧
    decode [0x86, 0x04, 0xFE] = .ok (.orRegImm .w8 4 0xFE, []) ∧
    decode [0x87, 0x01, 0xCD, 0xAB] = .ok (.orRegImm .w16 1 0xABCD, []) ∧
    decode [0x88, 0x05, 0x34, 0x12] = .ok (.orDirReg .w8 0x1234 5, []) ∧
    decode [0x89, 0x00, 0xFE, 0xFF] = .ok (.orDirReg .w16 0xFFFE 0, []) ∧
    decode [0x8A, 0x03] = .ok (.orIndReg .w8 3, []) ∧
    decode [0x8B, 0x02] = .ok (.orIndReg .w16 2, []) ∧
    decode [0x8C, 0x34, 0x12, 0x80] = .ok (.orDirImm .w8 0x1234 0x80, []) ∧
    decode [0x8D, 0x34, 0x12, 0xCD, 0xAB] = .ok (.orDirImm .w16 0x1234 0xABCD, []) ∧
    decode [0x8E, 0x7F] = .ok (.orIndImm .w8 0x7F, []) ∧
    decode [0x8F, 0xCD, 0xAB] = .ok (.orIndImm .w16 0xABCD, []) :=
  ⟨rfl, rfl, rfl, rfl, rfl, rfl, rfl, rfl, rfl, rfl, rfl, rfl, rfl, rfl, rfl, rfl⟩

/-- R102 to R105: XOR, every form at both widths. -/
theorem test_decode_xor :
    decode [0x90, 0x2A] = .ok (.xorRegReg .w8 5 2, []) ∧
    decode [0x91, 0x19] = .ok (.xorRegReg .w16 3 1, []) ∧
    decode [0x92, 0x06, 0x34, 0x12] = .ok (.xorRegDir .w8 6 0x1234, []) ∧
    decode [0x93, 0x02, 0x34, 0x12] = .ok (.xorRegDir .w16 2 0x1234, []) ∧
    decode [0x94, 0x07] = .ok (.xorRegInd .w8 7, []) ∧
    decode [0x95, 0x03] = .ok (.xorRegInd .w16 3, []) ∧
    decode [0x96, 0x04, 0xFE] = .ok (.xorRegImm .w8 4 0xFE, []) ∧
    decode [0x97, 0x01, 0xCD, 0xAB] = .ok (.xorRegImm .w16 1 0xABCD, []) ∧
    decode [0x98, 0x05, 0x34, 0x12] = .ok (.xorDirReg .w8 0x1234 5, []) ∧
    decode [0x99, 0x00, 0xFE, 0xFF] = .ok (.xorDirReg .w16 0xFFFE 0, []) ∧
    decode [0x9A, 0x03] = .ok (.xorIndReg .w8 3, []) ∧
    decode [0x9B, 0x02] = .ok (.xorIndReg .w16 2, []) ∧
    decode [0x9C, 0x34, 0x12, 0x80] = .ok (.xorDirImm .w8 0x1234 0x80, []) ∧
    decode [0x9D, 0x34, 0x12, 0xCD, 0xAB] = .ok (.xorDirImm .w16 0x1234 0xABCD, []) ∧
    decode [0x9E, 0x7F] = .ok (.xorIndImm .w8 0x7F, []) ∧
    decode [0x9F, 0xCD, 0xAB] = .ok (.xorIndImm .w16 0xABCD, []) :=
  ⟨rfl, rfl, rfl, rfl, rfl, rfl, rfl, rfl, rfl, rfl, rfl, rfl, rfl, rfl, rfl, rfl⟩

/-- R107: NEG, every form at both widths. -/
theorem test_decode_neg :
    decode [0xA0, 0x06] = .ok (.negReg .w8 6, []) ∧
    decode [0xA1, 0x03] = .ok (.negReg .w16 3, []) ∧
    decode [0xA2, 0x34, 0x12] = .ok (.negDir .w8 0x1234, []) ∧
    decode [0xA3, 0x34, 0x12] = .ok (.negDir .w16 0x1234, []) ∧
    decode [0xA4] = .ok (.negInd .w8, []) ∧
    decode [0xA5] = .ok (.negInd .w16, []) :=
  ⟨rfl, rfl, rfl, rfl, rfl, rfl⟩

/-- R107: INC, every form at both widths. -/
theorem test_decode_inc :
    decode [0xA8, 0x06] = .ok (.incReg .w8 6, []) ∧
    decode [0xA9, 0x03] = .ok (.incReg .w16 3, []) ∧
    decode [0xAA, 0x34, 0x12] = .ok (.incDir .w8 0x1234, []) ∧
    decode [0xAB, 0x34, 0x12] = .ok (.incDir .w16 0x1234, []) ∧
    decode [0xAC] = .ok (.incInd .w8, []) ∧
    decode [0xAD] = .ok (.incInd .w16, []) :=
  ⟨rfl, rfl, rfl, rfl, rfl, rfl⟩

/-- R107: DEC, every form at both widths. -/
theorem test_decode_dec :
    decode [0xB0, 0x06] = .ok (.decReg .w8 6, []) ∧
    decode [0xB1, 0x03] = .ok (.decReg .w16 3, []) ∧
    decode [0xB2, 0x34, 0x12] = .ok (.decDir .w8 0x1234, []) ∧
    decode [0xB3, 0x34, 0x12] = .ok (.decDir .w16 0x1234, []) ∧
    decode [0xB4] = .ok (.decInd .w8, []) ∧
    decode [0xB5] = .ok (.decInd .w16, []) :=
  ⟨rfl, rfl, rfl, rfl, rfl, rfl⟩

/-- R107: NOT, every form at both widths. -/
theorem test_decode_not :
    decode [0xB8, 0x06] = .ok (.notReg .w8 6, []) ∧
    decode [0xB9, 0x03] = .ok (.notReg .w16 3, []) ∧
    decode [0xBA, 0x34, 0x12] = .ok (.notDir .w8 0x1234, []) ∧
    decode [0xBB, 0x34, 0x12] = .ok (.notDir .w16 0x1234, []) ∧
    decode [0xBC] = .ok (.notInd .w8, []) ∧
    decode [0xBD] = .ok (.notInd .w16, []) :=
  ⟨rfl, rfl, rfl, rfl, rfl, rfl⟩

/-- R108. -/
theorem test_decode_stack :
    decode [0xC0] = .ok (.push .ax, []) ∧
    decode [0xC1] = .ok (.push .bx, []) ∧
    decode [0xC2] = .ok (.push .cx, []) ∧
    decode [0xC3] = .ok (.push .dx, []) ∧
    decode [0xC4] = .ok (.pop .ax, []) ∧
    decode [0xC5] = .ok (.pop .bx, []) ∧
    decode [0xC6] = .ok (.pop .cx, []) ∧
    decode [0xC7] = .ok (.pop .dx, []) ∧
    decode [0xC8] = .ok (.pushf, []) ∧
    decode [0xC9] = .ok (.popf, []) :=
  ⟨rfl, rfl, rfl, rfl, rfl, rfl, rfl, rfl, rfl, rfl⟩

/-- R109. -/
theorem test_decode_control :
    decode [0xD0, 0x34, 0x12] = .ok (.jmp 0x1234, []) ∧
    decode [0xD1, 0x34, 0x12] = .ok (.jz 0x1234, []) ∧
    decode [0xD2, 0x34, 0x12] = .ok (.jnz 0x1234, []) ∧
    decode [0xD3, 0x34, 0x12] = .ok (.jc 0x1234, []) ∧
    decode [0xD4, 0x34, 0x12] = .ok (.jnc 0x1234, []) ∧
    decode [0xD5, 0x34, 0x12] = .ok (.js 0x1234, []) ∧
    decode [0xD6, 0x34, 0x12] = .ok (.jns 0x1234, []) ∧
    decode [0xD7, 0x34, 0x12] = .ok (.jo 0x1234, []) ∧
    decode [0xD8, 0x34, 0x12] = .ok (.jno 0x1234, []) ∧
    decode [0xD9, 0x34, 0x12] = .ok (.call 0x1234, []) ∧
    decode [0xDA] = .ok (.ret, []) :=
  ⟨rfl, rfl, rfl, rfl, rfl, rfl, rfl, rfl, rfl, rfl, rfl⟩

/-- R110. -/
theorem test_decode_system :
    decode [0xE0, 0xA5] = .ok (.int 0xA5, []) ∧
    decode [0xE1] = .ok (.iret, []) ∧
    decode [0xE2] = .ok (.cli, []) ∧
    decode [0xE3] = .ok (.sti, []) ∧
    decode [0x00] = .ok (.nop, []) ∧
    decode [0xFF] = .ok (.hlt, []) :=
  ⟨rfl, rfl, rfl, rfl, rfl, rfl⟩

/-- R110. -/
theorem test_decode_io :
    decode [0xE4, 0x50] = .ok (.inAlPort 0x50, []) ∧
    decode [0xE5, 0x10] = .ok (.inAxPort 0x10, []) ∧
    decode [0xE6] = .ok (.inAlDx, []) ∧
    decode [0xE7] = .ok (.inAxDx, []) ∧
    decode [0xE8, 0x30] = .ok (.outPortAl 0x30, []) ∧
    decode [0xE9, 0x21] = .ok (.outPortAx 0x21, []) ∧
    decode [0xEA] = .ok (.outDxAl, []) ∧
    decode [0xEB] = .ok (.outDxAx, []) :=
  ⟨rfl, rfl, rfl, rfl, rfl, rfl, rfl, rfl⟩

/-- R112: an illegal byte 0; bits 7:6 of an RR byte; register number 4 with w = 1, in either field; bit 3 of an R byte; and bytes
that end inside an instruction. -/
theorem test_decode_refuses :
    decode [0x01] = .error (.illegalOpcode 0x01) ∧ decode [0xA6] = .error (.illegalOpcode 0xA6) ∧
    decode [0xCA] = .error (.illegalOpcode 0xCA) ∧ decode [0xFE] = .error (.illegalOpcode 0xFE) ∧
    decode [0x10, 0x40] = .error (.illegalRegisterByte 0x10 0x40) ∧
    decode [0x11, 0x04] = .error (.illegalRegisterByte 0x11 0x04) ∧
    decode [0x11, 0x20] = .error (.illegalRegisterByte 0x11 0x20) ∧
    decode [0x12, 0x08, 0x00, 0x10] = .error (.illegalRegisterByte 0x12 0x08) ∧
    decode [0xA9, 0x04] = .error (.illegalRegisterByte 0xA9 0x04) ∧
    decode [] = .error .truncated ∧ decode [0xD0, 0x00] = .error .truncated :=
  ⟨rfl, rfl, rfl, rfl, rfl, rfl, rfl, rfl, rfl, rfl, rfl⟩

/-- The encoder writes the same bytes. -/
theorem test_encode :
    encode (.movRegReg .w8 5 2) = [0x10, 0x2A] ∧ encode (.andDirImm .w16 0x1000 0x00FF) = [0x7D, 0x00, 0x10, 0xFF, 0x00] ∧
    encode (.incInd .w16) = [0xAD] ∧ encode (.call 0x3000) = [0xD9, 0x00, 0x30] ∧ encode (.inAlPort 0x50) = [0xE4, 0x50] :=
  ⟨rfl, rfl, rfl, rfl, rfl⟩

/-- The opcode table's numbering: the first byte is bits 7 to 0. -/
theorem test_decodeTableWord :
    decodeTableWord 40 0x00FF10007D = some (.andDirImm .w16 0x1000 0x00FF) ∧ decodeTableWord 8 0xD0 = some (.jmp 0) ∧
    decodeTableWord 8 0x01 = none :=
  ⟨rfl, rfl, rfl⟩

/-! ## One step: the examples of the rules and of 95_test_vectors.md -/

/-- Bytes put into memory from an address on. -/
def put (a : Nat) (bytes : List Byte) (s : State) : State := { s with mem := storeBytes s.params.memSize a bytes s.mem }

/-- The flags C, Z, S, O in the order of the vectors' tables, with IF = 1. -/
def fl (c z s o : Nat) : Flags := { C := c == 1, Z := z == 1, S := s == 1, O := o == 1, IF := true }

/-- The start state of the vectors' conventions with `bytes` at 2000h, changed by `f`. -/
def start (bytes : List Byte) (f : State → State) : State := put 0x2000 bytes (f State.reset)

/-- What one step from a start state leaves, seen through `g`. -/
def sees {α : Type} (bytes : List Byte) (f : State → State) (g : State → α) : Option α :=
  match step (start bytes f) with
  | .next t => some (g t)
  | .fault _ => none
  | .refused _ => none

/-- V2: `MOV AH, AL`. -/
theorem test_mov_high_low : sees [0x10, 0x20] (fun s => { s with ax := 0x1234, flags := fl 1 1 0 0 })
    (fun t => (t.ax, t.flags, t.ip)) = some (0x3434, fl 1 1 0 0, 0x2002) := by
  decide +kernel

/-- V7: `MOV [3000h], DX`. -/
theorem test_mov_little_endian : sees [0x19, 0x03, 0x00, 0x30] (fun s => { s with dx := 0xBEEF })
    (fun t => (t.mem.read 0x3000, t.mem.read 0x3001, t.ip)) = some (0xEF, 0xBE, 0x2004) := by
  decide +kernel

/-- V20: `ADD AL, BL`. -/
theorem test_add_overflow : sees [0x20, 0x01] (fun s => { s with ax := 0x557F, bx := 1 })
    (fun t => (t.ax, t.flags, t.ip)) = some (0x5580, fl 0 0 1 1, 0x2002) := by
  decide +kernel

/-- V22: `ADD AX, BX`. -/
theorem test_add_carry16 : sees [0x21, 0x01] (fun s => { s with ax := 0x8000, bx := 0x8000 })
    (fun t => (t.ax, t.flags)) = some (0, fl 1 1 0 1) := by
  decide +kernel

/-- V28: `ADC AL, 0`. -/
theorem test_adc_carry_in : sees [0x36, 0x00, 0x00] (fun s => { s with ax := 0x7F, flags := fl 1 0 0 0 })
    (fun t => (t.ax, t.flags)) = some (0x80, fl 0 0 1 1) := by
  decide +kernel

/-- V31: `SUB AX, BX`. -/
theorem test_sub_borrow : sees [0x41, 0x01] (fun s => { s with bx := 0x8000 })
    (fun t => (t.ax, t.flags)) = some (0x8000, fl 1 0 1 1) := by
  decide +kernel

/-- V34: `SBB AL, BL`. -/
theorem test_sbb_corner : sees [0x50, 0x01] (fun s => { s with ax := 0x80, bx := 0x7F, flags := fl 1 0 0 0 })
    (fun t => (t.ax, t.flags)) = some (0, fl 0 1 0 1) := by
  decide +kernel

/-- V39: `CMP [BX], AL`. -/
theorem test_cmp_memory : sees [0x6A, 0x00] (fun s => put 0x1000 [0xFE] { s with bx := 0x1000, ax := 1 })
    (fun t => (t.mem.read 0x1000, t.flags)) = some (0xFE, fl 0 0 1 0) := by
  decide +kernel

/-- V43: `NEG AX`. -/
theorem test_neg_most_negative : sees [0xA1, 0x00] (fun s => { s with ax := 0x8000 })
    (fun t => (t.ax, t.flags)) = some (0x8000, fl 1 0 1 1) := by
  decide +kernel

/-- V41: `NEG AL`. -/
theorem test_neg_zero : sees [0xA0, 0x00] (fun s => { s with flags := fl 1 0 0 0 })
    (fun t => (t.ax, t.flags)) = some (0, fl 0 1 0 0) := by
  decide +kernel

/-- V46: `INC WORD PTR [BX]`. -/
theorem test_inc_word_at_bx : sees [0xAD] (fun s => put 0x1000 [0xFF, 0x7F] { s with bx := 0x1000 })
    (fun t => (t.mem.read 0x1000, t.mem.read 0x1001, t.flags, t.ip)) = some (0x00, 0x80, fl 0 0 1 1, 0x2001) := by
  decide +kernel

/-- V44: `INC AL`. -/
theorem test_inc_carry : sees [0xA8, 0x00] (fun s => { s with ax := 0xFF })
    (fun t => (t.ax, t.flags)) = some (0, fl 1 1 0 0) := by
  decide +kernel

/-- V48: `DEC CL`. -/
theorem test_dec_borrow : sees [0xB0, 0x02] (fun s => s)
    (fun t => (t.cx, t.flags)) = some (0xFF, fl 1 0 1 0) := by
  decide +kernel

/-- V62: `AND WORD PTR [1000h], 00FFh`. -/
theorem test_and_word : sees [0x7D, 0x00, 0x10, 0xFF, 0x00] (fun s => put 0x1000 [0x34, 0x12] { s with flags := fl 1 0 0 1 })
    (fun t => (t.mem.read 0x1000, t.mem.read 0x1001, t.flags, t.ip)) = some (0x34, 0x00, fl 0 0 0 0, 0x2005) := by
  decide +kernel

/-- The example of 43_logic.md R221: `OR [BX], AL`. -/
theorem test_or_sign : sees [0x8A, 0x00] (fun s => put 0x1000 [0x0F] { s with bx := 0x1000, ax := 0xF0, flags := fl 1 0 0 1 })
    (fun t => (t.mem.read 0x1000, t.ax, t.flags)) = some (0xFF, 0xF0, fl 0 0 1 0) := by
  decide +kernel

/-- V66: `XOR AX, 0FFFFh`. -/
theorem test_xor_word : sees [0x97, 0x00, 0xFF, 0xFF] (fun s => { s with ax := 0x1234, flags := fl 1 0 0 1 })
    (fun t => (t.ax, t.flags)) = some (0xEDCB, fl 0 0 1 0) := by
  decide +kernel

/-- V67: `NOT AL`. -/
theorem test_not_byte : sees [0xB8, 0x00] (fun s => { s with ax := 0x550F, flags := fl 1 0 0 1 })
    (fun t => (t.ax, t.flags)) = some (0x55F0, fl 0 0 1 0) := by
  decide +kernel

/-- V80: `PUSH AX`. -/
theorem test_push : sees [0xC0] (fun s => { s with ax := 0x1234 })
    (fun t => (t.sp, t.mem.read 0xFFFE, t.mem.read 0xFFFF)) = some (0xFFFE, 0x34, 0x12) := by
  decide +kernel

/-- V85: `PUSH AX` with SP = 1: neither byte is written. -/
theorem test_push_faults : sees [0xC0] (fun s => { s with ax := 0x1234, sp := 1 })
    (fun t => (t.sp, t.mem.read 0xFFFF, t.error)) = some (1, 0,
      some { kind := .addressOutOfRange, code := 2, info := .bus .memory 0x10000, phase := .writeback, start := some 0x2000,
             opcode := some 0xC0, ip := 0x2001 }) := by
  decide +kernel

/-- V81: `POP BX`. -/
theorem test_pop : sees [0xC5] (fun s => put 0xFFFE [0x34, 0x12] { s with sp := 0xFFFE })
    (fun t => (t.sp, t.bx)) = some (0, 0x1234) := by
  decide +kernel

/-- V82: `PUSHF`. -/
theorem test_pushf : sees [0xC8] (fun s => { s with flags := fl 1 0 1 0 })
    (fun t => (t.sp, t.mem.read 0xFFFE, t.mem.read 0xFFFF)) = some (0xFFFE, 0x81, 0x02) := by
  decide +kernel

/-- V83: `POPF`. -/
theorem test_popf : sees [0xC9] (fun s => put 0xFFFE [0x41, 0x08] { s with sp := 0xFFFE })
    (fun t => (t.sp, t.flags)) = some (0, { fl 1 1 0 1 with IF := false }) := by
  decide +kernel

/-- V100: `JMP 3000h`. -/
theorem test_jmp : sees [0xD0, 0x00, 0x30] (fun s => s)
    (fun t => t.ip) = some 0x3000 := by
  decide +kernel

/-- V102: `JZ 3000h`. -/
theorem test_jz : sees [0xD1, 0x00, 0x30] (fun s => { s with flags := fl 0 0 0 0 })
    (fun t => t.ip) = some 0x2003 := by
  decide +kernel

/-- V103: `JNZ 3000h`. -/
theorem test_jnz : sees [0xD2, 0x00, 0x30] (fun s => { s with flags := fl 0 0 0 0 })
    (fun t => t.ip) = some 0x3000 := by
  decide +kernel

/-- V104: `JC 3000h`. -/
theorem test_jc : sees [0xD3, 0x00, 0x30] (fun s => { s with flags := fl 1 0 0 0 })
    (fun t => t.ip) = some 0x3000 := by
  decide +kernel

/-- V105: `JNC 3000h`. -/
theorem test_jnc : sees [0xD4, 0x00, 0x30] (fun s => { s with flags := fl 1 0 0 0 })
    (fun t => t.ip) = some 0x2003 := by
  decide +kernel

/-- V106: `JS 3000h`. -/
theorem test_js : sees [0xD5, 0x00, 0x30] (fun s => { s with flags := fl 0 0 1 0 })
    (fun t => t.ip) = some 0x3000 := by
  decide +kernel

/-- V107: `JNS 3000h`. -/
theorem test_jns : sees [0xD6, 0x00, 0x30] (fun s => { s with flags := fl 0 0 1 0 })
    (fun t => t.ip) = some 0x2003 := by
  decide +kernel

/-- V108: `JO 3000h`. -/
theorem test_jo : sees [0xD7, 0x00, 0x30] (fun s => { s with flags := fl 0 0 0 0 })
    (fun t => t.ip) = some 0x2003 := by
  decide +kernel

/-- V109: `JNO 3000h`. -/
theorem test_jno : sees [0xD8, 0x00, 0x30] (fun s => { s with flags := fl 0 0 0 0 })
    (fun t => t.ip) = some 0x3000 := by
  decide +kernel

/-- V110: `CALL 3000h`. -/
theorem test_call : sees [0xD9, 0x00, 0x30] (fun s => s)
    (fun t => (t.ip, t.sp, t.mem.read 0xFFFE, t.mem.read 0xFFFF)) = some (0x3000, 0xFFFE, 0x03, 0x20) := by
  decide +kernel

/-- V111: `RET`. -/
theorem test_ret : sees [0xDA] (fun s => put 0xFFFE [0x03, 0x20] { s with sp := 0xFFFE })
    (fun t => (t.ip, t.sp)) = some (0x2003, 0) := by
  decide +kernel

/-- V120: `INT 5`. -/
theorem test_int : sees [0xE0, 0x05] (fun s => put 0x14 [0x00, 0x30] { s with flags := fl 1 0 0 0 })
    (fun t => (t.ip, t.sp, t.flags, t.mem.readWord 0xFFFE, t.mem.readWord 0xFFFC)) = some (0x3000, 0xFFFC, { fl 1 0 0 0 with IF := false }, 0x0201, 0x2002) := by
  decide +kernel

/-- V124: `IRET`, its second word at address 0. -/
theorem test_iret : sees [0xE1] (fun s => put 0 [0x00, 0x02] (put 0xFFFE [0x00, 0x30] { s with sp := 0xFFFE }))
    (fun t => (t.ip, t.sp, t.flags)) = some (0x3000, 2, fl 0 0 0 0) := by
  decide +kernel

/-- V126: `CLI`. -/
theorem test_cli : sees [0xE2] (fun s => s)
    (fun t => (t.flags.IF, t.ip)) = some (false, 0x2001) := by
  decide +kernel

/-- V127: `STI` with a request pending; the return address pushed is 2001h. -/
theorem test_sti_takes_interrupt : sees [0xE3] (fun s => { s with flags := { fl 0 0 0 0 with IF := false }, pic := { s.pic with irr := 0x01, imr := 0xFE, int0 := 0x0A } })
    (fun t => (t.mem.readWord 0xFFFC, t.sp, t.flags.IF, t.pic.irr, t.pic.isr)) = some (0x2001, 0xFFFC, false, 0x00, 0x01) := by
  decide +kernel

/-- V128: `NOP`. -/
theorem test_nop : sees [0x00] (fun s => s)
    (fun t => (t.ip, t.flags)) = some (0x2001, fl 0 0 0 0) := by
  decide +kernel

/-- V129: `HLT` with a request pending. -/
theorem test_hlt : sees [0xFF] (fun s => { s with pic := { s.pic with irr := 0x01, imr := 0x00 } })
    (fun t => (t.ip, t.phase, t.outcome, t.status, t.pic.irr)) = some (0x2001, .stopped, .halted, .stopped, 0x01) := by
  decide +kernel

/-- V220: `IN AL, 30h` with CA = F0h, LA = 5Ah, SW = C3h. -/
theorem test_in : sees [0xE4, 0x30] (fun s => { s with pio := { s.pio with ca := 0xF0, la := 0x5A, switches := 0xC3 } })
    (fun t => (t.ax, t.ip)) = some (0xCA, 0x2002) := by
  decide +kernel

/-- V141: `IN AX, 50h` faults at port 51h and does not park. -/
theorem test_in_word_faults : sees [0xE5, 0x50] (fun s => s)
    (fun t => (t.waitingForInput, t.error)) = some (false,
      some { kind := .ioMemoryNotConnected, code := 3, info := .bus .io 0x51, phase := .fetchingOperands, start := some 0x2000,
             opcode := some 0xE5, ip := 0x2002 }) := by
  decide +kernel

/-- V142: `OUT 21h, AX`. -/
theorem test_out_word : sees [0xE9, 0x21] (fun s => { s with ax := 0x02FE })
    (fun t => (t.pic.imr, t.pic.irr)) = some (0xFE, 0x02) := by
  decide +kernel

/-- V146: `OUT DX, AL`. -/
theorem test_out_dx : sees [0xEA] (fun s => { s with dx := 0x60, ax := 0x49 })
    (fun t => (t.screen.output, t.screen.last)) = some ([0x49], 0x49) := by
  decide +kernel

/-- V164: the fault of an illegal encoding. -/
theorem test_illegal_register_byte : sees [0x11, 0x04] (fun s => s)
    (fun t => (t.phase, t.error)) = some (.stopped,
      some { kind := .illegalInstruction, code := 1, info := .instruction 0x2000 0x11, phase := .fetchingOperands,
             start := some 0x2000, opcode := some 0x11, ip := 0x2002 }) := by
  decide +kernel

/-- V201: a tick of the timer. -/
theorem test_timer_tick : sees [0x00] (fun s => { s with agenda := [.timerTick], timer := { cont := 2, comp := 3 } })
    (fun t => (t.timer.cont, t.pic.irr)) = some (0, 0x02) := by
  decide +kernel

/-- V223: a rising strobe. -/
theorem test_printer_strobe : sees [0xE8, 0x30] (fun s => { s with ax := 2, devices := { s.devices with pio := some .printer }, pio := { s.pio with ca := 0xFD, cb := 0, lb := 0x41 } })
    (fun t => (t.printer.pending, t.printer.busy, t.pio.la)) = some (0x41, true, 0x02) := by
  decide +kernel

/-- V225: a transfer starts. -/
theorem test_handshake_write : sees [0xE8, 0x40] (fun s => { s with ax := 0x41, devices := { s.devices with handshake := true } })
    (fun t => (t.handshake.data, t.printer.pending, t.printer.busy)) = some (0x41, 0x41, true) := by
  decide +kernel

/-- V183: an EOI write clears the lowest set bit of ISR. -/
theorem test_eoi : (deviceWrite .eoi 0x77 { State.reset with pic := { Pic.reset with isr := 0x05 } }).pic.isr = 0x04 := by
  decide

/-- `withFetchWord` places an instruction that the next step runs. -/
theorem test_withFetchWord :
    (match step (State.reset.withFetchWord 32 0x10000117) with
     | .next t => (t.bx, t.ip)
     | .fault _ => (0, 0)
     | .refused _ => (0, 0)) = (0x1000, 0x2004) := by
  decide +kernel

/-! ## The assembler (30_encoding.md R120 to R129) -/

/-- E6: `JMP L` and `L: HLT`, a forward reference. -/
theorem test_assemble_forward_reference :
    (Asm.assemble ['J', 'M', 'P', ' ', 'L', '\n', 'L', ':', ' ', 'H', 'L', 'T', '\n', 'E', 'N', 'D']).image =
      [(0x2000, 0xD0), (0x2001, 0x03), (0x2002, 0x20), (0x2003, 0xFF)] := by
  decide

/-- E2: an unknown mnemonic is an error, and there is no image. -/
theorem test_assemble_unknown_mnemonic :
    (Asm.assemble ['B', 'A', 'D', '\n', 'E', 'N', 'D']).errors = [(1, .unknownMnemonic ['B', 'A', 'D'])] ∧
    (Asm.assemble ['B', 'A', 'D', '\n', 'E', 'N', 'D']).image = [] := by
  decide

/-- R120: no directive follows a label on its line. -/
theorem test_assemble_label_directive :
    (Asm.assemble ['L', ':', 'E', 'N', 'D']).errors = [(1, .syntaxError)] := by
  decide

/-- R127: a label is no vector; R123: nor a number of EQU. -/
theorem test_assemble_label_as_number :
    (Asm.assemble ['L', ':', 'I', 'N', 'T', ' ', 'L', '\n', 'K', ' ', 'E', 'Q', 'U', ' ', 'L']).errors =
      [(1, .operandMismatch), (2, .labelAsNumber ['L'])] := by
  decide

/-- R123, R126: `MOV AL, [-1]` has the 16-bit field FFFFh, and the symbol table has labels and constants. -/
theorem test_assemble_numeric_address :
    let r := Asm.assemble ['L', ':', 'M', 'O', 'V', ' ', 'A', 'L', ',', '[', '-', '1', ']', '\n', 'K', ' ', 'E', 'Q', 'U', ' ', '5']
    r.image = [(0x2000, 0x12), (0x2001, 0x00), (0x2002, 0xFF), (0x2003, 0xFF)] ∧ r.symbols = [(['L'], 0x2000), (['K'], 5)] := by
  decide

/-- R125: two register operands of different widths. -/
theorem test_assemble_width_mismatch :
    (Asm.assemble ['A', 'D', 'D', ' ', 'A', 'L', ',', 'B', 'X']).errors = [(1, .operandMismatch)] := by
  decide

/-- R125: a prefix beside a register does not replace the width that a label declares, `B: DB 1` and `MOV AX, WORD PTR B`. -/
theorem test_assemble_prefix_and_label :
    (Asm.assemble
      ['B', ':', 'D', 'B', ' ', '1', '\n', 'M', 'O', 'V', ' ', 'A', 'X', ',', 'W', 'O', 'R', 'D', ' ', 'P', 'T', 'R', ' ', 'B']).errors =
      [(2, .operandMismatch)] := by
  decide

/-- R422: the first load with the policy `preserve` finds no earlier content, and each byte is a draw. -/
theorem test_first_preserve_draws :
    (loadProgram { image := [], devices := Devices.default, policy := .preserve } State.reset).mem = drawnMemory 8 := by
  rfl

/-! ## Events (70_reset_and_hazards.md R454) -/

/-- The events of a list that are not of the model's own kinds. -/
def specEvents (es : List Event) : List Event :=
  es.filter fun e =>
    match e with
    | .metadataChanged _ => false
    | .sessionChanged _ => false
    | _ => true

/-- The last sub-step of POP AX: SP is committed before AX, and the phase after both (44_stack.md R243). -/
theorem test_pop_events :
    let s : State :=
      { State.reset with phase := .writeback, sp := 0xFFFC, md := { start := some 0x2000, op := some 0xC4, srcv := some 0x1234 } }
    specEvents (coreStepEvents none s) =
      [.registerChanged .sp 0xFFFE, .registerChanged (.general .ax) 0x1234, .phaseChanged .fetching .running] := by
  decide +kernel

/-- The first byte of a word stored by PUSH: one event for the cell, and the bus access after it. -/
theorem test_push_events :
    let s : State :=
      { State.reset with
        params := { Params.default with memSize := 16 }
        sp := 8, ax := 7, phase := .writeback, md := { start := some 0x0000, op := some 0xC0 } }
    specEvents (coreStepEvents none s) =
      [.memoryCellChanged 6 7, .busAccess { space := .memory, address := 6, data := some 7 } 7] := by
  decide +kernel

/-- A tick that reaches COMP: the count, the interrupt, the count back to 0 (60_exceptions.md R360). -/
theorem test_timer_events :
    stepEvents { State.reset with agenda := [.timerTick], timer := { cont := 2, comp := 3 } } =
      [.deviceRegisterChanged (.cont 3), .interruptRaised 1, .deviceRegisterChanged (.cont 0)] := by
  decide +kernel


/-! ## Witnesses: states and operands that meet the hypotheses of the statements

One theorem for each statement that has hypotheses, or for the group of statements named in its docstring that share them. -/

/-- DecodeOfEncode: well-formed instructions at the ends of their operands' ranges. -/
theorem witness_DecodeOfEncode :
    (Instr.movRegReg .w16 3 0).wf = true ∧ (Instr.movRegImm .w8 7 0xFF).wf = true ∧ (Instr.int 0xFF).wf = true := by
  decide

/-- EncodeOfDecode: bytes that decode, with bytes after them. -/
theorem witness_EncodeOfDecode : decode [0x57, 0x03, 0xFF, 0x00, 0xFF] = .ok (.sbbRegImm .w16 3 0x00FF, [0xFF]) := rfl

/-- OpcodeMap: illegal and legal values of byte 0 at the ends of every range. -/
theorem witness_OpcodeMap :
    (illegalOpcode 0x01 ∧ illegalOpcode 0x0F ∧ illegalOpcode 0xA6 ∧ illegalOpcode 0xBF ∧ illegalOpcode 0xCA ∧
      illegalOpcode 0xCF ∧ illegalOpcode 0xDB ∧ illegalOpcode 0xDF ∧ illegalOpcode 0xEC ∧ illegalOpcode 0xFE) ∧
    (¬ illegalOpcode 0x00 ∧ ¬ illegalOpcode 0x10 ∧ ¬ illegalOpcode 0xA5 ∧ ¬ illegalOpcode 0xBD ∧ ¬ illegalOpcode 0xC9 ∧
      ¬ illegalOpcode 0xD0 ∧ ¬ illegalOpcode 0xDA ∧ ¬ illegalOpcode 0xE0 ∧ ¬ illegalOpcode 0xEB ∧ ¬ illegalOpcode 0xFF) := by
  simp [illegalOpcode]

/-- A core past byte 0 of the instruction at 2000h, its register byte next. -/
def atRegisterByte (op : Byte) (s : State) : State :=
  { s with ip := 0x2001, phase := .fetchingOperands, md := { start := some 0x2000, op := some op } }

/-- IllegalEncodings: an illegal byte 0 at the last address that can be fetched, and illegal register bytes of both layouts. -/
theorem witness_IllegalEncodings :
    (let s := put 0xFFFE [0xCA] { State.reset with ip := 0xFFFE }
     s.phase = .fetching ∧ s.ip.toNat < s.params.memSize ∧ s.ip ≠ 0xFFFF ∧ illegalOpcode (s.mem.read s.ip.toNat).toNat) ∧
    (let s := put 0x2001 [0x40] (atRegisterByte 0x10 State.reset)
     s.phase = .fetchingOperands ∧ s.md.sub = 0 ∧ s.md.op = some 0x10 ∧ s.md.start = some 0x2000 ∧
     s.ip.toNat < s.params.memSize ∧ s.ip ≠ 0xFFFF ∧ illegalRegisterByte 0x10 (s.mem.read s.ip.toNat).toNat) ∧
    illegalRegisterByte 0x11 0x20 ∧ illegalRegisterByte 0x11 0x04 ∧ illegalRegisterByte 0x12 0x08 ∧
    illegalRegisterByte 0x1B 0x04 ∧ illegalRegisterByte 0xB9 0x07 := by
  unfold illegalOpcode illegalRegisterByte layoutRR layoutR
  refine ⟨?_, ?_, ?_, ?_, ?_, ?_, ?_⟩ <;> decide +kernel

/-- FetchingStep: IP just past memory; at FFFFh; and at FFFEh, on an instruction that reads nothing more and on one that does. -/
theorem witness_FetchingStep :
    (let s : State := { State.reset with params := { State.reset.params with memSize := 0x2000 } }
     s.phase = .fetching ∧ ¬ s.ip.toNat < s.params.memSize) ∧
    (let s : State := { State.reset with ip := 0xFFFF }
     s.phase = .fetching ∧ s.ip.toNat < s.params.memSize ∧ s.ip = 0xFFFF) ∧
    (let s := put 0xFFFE [0xEB] { State.reset with ip := 0xFFFE }
     s.ip.toNat < s.params.memSize ∧ s.ip ≠ 0xFFFF ∧ ¬ illegalOpcode (s.mem.read s.ip.toNat).toNat ∧
     readsNothing (s.mem.read s.ip.toNat).toNat) ∧
    (let s := put 0xFFFE [0x10] { State.reset with ip := 0xFFFE }
     ¬ illegalOpcode (s.mem.read s.ip.toNat).toNat ∧ ¬ readsNothing (s.mem.read s.ip.toNat).toNat) := by
  unfold illegalOpcode readsNothing
  decide +kernel

/-- StepRunsDecoded: an instruction at reset's IP, and one in the last bytes that can be fetched. -/
theorem witness_StepRunsDecoded :
    (Begins (put 0x2000 [0x20, 0x01] State.reset) ∧ At (put 0x2000 [0x20, 0x01] State.reset) (.addRegReg .w8 0 1)) ∧
    (Begins (put 0xFFFD [0xE0, 0x05] { State.reset with ip := 0xFFFD, status := .running .infinity }) ∧
      At (put 0xFFFD [0xE0, 0x05] { State.reset with ip := 0xFFFD, status := .running .infinity }) (.int 5)) := by
  refine ⟨⟨⟨rfl, rfl, rfl, rfl, ?_⟩, rfl, by decide, by decide, ?_⟩, ⟨rfl, rfl, rfl, rfl, ?_⟩, rfl, by decide, by decide, ?_⟩
  · intro m h; cases h
  · intro k b h
    match k, h with
    | 0, h => cases h; rfl
    | 1, h => cases h; rfl
    | k + 2, h => cases h
  · intro m h; cases h; exact ⟨by decide, rfl⟩
  · intro k b h
    match k, h with
    | 0, h => cases h; rfl
    | 1, h => cases h; rfl
    | k + 2, h => cases h

/-- InstructionIsItsSubSteps. -/
theorem witness_InstructionIsItsSubSteps :
    State.coreRuns { State.reset with status := .running .infinity } = true ∧
    State.wholeInstruction { State.reset with status := .running .infinity } = true := by
  decide

/-- The kind of the fault that the state after an instruction records. -/
def faultAfter (i : Instr) (s : State) : Option FaultKind :=
  match exec i s with
  | .next t => t.error.map ErrorRecord.kind
  | _ => none

theorem witness_EveryInstructionExecutes :
    ((Instr.movRegReg .w16 0 3).wf = true ∧ faultAfter (.movRegReg .w16 0 3) State.reset = none) ∧
    ((Instr.movRegDir .w16 0 0xFFFF).wf = true ∧
      faultAfter (.movRegDir .w16 0 0xFFFF) State.reset = some .addressOutOfRange) ∧
    ((Instr.movRegReg .w16 0 4).wf = false ∧ faultAfter (.movRegReg .w16 0 4) State.reset = some .illegalInstruction) ∧
    ((Instr.movRegImm .w8 0 0x100).wf = false ∧ faultAfter (.movRegImm .w8 0 0x100) State.reset = some .illegalInstruction) := by
  decide

/-- What a sub-step leaves, or the state itself. -/
def subStep (s : State) : State :=
  match coreSubStep none s with
  | .next t => t
  | .fault _ => s
  | .refused _ => s

/-- A state in a phase, past the operands of an instruction. -/
def inPhase (p : Phase) (op : Byte) (vec : Option Byte) : State :=
  { State.reset with phase := p, md := { start := some 0x2000, op := some op, vec := vec } }

/-- PhaseTransitions: a sub-step of every phase has a next state, the end of INT goes to each of its three phases, and a first sub-step
of two does not leave its phase. -/
theorem witness_PhaseTransitions :
    (subStep State.reset).phase = .executing ∧
    (subStep (put 0x2001 [0x01] (atRegisterByte 0x10 State.reset))).phase = .executing ∧
    (subStep (inPhase .executing 0x10 none)).phase = .writeback ∧ (subStep (inPhase .executing 0xFF none)).phase = .halting ∧
    (subStep (inPhase .writeback 0x10 none)).phase = .fetching ∧
    (subStep (inPhase .writeback 0xE0 (some 5))).phase = .interrupt ∧
    (subStep (inPhase .writeback 0xC0 none)).phase = .writeback ∧ (subStep (inPhase .interrupt 0xE0 (some 5))).phase = .interrupt ∧
    (subStep (inPhase .writeback 0xE0 (some 6))).phase = .int6 ∧ (subStep (inPhase .writeback 0xE0 (some 7))).phase = .int7 ∧
    (subStep (inPhase .halting 0xFF none)).outcome = .halted ∧
    (subStep { inPhase .interrupt 0xE0 (some 5) with sp := 1 }).outcome = .stoppedError := by
  decide +kernel

/-- MovEffect, AddEffect, AdcEffect, SubEffect, SbbEffect, CmpEffect, AndEffect, OrEffect, XorEffect, NegEffect, IncEffect, DecEffect,
NotEffect: legal operands of every kind at the ends of their ranges; memory operands that just fit and that just do not. -/
theorem witness_operands :
    (Place.legal .w8 (.reg 7) ∧ Place.legal .w16 (.reg 3) ∧ Place.legal .w8 (.imm 0xFF) ∧ Place.legal .w16 (.imm 0xFFFF) ∧
      Place.legal .w16 (.mem 0xFFFF)) ∧
    (Place.fits State.reset .w8 (.mem 0xFFFF) ∧ Place.fits State.reset .w16 (.mem 0xFFFE) ∧ Place.fits State.reset .w16 (.reg 3) ∧
      Place.fits State.reset .w16 (.imm 0)) ∧
    ¬ within State.reset .w16 (0xFFFF : Word).toNat ∧
    ¬ within { State.reset with params := { State.reset.params with memSize := 256 } } .w8 (0x0100 : Word).toNat := by
  simp only [Place.legal, Place.fits, within]
  decide

/-- PushEffect, PushfPopfEffect, CallEffect: the first push from SP = 0 fits, and from SP = 1 it does not. -/
theorem witness_push :
    within State.reset .w16 (below State.reset 1) ∧
    ¬ within { State.reset with sp := 1 } .w16 (below { State.reset with sp := 1 } 1) := by
  unfold within
  decide

/-- PopEffect, PushfPopfEffect, RetEffect: the last word of memory fits, and its last byte does not. -/
theorem witness_pop :
    within { State.reset with sp := 0xFFFE } .w16 (0xFFFE : Word).toNat ∧
    ¬ within { State.reset with sp := 0xFFFF } .w16 (0xFFFF : Word).toNat := by
  unfold within
  decide

/-- A state with the given SP and MEM_SIZE. -/
def sized (sp : Word) (memSize : Nat) : State :=
  { State.reset with sp := sp, params := { State.reset.params with memSize := memSize } }

/-- IntEffect and IretUndoesInt: everything fits; and each of the three accesses in turn is the first that does not. -/
theorem witness_IntEffect :
    (let r := past (sized 0 65536) 2
     within r .w16 (below r 1) ∧ within r .w16 (below r 2) ∧ within r .w16 (4 * 0xFF)) ∧
    (let r := past (sized 1 65536) 2; ¬ within r .w16 (below r 1)) ∧
    (let r := past (sized 3 65536) 2; within r .w16 (below r 1) ∧ ¬ within r .w16 (below r 2)) ∧
    (let r := past (sized 0x200 0x200) 2
     within r .w16 (below r 1) ∧ within r .w16 (below r 2) ∧ ¬ within r .w16 (4 * 0x80)) := by
  unfold within
  decide

theorem witness_IretUndoesInt :
    let s := sized 0 65536
    within s .w16 (below s 1) ∧ within s .w16 (below s 2) ∧ within s .w16 (4 * (0xFF : Byte).toNat) := by
  unfold within
  decide

/-- IretEffect: both words fit; the first does not; the second does not. -/
theorem witness_IretEffect :
    (let s := sized 0xFFFC 65536; within s .w16 s.sp.toNat ∧ within s .w16 (above s 1)) ∧
    (let s := sized 0xFFFF 65536; ¬ within s .w16 s.sp.toNat) ∧
    (let s := sized 0xFFFD 65536; within s .w16 s.sp.toNat ∧ ¬ within s .w16 (above s 1)) := by
  unfold within
  decide

/-- A machine with devices of the configuration given. -/
def wired (d : Devices) : State := { State.reset with devices := d }

/-- InEffect: a refused port, a register that answers, the keyboard; of a word, the first and the second port refused, and both
answering. -/
theorem witness_InEffect :
    (let s := wired Devices.default
     resolve 0x0F s = none ∧ resolve 0x10 s = some (.cont, s) ∧ deviceRead .cont s = some 0 ∧ resolve 0x50 s = some (.key, s) ∧
     deviceRead .key s = none ∧ resolve 0x11 s = some (.comp, s) ∧ resolve 0x12 s = none) ∧
    (let s : State := { State.reset with devices := { Devices.default with pio := none },
                                         params := { Params.default with autoEnablePio := true } }
     resolve 0x33 s = some (.cb, autoEnable s) ∧ resolve 0x34 (autoEnable s) = none ∧
     resolve 0x32 s = some (.ca, autoEnable s) ∧ resolve 0x33 (autoEnable s) = some (.cb, autoEnable s)) := by
  decide +kernel

/-- OutEffect: as for IN, with the screen's port. -/
theorem witness_OutEffect :
    let s := wired Devices.default
    resolve 0x60 s = some (.screen, s) ∧ resolve 0x61 s = none ∧ resolve 0x2A s = some (.intVector 6, s) ∧
    resolve 0x2B s = some (.intVector 7, s) ∧ resolve 0x2C s = none := by
  decide +kernel

/-- PortDecode: claimed ports at the ends of the ranges, and ports that nothing claims, with a PIO and without. -/
theorem witness_PortDecode :
    (claimed Devices.default 0x10 ∧ claimed Devices.default 0x2B ∧ claimed Devices.default 0x33 ∧
      claimed { Devices.default with handshake := true } 0x41 ∧ claimed Devices.default 0x50 ∧ claimed Devices.default 0x60) ∧
    (¬ claimed Devices.default 0x40 ∧ State.reset.params.autoEnablePio = false) ∧
    (¬ claimed Devices.default 0x12 ∧ ¬ (0x30 ≤ 0x12 ∧ 0x12 ≤ 0x33)) := by
  unfold claimed
  refine ⟨⟨?_, ?_, ?_, ?_, ?_, ?_⟩, ⟨?_, ?_⟩, ?_, ?_⟩ <;> decide

/-- AutoEnable. -/
theorem witness_AutoEnable :
    let s : State := { wired { Devices.default with pio := none } with params := { Params.default with autoEnablePio := true } }
    s.params.autoEnablePio = true ∧ s.devices.pio = none ∧ 0x30 ≤ 0x33 ∧ 0x33 ≤ 0x33 := by
  decide

/-- PicTimerRegisters: no line in service, and line 7 alone in service. -/
theorem witness_PicTimerRegisters :
    State.reset.devices.pic = true ∧ State.reset.pic.isr = 0x00 ∧
    (0x80 : Byte).getLsbD 7 = true ∧ ∀ j, j < 7 → (0x80 : Byte).getLsbD j = false := by
  decide

/-- PioRegisters and PrinterStrobe: both wirings, and a strobe that rises on a printer that is not busy. -/
theorem witness_PioRegisters :
    (wired { Devices.default with pio := some .printer }).devices.pio = some .printer ∧
    (wired Devices.default).devices.pio = some .switchesAndLeds ∧
    ((0x02 : Byte).getLsbD 1 && !(0xFD : Byte).getLsbD 1) = true ∧ State.reset.pio.strobePrev = false ∧
    State.reset.printer.busy = false := by
  decide

theorem witness_PrinterStrobe : (wired { Devices.default with pio := some .printer }).devices.pio = some .printer := rfl

/-- HandshakeKeyboardScreenRegisters: a printer that is busy and one that is not. -/
theorem witness_HandshakeKeyboardScreenRegisters :
    let s := wired { Devices.default with handshake := true }
    s.devices.handshake = true ∧ s.printer.busy = false ∧ s.devices.keyboardAndScreen = true ∧
    { s.printer with busy := true }.busy = true := by
  decide

/-- A hardware request of line `i`, in the trap entry that acknowledges it. -/
def requesting (i : Nat) : State :=
  { State.reset with phase := .interrupt, pic := { Pic.reset with imr := 0x00, irr := lineBit i } }

/-- HardwareTrapEntry and InterruptRequest: the lines of the highest and of the lowest priority. -/
theorem witness_HardwareTrapEntry :
    ((requesting 0).phase = .interrupt ∧ (requesting 0).md.vec = none ∧ Selected (requesting 0).pic 0) ∧
    ((requesting 7).phase = .interrupt ∧ (requesting 7).md.vec = none ∧ Selected (requesting 7).pic 7) ∧
    interruptRequested (requesting 7) = true := by
  unfold Selected
  decide

/-- TimerAndPrinterSteps: a tick below COMP and one that reaches it, with no timer, a busy printer, and one that is not. -/
theorem witness_TimerAndPrinterSteps :
    (let s : State := { State.reset with agenda := [.timerTick] }
     s.agenda = .timerTick :: [] ∧ s.devices.pic = true ∧ s.timer.cont + 1 ≠ s.timer.comp) ∧
    (let s : State := { State.reset with agenda := [.timerTick], timer := { cont := 0xFF, comp := 0x00 } }
     s.timer.cont + 1 = s.timer.comp) ∧
    (wired { Devices.default with pic := false }).devices.pic = false ∧
    (let s : State := { wired { Devices.default with handshake := true } with
                        agenda := [.printerConsume], printer := { Printer.reset with busy := true }
                        handshake := { data := 0, ie := true } }
     s.agenda = .printerConsume :: [] ∧ s.devices.handshake = true ∧ s.printer.busy = true ∧ s.handshake.ie = true) ∧
    State.reset.printer.busy = false := by
  decide

/-- MemoryBytes: the last address and the first one past it. -/
theorem witness_MemoryBytes : 65535 < State.reset.params.memSize ∧ ¬ 65536 < State.reset.params.memSize := by decide

/-- What a step leaves, or the state itself. -/
def stepped (s : State) : State :=
  match step s with
  | .next t => t
  | .fault _ => s
  | .refused _ => s

/-- MemoryInvariant, DeviceInvariant, CycleInvariant, ConfigurationFixed: reset meets the invariants and has a next state. -/
theorem witness_invariants :
    State.reset.memoryOk = true ∧ State.reset.devicesOk = true ∧ State.reset.cycleOk = true ∧
    step State.reset = .next (stepped State.reset) := by
  refine ⟨by decide, by decide, by decide, ?_⟩
  rfl

/-- A core that has halted. -/
def haltedCore (agenda : List AgentStep) : State :=
  { State.reset with phase := .stopped, outcome := .halted, agenda := agenda }

/-- StoppedCoreStays: a halted core in a session that goes on. -/
theorem witness_StoppedCoreStays :
    (haltedCore [.timerTick]).cycleOk = true ∧ (haltedCore [.timerTick]).outcome ≠ .running ∧
    step (haltedCore [.timerTick]) = .next (stepped (haltedCore [.timerTick])) :=
  ⟨by decide, by decide, rfl⟩

/-- OtherAgentsSpareTheCore. -/
theorem witness_OtherAgentsSpareTheCore :
    let s := haltedCore [.host .cleanScreen]
    s.agenda = .host .cleanScreen :: [] ∧ step s = .next (stepped s) ∧ ¬ resets .cleanScreen :=
  ⟨rfl, rfl, id⟩

/-- A session with a program loaded. -/
def session (status : HostStatus) : State :=
  { State.reset with
    status := status
    loaded := some { image := [(0x2000, 0xFF)], devices := Devices.default, policy := .zero } }

/-- InvalidCommands and CommandEffects: for every command a session in which it is valid. -/
theorem witness_valid_commands :
    Valid State.reset (.loadProgram [(0xFFFF, 0xFF)] Devices.default .zero) ∧ Valid (session .paused) (.run .infinity) ∧
    Valid (session .stopped) .step ∧ Valid (session (.running .infinity)) .pause ∧ Valid (session .paused) (.stop true) ∧
    Valid (session (.running .infinity)) (.stop false) ∧
    Valid { State.reset with waitingForInput := true } (.sendKeyboardChar 0x41) ∧ Valid (session .stopped) .pressF10 ∧
    Valid (session .stopped) (.toggleSwitch 7) ∧ Valid State.reset .cleanScreen ∧
    Valid (wired { Devices.default with handshake := true }) .cleanPrinterBuffer ∧ Valid State.reset .getComputerState := by
  simp [Valid, isRunning, session, wired, State.reset, Devices.default, Params.default]

/-- InvalidCommands: and one in which it is not. -/
theorem witness_invalid_commands :
    ¬ Valid State.reset (.loadProgram [(0x10000, 0xFF)] Devices.default .zero) ∧ ¬ Valid State.reset (.run .infinity) ∧
    ¬ Valid (session (.running .infinity)) .step ∧ ¬ Valid (session .paused) .pause ∧ ¬ Valid (session .stopped) (.stop false) ∧
    ¬ Valid { State.reset with status := .paused } (.stop true) ∧ ¬ Valid State.reset (.sendKeyboardChar 0x41) ∧
    ¬ Valid State.reset .pressF10 ∧ ¬ Valid (session .stopped) (.toggleSwitch 8) ∧
    ¬ Valid (wired { Devices.default with keyboardAndScreen := false }) .cleanScreen ∧
    ¬ Valid State.reset .cleanPrinterBuffer := by
  simp [Valid, isRunning, session, wired, State.reset, Devices.default, Params.default]

/-- ResetCommands: an image with no address twice, loaded and reset to. -/
theorem witness_ResetCommands :
    let p : LoadedProgram := { image := [(0x2000, 0xFF)], devices := Devices.default, policy := .zero }
    (p.image.map Prod.fst).Nodup ∧ Valid State.reset (.loadProgram p.image p.devices p.policy) ∧
    Valid (session .paused) (.stop true) ∧ (session .paused).loaded = some p := by
  simp [Valid, isRunning, session, State.reset, Devices.default, Params.default]

/-- RunControl: a run whose core takes a sub-step, and a session that is given the command `step`. -/
theorem witness_RunControl :
    (let s : State := { session (.running .endOfInstruction) with agenda := [.core] }
     s.agenda = .core :: [] ∧ s.status = .running .endOfInstruction ∧ s.outcome = .running ∧ s.waitingForInput = false ∧
     coreSubStep none { s with agenda := [] } = .next (subStep { s with agenda := [] })) ∧
    Valid (session .stopped) .step ∧
    (let s : State := { session .stopped with status := .running .cycleChange, pauseFlag := false, reply := some .ok }
     coreSubStep none s = .next (subStep s)) := by
  refine ⟨⟨rfl, rfl, rfl, rfl, rfl⟩, ?_, rfl⟩
  simp [Valid, isRunning, session, State.reset]

/-- KeyboardRead, for both of its instructions. -/
theorem witness_KeyboardRead :
    let s : State := { session (.running .infinity) with dx := 0x0050 }
    s.dx = 0x0050 ∧ s.devices.keyboardAndScreen = true ∧ s.status = .running .infinity ∧ s.outcome = .running ∧
    s.waitingForInput = false := by
  decide

/-- EventsReplay: a step, a step that resets the machine, and a sub-step of the core. -/
theorem witness_EventsReplay :
    step State.reset = .next (stepped State.reset) ∧
    (let s : State := { State.reset with agenda := [.host (.loadProgram [] Devices.default .random)] }
     step s = .next (stepped s)) ∧
    coreStep none State.reset = .next (subStep State.reset) :=
  ⟨rfl, rfl, rfl⟩

end Sys2Proof.Tests
end

section
/-! What a step of the machine keeps of its configuration (00_scope.md R5, R6; 70_reset_and_hazards.md R458): one inversion of
`step` into the steps that do not reset the machine and the two commands that do, and the invariants that follow from it. -/

namespace Sys2Proof.Claims

open Sys2Proof.Machine Sys2Proof.Config

/-! ## Steps that do not reset the machine -/

/-- A step that is not a reset has led from `s` to `t`, whichever agent took it: `Kept`, without the fields that the host and the
schedule change. -/
structure Unreset (s t : State) : Prop where
  params : t.params = s.params
  loaded : t.loaded = s.loaded
  devices : t.devices = s.devices ∨
    (s.params.autoEnablePio = true ∧ s.devices.pio = none ∧ t.devices = { s.devices with pio := some .switchesAndLeds })
  memoryOk : s.memoryOk = true → t.memoryOk = true
  devicesOk : s.devicesOk = true → t.devicesOk = true

theorem unreset_of_kept {s t : State} (h : Kept s t) : Unreset s t :=
  ⟨h.params, h.loaded, h.devices, h.memoryOk, h.devicesOk⟩

theorem Unreset.refl (s : State) : Unreset s s := unreset_of_kept (.refl s)

/-- The auto-enable happens once at most: after it the PIO is there. -/
theorem Unreset.trans {s t u : State} (h : Unreset s t) (k : Unreset t u) : Unreset s u where
  params := k.params.trans h.params
  loaded := k.loaded.trans h.loaded
  devices := by
    have hk := k.devices
    rw [h.params] at hk
    rcases h.devices with same | ⟨_, _, enabled⟩
    · rwa [same] at hk
    · rcases hk with same | ⟨_, absent, _⟩
      · rw [same]; exact h.devices
      · rw [enabled] at absent; cases absent
  memoryOk := k.memoryOk ∘ h.memoryOk
  devicesOk := k.devicesOk ∘ h.devicesOk

/-- A step that leaves the configuration, the stored program and memory as they are, and starts no printer. -/
theorem unreset_of_eq {s t : State} (hparams : t.params = s.params) (hloaded : t.loaded = s.loaded)
    (hdevices : t.devices = s.devices) (hmem : t.mem = s.mem)
    (hbusy : t.printer.busy = s.printer.busy ∨ t.printer.busy = false) : Unreset s t where
  params := hparams
  loaded := hloaded
  devices := .inl hdevices
  memoryOk := by unfold State.memoryOk; rw [hparams, hloaded, hmem]; exact id
  devicesOk := by
    unfold State.devicesOk
    rw [hloaded, hdevices]
    rcases hbusy with same | idle
    · rw [same]; exact id
    · simp only [idle, Bool.and_eq_true]
      rintro ⟨⟨hvalid, _⟩, hprogram⟩
      exact ⟨⟨hvalid, rfl⟩, hprogram⟩

theorem unreset_assertLine (i : Nat) (s : State) : Unreset s (assertLine i s) := by
  unfold assertLine
  split
  · exact unreset_of_eq rfl rfl rfl rfl (.inl rfl)
  · exact .refl s

theorem unreset_timerTick (s : State) : Unreset s (timerTick s) := by
  unfold timerTick
  dsimp only
  split
  · refine .trans ?_ (unreset_assertLine 1 _)
    exact unreset_of_eq rfl rfl rfl rfl (.inl rfl)
  · exact unreset_of_eq rfl rfl rfl rfl (.inl rfl)

theorem unreset_printerConsume (s : State) : Unreset s (printerConsume s) := by
  unfold printerConsume handshakeDone
  dsimp only
  split
  · split
    · refine .trans ?_ (unreset_assertLine 2 _)
      exact unreset_of_eq rfl rfl rfl rfl (.inr rfl)
    · exact unreset_of_eq rfl rfl rfl rfl (.inr rfl)
  · exact unreset_of_eq rfl rfl rfl rfl (.inr rfl)

theorem unreset_impliedRun (s : State) : Unreset s (impliedRun s) := by
  unfold impliedRun
  split
  · exact unreset_of_eq rfl rfl rfl rfl (.inl rfl)
  · exact .refl s

/-! ## The commands that reset it -/

/-- What a reset command that is valid answers (R441, R446): `p` is stored, and the machine reset to it. -/
def resetTo (p : LoadedProgram) (s : State) : State :=
  accept (resetMachine p (earlierMemory s) { s with loaded := some p })

/-- A reset makes the configuration that of its program, and every device, the printer too, idle (R35, R420). -/
theorem resetTo_devicesOk {p : LoadedProgram} {s : State} (hp : p.devices.valid = true) :
    (resetTo p s).devicesOk = true := by
  simp [resetTo, accept, resetMachine, State.devicesOk, Printer.reset, hp]

/-- A command that is no `loadProgram` and no `stop(true)` resets nothing, valid or not. -/
theorem unreset_hostStep {c : HostCommand} {s t : State} (hc : ¬ resets c) (h : hostStep c s = .next t) : Unreset s t := by
  cases c <;> simp only [hostStep, Host.Outcome.next.injEq] at h
  case loadProgram => exact absurd trivial hc
  case stop resetAlso =>
    cases resetAlso with
    | true => exact absurd rfl hc
    | false =>
      subst h
      unfold stopRun
      dsimp only
      split <;> exact unreset_of_eq rfl rfl rfl rfl (.inl rfl)
  case step | sendKeyboardChar =>
    split at h
    · refine .trans ?_ (unreset_of_kept (kept_coreStep h))
      exact unreset_of_eq rfl rfl rfl rfl (.inl rfl)
    · cases h; exact unreset_of_eq rfl rfl rfl rfl (.inl rfl)
  case pressF10 =>
    subst h
    split
    · exact (unreset_assertLine 0 s).trans (unreset_of_eq rfl rfl rfl rfl (.inl rfl))
    · exact unreset_of_eq rfl rfl rfl rfl (.inl rfl)
  case getComputerState => subst h; exact unreset_of_eq rfl rfl rfl rfl (.inl rfl)
  case run | pause | toggleSwitch | cleanScreen | cleanPrinterBuffer =>
    subst h
    split <;> exact unreset_of_eq rfl rfl rfl rfl (.inl rfl)

/-- A reset command is refused, or it resets to a valid image and configuration or to the stored program (R441, R446). -/
theorem hostStep_of_resets {c : HostCommand} {s t : State} (hc : resets c) (h : hostStep c s = .next t) :
    Unreset s t ∨ ∃ p, (loadValid p s = true ∨ s.loaded = some p) ∧ t = resetTo p s := by
  have rejected : Unreset s (reject s) := unreset_of_eq rfl rfl rfl rfl (.inl rfl)
  cases c <;> simp only [hostStep, Host.Outcome.next.injEq] at h
  case loadProgram image devices policy =>
    subst h
    unfold loadProgram
    split
    next hvalid => exact .inr ⟨_, .inl hvalid, rfl⟩
    next => exact .inl rejected
  case stop resetAlso =>
    obtain rfl : resetAlso = true := hc
    subst h
    unfold stopRun
    dsimp only
    split
    · exact .inl rejected
    · cases hl : s.loaded with
      | none => exact .inl rejected
      | some p => exact .inr ⟨p, .inr rfl, rfl⟩
  all_goals exact hc.elim

/-! ## Every step -/

/-- What a step can do: it is not a reset, or it is a reset by a command of the host that was valid. -/
theorem step_cases {s t : State} (h : step s = .next t) :
    Unreset s t ∨ ∃ c rest p, s.agenda = .host c :: rest ∧ resets c ∧
      (loadValid p { s with agenda := rest } = true ∨ s.loaded = some p) ∧ t = resetTo p { s with agenda := rest } := by
  have instruction {u : State} (hu : Unreset s u) (hi : instructionStep (impliedRun u) = .next t) : Unreset s t :=
    (hu.trans (unreset_impliedRun u)).trans (unreset_of_kept (kept_instructionStep hi))
  unfold step at h
  split at h
  next => exact .inl (instruction (.refl s) h)
  next a rest hagenda =>
    have popped : Unreset s { s with agenda := rest } := unreset_of_eq rfl rfl rfl rfl (.inl rfl)
    cases a <;> simp only [agentStep] at h
    case core =>
      split at h
      · exact .inl (popped.trans (unreset_of_kept (kept_coreStep h)))
      · cases h
    case instruction => exact .inl (instruction popped h)
    case timerTick =>
      split at h
      · cases h; exact .inl (popped.trans (unreset_timerTick _))
      · cases h
    case printerConsume =>
      split at h
      · cases h; exact .inl (popped.trans (unreset_printerConsume _))
      · cases h
    case host c =>
      by_cases hc : resets c
      · rcases hostStep_of_resets hc h with unreset | ⟨p, hp, rfl⟩
        · exact .inl (popped.trans unreset)
        · exact .inr ⟨c, rest, p, hagenda, hc, hp, rfl⟩
      · exact .inl (popped.trans (unreset_hostStep hc h))

/-- Settles O50: a step that is no reset keeps the device invariant, and a reset is to a configuration that `loadProgram` has
found valid, now or when the program was stored. -/
theorem deviceInvariant : Obligations.DeviceInvariant := by
  intro s t hs h
  rcases step_cases h with unreset | ⟨c, rest, p, _, _, hp, rfl⟩
  · exact unreset.devicesOk hs
  · apply resetTo_devicesOk
    rcases hp with hvalid | hstored
    · simp only [loadValid, Bool.and_eq_true] at hvalid
      obtain ⟨⟨_, hdevices⟩, _⟩ := hvalid
      exact hdevices
    · simp only [State.devicesOk, hstored, Bool.and_eq_true] at hs
      obtain ⟨_, hdevices⟩ := hs
      exact hdevices

/-- Settles O54: a reset keeps the parameters, and is one of the two commands that may change the configuration. -/
theorem configurationFixed : Obligations.ConfigurationFixed := by
  intro s t h
  rcases step_cases h with unreset | ⟨c, rest, p, hagenda, hc, _, rfl⟩
  · exact ⟨unreset.params, unreset.devices.imp_right .inl⟩
  · exact ⟨rfl, .inr (.inr ⟨c, rest, hagenda, hc⟩)⟩

end Sys2Proof.Claims
end

section
/-! The state after reset (10_state.md R25 to R37), and the memory half of the invariant along every step: a step that is no reset
keeps it, and a reset starts from a memory that meets it and writes an image whose addresses all exist. -/

namespace Sys2Proof.Claims

open Sys2Proof.Machine Sys2Proof.Config

/-! ## The memory invariant, taken apart -/

theorem memoryOk_iff (s : State) :
    s.memoryOk = true ↔ s.params.ok = true ∧ s.mem.wf = true ∧
      s.mem.cells.all (fun c => decide (c.1 < s.params.memSize)) = true ∧
      ∀ p, s.loaded = some p → p.image.all (fun c => decide (c.1 < s.params.memSize)) = true := by
  unfold State.memoryOk
  cases s.loaded <;> simp [and_assoc]

/-! ## Memory at a reset (R34, R421) -/

/-- The memory that a reset starts from is empty or the earlier one, so it lists no cell that the earlier one does not. -/
theorem initMemory_below {n : Nat} (policy : MemoryInitPolicy) (draw : Nat) {earlier : Option Memory}
    (h : ∀ m, earlier = some m → m.cells.all (fun c => decide (c.1 < n)) = true) :
    (initMemory policy draw earlier).cells.all (fun c => decide (c.1 < n)) = true := by
  cases policy with
  | zero => rfl
  | random => rfl
  | preserve =>
    cases earlier with
    | none => rfl
    | some m => exact h m rfl

theorem writeAll_below {n : Nat} {image : List Host.Cell} {m : Memory}
    (himage : image.all (fun c => decide (c.1 < n)) = true) (h : m.cells.all (fun c => decide (c.1 < n)) = true) :
    (m.writeAll image).cells.all (fun c => decide (c.1 < n)) = true := by
  induction image generalizing m with
  | nil => exact h
  | cons c rest ih =>
    simp only [List.all_cons, Bool.and_eq_true, decide_eq_true_eq] at himage
    obtain ⟨hc, hrest⟩ := himage
    exact ih hrest (write_below hc h)

theorem earlierMemory_eq {s : State} {m : Memory} (h : earlierMemory s = some m) : m = s.mem := by
  rcases earlierMemory_cases s with ⟨_, he⟩ | ⟨_, he⟩ <;> rw [he] at h <;> cases h
  rfl

/-- A reset to a program whose image lies inside memory keeps the memory invariant, whatever its policy does with the content. -/
theorem resetTo_memoryOk {p : LoadedProgram} {s : State} (hs : s.memoryOk = true)
    (hp : p.image.all (fun c => decide (c.1 < s.params.memSize)) = true) : (resetTo p s).memoryOk = true := by
  obtain ⟨hparams, hwf, hbelow, _⟩ := (memoryOk_iff s).1 hs
  refine (memoryOk_iff _).2 ⟨hparams, ?canonical, ?below, ?stored⟩
  case canonical =>
    exact Memory.wf_writeAll _ (Memory.wf_initMemory _ _ fun m hm => by rw [earlierMemory_eq hm]; exact hwf)
  case below =>
    exact writeAll_below hp (initMemory_below _ _ fun m hm => by rw [earlierMemory_eq hm]; exact hbelow)
  case stored =>
    rintro _ ⟨⟩
    exact hp

/-- Settles O49: a step that is no reset keeps the memory invariant, and a reset is to an image that `loadProgram` has found
inside memory, now or when the program was stored. -/
theorem memoryInvariant : Obligations.MemoryInvariant := by
  intro s t hs h
  rcases step_cases h with unreset | ⟨c, rest, p, _, _, hp, rfl⟩
  · exact unreset.memoryOk hs
  · refine resetTo_memoryOk hs ?_
    rcases hp with hvalid | hstored
    · simp only [loadValid, Bool.and_eq_true] at hvalid
      obtain ⟨_, himage⟩ := hvalid
      exact himage
    · obtain ⟨_, _, _, hprogram⟩ := (memoryOk_iff s).1 hs
      exact hprogram p hstored

/-! ## The state after reset -/

/-- No cell is listed and nothing is stored, so the memory invariant asks only that MEM_SIZE is in its range. -/
theorem reset_memoryOk : State.reset.memoryOk = true :=
  (memoryOk_iff _).2 ⟨by decide, State.reset_memory_wf, rfl, fun _ h => by cases h⟩

theorem reset_devicesOk : State.reset.devicesOk = true := by decide

theorem reset_cycleOk : State.reset.cycleOk = true := by decide

/-- Settles O48: the fields are read off `State.reset`, and the invariants hold in it. -/
theorem resetState : Obligations.ResetState :=
  ⟨rfl, rfl, rfl, rfl, rfl, rfl, rfl, rfl, rfl, rfl, rfl, rfl, rfl, rfl, rfl, rfl, reset_memoryOk, reset_devicesOk, reset_cycleOk⟩

end Sys2Proof.Claims
end

section
/-! The bus and the agents beside the core: which ports the chip-select decoder resolves (20_memory.md R70 to R73), one byte on the
memory bus (R62, R66 to R68), and what the timer, the printer and the host leave of the core (R80). -/

namespace Sys2Proof.Machine

/-! ## The chip-select decoder -/

/-- The ports of a register's device (R71), where the keyboard and the screen have one each. -/
def DeviceReg.deviceHasPort (p : Nat) : DeviceReg → Prop
  | .cont | .comp => 0x10 ≤ p ∧ p ≤ 0x11
  | .eoi | .imr | .irr | .isr | .intVector _ => 0x20 ≤ p ∧ p ≤ 0x2B
  | .pa | .pb | .ca | .cb => 0x30 ≤ p ∧ p ≤ 0x33
  | .data | .state => 0x40 ≤ p ∧ p ≤ 0x41
  | .key => p = 0x50
  | .screen => p = 0x60

theorem deviceHasPort_of_portRegister {p : Nat} {r : DeviceReg} (h : portRegister p = some r) : r.deviceHasPort p := by
  unfold portRegister at h
  split at h <;> cases h <;> simp [DeviceReg.deviceHasPort]

/-- A port is refused when it names no register, or the register of an absent device that the auto-enable does not bring. -/
theorem resolve_eq_none_iff (p : Nat) (s : State) :
    resolve p s = none ↔
      ∀ r, portRegister p = some r →
        r.present s.devices = false ∧ (r.isPio = true → s.params.autoEnablePio = false) := by
  unfold resolve
  cases portRegister p with
  | none => simp
  | some r => cases hpresent : r.present s.devices <;> simp [hpresent]

/-! ## One byte on the memory bus -/

theorem busAccess_memory_read {a : Nat} {s : State} (key : Option Byte) (h : a < s.params.memSize) :
    busAccess { space := .memory, address := a, data := none } key s = .ok (s.mem.read a) s := by
  simp only [busAccess, h, if_true]

theorem busAccess_memory_write {a : Nat} {s : State} (v : Byte) (key : Option Byte) (h : a < s.params.memSize) :
    busAccess { space := .memory, address := a, data := some v } key s = .ok v { s with mem := s.mem.write a v } := by
  simp only [busAccess, h, if_true]

theorem busAccess_memory_outOfRange {a : Nat} {s : State} (data : Option Byte) (key : Option Byte)
    (h : ¬ a < s.params.memSize) :
    busAccess { space := .memory, address := a, data := data } key s = .error .addressOutOfRange := by
  simp only [busAccess, h, if_false]

end Sys2Proof.Machine

namespace Sys2Proof.Claims

open Sys2Proof.Machine Sys2Proof.Config

/-- A claimed port names a register of a present device, and only such a port does. -/
theorem claimed_iff (d : Devices) (p : Nat) : claimed d p ↔ ∃ r, portRegister p = some r ∧ r.present d = true := by
  constructor
  · rintro (⟨hpic, ⟨hlo, hhi⟩ | ⟨hlo, hhi⟩⟩ | ⟨hpio, hlo, hhi⟩ | ⟨hhandshake, hlo, hhi⟩ | ⟨hkeyboard, rfl | rfl⟩)
    · interval_cases p <;> exact ⟨_, rfl, hpic⟩
    · interval_cases p <;> exact ⟨_, rfl, hpic⟩
    · interval_cases p <;> exact ⟨_, rfl, Option.isSome_iff_ne_none.2 hpio⟩
    · interval_cases p <;> exact ⟨_, rfl, hhandshake⟩
    · exact ⟨.key, rfl, hkeyboard⟩
    · exact ⟨.screen, rfl, hkeyboard⟩
  · rintro ⟨r, hr, hpresent⟩
    have hport := deviceHasPort_of_portRegister hr
    cases r with
    | cont | comp => exact .inl ⟨hpresent, .inl hport⟩
    | eoi | imr | irr | isr | intVector => exact .inl ⟨hpresent, .inr hport⟩
    | pa | pb | ca | cb => exact .inr (.inl ⟨Option.isSome_iff_ne_none.1 hpresent, hport⟩)
    | data | state => exact .inr (.inr (.inl ⟨hpresent, hport⟩))
    | key => exact .inr (.inr (.inr ⟨hpresent, .inl hport⟩))
    | screen => exact .inr (.inr (.inr ⟨hpresent, .inr hport⟩))

/-- An unclaimed port is refused wherever the auto-enable cannot bring the PIO to it. -/
theorem resolve_eq_none_of_not_claimed {s : State} {p : Nat} (h : ¬ claimed s.devices p)
    (hauto : 0x30 ≤ p ∧ p ≤ 0x33 → s.params.autoEnablePio = false) : resolve p s = none := by
  refine (resolve_eq_none_iff p s).2 fun r hr => ⟨?_, fun hpio => hauto ?_⟩
  · exact Bool.eq_false_iff.2 fun hpresent => h ((claimed_iff _ _).2 ⟨r, hr, hpresent⟩)
  · have hport := deviceHasPort_of_portRegister hr
    cases r with
    | pa | pb | ca | cb => exact hport
    | _ => cases hpio

/-- Settles O38: the decoder resolves the register that a claimed port names, and refuses an unclaimed port out of the reach of
the auto-enable. -/
theorem portDecode : Obligations.PortDecode := by
  intro s p
  refine ⟨fun h => ?_, fun h hoff => ?_, fun h hnotPio => ?_⟩
  · obtain ⟨r, hr, hpresent⟩ := (claimed_iff _ _).1 h
    exact ⟨r, resolve_of_present hr hpresent⟩
  · exact resolve_eq_none_of_not_claimed h fun _ => hoff
  · exact resolve_eq_none_of_not_claimed h fun hpio => absurd hpio hnotPio

/-! ## Memory -/

theorem stores_write (m : Memory) (a : Nat) (v : Byte) : Stores m (m.write a v) [(a, v)] := by
  intro b
  by_cases h : b = a
  · simp [h]
  · have hne : (b == a) = false := beq_eq_false_iff_ne.2 h
    simp [List.lookup_cons, h, hne]

/-- Settles O47: the bus reads and writes memory below MEM_SIZE only, and there it inherits the laws of one memory write. -/
theorem memoryBytes : Obligations.MemoryBytes := by
  intro s a v key
  refine ⟨fun h => ⟨busAccess_memory_read key h, ?write⟩, fun h => ?outOfRange⟩
  case write =>
    exact ⟨s.mem.write a v, busAccess_memory_write v key h, stores_write s.mem a v, fun hwf => Memory.wf_write hwf a v⟩
  case outOfRange => exact ⟨busAccess_memory_outOfRange _ key h, busAccess_memory_outOfRange _ key h⟩

/-! ## The agents beside the core -/

theorem SameCore.refl (s : State) : SameCore s s := ⟨rfl, rfl, rfl, rfl, rfl, rfl, rfl, rfl, rfl, rfl, rfl, rfl⟩

theorem sameCore_assertLine (i : Nat) (s : State) : SameCore s (assertLine i s) := by simp [SameCore]

theorem sameCore_timerTick (s : State) : SameCore s (timerTick s) := by
  unfold timerTick
  dsimp only
  split
  · exact sameCore_assertLine 1 { s with timer := { s.timer with cont := 0 } }
  · exact .refl s

theorem sameCore_printerConsume (s : State) : SameCore s (printerConsume s) := by
  unfold printerConsume handshakeDone
  dsimp only
  split
  · split
    · exact sameCore_assertLine 2
        { s with printer := { s.printer with paper := s.printer.paper ++ [s.printer.pending], busy := false } }
    · exact .refl s
  · exact .refl s

/-- The host commands that neither reset the machine nor hand the core a sub-step change the session and the devices only. -/
theorem sameCore_hostStep {c : HostCommand} {s t : State} (hstep : c ≠ .step) (hkey : ∀ ch, c ≠ .sendKeyboardChar ch)
    (hresets : ¬ resets c) (h : hostStep c s = .next t) : SameCore s t := by
  cases c <;> simp only [hostStep, Host.Outcome.next.injEq] at h
  case loadProgram => exact absurd trivial hresets
  case step => exact absurd rfl hstep
  case sendKeyboardChar ch => exact absurd rfl (hkey ch)
  case stop resetAlso =>
    cases resetAlso with
    | true => exact absurd rfl hresets
    | false =>
      subst h
      unfold stopRun
      dsimp only
      split <;> exact .refl s
  case pressF10 =>
    subst h
    split
    · exact sameCore_assertLine 0 s
    · exact .refl s
  case getComputerState => subst h; exact .refl s
  case run | pause | toggleSwitch | cleanScreen | cleanPrinterBuffer =>
    subst h
    split <;> exact .refl s

/-- Settles O53: of the agents that are not the core, each changes the fields of its own device or of the session; taking the
step off the schedule changes no field of the core either. -/
theorem otherAgentsSpareTheCore : Obligations.OtherAgentsSpareTheCore := by
  intro s t a rest hagenda h hcore hinstruction hstep hkey hresets
  simp only [step, hagenda] at h
  show SameCore { s with agenda := rest } t
  cases a <;> simp only [agentStep] at h
  case core => exact absurd rfl hcore
  case instruction => exact absurd rfl hinstruction
  case timerTick =>
    split at h
    · cases h; exact sameCore_timerTick _
    · cases h
  case printerConsume =>
    split at h
    · cases h; exact sameCore_printerConsume _
    · cases h
  case host c =>
    exact sameCore_hostStep (fun hc => hstep (congrArg _ hc)) (fun ch hc => hkey ch (congrArg _ hc)) (hresets c rfl) h

end Sys2Proof.Claims
end

section
/-! The encoding in both directions (30_encoding.md R100 to R113). Byte 0 and the opcode determine each other; a field's bytes and the
operand it carries determine each other; and the fields of an instruction carry different operands, so that the two halves put
together give the instruction and its bytes back. -/

namespace Sys2Proof

open Sys2Proof.Claims

/-! ## Byte 0 (R101, R111) -/

/-- Every opcode has a byte 0 that decodes to it. -/
theorem decodeOpcode_opcodeByte (oc : Opcode) : decodeOpcode (opcodeByte oc) = some oc := by
  cases oc with
  | bin o f w => cases o <;> cases f <;> cases w <;> rfl
  | un u f w => cases u <;> cases f <;> cases w <;> rfl
  | push r | pop r => cases r <;> rfl
  | jcc cond => cases cond <;> rfl
  | inp dx w | out dx w => cases dx <;> cases w <;> rfl
  | _ => rfl

/-- The table of byte 0, row by row: a byte decodes to no opcode but the one whose byte 0 it is. -/
theorem opcodeByte_of_decodeOpcode {op : Byte} {oc : Opcode} (h : decodeOpcode op = some oc) : opcodeByte oc = op := by
  have table : ∀ op : Byte, (decodeOpcode op).all (fun oc => opcodeByte oc == op) = true := by decide
  have row := table op
  rw [h] at row
  exact eq_of_beq row

/-- The table of byte 0, row by row: the bytes that decode to no opcode are those of R112 item 1. -/
theorem decodeOpcode_eq_none_iff (op : Byte) : decodeOpcode op = none ↔ illegalOpcode op.toNat := by
  revert op
  unfold illegalOpcode
  decide

/-- The fields that follow a byte 0 take the bytes that R113 counts. -/
theorem opcodeLength_eq_lengthOf (oc : Opcode) : opcodeLength oc = lengthOf (opcodeByte oc).toNat := by
  cases oc with
  | bin o f w => cases o <;> cases f <;> cases w <;> rfl
  | un u f w => cases u <;> cases f <;> cases w <;> rfl
  | push r | pop r => cases r <;> rfl
  | jcc cond => cases cond <;> rfl
  | inp dx w | out dx w => cases dx <;> cases w <;> rfl
  | _ => rfl

/-- Settles O4: a byte 0 decodes unless it is illegal, and then it is the byte 0 of the opcode it decodes to. -/
theorem opcodeMap : Obligations.OpcodeMap := by
  intro op
  refine ⟨(decodeOpcode_eq_none_iff op).2, fun legal => ?_⟩
  obtain ⟨oc, hoc⟩ := Option.ne_none_iff_exists'.1 fun h => legal ((decodeOpcode_eq_none_iff op).1 h)
  refine ⟨oc, hoc, ?_⟩
  rw [opcodeLength_eq_lengthOf, opcodeByte_of_decodeOpcode hoc]

/-! ## Register bytes and words (R104, R63) -/

theorem rbA_toNat (rb : Byte) : (rbA rb).toNat = rb.toNat / 8 % 8 := by
  simp [rbA, Nat.shiftRight_eq_div_pow]

theorem rbB_toNat (rb : Byte) : (rbB rb).toNat = rb.toNat % 8 := by
  simp [rbB]

theorem rrByte_toNat (a b : RegNum) : (rrByte a b).toNat = 8 * a.toNat + b.toNat := by
  have ha := a.isLt
  have hb := b.isLt
  rw [rrByte, BitVec.toNat_ofNat]
  omega

theorem rByte_toNat (r : RegNum) : (rByte r).toNat = r.toNat := by
  have hr := r.isLt
  rw [rByte, BitVec.toNat_setWidth]
  omega

/-- Layout RR: bits 7:6 are 00, and both numbers name registers (R112 items 2 and 3). -/
theorem rrLegal_iff (w : Width) (rb : Byte) :
    rrLegal w rb = true ↔ rb.toNat < 64 ∧ regLegal w (rbA rb) = true ∧ regLegal w (rbB rb) = true := by
  have upper : rb.extractLsb' 6 2 = 0#2 ↔ rb.toNat < 64 := by
    have hrb := rb.isLt
    rw [← BitVec.toNat_inj, BitVec.extractLsb'_toNat, Nat.shiftRight_eq_div_pow, BitVec.toNat_ofNat]
    omega
  simp [rrLegal, upper, and_assoc]

/-- Layout R: bits 7:3 are 00000, and the number names a register (R112 items 2 and 3). -/
theorem rLegal_iff (w : Width) (rb : Byte) : rLegal w rb = true ↔ rb.toNat < 8 ∧ regLegal w (rbB rb) = true := by
  have upper : rb.extractLsb' 3 5 = 0#5 ↔ rb.toNat < 8 := by
    have hrb := rb.isLt
    rw [← BitVec.toNat_inj, BitVec.extractLsb'_toNat, Nat.shiftRight_eq_div_pow, BitVec.toNat_ofNat]
    omega
  simp [rLegal, upper]

/-- A legal register byte of layout RR is the one its two numbers spell. -/
theorem rrByte_of_rrLegal {w : Width} {rb : Byte} (h : rrLegal w rb = true) : rrByte (rbA rb) (rbB rb) = rb := by
  obtain ⟨hrb, _, _⟩ := (rrLegal_iff w rb).1 h
  apply BitVec.eq_of_toNat_eq
  rw [rrByte_toNat, rbA_toNat, rbB_toNat]
  omega

/-- A legal register byte of layout R is the one its number spells. -/
theorem rByte_of_rLegal {w : Width} {rb : Byte} (h : rLegal w rb = true) : rByte (rbB rb) = rb := by
  obtain ⟨hrb, _⟩ := (rLegal_iff w rb).1 h
  apply BitVec.eq_of_toNat_eq
  rw [rByte_toNat, rbB_toNat]
  omega

theorem rrLegal_rrByte (w : Width) (a b : RegNum) : rrLegal w (rrByte a b) = (regLegal w a && regLegal w b) := by
  have hlt : (rrByte a b).toNat < 64 := by rw [rrByte_toNat]; omega
  rw [Bool.eq_iff_iff, rrLegal_iff]
  simp [hlt]

theorem rLegal_rByte (w : Width) (r : RegNum) : rLegal w (rByte r) = regLegal w r := by
  have hlt : (rByte r).toNat < 8 := by rw [rByte_toNat]; omega
  rw [Bool.eq_iff_iff, rLegal_iff]
  simp [hlt]

theorem concat_high_low (v : Word) : concat (high v) (low v) = v := by
  apply BitVec.eq_of_toNat_eq
  rw [concat_toNat, high_toNat, low_toNat]
  omega

theorem low_concat (hi lo : Byte) : low (concat hi lo) = lo := by
  apply BitVec.eq_of_toNat_eq
  rw [low_toNat, concat_toNat]
  omega

theorem high_concat (hi lo : Byte) : high (concat hi lo) = hi := by
  apply BitVec.eq_of_toNat_eq
  rw [high_toNat, concat_toNat]
  omega

theorem zext_low {v : Word} (h : immFits .w8 v = true) : zext (low v) = v := by
  have hv : v.toNat < 256 := of_decide_eq_true h
  apply BitVec.eq_of_toNat_eq
  rw [zext_toNat, low_toNat]
  omega

theorem immFits_zext (v : Byte) : immFits .w8 (zext v) = true := by
  rw [immFits, zext_toNat]
  exact decide_eq_true v.isLt

/-! ## One field (R104 to R110) -/

/-- The operand values `y` with the field's own taken from `x`. -/
def Field.put (f : Field) (x y : Operands) : Operands :=
  match f with
  | .rr _ => { y with a := x.a, b := x.b }
  | .r _ => { y with b := x.b }
  | .addr => { y with addr := x.addr }
  | .imm8 | .imm16 | .vec | .port => { y with imm := x.imm }

/-- The field can hold its operand value: `Operands.fit`, one field at a time. -/
def Field.fits (x : Operands) : Field → Bool
  | .rr w => regLegal w x.a && regLegal w x.b
  | .r w => regLegal w x.b
  | .addr | .imm16 => true
  | .imm8 | .vec | .port => immFits .w8 x.imm

/-- Reading the bytes of a field that can hold its value gives the value back. -/
theorem decodeField_encodeField {f : Field} {x : Operands} (op : Byte) (rest : List Byte) (y : Operands)
    (h : f.fits x = true) : decodeField op f (encodeField x f ++ rest) y = .ok (f.put x y, rest) := by
  cases f with
  | rr w => simp [decodeField, encodeField, Field.put, rrLegal_rrByte, show (regLegal w x.a && regLegal w x.b) = true from h]
  | r w => simp [decodeField, encodeField, Field.put, rLegal_rByte, show regLegal w x.b = true from h]
  | addr | imm16 => simp [decodeField, encodeField, Field.put, concat_high_low]
  | imm8 | vec | port => simp [decodeField, encodeField, Field.put, zext_low h]

/-- A field that has been read is the one spelling of a value that it can hold, and has changed no other operand. -/
theorem decodeField_ok {op : Byte} {f : Field} {bytes rest : List Byte} {y z : Operands}
    (h : decodeField op f bytes y = .ok (z, rest)) :
    f.fits z = true ∧ bytes = encodeField z f ++ rest ∧ z = f.put z y := by
  cases f with
  | rr w =>
    rcases bytes with _ | ⟨rb, bytes⟩ <;> simp only [decodeField] at h
    · cases h
    · split at h
      next legal =>
        cases h
        obtain ⟨_, ha, hb⟩ := (rrLegal_iff w rb).1 legal
        exact ⟨by simp [Field.fits, ha, hb], by simp [encodeField, rrByte_of_rrLegal legal], rfl⟩
      next => cases h
  | r w =>
    rcases bytes with _ | ⟨rb, bytes⟩ <;> simp only [decodeField] at h
    · cases h
    · split at h
      next legal =>
        cases h
        obtain ⟨_, hb⟩ := (rLegal_iff w rb).1 legal
        exact ⟨hb, by simp [encodeField, rByte_of_rLegal legal], rfl⟩
      next => cases h
  | addr | imm16 =>
    rcases bytes with _ | ⟨lo, _ | ⟨hi, bytes⟩⟩ <;> simp only [decodeField] at h <;> cases h
    exact ⟨rfl, by simp [encodeField, low_concat, high_concat], rfl⟩
  | imm8 | vec | port =>
    rcases bytes with _ | ⟨v, bytes⟩ <;> simp only [decodeField] at h <;> cases h
    exact ⟨immFits_zext v, by simp [encodeField, low_zext], rfl⟩

/-! ## The fields of an instruction -/

/-- Which of its operands a field carries. -/
inductive Carried where
  | registers
  | address
  | immediate

def Field.carried : Field → Carried
  | .rr _ | .r _ => .registers
  | .addr => .address
  | .imm8 | .imm16 | .vec | .port => .immediate

/-- Two fields that carry different operands. -/
def Field.Apart (f g : Field) : Prop := f.carried ≠ g.carried

/-- The operand values `y` with those that the fields carry taken from `x`. -/
def putFields (fs : List Field) (x y : Operands) : Operands := fs.foldl (fun y f => f.put x y) y

/-- A layout names an operand once. -/
theorem layout_apart (oc : Opcode) : (layout oc).Pairwise Field.Apart := by
  cases oc with
  | bin o f w => cases f <;> cases w <;> simp [layout, immField, Field.Apart, Field.carried]
  | un u f w => cases f <;> simp [layout]
  | inp dx w | out dx w => cases dx <;> simp [layout]
  | _ => simp [layout]

/-- A field that carries another operand leaves what this field carries: its bytes, whether they fit, and what it puts. -/
theorem Field.put_apart {f g : Field} (h : f.Apart g) (x y : Operands) :
    encodeField (g.put x y) f = encodeField y f ∧ f.fits (g.put x y) = f.fits y ∧
      ∀ z, f.put (g.put x y) z = f.put y z := by
  cases f <;> cases g <;> first | exact absurd rfl h | exact ⟨rfl, rfl, fun _ => rfl⟩

theorem Field.putFields_apart {f : Field} {fs : List Field} (h : ∀ g ∈ fs, f.Apart g) (x y : Operands) :
    encodeField (putFields fs x y) f = encodeField y f ∧ f.fits (putFields fs x y) = f.fits y ∧
      ∀ z, f.put (putFields fs x y) z = f.put y z := by
  induction fs generalizing y with
  | nil => exact ⟨rfl, rfl, fun _ => rfl⟩
  | cons g fs ih =>
    obtain ⟨hg, hfs⟩ := List.forall_mem_cons.1 h
    obtain ⟨bytes, fits, put⟩ := Field.put_apart hg x y
    obtain ⟨bytes', fits', put'⟩ := ih hfs (g.put x y)
    exact ⟨bytes'.trans bytes, fits'.trans fits, fun z => (put' z).trans (put z)⟩

theorem decodeFields_encodeField {x : Operands} {fs : List Field} (op : Byte) (rest : List Byte) (y : Operands)
    (h : fs.all (Field.fits x) = true) :
    decodeFields op fs (fs.flatMap (encodeField x) ++ rest) y = .ok (putFields fs x y, rest) := by
  induction fs generalizing y with
  | nil => rfl
  | cons f fs ih =>
    rw [List.all_cons, Bool.and_eq_true] at h
    obtain ⟨hf, hfs⟩ := h
    rw [List.flatMap_cons, List.append_assoc, decodeFields, decodeField_encodeField op _ y hf]
    exact ih (f.put x y) hfs

/-- The fields after the first one carry other operands, so the first one's value still stands when they have been read. -/
theorem decodeFields_ok {op : Byte} {fs : List Field} {bytes rest : List Byte} {y z : Operands}
    (apart : fs.Pairwise Field.Apart) (h : decodeFields op fs bytes y = .ok (z, rest)) :
    fs.all (Field.fits z) = true ∧ bytes = fs.flatMap (encodeField z) ++ rest ∧ z = putFields fs z y := by
  induction fs generalizing bytes y with
  | nil => cases h; exact ⟨rfl, rfl, rfl⟩
  | cons f fs ih =>
    obtain ⟨hf, hfs⟩ := List.pairwise_cons.1 apart
    rw [decodeFields] at h
    split at h
    next y' bytes' hfield =>
      obtain ⟨fits, hbytes, hy'⟩ := decodeField_ok hfield
      obtain ⟨allFit, hbytes', hz⟩ := ih hfs h
      obtain ⟨sameBytes, sameFit, samePut⟩ := Field.putFields_apart hf z y'
      rw [← hz] at sameBytes sameFit samePut
      refine ⟨?_, ?_, ?_⟩
      · rw [List.all_cons, sameFit, fits, allFit]; rfl
      · rw [hbytes, hbytes', List.flatMap_cons, sameBytes, List.append_assoc]
      · show z = putFields fs z (f.put z y)
        rw [samePut, ← hy']
        exact hz
    next => cases h

/-! ## The whole instruction -/

/-- Operand values fit an opcode when they fit the fields of its layout. -/
theorem fit_eq_all_fits (x : Operands) (oc : Opcode) : x.fit oc = (layout oc).all (Field.fits x) := by
  cases oc with
  | bin o f w => cases f <;> cases w <;> simp [Operands.fit, layout, immField, Field.fits, immFits]
  | un u f w => cases f <;> simp [Operands.fit, layout, Field.fits]
  | inp dx w | out dx w => cases dx <;> simp [Operands.fit, layout, Field.fits]
  | _ => simp [Operands.fit, layout, Field.fits]

/-- An instruction is its opcode with its operand values. -/
theorem ofParts_opcode_operands (i : Instr) : Instr.ofParts i.opcode i.operands = i := by
  cases i with
  | int n => exact congrArg Instr.int (low_zext n)
  | inAlPort p => exact congrArg Instr.inAlPort (low_zext p)
  | inAxPort p => exact congrArg Instr.inAxPort (low_zext p)
  | outPortAl p => exact congrArg Instr.outPortAl (low_zext p)
  | outPortAx p => exact congrArg Instr.outPortAx (low_zext p)
  | _ => rfl

theorem opcode_ofParts (oc : Opcode) (x : Operands) : (Instr.ofParts oc x).opcode = oc := by
  cases oc with
  | bin o f w => cases o <;> cases f <;> rfl
  | un u f w => cases u <;> cases f <;> rfl
  | jcc cond => cases cond <;> rfl
  | inp dx w | out dx w => cases dx <;> cases w <;> rfl
  | _ => rfl

/-- An instruction keeps, of operand values that fit, those that its fields carry. -/
theorem operands_ofParts {oc : Opcode} {x : Operands} (h : x.fit oc = true) :
    (Instr.ofParts oc x).operands = putFields (layout oc) x { } := by
  have byte (hv : immFits .w8 x.imm = true) : (x.imm.setWidth 8).setWidth 16 = x.imm := zext_low hv
  cases oc with
  | bin o f w => cases o <;> cases f <;> cases w <;> rfl
  | un u f w => cases u <;> cases f <;> rfl
  | jcc cond => cases cond <;> rfl
  | int => exact congrArg (fun v => ({ imm := v } : Operands)) (byte h)
  | inp dx w | out dx w =>
    cases dx with
    | true => cases w <;> rfl
    | false => cases w <;> exact congrArg (fun v => ({ imm := v } : Operands)) (byte h)
  | _ => rfl

/-- Settles O1: byte 0 gives the opcode back, the fields give back the operands they carry, and the instruction has no others. -/
theorem decodeOfEncode : Obligations.DecodeOfEncode := by
  intro i rest hwf
  have fits := (fit_eq_all_fits i.operands i.opcode).symm.trans hwf
  have fields := decodeFields_encodeField (opcodeByte i.opcode) rest { } fits
  rw [← operands_ofParts hwf, ofParts_opcode_operands] at fields
  simp only [encode, List.cons_append, decode, decodeOpcode_opcodeByte, fields, ofParts_opcode_operands]

/-- Settles O2: the byte read first is the opcode's one byte 0, and the fields read are the one spelling of their operands. -/
theorem encodeOfDecode : Obligations.EncodeOfDecode := by
  intro i bytes rest h
  rcases bytes with _ | ⟨op, bytes⟩
  · cases h
  · rw [decode] at h
    split at h
    next => cases h
    next oc hoc =>
      split at h
      next x rest' hfields =>
        cases h
        obtain ⟨fits, hbytes, hx⟩ := decodeFields_ok (layout_apart oc) hfields
        rw [← fit_eq_all_fits] at fits
        have operands : (Instr.ofParts oc x).operands = x := (operands_ofParts fits).trans hx.symm
        refine ⟨?_, ?_⟩
        · rw [Instr.wf, operands, opcode_ofParts, fits]
        · rw [encode, operands, opcode_ofParts, opcodeByte_of_decodeOpcode hoc, hbytes]
          rfl
      next => cases h

end Sys2Proof
end

section
/-! The fault of an illegal encoding (30_encoding.md R112): the fetch of the offending byte answers `raiseIllegal` from the state with
IP past that byte, and nothing but the metadata of the instruction is written before it. -/

namespace Sys2Proof.Machine

open Sys2Proof.Config

/-! ## Fetching a byte (40_instruction_cycle.md R146) -/

theorem advanceIP_ok {s : State} {k : State → Flow} (h : s.ip ≠ 0xFFFF) : advanceIP s k = k { s with ip := s.ip + 1 } :=
  if_neg h

theorem fetchByte_ok {s : State} {k : Byte → State → Flow} (hmem : s.ip.toNat < s.params.memSize) (hip : s.ip ≠ 0xFFFF) :
    fetchByte s k = k (s.mem.read s.ip.toNat) { s with ip := s.ip + 1 } := by
  rw [fetchByte, busRead_memory_ok hmem, advanceIP_ok hip]

theorem fetchStep_illegal {s : State} (hmem : s.ip.toNat < s.params.memSize) (hip : s.ip ≠ 0xFFFF)
    (h : decodeOpcode (s.mem.read s.ip.toNat) = none) :
    fetchStep s =
      raiseIllegal { s with ip := s.ip + 1, md := { start := some s.ip, op := some (s.mem.read s.ip.toNat) } } := by
  simp only [fetchStep]
  rw [busRead_memory_ok (by exact hmem), advanceIP_ok (by exact hip)]
  simp only [h]
  rfl

theorem coreSubStep_fetching {key : Option Byte} {s : State} (h : s.phase = .fetching) :
    coreSubStep key s = .next (fetchStep s) := by
  simp only [coreSubStep, h]

theorem coreSubStep_fetchingOperands {key : Option Byte} {s : State} {oc : Opcode} (h : s.phase = .fetchingOperands)
    (hoc : currentOpcode s = some oc) : coreSubStep key s = phaseStep key (reads oc) (State.enter .executing) s := by
  simp only [coreSubStep, h, hoc]

/-! ## Fetching a register byte -/

/-- The action fetches a register byte, and the byte is illegal in its layout. -/
inductive Act.Refuses (b : Byte) : Act → Prop where
  | rr {w : Width} (h : rrLegal w b = false) : Act.Refuses b (.fetchRR w)
  | r {w : Width} (h : rLegal w b = false) : Act.Refuses b (.fetchR w)

theorem Act.Refuses.run_eq {act : Act} {s : State} (h : act.Refuses (s.mem.read s.ip.toNat)) (key : Option Byte)
    (hmem : s.ip.toNat < s.params.memSize) (hip : s.ip ≠ 0xFFFF) :
    act.run key s =
      .stop (raiseIllegal { s with ip := s.ip + 1, md := { s.md with rb := some (s.mem.read s.ip.toNat) } }) := by
  cases h with
  | rr h => rw [Act.run, fetchByte_ok hmem hip, h]; rfl
  | r h => rw [Act.run, fetchByte_ok hmem hip, h]; rfl

theorem phaseStep_of_stop {key : Option Byte} {act : Act} {acts : List Act} {rest : List (List Act)} {k : State → State}
    {s t : State} (hsub : s.md.sub = 0) (h : act.run key s = .stop t) :
    phaseStep key ((act :: acts) :: rest) k s = .next t := by
  simp only [phaseStep, hsub, List.getElem?_cons_zero, runActs, h, Flow.andThen]

/-! ## The opcodes with a register byte (R104, R105, R107) -/

theorem widthOf_odd {op : Byte} (h : op.toNat % 2 = 1) : widthOf (op.getLsbD 0) = .w16 := by
  simp [widthOf, BitVec.getLsbD, h]

theorem decodeOpcode_formatB {op : Byte} (hlo : 0x10 ≤ op.toNat) (hhi : op.toNat ≤ 0x9F) :
    ∃ o, decodeOpcode op = some (.bin o (formOf (op.toNat / 2 % 8)) (widthOf (op.getLsbD 0))) := by
  have lower : 1 ≤ op.toNat / 16 := by omega
  have upper : op.toNat / 16 ≤ 9 := by omega
  simp only [decodeOpcode]
  generalize op.toNat / 16 = k at lower upper
  interval_cases k <;> exact ⟨_, rfl⟩

theorem decodeOpcode_formatU_reg {op : Byte} (hlo : 0xA0 ≤ op.toNat) (hhi : op.toNat ≤ 0xBF) (hform : op.toNat / 2 % 4 = 0) :
    ∃ u, decodeOpcode op = some (.un u .reg (widthOf (op.getLsbD 0))) := by
  have lower : 10 ≤ op.toNat / 16 := by omega
  have upper : op.toNat / 16 ≤ 11 := by omega
  simp only [decodeOpcode, hform]
  generalize op.toNat / 16 = k at lower upper
  interval_cases k <;> exact ⟨_, rfl⟩

/-- Forms 1 to 5 of format B begin with a register byte of layout R. -/
theorem reads_layoutR (o : BinOp) {f : Nat} (w : Width) (hlo : 1 ≤ f) (hhi : f ≤ 5) :
    ∃ acts rest, reads (.bin o (formOf f) w) = (.fetchR w :: acts) :: rest := by
  interval_cases f <;> cases w <;> exact ⟨_, _, rfl⟩

end Sys2Proof.Machine

namespace Sys2Proof.Claims

open Sys2Proof.Machine Sys2Proof.Config

theorem rrLegal_eq_false {op b : Byte} (h : 64 ≤ b.toNat ∨ op.toNat % 2 = 1 ∧ (4 ≤ b.toNat / 8 % 8 ∨ 4 ≤ b.toNat % 8)) :
    rrLegal (widthOf (op.getLsbD 0)) b = false := by
  rw [Bool.eq_false_iff, Ne, rrLegal_iff]
  rintro ⟨hb, ha, hb'⟩
  rcases h with h | ⟨hodd, h⟩
  · omega
  · simp only [widthOf_odd hodd, regLegal, decide_eq_true_eq, rbA_toNat, rbB_toNat] at ha hb'
    omega

theorem rLegal_eq_false {op b : Byte} (h : 8 ≤ b.toNat ∨ op.toNat % 2 = 1 ∧ 4 ≤ b.toNat % 8) :
    rLegal (widthOf (op.getLsbD 0)) b = false := by
  rw [Bool.eq_false_iff, Ne, rLegal_iff]
  rintro ⟨hb, hr⟩
  rcases h with h | ⟨hodd, h⟩
  · omega
  · simp only [widthOf_odd hodd, regLegal, decide_eq_true_eq, rbB_toNat] at hr
    omega

/-- Under a byte 0 that makes a register byte illegal, the first operand action fetches a register byte and refuses it. -/
theorem refuses_of_illegalRegisterByte {op b : Byte} (h : illegalRegisterByte op.toNat b.toNat) :
    ∃ oc act acts rest, decodeOpcode op = some oc ∧ reads oc = (act :: acts) :: rest ∧ act.Refuses b := by
  rcases h with ⟨⟨hlo, hhi, hform⟩, hb⟩ | ⟨⟨hlo, hhi, hform, hform'⟩ | ⟨hlo, hhi, hform⟩, hb⟩
  · obtain ⟨o, hoc⟩ := decodeOpcode_formatB hlo hhi
    rw [hform] at hoc
    exact ⟨_, _, _, _, hoc, rfl, .rr (rrLegal_eq_false hb)⟩
  · obtain ⟨o, hoc⟩ := decodeOpcode_formatB hlo hhi
    obtain ⟨acts, rest, hreads⟩ := reads_layoutR o (widthOf (op.getLsbD 0)) hform hform'
    exact ⟨_, _, acts, rest, hoc, hreads, .r (rLegal_eq_false hb)⟩
  · obtain ⟨u, hoc⟩ := decodeOpcode_formatU_reg hlo hhi hform
    exact ⟨_, _, _, _, hoc, rfl, .r (rLegal_eq_false hb)⟩

theorem past_one (s : State) : past s 1 = { s with ip := s.ip + 1 } := past_eq s 1

/-- `raiseIllegal` once the offending byte has been read: the fault of the instruction that the metadata names. -/
theorem raiseIllegal_past {s : State} {m : Metadata} {p : Phase} {start : Word} {op : Byte} (hphase : s.phase = p)
    (hstart : m.start = some start) (hop : m.op = some op) :
    raiseIllegal { s with ip := s.ip + 1, md := m } =
      faulted .illegalInstruction (.instruction start op) p (some start) (some op) { past s 1 with md := m } := by
  subst hphase
  simp only [raiseIllegal, raise, faulted, hstart, hop, Option.getD_some, code_eq_codeOf, past_one]

/-- Settles O5: the illegal byte is fetched, and `raiseIllegal` follows, at the fetch of byte 0 or at that of the register byte. -/
theorem illegalEncodings : Obligations.IllegalEncodings := by
  constructor
  · intro s hphase hmem hip hillegal
    refine ⟨{ start := some s.ip, op := some (s.mem.read s.ip.toNat) }, ?_⟩
    rw [coreSubStep_fetching hphase, fetchStep_illegal hmem hip ((decodeOpcode_eq_none_iff _).2 hillegal)]
    exact congrArg _ (raiseIllegal_past hphase rfl rfl)
  · intro s start op hphase hsub hop hstart hmem hip hillegal
    obtain ⟨oc, act, acts, rest, hoc, hreads, hrefuses⟩ := refuses_of_illegalRegisterByte hillegal
    have hcurrent : currentOpcode s = some oc := by rw [currentOpcode, hop]; exact hoc
    refine ⟨{ s.md with rb := some (s.mem.read s.ip.toNat) }, ?_⟩
    rw [coreSubStep_fetchingOperands hphase hcurrent, hreads, phaseStep_of_stop hsub (hrefuses.run_eq none hmem hip)]
    exact congrArg _ (raiseIllegal_past hphase hstart hop)

end Sys2Proof.Claims
end

section
/-! How the actions of a sub-step can end it (60_exceptions.md R320 to R322, R400): an action that faults has met a fault of the bus,
unless it fetched a byte of the instruction; an action that parks reads a port, with no character at hand. -/

namespace Sys2Proof

/-- A property that a table over the values of byte 0 shows is one of every opcode. -/
theorem forall_opcode {P : Opcode → Prop} (table : ∀ op : Byte, ∀ oc ∈ decodeOpcode op, P oc) (oc : Opcode) : P oc :=
  table (opcodeByte oc) oc (decodeOpcode_opcodeByte oc)

end Sys2Proof

namespace Sys2Proof.Machine

open Sys2Proof.Config

/-! ## Faults and waits -/

/-- The action reads a port, so that it can wait on the keyboard (R400). -/
def Act.readsPort : Act → Bool
  | .readPort8 | .readPortLo | .readPortHi => true
  | _ => false

/-- The core and its run have been stopped by a fault of the bus (R321, R322). -/
structure BusFaulted (t : State) : Prop where
  phase : t.phase = .stopped
  outcome : t.outcome = .stoppedError
  status : t.status = .stopped
  error : ∃ e, t.error = some e ∧ (e.kind = .addressOutOfRange ∨ e.kind = .ioMemoryNotConnected)

theorem busFaulted_memory (info : FaultInfo) (s : State) : BusFaulted (raise .addressOutOfRange info s) :=
  ⟨rfl, rfl, rfl, _, rfl, .inl rfl⟩

theorem busFaulted_io (info : FaultInfo) (s : State) : BusFaulted (raise .ioMemoryNotConnected info s) :=
  ⟨rfl, rfl, rfl, _, rfl, .inr rfl⟩

/-- How actions end that fetch instruction bytes if `fetch` says so, and read ports if `port` says so. -/
def Flow.EndsAs (fetch port : Bool) (key : Option Byte) : Flow → Prop
  | .go _ => True
  | .stop t => fetch = true ∨ BusFaulted t
  | .park => port = true ∧ key = none

section

variable {fetch port : Bool} {key : Option Byte}

theorem Flow.EndsAs.andThen {f : Flow} {k : State → Flow} (h : f.EndsAs fetch port key)
    (hk : ∀ t, (k t).EndsAs fetch port key) : (f.andThen k).EndsAs fetch port key := by
  cases f with
  | go t => exact hk t
  | stop t => exact h
  | park => exact h

theorem Flow.EndsAs.mono {fetch' port' : Bool} {f : Flow} (h : f.EndsAs fetch port key) (hf : fetch = true → fetch' = true)
    (hp : port = true → port' = true) : f.EndsAs fetch' port' key := by
  cases f with
  | go t => trivial
  | stop t => exact h.imp_left hf
  | park => exact h.imp_left hp

theorem endsAs_busRead_memory {a : Nat} {key' : Option Byte} {s : State} {k : Byte → State → Flow}
    (hk : ∀ v t, (k v t).EndsAs fetch port key) : (busRead .memory a key' s k).EndsAs fetch port key := by
  rw [busRead_memory]
  split
  · exact hk _ _
  · exact .inr (busFaulted_memory _ _)

theorem endsAs_busRead_io {a : Nat} {s : State} {k : Byte → State → Flow} (hk : ∀ v t, (k v t).EndsAs fetch true key) :
    (busRead .io a key s k).EndsAs fetch true key := by
  rw [busRead_io]
  split
  · exact .inr (busFaulted_io _ _)
  · split
    · exact hk _ _
    · split
      · exact hk _ _
      · exact ⟨rfl, rfl⟩

theorem endsAs_busWrite {sp : Space} {a : Nat} {v : Byte} {s : State} : (busWrite sp a v s).EndsAs fetch port key := by
  cases sp
  · rw [busWrite_memory]
    split
    · trivial
    · exact .inr (busFaulted_memory _ _)
  · rw [busWrite_io]
    split
    · exact .inr (busFaulted_io _ _)
    · trivial

theorem endsAs_claimMemory2 {a : Nat} {s : State} : (claimMemory2 a s).EndsAs fetch port key := by
  rw [claimMemory2_eq]
  split
  · trivial
  · exact .inr (busFaulted_memory _ _)

theorem endsAs_claimPort2 {p : Nat} {s : State} : (claimPort2 p s).EndsAs fetch port key := by
  have claim (p : Nat) (s : State) : (claimPort p s).EndsAs fetch port key := by
    unfold claimPort
    split
    · trivial
    · exact .inr (busFaulted_io _ _)
  exact (claim p s).andThen (claim (p + 1))

theorem endsAs_fetchByte {s : State} {k : Byte → State → Flow} (hk : ∀ v t, (k v t).EndsAs fetch port key) :
    (fetchByte s k).EndsAs fetch port key := by
  refine endsAs_busRead_memory fun v t => ?_
  unfold advanceIP
  split
  · exact .inr (busFaulted_memory _ _)
  · exact hk _ _

end

/-- One action. -/
theorem endsAs_act (key : Option Byte) (act : Act) (s : State) : (act.run key s).EndsAs act.isFetch act.readsPort key := by
  cases act <;> simp only [Act.run]
  case fetchRR | fetchR =>
    refine endsAs_fetchByte fun v t => ?_
    split
    · trivial
    · exact .inl rfl
  case fetchAddrLo | fetchAddrHi | fetchImm8 | fetchImmLo | fetchImmHi | fetchVec | fetchPort =>
    exact endsAs_fetchByte fun _ _ => trivial
  case readMem8 | readMemHi | stackHi | vectorHi => exact endsAs_busRead_memory fun _ _ => trivial
  case readMemLo | stackLo | vectorLo =>
    exact endsAs_claimMemory2.andThen fun _ => endsAs_busRead_memory fun _ _ => trivial
  case readPort8 | readPortHi => exact endsAs_busRead_io fun _ _ => trivial
  case readPortLo => exact endsAs_claimPort2.andThen fun _ => endsAs_busRead_io fun _ _ => trivial
  case writeMem8 | writeMemHi | writePort8 | writePortHi => exact endsAs_busWrite
  case writeMemLo | pushLo => exact endsAs_claimMemory2.andThen fun _ => endsAs_busWrite
  case writePortLo => exact endsAs_claimPort2.andThen fun _ => endsAs_busWrite
  case pushHi => exact endsAs_busWrite.andThen fun _ => trivial
  all_goals trivial

/-- The actions of a sub-step. -/
theorem endsAs_runActs (key : Option Byte) (acts : List Act) (s : State) :
    (runActs key acts s).EndsAs (acts.any Act.isFetch) (acts.any Act.readsPort) key := by
  induction acts generalizing s with
  | nil => trivial
  | cons act rest ih =>
    simp only [List.any_cons]
    exact ((endsAs_act key act s).mono (by simp +contextual) (by simp +contextual)).andThen fun t =>
      (ih t).mono (by simp +contextual) (by simp +contextual)

theorem runActs_ne_park {key : Option Byte} {acts : List Act} (h : acts.any Act.readsPort = false) (s : State) :
    runActs key acts s ≠ .park := by
  intro hpark
  have hends := endsAs_runActs key acts s
  rw [hpark, h] at hends
  cases hends.1

theorem busFaulted_of_runActs_stop {key : Option Byte} {acts : List Act} {s t : State} (hacts : acts.any Act.isFetch = false)
    (h : runActs key acts s = .stop t) : BusFaulted t := by
  have hends := endsAs_runActs key acts s
  rw [h, hacts] at hends
  exact hends.resolve_left Bool.false_ne_true

/-! ## The schedules -/

theorem dataReads_no_fetch {oc : Opcode} {acts : List Act} (h : acts ∈ dataReads oc) : acts.any Act.isFetch = false := by
  obtain ⟨acts', _, rfl⟩ := List.mem_map.1 h
  simp

/-- `writeback` fetches no instruction byte and reads no port. -/
theorem writes_no_fetch_no_port :
    ∀ oc : Opcode, ∀ acts ∈ writes oc, acts.any Act.isFetch = false ∧ acts.any Act.readsPort = false :=
  forall_opcode (by decide)

/-- A trap entry fetches no instruction byte and reads no port. -/
theorem trapSubSteps_no_fetch_no_port :
    ∀ acts ∈ trapSubSteps, acts.any Act.isFetch = false ∧ acts.any Act.readsPort = false := by
  decide

/-- How many sub-steps `fetching-operands` and `writeback` have (R181, R198, R224, R246, R272, R286, R303). -/
theorem schedule_length :
    ∀ oc : Opcode, (reads oc).length = (Claims.counts oc).1 ∧ (writes oc).length = (Claims.counts oc).2 :=
  forall_opcode (by decide)

end Sys2Proof.Machine
end

section
/-! The phases of the instruction cycle (40_instruction_cycle.md R140 to R149): what the sub-step `fetching` does with byte 0, and the
phase that each sub-step leads to. -/

namespace Sys2Proof

theorem opcodeByte_inj {oc oc' : Opcode} : opcodeByte oc = opcodeByte oc' ↔ oc = oc' := by
  refine ⟨fun h => ?_, congrArg _⟩
  have hdecode := decodeOpcode_opcodeByte oc
  rw [h, decodeOpcode_opcodeByte] at hdecode
  exact (Option.some.inj hdecode).symm

end Sys2Proof

namespace Sys2Proof.Machine

open Sys2Proof.Config

/-! ## The phase after `fetching` (R142) -/

theorem afterFetching_of_reads_nil {oc : Opcode} (h : reads oc = []) : afterFetching oc = .executing := by
  rw [afterFetching, h]; rfl

theorem afterFetching_of_reads_ne_nil {oc : Opcode} (h : reads oc ≠ []) : afterFetching oc = .fetchingOperands :=
  if_neg (by rwa [List.isEmpty_iff])

/-- The opcodes whose byte 0 is all that they read. -/
theorem readsNothing_opcodeByte (oc : Opcode) : Claims.readsNothing (opcodeByte oc).toNat ↔ reads oc = [] := by
  unfold Claims.readsNothing
  revert oc
  apply forall_opcode
  decide

theorem afterFetching_cases {op : Byte} {oc : Opcode} (h : decodeOpcode op = some oc) :
    (Claims.readsNothing op.toNat → afterFetching oc = .executing) ∧
      (¬ Claims.readsNothing op.toNat → afterFetching oc = .fetchingOperands) := by
  rw [← opcodeByte_of_decodeOpcode h, readsNothing_opcodeByte]
  exact ⟨afterFetching_of_reads_nil, afterFetching_of_reads_ne_nil⟩

theorem afterFetching_ne_stopped (oc : Opcode) : afterFetching oc ≠ .stopped := by
  unfold afterFetching
  split <;> simp

/-! ## The sub-step `fetching` (R142, R146) -/

theorem fetchStep_outOfRange {s : State} (h : ¬ s.ip.toNat < s.params.memSize) :
    fetchStep s = raise .addressOutOfRange (.bus .memory s.ip.toNat) { s with md := { start := some s.ip } } := by
  simp only [fetchStep, busRead_memory, h, if_false]

theorem fetchStep_lastAddress {s : State} (hmem : s.ip.toNat < s.params.memSize) (hip : s.ip = 0xFFFF) :
    fetchStep s =
      raise .addressOutOfRange (.bus .memory 0x10000)
        { s with md := { start := some s.ip, op := some (s.mem.read s.ip.toNat) } } := by
  simp only [fetchStep]
  rw [busRead_memory_ok (by exact hmem), advanceIP, if_pos (by exact hip)]
  rfl

theorem fetchStep_legal {s : State} {oc : Opcode} (hmem : s.ip.toNat < s.params.memSize) (hip : s.ip ≠ 0xFFFF)
    (h : decodeOpcode (s.mem.read s.ip.toNat) = some oc) :
    fetchStep s =
      { s with
        ip := s.ip + 1
        phase := afterFetching oc
        md := { start := some s.ip, op := some (s.mem.read s.ip.toNat) } } := by
  simp only [fetchStep]
  rw [busRead_memory_ok (by exact hmem), advanceIP_ok (by exact hip)]
  simp only [h]
  rfl

/-- `fetching` faults, or it reads a legal byte 0 that stands at IP. -/
theorem fetchStep_inv (s : State) :
    Faulted s (fetchStep s) ∨
    ∃ oc, s.ip.toNat < s.params.memSize ∧ s.ip ≠ 0xFFFF ∧ decodeOpcode (s.mem.read s.ip.toNat) = some oc := by
  by_cases hmem : s.ip.toNat < s.params.memSize
  · by_cases hip : s.ip = 0xFFFF
    · rw [fetchStep_lastAddress hmem hip]; exact .inl ⟨rfl, rfl, rfl, rfl, rfl⟩
    · cases h : decodeOpcode (s.mem.read s.ip.toNat) with
      | none => rw [fetchStep_illegal hmem hip h]; exact .inl ⟨rfl, rfl, rfl, rfl, rfl⟩
      | some oc => exact .inr ⟨oc, hmem, hip, rfl⟩
  · rw [fetchStep_outOfRange hmem]; exact .inl ⟨rfl, rfl, rfl, rfl, rfl⟩

/-! ## The phases that are lists of sub-steps (R140, R145, R331) -/

theorem currentOpcode_eq_some_iff {s : State} {oc : Opcode} :
    currentOpcode s = some oc ↔ s.md.op = some (opcodeByte oc) := by
  unfold currentOpcode
  constructor
  · intro h
    obtain ⟨op, hop, hoc⟩ := Option.bind_eq_some_iff.1 h
    rw [hop, opcodeByte_of_decodeOpcode hoc]
  · intro h
    rw [h]
    exact decodeOpcode_opcodeByte oc

/-- What a sub-step of such a phase does: it faults, or it parks on a port with no character at hand, or it completes, and the
phase ends if it was the last one. -/
theorem phaseStep_inv {key : Option Byte} {subs : List (List Act)} {k : State → State} {s t : State}
    (h : phaseStep key subs k s = .next t) :
    ∃ acts, subs[s.md.sub]? = some acts ∧
      (Faulted s t ∨
        (key = none ∧ acts.any Act.readsPort = true ∧ t = { s with waitingForInput := true }) ∨
        ∃ u, runActs key acts s = .go u ∧ Going s u ∧ t = if s.md.sub + 1 = subs.length then k u.bumpSub else u.bumpSub) := by
  unfold phaseStep at h
  split at h
  · cases h
  · rename_i acts hacts
    refine ⟨acts, hacts, ?_⟩
    have hcycles := cycles_runActs key acts s
    have hends := endsAs_runActs key acts s
    generalize runActs key acts s = f at h hcycles hends
    cases f with
    | go u => exact .inr (.inr ⟨u, rfl, hcycles, (Host.Outcome.next.inj h).symm⟩)
    | stop u => cases h; exact .inl hcycles
    | park => cases h; exact .inr (.inl ⟨hends.2, hends.1, rfl⟩)

/-- A phase that reads no port does not park. -/
theorem phaseStep_inv_of_no_port {key : Option Byte} {subs : List (List Act)} {k : State → State} {s t : State}
    (hsubs : ∀ acts ∈ subs, acts.any Act.readsPort = false) (h : phaseStep key subs k s = .next t) :
    Faulted s t ∨
      ∃ acts u, subs[s.md.sub]? = some acts ∧ runActs key acts s = .go u ∧ Going s u ∧
        t = if s.md.sub + 1 = subs.length then k u.bumpSub else u.bumpSub := by
  obtain ⟨acts, hacts, fault | ⟨_, hport, _⟩ | ⟨u, hrun, hgoing, ht⟩⟩ := phaseStep_inv h
  · exact .inl fault
  · rw [hsubs acts (List.mem_of_getElem? hacts)] at hport
    cases hport
  · exact .inr ⟨acts, u, hacts, hrun, hgoing, ht⟩

theorem writes_step_inv {key : Option Byte} {oc : Opcode} {s t : State}
    (h : phaseStep key (writes oc) (endOfInstruction oc) s = .next t) :
    Faulted s t ∨
      ∃ acts u, (writes oc)[s.md.sub]? = some acts ∧ runActs key acts s = .go u ∧ Going s u ∧
        t = if s.md.sub + 1 = (writes oc).length then endOfInstruction oc u.bumpSub else u.bumpSub :=
  phaseStep_inv_of_no_port (fun acts hacts => (writes_no_fetch_no_port oc acts hacts).2) h

theorem trap_step_inv {key : Option Byte} {s t : State} (h : phaseStep key trapSubSteps State.toFetching s = .next t) :
    Faulted s t ∨
      ∃ acts u, trapSubSteps[s.md.sub]? = some acts ∧ runActs key acts s = .go u ∧ Going s u ∧
        t = if s.md.sub + 1 = 6 then u.bumpSub.toFetching else u.bumpSub :=
  phaseStep_inv_of_no_port (fun acts hacts => (trapSubSteps_no_fetch_no_port acts hacts).2) h

/-- INT commits nothing, so its `writeback` leaves the vector as it is. -/
theorem going_int_eq {key : Option Byte} {acts : List Act} {n : Nat} {s u : State} (hacts : (writes .int)[n]? = some acts)
    (hrun : runActs key acts s = .go u) : u = s := by
  have hnil : acts = [] := by simpa [writes] using List.mem_of_getElem? hacts
  subst hnil
  cases hrun
  rfl

/-! ## The end of an instruction (R148) -/

theorem endOfInstruction_phase (oc : Opcode) (s : State) :
    (endOfInstruction oc s).phase =
      if oc = .int then trapPhase (s.md.vec.getD 0) else if interruptRequested s then .interrupt else .fetching := by
  unfold endOfInstruction
  split
  · rfl
  · split <;> rfl

theorem interruptRequested_endOfInstruction (oc : Opcode) (s : State) :
    interruptRequested (endOfInstruction oc s) = interruptRequested s := by
  unfold endOfInstruction
  split
  · rfl
  · split <;> rfl

/-- The phase that INT enters, from the vector in the metadata (R332). -/
theorem trapPhase_getD (vec : Option Byte) :
    trapPhase (vec.getD 0) = if vec = some 6 then .int6 else if vec = some 7 then .int7 else .interrupt := by
  cases vec with
  | none => rfl
  | some n => simp only [trapPhase, Option.getD_some, Option.some.injEq]

theorem trapPhase_ne_stopped (n : Byte) : trapPhase n ≠ .stopped := by
  unfold trapPhase
  split
  · simp
  · split <;> simp

theorem endOfInstruction_phase_ne_stopped (oc : Opcode) (s : State) : (endOfInstruction oc s).phase ≠ .stopped := by
  rw [endOfInstruction_phase]
  split
  · exact trapPhase_ne_stopped _
  · split <;> simp

end Sys2Proof.Machine

namespace Sys2Proof.Claims

open Sys2Proof.Machine Sys2Proof.Config

/-- The model's `raise` is the fault of the statements. -/
theorem raise_eq_faulted (kind : FaultKind) (info : FaultInfo) (s : State) :
    raise kind info s = faulted kind info s.phase s.md.start s.md.op s := by
  simp only [raise, faulted, code_eq_codeOf]

/-- Settles O6: the fetch of byte 0 faults at an address that memory lacks or at FFFFh, and otherwise enters the phase after
`fetching`. -/
theorem fetchingStep : Obligations.FetchingStep := by
  intro s hphase
  simp only [coreSubStep_fetching hphase, Host.Outcome.next.injEq]
  refine ⟨fun hmem => ⟨{ start := some s.ip }, ?_⟩, fun hmem hip =>
    ⟨{ start := some s.ip, op := some (s.mem.read s.ip.toNat) }, ?_⟩, fun hmem hip hlegal => ?legal⟩
  · rw [fetchStep_outOfRange hmem, raise_eq_faulted, ← hphase]
  · rw [fetchStep_lastAddress hmem hip, raise_eq_faulted, ← hphase]
  case legal =>
    obtain ⟨oc, hoc⟩ := Option.ne_none_iff_exists'.1 (mt (decodeOpcode_eq_none_iff _).1 hlegal)
    refine ⟨afterFetching oc, ?_, afterFetching_cases hoc⟩
    rw [fetchStep_legal hmem hip hoc, past_one]

/-- The sub-step that left `t` has stopped the core as `halted` says or by a fault, or it has led where `onward` says. -/
def Leads (halted onward : Prop) (t : State) : Prop :=
  (t.phase = .stopped → halted ∨ t.outcome = .stoppedError) ∧ (t.phase ≠ .stopped → onward)

theorem leads_of_faulted {halted onward : Prop} {s t : State} (h : Faulted s t) : Leads halted onward t :=
  ⟨fun _ => .inr h.outcome, fun hne => absurd h.phase hne⟩

theorem leads_onward {halted onward : Prop} {t : State} (hne : t.phase ≠ .stopped) (h : onward) : Leads halted onward t :=
  ⟨fun hp => absurd hp hne, fun _ => h⟩

theorem leads_fetching (halted : Prop) (s : State) :
    Leads halted
      ((readsNothing (s.mem.read s.ip.toNat).toNat → (fetchStep s).phase = .executing) ∧
        (¬ readsNothing (s.mem.read s.ip.toNat).toNat → (fetchStep s).phase = .fetchingOperands)) (fetchStep s) := by
  obtain fault | ⟨oc, hmem, hip, hoc⟩ := fetchStep_inv s
  · exact leads_of_faulted fault
  · rw [fetchStep_legal hmem hip hoc]
    exact leads_onward (afterFetching_ne_stopped oc) (afterFetching_cases hoc)

/-- A phase `p` of operand reads or of a trap entry: it stays before its last sub-step, and at it enters `next`. -/
theorem leads_of_going {halted : Prop} {p next : Phase} {s t u : State} {k : State → State} {n : Nat} (hp : s.phase = p)
    (hpne : p ≠ .stopped) (hnext : next ≠ .stopped) (hk : (k u.bumpSub).phase = next) (hgoing : Going s u)
    (ht : t = if s.md.sub + 1 = n then k u.bumpSub else u.bumpSub) :
    Leads halted (t.phase = if s.md.sub + 1 = n then next else p) t := by
  have hphase : t.phase = if s.md.sub + 1 = n then next else p := by
    rw [ht]
    split
    · exact hk
    · exact hgoing.phase.trans hp
  refine leads_onward ?_ hphase
  rw [hphase]
  split <;> assumption

theorem leads_trap {halted : Prop} {p : Phase} {key : Option Byte} {s t : State} (hp : s.phase = p) (hne : p ≠ .stopped)
    (h : phaseStep key trapSubSteps State.toFetching s = .next t) :
    Leads halted (t.phase = if s.md.sub + 1 = 6 then .fetching else p) t := by
  obtain fault | ⟨acts, u, _, _, hgoing, ht⟩ := trap_step_inv h
  · exact leads_of_faulted fault
  · exact leads_of_going (k := State.toFetching) hp hne (by simp) rfl hgoing ht

theorem leads_fetchingOperands {halted : Prop} {key : Option Byte} {oc : Opcode} {s t : State}
    (hp : s.phase = .fetchingOperands) (hoc : currentOpcode s = some oc)
    (h : phaseStep key (reads oc) (State.enter .executing) s = .next t) :
    Leads halted
      ((key = none ∧ t = { s with waitingForInput := true }) ∨
        ∃ oc, currentOpcode s = some oc ∧ t.phase = if s.md.sub + 1 = (counts oc).1 then .executing else .fetchingOperands)
      t := by
  obtain ⟨acts, _, fault | ⟨hkey, _, ht⟩ | ⟨u, _, hgoing, ht⟩⟩ := phaseStep_inv h
  · exact leads_of_faulted fault
  · refine leads_onward ?_ (.inl ⟨hkey, ht⟩)
    rw [ht]
    exact hp.trans_ne (by simp)
  · rw [(schedule_length oc).1] at ht
    obtain ⟨hstop, honward⟩ := leads_of_going (halted := halted) hp (by simp) (by simp) rfl hgoing ht
    exact ⟨hstop, fun hne => .inr ⟨oc, hoc, honward hne⟩⟩

theorem leads_executing {halted : Prop} {oc : Opcode} {s : State} (hoc : currentOpcode s = some oc) :
    Leads halted ((executeStep oc s).phase = if s.md.op = some 0xFF then .halting else .writeback) (executeStep oc s) := by
  have hop : s.md.op = some 0xFF ↔ oc = .hlt := by
    rw [currentOpcode_eq_some_iff.1 hoc, Option.some.injEq]
    exact opcodeByte_inj (oc' := .hlt)
  have hphase : (executeStep oc s).phase = if s.md.op = some 0xFF then .halting else .writeback := by
    simp only [executeStep, State.enter_phase, hop]
  refine leads_onward ?_ hphase
  rw [hphase]
  split <;> simp

theorem leads_writeback {halted : Prop} {key : Option Byte} {oc : Opcode} {s t : State} (hp : s.phase = .writeback)
    (hoc : currentOpcode s = some oc) (h : phaseStep key (writes oc) (endOfInstruction oc) s = .next t) :
    Leads halted
      (∃ oc, currentOpcode s = some oc ∧
        t.phase =
          if s.md.sub + 1 = (counts oc).2 then
            if s.md.op = some 0xE0 then
              if s.md.vec = some 6 then .int6 else if s.md.vec = some 7 then .int7 else .interrupt
            else if interruptRequested t then .interrupt
            else .fetching
          else .writeback) t := by
  obtain fault | ⟨acts, u, hacts, hrun, hgoing, ht⟩ := writes_step_inv h
  · exact leads_of_faulted fault
  have hop : s.md.op = some 0xE0 ↔ oc = .int := by
    rw [currentOpcode_eq_some_iff.1 hoc, Option.some.injEq]
    exact opcodeByte_inj (oc' := .int)
  rw [(schedule_length oc).2] at ht
  by_cases hlast : s.md.sub + 1 = (counts oc).2
  · rw [if_pos hlast] at ht
    subst ht
    refine leads_onward (endOfInstruction_phase_ne_stopped _ _) ⟨oc, hoc, ?_⟩
    rw [if_pos hlast, endOfInstruction_phase, interruptRequested_endOfInstruction]
    by_cases hint : oc = .int
    · subst hint
      rw [if_pos rfl, if_pos (hop.2 rfl), going_int_eq hacts hrun]
      exact trapPhase_getD s.md.vec
    · rw [if_neg hint, if_neg (mt hop.1 hint)]
  · rw [if_neg hlast] at ht
    subst ht
    have hphase : u.bumpSub.phase = .writeback := hgoing.phase.trans hp
    exact leads_onward (hphase.trans_ne (by simp)) ⟨oc, hoc, hphase.trans (if_neg hlast).symm⟩

/-- Settles O10: each phase by what its sub-step can do. -/
theorem phaseTransitions : Obligations.PhaseTransitions := by
  intro key s t h
  change Leads _ _ t
  unfold coreSubStep at h
  split at h
  case h_1 hp => cases h; rw [hp]; exact leads_fetching _ s
  case h_2 hp =>
    rw [hp]
    split at h
    next oc hoc => simpa only [hp] using leads_fetchingOperands hp hoc h
    next => cases h
  case h_3 hp =>
    rw [hp]
    split at h
    next oc hoc => cases h; exact leads_executing hoc
    next => cases h
  case h_4 hp =>
    rw [hp]
    split at h
    next oc hoc => exact leads_writeback hp hoc h
    next => cases h
  case h_5 hp | h_6 hp | h_7 hp => rw [hp]; exact leads_trap hp (by simp) h
  case h_8 hp => cases h; exact ⟨fun _ => .inl ⟨hp, rfl⟩, fun hne => absurd rfl hne⟩
  case h_9 => cases h

end Sys2Proof.Claims
end

section
/-! A whole instruction (40_instruction_cycle.md R140 to R149): the bytes that stand at IP, how the meaning of an instruction can end,
and the run control after it. -/

namespace Sys2Proof.Machine

open Sys2Proof.Config

/-! ## The instruction bytes at IP (R143, R146) -/

/-- The bytes stand at `a`, and the core can fetch all of them: none lies outside memory or at FFFFh. -/
def SpelledAt (s : State) (a : Nat) (bytes : List Byte) : Prop :=
  ∀ k b, bytes[k]? = some b → a + k < s.params.memSize ∧ a + k < 0xFFFF ∧ s.mem.read (a + k) = b

theorem spelledAt_nil (s : State) (a : Nat) : SpelledAt s a [] := fun _ _ h => by cases h

theorem spelledAt_cons {s : State} {a : Nat} {b : Byte} {bytes : List Byte} :
    SpelledAt s a (b :: bytes) ↔
      (a < s.params.memSize ∧ a < 0xFFFF ∧ s.mem.read a = b) ∧ SpelledAt s (a + 1) bytes := by
  constructor
  · intro h
    refine ⟨h 0 b rfl, fun k c hc => ?_⟩
    have hk := h (k + 1) c hc
    rwa [show a + (k + 1) = a + 1 + k by omega] at hk
  · rintro ⟨first, others⟩ k c hc
    cases k with
    | zero => cases hc; exact first
    | succ k => rw [show a + (k + 1) = a + 1 + k by omega]; exact others k c hc

theorem fetchableBytes_of_spelledAt {s : State} {a n : Nat} {bytes : List Byte} (h : SpelledAt s a bytes)
    (hn : bytes.length ≤ n) : ∃ rest, fetchableBytes s a n = bytes ++ rest := by
  induction bytes generalizing a n with
  | nil => exact ⟨_, rfl⟩
  | cons b bytes ih =>
    obtain ⟨⟨hmem, hip, rfl⟩, others⟩ := spelledAt_cons.1 h
    cases n with
    | zero => cases hn
    | succ n =>
      obtain ⟨rest, hrest⟩ := ih others (Nat.le_of_succ_le_succ hn)
      exact ⟨rest, by simp [fetchableBytes, hmem, hip, hrest]⟩

theorem spelledAt_of_fetchableBytes {s : State} {a n : Nat} {bytes rest : List Byte}
    (h : fetchableBytes s a n = bytes ++ rest) : SpelledAt s a bytes := by
  induction bytes generalizing a n with
  | nil => exact spelledAt_nil s a
  | cons b bytes ih =>
    cases n with
    | zero => cases h
    | succ n =>
      rw [fetchableBytes] at h
      split at h
      next hfetch =>
        simp only [Bool.and_eq_true, decide_eq_true_eq] at hfetch
        obtain ⟨hb, hbytes⟩ := List.cons.inj h
        exact spelledAt_cons.2 ⟨⟨hfetch.1, hfetch.2, hb⟩, ih hbytes⟩
      next => cases h

/-- The instruction at IP is the well-formed one whose bytes stand there. -/
theorem fetchInstr_eq_some_iff {s : State} {i : Instr} :
    fetchInstr s = some i ↔ i.wf = true ∧ SpelledAt s s.ip.toNat (encode i) := by
  unfold fetchInstr
  constructor
  · intro h
    split at h
    next j rest hdecode =>
      cases h
      obtain ⟨hwf, hbytes⟩ := encodeOfDecode i _ rest hdecode
      exact ⟨hwf, spelledAt_of_fetchableBytes hbytes⟩
    next => cases h
  · rintro ⟨hwf, hspelled⟩
    obtain ⟨_, _, hlength⟩ := Sys2Proof.Laws.EncodeLength.length_of_encoding i
    obtain ⟨rest, hrest⟩ := fetchableBytes_of_spelledAt hspelled hlength
    rw [hrest, decodeOfEncode i rest hwf]

/-! ## How an instruction can end (R320 to R322) -/

/-- From `s` the core has come to `t` by a fault of the bus, or with the error record it had, in the same run or in none. -/
def Ended (s t : State) : Prop :=
  (t.error = s.error ∧ (t.status = s.status ∨ t.status = .stopped)) ∨ BusFaulted t

theorem Ended.status {s t : State} (h : Ended s t) : t.status = s.status ∨ t.status = .stopped :=
  h.elim And.right fun fault => .inr fault.status

theorem Ended.after {s t u : State} (herror : t.error = s.error) (hstatus : t.status = s.status) (h : Ended t u) :
    Ended s u := by
  unfold Ended at h
  rwa [herror, hstatus] at h

theorem ended_of_eq {s t : State} (herror : t.error = s.error) (hstatus : t.status = s.status) : Ended s t :=
  .inl ⟨herror, .inl hstatus⟩

theorem ended_runSubSteps {subs : List (List Act)} {k : State → State} (hsubs : ∀ acts ∈ subs, acts.any Act.isFetch = false)
    (hk : ∀ u, Ended u (k u)) (s : State) : Ended s (runSubSteps subs s k) := by
  induction subs generalizing s with
  | nil => exact hk s
  | cons acts rest ih =>
    obtain ⟨hacts, hrest⟩ := List.forall_mem_cons.1 hsubs
    have hcycles := cycles_runActs none acts s
    simp only [runSubSteps]
    cases hrun : runActs none acts s with
    | go u =>
      rw [hrun] at hcycles
      exact (ih hrest u.bumpSub).after hcycles.error hcycles.status
    | stop u => exact .inr (busFaulted_of_runActs_stop hacts hrun)
    | park => exact ended_of_eq rfl rfl

theorem ended_trapEntry (s : State) : Ended s (trapEntry s) :=
  ended_runSubSteps (k := State.toFetching) (fun acts hacts => (trapSubSteps_no_fetch_no_port acts hacts).1)
    (fun _ => ended_of_eq rfl rfl) s

theorem ended_endOfInstruction (oc : Opcode) (s : State) : Ended s (endOfInstruction oc s) := by
  unfold endOfInstruction
  split
  · exact ended_of_eq rfl rfl
  · split <;> exact ended_of_eq rfl rfl

theorem ended_closeInstruction (oc : Opcode) (s : State) : Ended s (closeInstruction oc s) := by
  unfold closeInstruction
  split
  next hint =>
    subst hint
    exact (ended_trapEntry _).after rfl rfl
  next => exact ended_endOfInstruction oc s

theorem executeStep_keeps_error_status (oc : Opcode) (s : State) :
    (executeStep oc s).error = s.error ∧ (executeStep oc s).status = s.status :=
  ⟨(going_compute oc s).error, (going_compute oc s).status⟩

theorem ended_commitInstruction (oc : Opcode) (s : State) : Ended s (commitInstruction oc s) := by
  obtain ⟨herror, hstatus⟩ := executeStep_keeps_error_status oc s
  unfold commitInstruction
  split
  · exact .inl ⟨herror, .inr rfl⟩
  · exact (ended_runSubSteps (fun acts hacts => (writes_no_fetch_no_port oc acts hacts).1) (ended_closeInstruction oc) _).after
      herror hstatus

/-- An instruction whose operand values have an encoding: its bytes are read, so no fault is left but those of the bus. -/
theorem perform_of_fit {oc : Opcode} {x : Operands} (hx : x.fit oc = true) (s : State) :
    ∃ t, perform oc x s = .next t ∧ Ended s t := by
  refine ⟨_, if_pos hx, ?_⟩
  exact (ended_runSubSteps (fun _ hacts => dataReads_no_fetch hacts)
    (fun u => (ended_commitInstruction oc (u.enter .executing)).after rfl rfl) (prefetched oc x s)).after rfl rfl

/-! ## Operand values without an encoding (30_encoding.md R112) -/

/-- The fields of an instruction leave its address and its byte 0 in the metadata. -/
theorem prefetchField_foldl (x : Operands) (fs : List Field) (m : Metadata) :
    (fs.foldl (prefetchField x) m).start = m.start ∧ (fs.foldl (prefetchField x) m).op = m.op := by
  induction fs generalizing m with
  | nil => exact ⟨rfl, rfl⟩
  | cons f fs ih =>
    obtain ⟨hstart, hop⟩ := ih (prefetchField x m f)
    rw [List.foldl_cons, hstart, hop]
    cases f <;> exact ⟨rfl, rfl⟩

/-- An opcode that reads nothing after byte 0 has no field. -/
theorem layout_of_reads_nil {oc : Opcode} : reads oc = [] → layout oc = [] := by
  revert oc
  apply forall_opcode
  decide

theorem perform_of_not_fit {oc : Opcode} {x : Operands} (hx : x.fit oc = false) (s : State) :
    perform oc x s = .next (raiseIllegal (prefetched oc x s)) :=
  if_neg (by rw [hx]; exact Bool.false_ne_true)

/-- Only a field can have a value that it cannot hold, and an opcode with a field has operands to fetch. -/
theorem afterFetching_of_not_fit {oc : Opcode} {x : Operands} (hx : x.fit oc = false) :
    afterFetching oc = .fetchingOperands := by
  refine afterFetching_of_reads_ne_nil fun h => ?_
  rw [fit_eq_all_fits, layout_of_reads_nil h] at hx
  cases hx

/-! ## A run that lets instructions finish (70_reset_and_hazards.md R443, R445) -/

/-- Nothing pauses the run inside an instruction. -/
def Unhurried (s : State) : Prop := s.pauseFlag = false ∧ s.status ≠ .running .cycleChange

theorem Unhurried.of_kept {s t : State} (h : Unhurried s) (hkept : Kept s t)
    (hstatus : t.status = s.status ∨ t.status = .stopped) : Unhurried t := by
  obtain ⟨hpause, hmode⟩ := h
  refine ⟨hkept.pauseFlag.trans hpause, ?_⟩
  rcases hstatus with same | stopped
  · rw [same]; exact hmode
  · rw [stopped]; simp

theorem coreReady_iff (s : State) : s.coreReady = true ↔ s.outcome = .running ∧ s.waitingForInput = false := by
  simp [State.coreReady]

/-- After an instruction such a run pauses in mode `end-of-instruction` at `fetching`, and never otherwise. -/
theorem runControl_unhurried {s : State} (h : Unhurried s) (was : Phase) :
    runControl was s =
      if s.coreReady = true ∧ s.status = .running .endOfInstruction ∧ s.phase = .fetching then { s with status := .paused }
      else s := by
  obtain ⟨hpause, hmode⟩ := h
  unfold runControl
  cases hready : s.coreReady
  · simp
  · cases hstatus : s.status with
    | stopped | paused => simp
    | running mode =>
      rw [hstatus] at hmode
      cases mode with
      | cycleChange => exact absurd rfl hmode
      | endOfInstruction => simp [hpause]
      | infinity => simp [hpause]

end Sys2Proof.Machine

namespace Sys2Proof.Claims

open Sys2Proof.Machine Sys2Proof.Config

/-- Settles O9: an instruction is `perform` of its opcode and operands, which runs its sub-steps if the operands fit it, and
raises the illegal instruction if not. -/
theorem everyInstructionExecutes : Obligations.EveryInstructionExecutes := by
  intro i s
  rw [exec_eq_perform]
  cases hwf : i.operands.fit i.opcode with
  | true =>
    obtain ⟨t, ht, ended⟩ := perform_of_fit hwf s
    refine ⟨t, ht, fun _ => ?_, fun hill => (nomatch hwf.symm.trans hill)⟩
    exact ended.imp And.left fun fault => ⟨fault.phase, fault.outcome, fault.error⟩
  | false =>
    refine ⟨_, perform_of_not_fit hwf s, fun hill => (nomatch hwf.symm.trans hill),
      fun _ => ⟨opcodeByte i.opcode, (prefetched i.opcode i.operands s).md, rfl, ?_⟩⟩
    obtain ⟨hstart, hop⟩ := prefetchField_foldl i.operands (layout i.opcode)
      { start := some s.ip, op := some (opcodeByte i.opcode) }
    have hlength := (Sys2Proof.Laws.EncodeLength.length_of_encoding i).1
    have hphase := afterFetching_of_not_fit hwf
    rw [raiseIllegal, raise_eq_faulted, past_eq, hlength]
    simp only [prefetched, hstart, hop, hphase, Option.getD_some, faulted]

theorem spelledAt_of_at {s : State} {i : Instr} (h : At s i) : SpelledAt s s.ip.toNat (encode i) := by
  obtain ⟨_, hmem, hlast, hbytes⟩ := h
  intro k b hb
  obtain ⟨hk, _⟩ := List.getElem?_eq_some_iff.1 hb
  exact ⟨by omega, by omega, hbytes k b hb⟩

/-- The run that a session without one is given (log 3). -/
theorem impliedRun_eq_running (s : State) : impliedRun s = running s := by
  unfold impliedRun State.idle running
  cases s.status <;> rfl

theorem running_keeps (s : State) :
    (running s).ip = s.ip ∧ (running s).mem = s.mem ∧ (running s).params = s.params ∧ (running s).phase = s.phase ∧
      (running s).outcome = s.outcome ∧ (running s).waitingForInput = s.waitingForInput := by
  unfold running
  split <;> exact ⟨rfl, rfl, rfl, rfl, rfl, rfl⟩

theorem unhurried_running {s : State} (h : ∀ m, s.status = .running m → m ≠ .cycleChange ∧ s.pauseFlag = false) :
    Unhurried (running s) := by
  unfold running
  split
  next m hm =>
    obtain ⟨hmode, hpause⟩ := h m hm
    exact ⟨hpause, by rw [hm]; simpa using hmode⟩
  next => exact ⟨rfl, by simp⟩

/-- The model's end of a whole instruction is that of the statements. -/
theorem afterInstruction_eq_settled {t : State} (h : Unhurried t) : afterInstruction t = settled t := by
  have settle {u : State} (hu : Unhurried u) :
      runControl .writeback u =
        if u.phase = .fetching ∧ u.outcome = .running ∧ u.waitingForInput = false ∧ u.status = .running .endOfInstruction then
          { u with status := .paused }
        else u := by
    rw [runControl_unhurried hu]
    refine if_congr ?_ rfl rfl
    rw [coreReady_iff]
    tauto
  unfold afterInstruction settled
  split
  · exact settle (h.of_kept (kept_trapEntry t) (ended_trapEntry t).status)
  · exact settle h

/-- Settles O7: the bytes at IP decode to `i`, and the step takes the whole of it. -/
theorem stepRunsDecoded : Obligations.StepRunsDecoded := by
  intro s i hbegins hat
  obtain ⟨hagenda, hphase, houtcome, hwait, hmodes⟩ := hbegins
  obtain ⟨hip, hmem, hparams, hphase', houtcome', hwait'⟩ := running_keeps s
  have hrun := unhurried_running hmodes
  have hfetch : fetchInstr (running s) = some i := by
    refine fetchInstr_eq_some_iff.2 ⟨hat.1, ?_⟩
    rw [SpelledAt, hip, hmem, hparams]
    exact spelledAt_of_at hat
  have hready : (running s).coreReady = true := (coreReady_iff _).2 ⟨houtcome'.trans houtcome, hwait'.trans hwait⟩
  have hwhole : (running s).wholeInstruction = true := by
    simp [State.wholeInstruction, hphase', hphase, hrun.1, hrun.2]
  obtain ⟨t, ht, ended⟩ := perform_of_fit hat.1 (running s)
  refine ⟨t, (exec_eq_perform ..).trans ht, ?_⟩
  rw [← afterInstruction_eq_settled (hrun.of_kept (kept_perform ht) ended.status)]
  simp only [step, hagenda, impliedRun_eq_running, instructionStep, hready, hwhole, if_true, hfetch, exec_eq_perform, ht]

end Sys2Proof.Claims
end

section
/-! Fetching the instruction bytes ahead (40_instruction_cycle.md R143, R151 to R153). A meaning starts from the state in which every byte
of the instruction has been read; the cycle reads them one by one, among other work. The two lead to the same state, because the
work that stands before a byte is read does not touch what the byte fills. -/

namespace Sys2Proof.Machine

open Sys2Proof.Config

/-! ## The actions that fetch an instruction byte -/

/-- What the byte fetched by an action fills. -/
def Act.fetched (act : Act) (b : Byte) (m : Metadata) : Metadata :=
  match act with
  | .fetchRR _ | .fetchR _ => { m with rb := some b }
  | .fetchAddrLo | .fetchImmLo => { m with lo := some b }
  | .fetchAddrHi => { m with ea := some (concat b m.lowByte), lo := none }
  | .fetchImm8 => { m with imm := some (zext b) }
  | .fetchImmHi => { m with imm := some (concat b m.lowByte), lo := none }
  | .fetchVec => { m with vec := some b }
  | .fetchPort => { m with port := some (zext b) }
  | _ => m

/-- The byte is legal where the action fetches it (30_encoding.md R112). -/
def Act.accepts (act : Act) (b : Byte) : Bool :=
  match act with
  | .fetchRR w => rrLegal w b
  | .fetchR w => rLegal w b
  | _ => true

theorem run_fetch {act : Act} (h : act.isFetch = true) (key : Option Byte) (s : State) :
    act.run key s = fetchByte s fun b s =>
      if act.accepts b then .go (s.withMd (act.fetched b)) else .stop (raiseIllegal (s.withMd (act.fetched b))) := by
  cases act <;> first | rfl | cases h

theorem run_fetch_of_accepts {act : Act} (h : act.isFetch = true) (key : Option Byte) {s : State}
    (hmem : s.ip.toNat < s.params.memSize) (hip : s.ip ≠ 0xFFFF) (hb : act.accepts (s.mem.read s.ip.toNat) = true) :
    act.run key s = .go { s with ip := s.ip + 1, md := act.fetched (s.mem.read s.ip.toNat) s.md } := by
  rw [run_fetch h, fetchByte_ok hmem hip, if_pos hb]
  rfl

/-- A fetch that completes has found a legal byte that it can pass. -/
theorem run_fetch_inv {act : Act} (h : act.isFetch = true) {key : Option Byte} {s t : State} (hrun : act.run key s = .go t) :
    s.ip.toNat < s.params.memSize ∧ s.ip ≠ 0xFFFF ∧ act.accepts (s.mem.read s.ip.toNat) = true ∧
      t = { s with ip := s.ip + 1, md := act.fetched (s.mem.read s.ip.toNat) s.md } := by
  by_cases hmem : s.ip.toNat < s.params.memSize
  · by_cases hip : s.ip = 0xFFFF
    · rw [run_fetch h, fetchByte, busRead_memory_ok hmem, advanceIP, if_pos hip] at hrun
      cases hrun
    · rw [run_fetch h, fetchByte_ok hmem hip] at hrun
      split at hrun
      next hb => cases hrun; exact ⟨hmem, hip, hb, rfl⟩
      next => cases hrun
  · rw [run_fetch h, fetchByte, busRead_memory, if_neg hmem] at hrun
    cases hrun

/-- Fetches move past work on the metadata that none of their bytes touches. -/
theorem runActs_fetch_withMd {acts : List Act} (hfetch : ∀ act ∈ acts, act.isFetch = true) {g : Metadata → Metadata}
    (hg : ∀ act ∈ acts, ∀ b m, act.fetched b (g m) = g (act.fetched b m)) {s t : State} (h : runActs none acts s = .go t) :
    runActs none acts (s.withMd g) = .go (t.withMd g) ∧ t.bx = s.bx := by
  induction acts generalizing s with
  | nil => cases h; exact ⟨rfl, rfl⟩
  | cons act rest ih =>
    obtain ⟨hact, hrest⟩ := List.forall_mem_cons.1 hfetch
    obtain ⟨hgact, hgrest⟩ := List.forall_mem_cons.1 hg
    cases hrun : act.run none s with
    | go u =>
      rw [runActs, hrun] at h
      obtain ⟨hmem, hip, hb, rfl⟩ := run_fetch_inv hact hrun
      obtain ⟨hruns, hbx⟩ := ih hrest hgrest h
      refine ⟨runActs_cons (run_fetch_of_accepts hact none (s := s.withMd g) hmem hip hb) ?_, hbx⟩
      simp only [State.withMd_md, hgact]
      exact hruns
    | stop u => rw [runActs, hrun] at h; cases h
    | park => rw [runActs, hrun] at h; cases h

/-! ## The fields of an instruction that stands at IP -/

/-- Below FFFFh IP can advance, and does not wrap. -/
theorem succ_below_last {a : Word} (h : a.toNat < 0xFFFF) : a ≠ 0xFFFF ∧ (a + 1).toNat = a.toNat + 1 := by
  refine ⟨fun heq => ?_, ?_⟩
  · rw [heq] at h
    exact absurd h (by decide)
  · rw [BitVec.toNat_add]
    exact Nat.mod_eq_of_lt (Nat.succ_lt_succ h)

theorem fetch_next {act : Act} (h : act.isFetch = true) {s : State} {b : Byte} {bytes : List Byte}
    (hspelled : SpelledAt s s.ip.toNat (b :: bytes)) (hb : act.accepts b = true) :
    act.run none s = .go { s with ip := s.ip + 1, md := act.fetched b s.md } ∧ SpelledAt s (s.ip + 1).toNat bytes := by
  obtain ⟨⟨hmem, hlast, rfl⟩, others⟩ := spelledAt_cons.1 hspelled
  obtain ⟨hip, hnext⟩ := succ_below_last hlast
  exact ⟨run_fetch_of_accepts h none hmem hip hb, by rw [hnext]; exact others⟩

/-- The state after a field of the instruction: IP is past its bytes, and the metadata hold its value. -/
def State.withField (s : State) (x : Operands) (f : Field) : State :=
  { s with ip := s.ip + BitVec.ofNat 16 f.size, md := prefetchField x s.md f }

/-- The sub-steps of a field that can hold its value, and whose bytes stand at IP, read the value. -/
theorem runActs_fetchField {f : Field} {x : Operands} (hfits : f.fits x = true) {s : State} (hlo : s.md.lo = none)
    {bytes : List Byte} (h : SpelledAt s s.ip.toNat (encodeField x f ++ bytes)) :
    runActs none (fetchField f).flatten s = .go (s.withField x f) ∧
      SpelledAt s (s.withField x f).ip.toNat bytes := by
  have two (s : State) : s.ip + 1 + 1 = s.ip + BitVec.ofNat 16 2 := BitVec.add_assoc ..
  cases f with
  | rr w =>
    obtain ⟨hrun, hrest⟩ := fetch_next (act := .fetchRR w) rfl h ((rrLegal_rrByte w x.a x.b).trans hfits)
    exact ⟨runActs_single.trans hrun, hrest⟩
  | r w =>
    obtain ⟨hrun, hrest⟩ := fetch_next (act := .fetchR w) rfl h ((rLegal_rByte w x.b).trans hfits)
    exact ⟨runActs_single.trans hrun, hrest⟩
  | addr =>
    obtain ⟨hlow, hnext⟩ := fetch_next (act := .fetchAddrLo) rfl h rfl
    obtain ⟨hhigh, hrest⟩ := fetch_next (act := .fetchAddrHi) rfl
      (s := { s with ip := s.ip + 1, md := { s.md with lo := some (low x.addr) } }) hnext rfl
    refine ⟨runActs_cons hlow (runActs_single.trans (hhigh.trans ?_)), by rw [two] at hrest; exact hrest⟩
    simp only [Act.fetched, Metadata.lowByte, Option.getD_some, concat_high_low, two, State.withField, Field.size,
      prefetchField, ← hlo]
  | imm16 =>
    obtain ⟨hlow, hnext⟩ := fetch_next (act := .fetchImmLo) rfl h rfl
    obtain ⟨hhigh, hrest⟩ := fetch_next (act := .fetchImmHi) rfl
      (s := { s with ip := s.ip + 1, md := { s.md with lo := some (low x.imm) } }) hnext rfl
    refine ⟨runActs_cons hlow (runActs_single.trans (hhigh.trans ?_)), by rw [two] at hrest; exact hrest⟩
    simp only [Act.fetched, Metadata.lowByte, Option.getD_some, concat_high_low, two, State.withField, Field.size,
      prefetchField, ← hlo]
  | imm8 =>
    obtain ⟨hrun, hrest⟩ := fetch_next (act := .fetchImm8) rfl h rfl
    exact ⟨runActs_single.trans (hrun.trans (by simp only [Act.fetched, zext_low hfits]; rfl)), hrest⟩
  | vec =>
    obtain ⟨hrun, hrest⟩ := fetch_next (act := .fetchVec) rfl h rfl
    exact ⟨runActs_single.trans hrun, hrest⟩
  | port =>
    obtain ⟨hrun, hrest⟩ := fetch_next (act := .fetchPort) rfl h rfl
    exact ⟨runActs_single.trans (hrun.trans (by simp only [Act.fetched, zext_low hfits]; rfl)), hrest⟩

theorem runActs_fetchFields {x : Operands} {fs : List Field} (hfits : fs.all (Field.fits x) = true) {s : State}
    (hlo : s.md.lo = none) (h : SpelledAt s s.ip.toNat (fs.flatMap (encodeField x))) :
    runActs none (fs.flatMap fetchField).flatten s =
      .go { s with ip := s.ip + BitVec.ofNat 16 (fs.map Field.size).sum, md := fs.foldl (prefetchField x) s.md } := by
  induction fs generalizing s with
  | nil => simp [runActs]
  | cons f fs ih =>
    rw [List.all_cons, Bool.and_eq_true] at hfits
    obtain ⟨hf, hfs⟩ := hfits
    obtain ⟨hrun, hrest⟩ := runActs_fetchField hf hlo (List.flatMap_cons ▸ h)
    have hlo' : (s.withField x f).md.lo = none := by rw [← hlo]; cases f <;> rfl
    rw [List.flatMap_cons, List.flatten_append, runActs_append, hrun, Flow.andThen, ih hfs hlo' hrest]
    simp only [State.withField, List.map_cons, List.sum_cons, List.foldl_cons, BitVec.ofNat_add, BitVec.add_assoc]

/-! ## Bytes fetched ahead of the work -/

/-- `e` is ahead of `c`: to read the instruction bytes that the actions still have to read leads from `c` to `e`. -/
def Ahead (acts : List Act) (c e : State) : Prop := runActs none (acts.filter Act.isFetch) c = .go e

/-- The actions without those that fetch, as in `dataReads`. -/
def dropFetch (acts : List Act) : List Act := acts.filter fun act => !act.isFetch

/-- No instruction byte is left to read. -/
def noFetch (acts : List Act) : Bool := acts.all fun act => !act.isFetch

theorem filter_isFetch_of_noFetch {acts : List Act} (h : noFetch acts = true) : acts.filter Act.isFetch = [] := by
  simpa [noFetch, List.filter_eq_nil_iff] using h

theorem dropFetch_of_noFetch {acts : List Act} (h : noFetch acts = true) : dropFetch acts = acts := by
  simpa [noFetch, dropFetch, List.filter_eq_self] using h

theorem ahead_of_noFetch {acts : List Act} (h : noFetch acts = true) {c e : State} : Ahead acts c e ↔ c = e := by
  simp [Ahead, filter_isFetch_of_noFetch h, runActs]

/-- The action fetches a byte of an immediate. -/
def Act.fetchesImm : Act → Bool
  | .fetchImm8 | .fetchImmLo | .fetchImmHi => true
  | _ => false

/-- The instruction bytes are fetched before there is work on them, but for `ea <- BX`, which may stand before an immediate. -/
def fetchesFirst : List Act → Bool
  | [] => true
  | act :: rest =>
    (act.isFetch || (act == .eaFromBX && rest.all fun a => !a.isFetch || a.fetchesImm) || noFetch rest) && fetchesFirst rest

theorem Ahead.bumpSub {acts : List Act} {c e : State} (h : Ahead acts c e) : Ahead acts c.bumpSub e.bumpSub := by
  refine (runActs_fetch_withMd (fun act hact => (List.mem_filter.1 hact).2) (fun act _ b m => ?_) h).1
  cases act <;> rfl

/-- `ea <- BX` before an immediate is read, or after it. -/
theorem Ahead.eaFromBX {acts : List Act} {c e : State}
    (hacts : (acts.all fun act => !act.isFetch || act.fetchesImm) = true) (h : Ahead acts c e) :
    Ahead acts (c.withMd fun m => { m with ea := some c.bx }) (e.withMd fun m => { m with ea := some e.bx }) := by
  have himm : ∀ act ∈ acts.filter Act.isFetch, act.fetchesImm = true := by
    intro act hact
    obtain ⟨hmem, hfetch⟩ := List.mem_filter.1 hact
    simpa [hfetch] using List.all_eq_true.1 hacts act hmem
  obtain ⟨hrun, hbx⟩ := runActs_fetch_withMd (g := fun m => { m with ea := some c.bx })
    (fun act hact => (List.mem_filter.1 hact).2)
    (fun act hact b m => by
      have := himm act hact
      cases act <;> first | rfl | cases this) h
  rw [hbx]
  exact hrun

/-- How a sub-step taken from a state and one taken from the state ahead of it end: alike, and still one ahead of the other. -/
def Alike (later : List Act) : Flow → Flow → Prop
  | .go c, .go e => Ahead later c e
  | .stop t, .stop t' => t = t'
  | _, _ => False

/-- The work of a sub-step, from a state and from the state ahead of it. -/
theorem alike_runActs {acts later : List Act} (horder : fetchesFirst (acts ++ later) = true)
    (hport : acts.any Act.readsPort = false) {c e : State} (h : Ahead (acts ++ later) c e) :
    Alike later (runActs none acts c) (runActs none (dropFetch acts) e) := by
  induction acts generalizing c e with
  | nil => exact h
  | cons act rest ih =>
    by_cases hnone : noFetch (act :: rest ++ later) = true
    · obtain rfl := (ahead_of_noFetch hnone).1 h
      rw [noFetch, List.all_append, Bool.and_eq_true] at hnone
      rw [dropFetch_of_noFetch hnone.1]
      cases hrun : runActs none (act :: rest) c with
      | go u => exact (ahead_of_noFetch hnone.2).2 rfl
      | stop u => rfl
      | park => exact absurd hrun (runActs_ne_park hport c)
    rw [List.cons_append, fetchesFirst, Bool.and_eq_true] at horder
    rw [List.any_cons, Bool.or_eq_false_iff] at hport
    obtain ⟨hfirst, horder⟩ := horder
    cases hfetch : act.isFetch with
    | true =>
      have hdrop : dropFetch (act :: rest) = dropFetch rest := by simp [dropFetch, hfetch]
      have hall : runActs none (act :: (rest ++ later).filter Act.isFetch) c = .go e := by
        simpa [Ahead, hfetch] using h
      rw [hdrop]
      simp only [runActs] at hall ⊢
      cases hrun : act.run none c with
      | go u => rw [hrun] at hall; exact ih horder hport.2 hall
      | stop u => rw [hrun] at hall; cases hall
      | park => rw [hrun] at hall; cases hall
    | false =>
      have hea : act = .eaFromBX ∧ ((rest ++ later).all fun a => !a.isFetch || a.fetchesImm) = true := by
        have hsome : noFetch (rest ++ later) = false := by
          simpa [noFetch, hfetch] using hnone
        simpa only [hfetch, hsome, Bool.false_or, Bool.or_false, Bool.and_eq_true, beq_iff_eq] using hfirst
      obtain ⟨rfl, himm⟩ := hea
      exact ih horder hport.2 (Ahead.eaFromBX himm h)

/-- In every sub-step either no byte is left to fetch, or the fetches come first and no port is read. -/
def readsInOrder : List (List Act) → Bool
  | [] => true
  | acts :: rest =>
    (noFetch (acts ++ rest.flatten) || (!acts.any Act.readsPort && fetchesFirst (acts ++ rest.flatten))) && readsInOrder rest

/-- Sub-steps taken from a state, and without their fetches from the state ahead of it, lead to the same. -/
theorem runSubSteps_ahead {subs : List (List Act)} (horder : readsInOrder subs = true) {c e : State}
    (h : Ahead subs.flatten c e) (k : State → State) : runSubSteps subs c k = runSubSteps (subs.map dropFetch) e k := by
  induction subs generalizing c e with
  | nil => rw [(ahead_of_noFetch rfl).1 h]; rfl
  | cons acts rest ih =>
    by_cases hnone : noFetch (acts ++ rest.flatten) = true
    · have hall : ∀ acts' ∈ acts :: rest, dropFetch acts' = acts' := by
        intro acts' hacts'
        refine dropFetch_of_noFetch (List.all_eq_true.2 fun act hact => ?_)
        exact List.all_eq_true.1 hnone act (List.mem_flatten.2 ⟨acts', hacts', hact⟩)
      rw [(ahead_of_noFetch hnone).1 h, List.map_congr_left hall, List.map_id']
    · rw [readsInOrder, Bool.and_eq_true] at horder
      obtain ⟨hfirst, horder⟩ := horder
      rw [Bool.eq_false_iff.2 hnone, Bool.false_or, Bool.and_eq_true, Bool.not_eq_true'] at hfirst
      have halike := alike_runActs hfirst.2 hfirst.1 h
      rw [List.map_cons]
      simp only [runSubSteps]
      cases hc : runActs none acts c <;> cases he : runActs none (dropFetch acts) e <;> rw [hc, he] at halike
      case go.go u v => exact ih horder (Ahead.bumpSub halike)
      case stop.stop u v => exact halike
      all_goals exact halike.elim

/-! ## The operand reads of an instruction -/

theorem reads_inOrder : ∀ oc : Opcode, readsInOrder (reads oc) = true :=
  forall_opcode (by decide)

theorem filter_isFetch_reads : ∀ oc : Opcode, (reads oc).flatten.filter Act.isFetch = (fetches oc).flatten :=
  forall_opcode (by decide)

/-- The state after the sub-step `fetching` of an instruction. -/
def State.fetched (s : State) (oc : Opcode) : State :=
  { s with ip := s.ip + 1, phase := afterFetching oc, md := { start := some s.ip, op := some (opcodeByte oc) } }

/-- The state with every byte of the instruction read is ahead of the one with byte 0 read. -/
theorem ahead_prefetched {oc : Opcode} {x : Operands} (hx : x.fit oc = true) {s : State}
    (h : SpelledAt s (s.fetched oc).ip.toNat ((layout oc).flatMap (encodeField x))) :
    Ahead (reads oc).flatten (s.fetched oc) (prefetched oc x s) := by
  rw [fit_eq_all_fits] at hx
  rw [Ahead, filter_isFetch_reads]
  refine (runActs_fetchFields (s := s.fetched oc) hx rfl h).trans ?_
  simp only [State.fetched, prefetched, opcodeLength, BitVec.ofNat_add, BitVec.add_assoc]
  rfl

end Sys2Proof.Machine
end

section
/-! A whole instruction by its sub-steps (40_instruction_cycle.md R140 to R149): the core taken sub-step by sub-step, with no other agent
in between, goes through the phases one after the other, and each phase leads where the meaning of the instruction has it. -/

namespace Sys2Proof.Machine

open Sys2Proof.Config

/-! ## One sub-step of a run to the end of the instruction -/

theorem coreRuns_iff (s : State) :
    s.coreRuns = true ↔ (∃ mode, s.status = .running mode) ∧ s.outcome = .running ∧ s.waitingForInput = false := by
  unfold State.coreRuns
  cases s.status <;> simp [coreReady_iff]

/-- A sub-step keeps the host's run, or stops it. -/
theorem status_coreSubStep {key : Option Byte} {s t : State} (h : coreSubStep key s = .next t) :
    t.status = s.status ∨ t.status = .stopped := by
  have phase {subs : List (List Act)} {k : State → State} (h : phaseStep key subs k s = .next t)
      (hk : ∀ u, (k u).status = u.status) : t.status = s.status ∨ t.status = .stopped := by
    obtain fault | rfl | ⟨_, u, _, _, hgoing, rfl⟩ := phaseStep_cases h
    · exact .inr fault.status
    · exact .inl rfl
    · left
      split
      · exact (hk _).trans hgoing.status
      · exact hgoing.status
  have close (oc : Opcode) (u : State) : (endOfInstruction oc u).status = u.status := by
    unfold endOfInstruction
    split
    · rfl
    · split <;> rfl
  unfold coreSubStep at h
  split at h
  case h_1 =>
    cases h
    obtain fault | ⟨oc, hmem, hip, hoc⟩ := fetchStep_inv s
    · exact .inr fault.status
    · rw [fetchStep_legal hmem hip hoc]; exact .inl rfl
  case h_2 =>
    split at h
    · exact phase h fun _ => rfl
    · cases h
  case h_3 =>
    split at h
    · cases h; exact .inl (executeStep_keeps_error_status _ s).2
    · cases h
  case h_4 =>
    split at h
    · exact phase h (close _)
    · cases h
  case h_5 | h_6 | h_7 => exact phase h fun _ => rfl
  case h_8 => cases h; exact .inr rfl
  case h_9 => cases h

/-- What follows a sub-step that has led to `t`: more sub-steps, `n` at most, unless the core is at a boundary. -/
def resume (n : Nat) (t : State) : Host.Outcome State Fault Refusal :=
  if t.coreRuns = true ∧ t.phase ≠ .fetching then runToBoundary n t else .next (runControl .writeback t)

theorem resume_of_runs {n : Nat} {t : State} (hruns : t.coreRuns = true) (hp : t.phase ≠ .fetching) :
    resume n t = runToBoundary n t := if_pos ⟨hruns, hp⟩

theorem resume_of_not_runs {n : Nat} {t : State} (h : t.coreRuns = false) :
    resume n t = .next (runControl .writeback t) := if_neg (by rw [h]; simp)

theorem resume_of_fetching {n : Nat} {t : State} (h : t.phase = .fetching) :
    resume n t = .next (runControl .writeback t) := if_neg (by rw [h]; simp)

/-- In a run that lets instructions finish, the run control after a sub-step acts at boundaries only. -/
theorem runToBoundary_succ {n : Nat} {s t : State} (hs : Unhurried s) (h : coreSubStep none s = .next t) :
    runToBoundary (n + 1) s = resume n t := by
  have ht : Unhurried t := hs.of_kept (kept_coreSubStep h) (status_coreSubStep h)
  simp only [runToBoundary, coreStep, h, resume]
  rw [runControl_unhurried ht s.phase, runControl_unhurried ht .writeback]
  by_cases hpause : t.coreReady = true ∧ t.status = .running .endOfInstruction ∧ t.phase = .fetching
  · simp [hpause]
  · rw [if_neg hpause]
    refine if_congr ?_ rfl rfl
    simp

/-! ## A phase -/

/-- The core is in phase `p` of the opcode `oc`, in a run that will let the instruction finish. -/
structure Midway (p : Phase) (oc : Opcode) (s : State) : Prop where
  phase : s.phase = p
  op : s.md.op = some (opcodeByte oc)
  runs : s.coreRuns = true
  unhurried : Unhurried s

theorem Midway.opcode {p : Phase} {oc : Opcode} {s : State} (h : Midway p oc s) : currentOpcode s = some oc :=
  currentOpcode_eq_some_iff.2 h.op

theorem Midway.going {p : Phase} {oc : Opcode} {acts : List Act} {s u : State} (h : Midway p oc s)
    (hrun : runActs none acts s = .go u) : Midway p oc u.bumpSub := by
  have hgoing := cycles_runActs none acts s
  have hkept := keeps_runActs none acts s
  rw [hrun] at hgoing hkept
  refine ⟨hgoing.phase.trans h.phase, hgoing.op.trans h.op, ?_, ?_⟩
  · have hruns := h.runs
    rw [coreRuns_iff] at hruns ⊢
    show (∃ mode, u.status = .running mode) ∧ u.outcome = .running ∧ u.waitingForInput = false
    rwa [hgoing.status, hgoing.outcome, hgoing.waitingForInput]
  · exact h.unhurried.of_kept (t := u) hkept (.inl hgoing.status)

theorem Midway.enter {p : Phase} {oc : Opcode} {s : State} (h : Midway p oc s) (q : Phase) : Midway q oc (s.enter q) :=
  ⟨rfl, h.op, h.runs, h.unhurried⟩

theorem coreRuns_of_faulted {s t : State} (h : Faulted s t) : t.coreRuns = false := by
  unfold State.coreRuns
  rw [h.status]

theorem coreRuns_waiting (s : State) : ({ s with waitingForInput := true } : State).coreRuns = false := by
  rw [Bool.eq_false_iff, Ne, coreRuns_iff]
  simp

/-- A phase that is a list of sub-steps, from its sub-step number `before.length` on: the sub-steps one after the other, and then
what follows the phase. `finish` is the end of the whole instruction, which has nothing to do after a fault or a park. -/
theorem runToBoundary_phase {p : Phase} {oc : Opcode} {subs : List (List Act)} {next whole finish : State → State} {n : Nat}
    (hp : p ≠ .fetching) (hstep : ∀ u, Midway p oc u → coreSubStep none u = phaseStep none subs next u)
    (hnext : ∀ u, Midway p oc u → resume n (next u) = .next (finish (whole u)))
    (hfinish : ∀ t, t.phase = .stopped ∨ t.phase = p → finish t = runControl .writeback t)
    {before rest : List (List Act)} (hsubs : subs = before ++ rest) (hrest : rest ≠ []) {s : State} (hs : Midway p oc s)
    (hsub : s.md.sub = before.length) :
    runToBoundary (n + rest.length) s = .next (finish (runSubSteps rest s whole)) := by
  induction rest generalizing before s with
  | nil => exact absurd rfl hrest
  | cons acts rest ih =>
    have hcurrent : subs[s.md.sub]? = some acts := by rw [hsubs, hsub]; simp
    have hsubStep := hstep s hs
    rw [phaseStep, hcurrent] at hsubStep
    have hcycles := cycles_runActs none acts s
    simp only [List.length_cons, runSubSteps, ← Nat.add_assoc]
    cases hrun : runActs none acts s with
    | go u =>
      simp only [hrun] at hsubStep
      have hgoing := hs.going hrun
      have hlast : s.md.sub + 1 = subs.length ↔ rest = [] := by
        rw [hsubs, hsub, ← List.length_eq_zero_iff]
        simp only [List.length_append, List.length_cons]
        omega
      rw [runToBoundary_succ hs.unhurried hsubStep]
      by_cases hnil : rest = []
      · subst hnil
        rw [if_pos (hlast.2 rfl)]
        exact hnext _ hgoing
      · rw [if_neg (mt hlast.1 hnil), resume_of_runs hgoing.runs (hgoing.phase.trans_ne hp)]
        refine ih (before := before ++ [acts]) (by simp [hsubs]) hnil hgoing ?_
        rw [hrun] at hcycles
        show u.md.sub + 1 = _
        rw [hcycles.sub, hsub, List.length_append]
        rfl
    | stop t =>
      simp only [hrun] at hsubStep hcycles
      rw [runToBoundary_succ hs.unhurried hsubStep, resume_of_not_runs (coreRuns_of_faulted hcycles)]
      exact congrArg _ (hfinish t (.inl hcycles.phase)).symm
    | park =>
      simp only [hrun] at hsubStep
      rw [runToBoundary_succ hs.unhurried hsubStep, resume_of_not_runs (coreRuns_waiting s)]
      exact congrArg _ (hfinish { s with waitingForInput := true } (.inr hs.phase)).symm

/-! ## From a phase to the end of the instruction -/

/-- A trap entry ends at its handler or in a fault. -/
theorem trapEntry_phase (s : State) : (trapEntry s).phase = .fetching ∨ (trapEntry s).phase = .stopped := by
  have sub (subs : List (List Act)) (hsubs : ∀ acts ∈ subs, acts.any Act.readsPort = false) (s : State) :
      (runSubSteps subs s State.toFetching).phase = .fetching ∨ (runSubSteps subs s State.toFetching).phase = .stopped := by
    induction subs generalizing s with
    | nil => exact .inl rfl
    | cons acts rest ih =>
      obtain ⟨hacts, hrest⟩ := List.forall_mem_cons.1 hsubs
      have hcycles := cycles_runActs none acts s
      simp only [runSubSteps]
      cases hrun : runActs none acts s with
      | go u => exact ih hrest u.bumpSub
      | stop u => rw [hrun] at hcycles; exact .inr hcycles.phase
      | park => exact absurd hrun (runActs_ne_park hacts s)
  exact sub trapSubSteps (fun acts hacts => (trapSubSteps_no_fetch_no_port acts hacts).2) s

theorem afterInstruction_of_ne_interrupt {s : State} (h : s.phase ≠ .interrupt) :
    afterInstruction s = runControl .writeback s := by
  rw [afterInstruction, if_neg h]

theorem runToBoundary_trap {p : Phase} {oc : Opcode} {s : State} (hp : p = .interrupt ∨ p = .int6 ∨ p = .int7)
    (hs : Midway p oc s) (hsub : s.md.sub = 0) (n : Nat) :
    runToBoundary (n + 6) s = .next (runControl .writeback (trapEntry s)) := by
  refine runToBoundary_phase (subs := trapSubSteps) (next := State.toFetching) (before := []) ?_ ?_ ?_ (fun _ _ => rfl) rfl
    (by simp) hs hsub
  · rcases hp with rfl | rfl | rfl <;> simp
  · intro u hu
    have hphase := hu.phase
    rcases hp with rfl | rfl | rfl <;> simp only [coreSubStep, hphase]
  · exact fun _ _ => resume_of_fetching rfl

theorem trapPhase_cases (n : Byte) : trapPhase n = .interrupt ∨ trapPhase n = .int6 ∨ trapPhase n = .int7 := by
  unfold trapPhase
  split
  · simp
  · split <;> simp

/-- The end of an instruction in the cycle, with the trap entry that may follow it. -/
theorem resume_endOfInstruction {oc : Opcode} {s : State} (hs : Midway .writeback oc s) (n : Nat) :
    resume (n + 6) (endOfInstruction oc s) = .next (afterInstruction (closeInstruction oc s)) := by
  have trap {p : Phase} (hp : p = .interrupt ∨ p = .int6 ∨ p = .int7) :
      resume (n + 6) (s.enter p) = .next (runControl .writeback (trapEntry (s.enter p))) := by
    rw [resume_of_runs (hs.enter p).runs (by rcases hp with rfl | rfl | rfl <;> simp)]
    exact runToBoundary_trap hp (hs.enter p) rfl n
  unfold closeInstruction endOfInstruction
  split
  next hint =>
    rw [trap (trapPhase_cases _), afterInstruction_of_ne_interrupt]
    rcases trapEntry_phase (s.enter (trapPhase (s.md.vec.getD 0))) with h | h <;> rw [h] <;> simp
  next hint =>
    split
    · exact trap (.inl rfl)
    · exact resume_of_fetching rfl

theorem runToBoundary_writeback {oc : Opcode} {s : State} (hs : Midway .writeback oc s) (hsub : s.md.sub = 0)
    (hoc : writes oc ≠ []) (n : Nat) :
    runToBoundary (n + 6 + (writes oc).length) s =
      .next (afterInstruction (runSubSteps (writes oc) s (closeInstruction oc))) := by
  refine runToBoundary_phase (subs := writes oc) (next := endOfInstruction oc) (before := []) (by simp) ?_
    (fun u hu => resume_endOfInstruction hu n) ?_ rfl hoc hs hsub
  · intro u hu
    simp only [coreSubStep, hu.phase, hu.opcode]
  · intro t ht
    exact afterInstruction_of_ne_interrupt (by rcases ht with h | h <;> rw [h] <;> simp)

/-- HLT alone has nothing to write back. -/
theorem writes_ne_nil {oc : Opcode} : oc ≠ .hlt → writes oc ≠ [] := by
  revert oc
  apply forall_opcode
  decide

theorem Midway.execute {oc : Opcode} {s : State} (h : Midway .executing oc s) :
    Midway (if oc = .hlt then .halting else .writeback) oc (executeStep oc s) := by
  have hgoing := going_compute oc s
  refine Midway.enter (p := .executing) ⟨hgoing.phase.trans h.phase, hgoing.op.trans h.op, ?_, ?_⟩ _
  · have hruns := h.runs
    rw [coreRuns_iff] at hruns ⊢
    rwa [hgoing.status, hgoing.outcome, hgoing.waitingForInput]
  · exact h.unhurried.of_kept (kept_compute oc s) (.inl hgoing.status)

theorem runToBoundary_executing {oc : Opcode} {s : State} (hs : Midway .executing oc s) (n : Nat) :
    runToBoundary (n + 6 + (writes oc).length + 1) s = .next (afterInstruction (commitInstruction oc s)) := by
  have hstep : coreSubStep none s = .next (executeStep oc s) := by simp only [coreSubStep, hs.phase, hs.opcode]
  have hnext := hs.execute
  rw [runToBoundary_succ hs.unhurried hstep, commitInstruction]
  by_cases hhlt : oc = .hlt
  · rw [if_pos hhlt] at hnext ⊢
    have hhalt : coreSubStep none (executeStep oc s) = .next (haltStep (executeStep oc s)) := by
      simp only [coreSubStep, hnext.phase]
    subst hhlt
    rw [resume_of_runs hnext.runs (hnext.phase.trans_ne (by simp))]
    exact (runToBoundary_succ (n := n + 5) hnext.unhurried hhalt).trans (resume_of_not_runs rfl)
  · rw [if_neg hhlt] at hnext ⊢
    rw [resume_of_runs hnext.runs (hnext.phase.trans_ne (by simp))]
    exact runToBoundary_writeback hnext rfl (writes_ne_nil hhlt) n

theorem runToBoundary_fetchingOperands {oc : Opcode} {s : State} (hs : Midway .fetchingOperands oc s) (hsub : s.md.sub = 0)
    (hoc : reads oc ≠ []) (n : Nat) :
    runToBoundary (n + 6 + (writes oc).length + 1 + (reads oc).length) s =
      .next (afterInstruction (runSubSteps (reads oc) s fun t => commitInstruction oc (t.enter .executing))) := by
  refine runToBoundary_phase (subs := reads oc) (next := State.enter .executing) (before := []) (by simp) ?_ ?_ ?_ rfl hoc hs
    hsub
  · intro u hu
    exact coreSubStep_fetchingOperands hu.phase hu.opcode
  · intro u hu
    have hentered := hu.enter .executing
    rw [resume_of_runs hentered.runs (by simp)]
    exact runToBoundary_executing hentered n
  · intro t ht
    exact afterInstruction_of_ne_interrupt (by rcases ht with h | h <;> rw [h] <;> simp)

/-- The longest instruction with its trap entry takes fewer sub-steps than `runToBoundary` is given. -/
theorem maxSubSteps_eq (oc : Opcode) :
    ∃ n, maxSubSteps = n + 6 + (writes oc).length + 1 + (reads oc).length + 1 := by
  have hbound : (reads oc).length + (writes oc).length ≤ 24 := by
    revert oc
    apply forall_opcode
    decide
  exact ⟨24 - ((reads oc).length + (writes oc).length), by unfold maxSubSteps; omega⟩

/-- The sub-steps of an instruction whose bytes stand at IP lead where its meaning leads. -/
theorem runToBoundary_eq_finishInstruction {oc : Opcode} {x : Operands} (hx : x.fit oc = true) {s : State}
    (hphase : s.phase = .fetching) (hruns : s.coreRuns = true) (hrun : Unhurried s)
    (hspelled : SpelledAt s s.ip.toNat (opcodeByte oc :: (layout oc).flatMap (encodeField x))) :
    runToBoundary maxSubSteps s = .next (afterInstruction (finishInstruction oc (prefetched oc x s))) := by
  obtain ⟨⟨hmem, hlast, hop⟩, hfields⟩ := spelledAt_cons.1 hspelled
  obtain ⟨hip, hnext⟩ := succ_below_last hlast
  have hfetch : fetchStep s = s.fetched oc := by
    rw [fetchStep_legal hmem hip (by rw [hop]; exact decodeOpcode_opcodeByte oc), hop]
    rfl
  have hahead := ahead_prefetched hx (s := s) (by rw [show (s.fetched oc).ip = s.ip + 1 from rfl, hnext]; exact hfields)
  have hfinish : finishInstruction oc (prefetched oc x s) =
      runSubSteps (reads oc) (s.fetched oc) fun t => commitInstruction oc (t.enter .executing) :=
    (runSubSteps_ahead (reads_inOrder oc) hahead _).symm
  have hmidway : Midway (afterFetching oc) oc (s.fetched oc) := ⟨rfl, rfl, hruns, hrun⟩
  have hstep : coreSubStep none s = .next (s.fetched oc) := by rw [coreSubStep_fetching hphase, hfetch]
  obtain ⟨n, hn⟩ := maxSubSteps_eq oc
  rw [hfinish, hn, runToBoundary_succ hrun hstep]
  by_cases hreads : reads oc = []
  · have hafter := afterFetching_of_reads_nil hreads
    rw [hafter] at hmidway
    have henter : (s.fetched oc).enter .executing = s.fetched oc := by rw [State.fetched, hafter]; rfl
    rw [resume_of_runs hmidway.runs (hmidway.phase.trans_ne (by simp)), hreads]
    simp only [runSubSteps, henter]
    exact runToBoundary_executing hmidway n
  · rw [afterFetching_of_reads_ne_nil hreads] at hmidway
    rw [resume_of_runs hmidway.runs (hmidway.phase.trans_ne (by simp))]
    exact runToBoundary_fetchingOperands hmidway rfl hreads n

end Sys2Proof.Machine

namespace Sys2Proof.Claims

open Sys2Proof.Machine Sys2Proof.Config

/-- Settles O8: where an instruction stands at IP the two agree phase by phase, and elsewhere the instruction step is the
sub-steps. -/
theorem instructionIsItsSubSteps : Obligations.InstructionIsItsSubSteps := by
  intro s hruns hwhole
  obtain ⟨_, houtcome, hwait⟩ := (coreRuns_iff s).1 hruns
  have hready := (coreReady_iff s).2 ⟨houtcome, hwait⟩
  simp only [instructionStep, hready, hwhole, if_true]
  cases hfetch : fetchInstr s with
  | none => rfl
  | some i =>
    obtain ⟨hwf, hspelled⟩ := fetchInstr_eq_some_iff.1 hfetch
    simp only [State.wholeInstruction, Bool.and_eq_true, beq_iff_eq, bne_iff_ne, Bool.not_eq_true'] at hwhole
    obtain ⟨⟨hphase, hmode⟩, hpause⟩ := hwhole
    have hexec : exec i s = .next (finishInstruction i.opcode (prefetched i.opcode i.operands s)) :=
      (exec_eq_perform i s).trans (if_pos hwf)
    simp only [hexec]
    exact (runToBoundary_eq_finishInstruction hwf hphase hruns ⟨hpause, hmode⟩ hspelled).symm

end Sys2Proof.Claims
end

section
/-! The cycle state along every step (40_instruction_cycle.md R140, R145, R149; 10_state.md R32, R33): what a consistent cycle state is,
that every sub-step of the core leads to one, and that the other agents and the host leave it or reset it. -/

namespace Sys2Proof.Machine

open Sys2Proof.Config

/-! ## The interrupt request while other agents step (60_exceptions.md R345) -/

/-- To assert a line withdraws no request: the line selected after it has the same priority or a higher one. -/
theorem Pic.intr_assert {p : Pic} (h : p.intr = true) (k : Nat) : (p.assert k).intr = true := by
  unfold Pic.intr at h ⊢
  split at h
  next i hi =>
    obtain ⟨hi8, hbit, _⟩ := (Claims.lowestBit_eq_some _ _).1 hi
    have hbit' : ((p.assert k).irr &&& ~~~(p.assert k).imr).getLsbD i = true := by
      simp only [Pic.assert, BitVec.getLsbD_and, BitVec.getLsbD_or, Bool.and_eq_true] at hbit ⊢
      exact ⟨by simp [hbit.1], hbit.2⟩
    cases hsel : (p.assert k).selected with
    | none =>
      unfold Pic.selected lowestBit at hsel
      have := List.find?_eq_none.1 hsel i (List.mem_range.2 hi8)
      exact absurd hbit' this
    | some j =>
      obtain ⟨_, _, hlowest⟩ := (Claims.lowestBit_eq_some _ _).1 hsel
      have hji : j ≤ i := Nat.le_of_not_lt fun hij => by
        rw [hlowest i hij] at hbit'
        cases hbit'
      simp only [List.all_eq_true, List.mem_range] at h ⊢
      exact fun l hl => h l (by omega)
  next => cases h

/-- A requesting PIC has a line selected. -/
theorem Pic.selected_of_intr {p : Pic} (h : p.intr = true) : ∃ i, p.selected = some i := by
  unfold Pic.intr at h
  split at h
  next i hi => exact ⟨i, hi⟩
  next => cases h

/-! ## The PIC during a trap entry (60_exceptions.md R331, R347) -/

/-- The action leaves the PIC as it is. Of the actions of a trap entry only the acknowledge does not. -/
def Act.sparesPic : Act → Bool
  | .pushLo _ | .pushHi _ | .setIF _ | .vectorLo | .vectorHi => true
  | _ => false

/-- An action that completes has left the PIC as it was in `s`. -/
def Flow.KeepsPic (s : State) : Flow → Prop
  | .go t => t.pic = s.pic
  | _ => True

theorem keepsPic_busWrite_memory (a : Nat) (v : Byte) (s : State) : (busWrite .memory a v s).KeepsPic s := by
  rw [busWrite_memory]
  split
  · rfl
  · trivial

theorem keepsPic_busRead_memory {a : Nat} {key : Option Byte} {s : State} {k : Byte → State → Flow}
    (hk : ∀ v, (k v s).KeepsPic s) : (busRead .memory a key s k).KeepsPic s := by
  rw [busRead_memory]
  split
  · exact hk _
  · trivial

theorem keepsPic_act (key : Option Byte) {act : Act} (h : act.sparesPic = true) (s : State) : (act.run key s).KeepsPic s := by
  cases act
  case pushLo v =>
    rw [Act.run, claimMemory2_eq]
    split
    · exact keepsPic_busWrite_memory ..
    · trivial
  case pushHi v =>
    rw [Act.run]
    have hwrite := keepsPic_busWrite_memory (s.pushAddress.toNat + 1) (high (s.pushValue v)) s
    cases hrun : busWrite .memory (s.pushAddress.toNat + 1) (high (s.pushValue v)) s with
    | go t => rw [hrun] at hwrite; exact hwrite
    | stop t => trivial
    | park => trivial
  case setIF => rfl
  case vectorLo =>
    rw [Act.run, claimMemory2_eq]
    split
    · exact keepsPic_busRead_memory fun _ => rfl
    · trivial
  case vectorHi => exact keepsPic_busRead_memory fun _ => rfl
  all_goals cases h

theorem pic_of_runActs {key : Option Byte} {acts : List Act} (h : acts.all Act.sparesPic = true) {s u : State}
    (hrun : runActs key acts s = .go u) : u.pic = s.pic := by
  induction acts generalizing s with
  | nil => cases hrun; rfl
  | cons act rest ih =>
    rw [List.all_cons, Bool.and_eq_true] at h
    have hact := keepsPic_act key h.1 s
    rw [runActs] at hrun
    cases hgo : act.run key s with
    | go t => rw [hgo] at hrun hact; exact (ih h.2 hrun).trans hact
    | stop t => rw [hgo] at hrun; cases hrun
    | park => rw [hgo] at hrun; cases hrun

/-- The first sub-step of a trap entry with a line to acknowledge knows its vector after it. -/
theorem vec_of_acknowledge {key : Option Byte} {acts : List Act} {s u : State} (hintr : s.pic.intr = true)
    (hrun : runActs key (.acknowledge :: acts) s = .go u) : u.md.vec.isSome = true := by
  have hvec : (acknowledgeInterrupt s).md.vec.isSome = true := by
    obtain ⟨i, hi⟩ := Pic.selected_of_intr hintr
    unfold acknowledgeInterrupt
    cases hv : s.md.vec with
    | some n => simp [hv]
    | none => simp [hi]
  have hcycles := cycles_runActs key acts (acknowledgeInterrupt s)
  rw [show runActs key acts (acknowledgeInterrupt s) = .go u from hrun] at hcycles
  exact hcycles.vec hvec

/-- A trap entry that has no vector yet after a sub-step has the request that it had before. -/
theorem trap_keeps_request {key : Option Byte} {acts : List Act} {s u : State} (hacts : acts ∈ trapSubSteps)
    (hrun : runActs key acts s = .go u) (hintr : s.pic.intr = true) : u.md.vec.isSome = true ∨ u.pic.intr = true := by
  have hkind : ∀ acts ∈ trapSubSteps, acts = [.acknowledge, .pushLo .flags] ∨ acts.all Act.sparesPic = true := by
    decide
  rcases hkind acts hacts with rfl | hspares
  · exact .inl (vec_of_acknowledge hintr hrun)
  · rw [pic_of_runActs hspares hrun]
    exact .inr hintr

/-! ## The operand fetch of INT (46_system.md R280) -/

theorem vec_of_fetchVec {key : Option Byte} {acts : List Act} {n : Nat} {s u : State} (hacts : (reads .int)[n]? = some acts)
    (hrun : runActs key acts s = .go u) : u.md.vec.isSome = true := by
  have hvec : acts = [.fetchVec] := by simpa [reads, fetches, layout, fetchField] using List.mem_of_getElem? hacts
  subst hvec
  rw [runActs_single] at hrun
  obtain ⟨_, _, _, rfl⟩ := run_fetch_inv rfl hrun
  rfl

end Sys2Proof.Machine

namespace Sys2Proof.Claims

open Sys2Proof.Machine Sys2Proof.Config

/-! ## A consistent cycle state, taken apart -/

/-- `State.cycleOk`, clause by clause. -/
structure CycleOk (s : State) : Prop where
  phase : s.phaseOk = true
  acknowledge : s.phase = .interrupt → s.md.vec = none → s.devices.pic = true ∧ s.pic.intr = true
  vector : s.phase = .executing ∨ s.phase = .writeback → currentOpcode s = some .int → s.md.vec.isSome = true
  outcome : s.outcome = .running ↔ s.phase ≠ .stopped
  error : s.outcome = .stoppedError ↔ s.error.isSome = true
  waiting : s.waitingForInput = true → s.phase = .fetchingOperands ∧ s.idle = false

theorem cycleOk_iff (s : State) : s.cycleOk = true ↔ CycleOk s := by
  have hack : s.acknowledgeOk = true ↔
      (s.phase = .interrupt → s.md.vec = none → s.devices.pic = true ∧ s.pic.intr = true) := by
    simp only [State.acknowledgeOk, Bool.or_eq_true, Bool.not_eq_true', ← Bool.not_eq_true, Bool.and_eq_true, beq_iff_eq]
    tauto
  have hvec : s.vectorOk = true ↔
      (s.phase = .executing ∨ s.phase = .writeback → currentOpcode s = some .int → s.md.vec.isSome = true) := by
    simp only [State.vectorOk, Bool.or_eq_true, Bool.not_eq_true', ← Bool.not_eq_true, Bool.and_eq_true, beq_iff_eq]
    tauto
  have houtcome : ((s.outcome == .running) == (s.phase != .stopped)) = true ↔ (s.outcome = .running ↔ s.phase ≠ .stopped) := by
    rw [beq_iff_eq, Bool.eq_iff_iff, beq_iff_eq, bne_iff_ne]
  have herror : ((s.outcome == .stoppedError) == s.error.isSome) = true ↔
      (s.outcome = .stoppedError ↔ s.error.isSome = true) := by
    rw [beq_iff_eq, Bool.eq_iff_iff, beq_iff_eq]
  have hwait : (!s.waitingForInput || (s.phase == .fetchingOperands && !s.idle)) = true ↔
      (s.waitingForInput = true → s.phase = .fetchingOperands ∧ s.idle = false) := by
    cases s.waitingForInput <;> simp
  unfold State.cycleOk
  simp only [Bool.and_eq_true, hack, hvec, houtcome, herror, hwait]
  constructor
  · rintro ⟨⟨⟨⟨⟨h1, h2⟩, h3⟩, h4⟩, h5⟩, h6⟩
    exact ⟨h1, h2, h3, h4, h5, h6⟩
  · rintro ⟨h1, h2, h3, h4, h5, h6⟩
    exact ⟨⟨⟨⟨⟨h1, h2⟩, h3⟩, h4⟩, h5⟩, h6⟩

/-- In a phase that is a list of sub-steps the metadata have to name one of them. -/
theorem phaseOk_iff_of_subSteps {s : State} {subs : List (List Act)} (h : s.phaseSubSteps = some subs) :
    s.phaseOk = true ↔ s.md.sub < subs.length := by
  unfold State.phaseOk
  split
  case h_5 => rw [h]; exact decide_eq_true_iff
  all_goals
    rename_i hp
    simp only [State.phaseSubSteps, hp] at h
    cases h

/-- What other agents and the host may change: not the cycle state, and of the PIC and the session nothing that it rests on. -/
theorem CycleOk.congr {s t : State} (h : CycleOk s) (hphase : t.phase = s.phase) (hmd : t.md = s.md)
    (houtcome : t.outcome = s.outcome) (herror : t.error = s.error) (hpresent : t.devices.pic = s.devices.pic)
    (hintr : s.pic.intr = true → t.pic.intr = true)
    (hwait : t.waitingForInput = true → s.waitingForInput = true ∧ t.idle = s.idle) : CycleOk t where
  phase := by
    have hok := h.phase
    unfold State.phaseOk State.phaseSubSteps currentOpcode at hok ⊢
    rwa [hphase, hmd]
  acknowledge hp hv := by
    rw [hphase] at hp
    rw [hmd] at hv
    obtain ⟨hpic, hreq⟩ := h.acknowledge hp hv
    exact ⟨hpresent.trans hpic, hintr hreq⟩
  vector hp hop := by
    rw [hphase] at hp
    rw [currentOpcode, hmd] at hop
    rw [hmd]
    exact h.vector hp hop
  outcome := by rw [houtcome, hphase]; exact h.outcome
  error := by rw [houtcome, herror]; exact h.error
  waiting hw := by
    obtain ⟨hs, hidle⟩ := hwait hw
    rw [hphase, hidle]
    exact h.waiting hs

/-- A core that runs and does not wait. -/
structure Live (s : State) : Prop where
  outcome : s.outcome = .running
  error : s.error = none
  waiting : s.waitingForInput = false

theorem CycleOk.live {s : State} (h : CycleOk s) (hp : s.phase ≠ .stopped) (hwait : s.waitingForInput = false) : Live s := by
  have hrun := h.outcome.2 hp
  refine ⟨hrun, ?_, hwait⟩
  have hnone := mt h.error.2 (by rw [hrun]; simp)
  simpa using hnone

theorem Live.going {s u : State} (h : Live s) (hgoing : Going s u) : Live u :=
  ⟨hgoing.outcome.trans h.outcome, hgoing.error.trans h.error, hgoing.waitingForInput.trans h.waiting⟩

theorem Live.bumpSub {s : State} (h : Live s) : Live s.bumpSub := ⟨h.outcome, h.error, h.waiting⟩

theorem Live.enter {s : State} (h : Live s) (p : Phase) : Live (s.enter p) := ⟨h.outcome, h.error, h.waiting⟩

theorem Live.toFetching {s : State} (h : Live s) : Live s.toFetching := ⟨h.outcome, h.error, h.waiting⟩

theorem Live.cycleOk {s : State} (h : Live s) (hp : s.phase ≠ .stopped) (hphase : s.phaseOk = true)
    (hack : s.phase = .interrupt → s.md.vec = none → s.devices.pic = true ∧ s.pic.intr = true)
    (hvec : s.phase = .executing ∨ s.phase = .writeback → currentOpcode s = some .int → s.md.vec.isSome = true) :
    CycleOk s where
  phase := hphase
  acknowledge := hack
  vector := hvec
  outcome := by simp [h.outcome, hp]
  error := by simp [h.outcome, h.error]
  waiting hw := by rw [h.waiting] at hw; cases hw

theorem cycleOk_of_faulted {s t : State} (hwait : s.waitingForInput = false) (h : Faulted s t) : CycleOk t where
  phase := by simp only [State.phaseOk, h.phase]
  acknowledge hp := by rw [h.phase] at hp; cases hp
  vector hp := by rw [h.phase] at hp; rcases hp with hp | hp <;> cases hp
  outcome := by simp [h.outcome, h.phase]
  error := by simp [h.outcome, h.error]
  waiting hw := by rw [h.waitingForInput, hwait] at hw; cases hw

/-! ## A sub-step of the core -/

/-- A next state is consistent, and the model's fault of an inconsistent one is not answered. -/
def Consistent : Host.Outcome State Fault Refusal → Prop
  | .next t => CycleOk t
  | .fault f => f ≠ .cycleStateInconsistent
  | .refused _ => True

/-- A phase that is a list of sub-steps: it is left to say what a sub-step inside it, its last one, and a park lead to. -/
theorem consistent_phaseStep {key : Option Byte} {subs : List (List Act)} {k : State → State} {s : State} (hlive : Live s)
    (hsub : s.md.sub < subs.length)
    (inside : ∀ acts u, acts ∈ subs → runActs key acts s = .go u → Going s u → s.md.sub + 1 < subs.length → CycleOk u.bumpSub)
    (last : ∀ acts u, subs[s.md.sub]? = some acts → runActs key acts s = .go u → Going s u → CycleOk (k u.bumpSub))
    (parked : ∀ acts, acts ∈ subs → acts.any Act.readsPort = true → CycleOk { s with waitingForInput := true }) :
    Consistent (phaseStep key subs k s) := by
  cases hstep : phaseStep key subs k s with
  | next t =>
    obtain ⟨acts, hacts, fault | ⟨_, hport, rfl⟩ | ⟨u, hrun, hgoing, rfl⟩⟩ := phaseStep_inv hstep
    · exact cycleOk_of_faulted hlive.waiting fault
    · exact parked acts (List.mem_of_getElem? hacts) hport
    · show CycleOk _
      split
      next => exact last acts u hacts hrun hgoing
      next hne => exact inside acts u (List.mem_of_getElem? hacts) hrun hgoing (by omega)
  | fault f =>
    unfold phaseStep at hstep
    rw [List.getElem?_eq_getElem hsub] at hstep
    simp only at hstep
    split at hstep <;> cases hstep
  | refused r => trivial

theorem phase_bumpSub {s u : State} (hgoing : Going s u) : u.bumpSub.phase = s.phase := hgoing.phase

theorem currentOpcode_bumpSub {s u : State} (hgoing : Going s u) : currentOpcode u.bumpSub = currentOpcode s := by
  show u.md.op.bind decodeOpcode = s.md.op.bind decodeOpcode
  rw [hgoing.op]

theorem phaseSubSteps_bumpSub {s u : State} (hgoing : Going s u) : u.bumpSub.phaseSubSteps = s.phaseSubSteps := by
  unfold State.phaseSubSteps
  rw [currentOpcode_bumpSub hgoing, phase_bumpSub hgoing]

/-- Inside such a phase the next sub-step is there. -/
theorem phaseOk_bumpSub {s u : State} {subs : List (List Act)} (hsubs : s.phaseSubSteps = some subs) (hgoing : Going s u)
    (hlt : s.md.sub + 1 < subs.length) : u.bumpSub.phaseOk = true := by
  refine (phaseOk_iff_of_subSteps ((phaseSubSteps_bumpSub hgoing).trans hsubs)).2 ?_
  show u.md.sub + 1 < _
  rwa [hgoing.sub]

theorem consistent_fetching {s : State} (hlive : Live s) : CycleOk (fetchStep s) := by
  obtain fault | ⟨oc, hmem, hip, hoc⟩ := fetchStep_inv s
  · exact cycleOk_of_faulted hlive.waiting fault
  · rw [fetchStep_legal hmem hip hoc]
    refine Live.cycleOk ⟨hlive.outcome, hlive.error, hlive.waiting⟩ (afterFetching_ne_stopped oc) ?_ ?_ ?_
    · by_cases hreads : reads oc = []
      · simp [State.phaseOk, afterFetching_of_reads_nil hreads, currentOpcode, hoc]
      · refine (phaseOk_iff_of_subSteps (subs := reads oc) ?_).2 (List.length_pos_iff.2 hreads)
        simp [State.phaseSubSteps, afterFetching_of_reads_ne_nil hreads, currentOpcode, hoc]
    · intro hp
      unfold afterFetching at hp
      split at hp <;> cases hp
    · intro hp hint
      have hoc' : oc = .int := Option.some.inj (hoc.symm.trans hint)
      subst hoc'
      rcases hp with hp | hp <;> cases hp

theorem consistent_fetchingOperands {key : Option Byte} {oc : Opcode} {s : State} (h : CycleOk s)
    (hp : s.phase = .fetchingOperands) (hoc : currentOpcode s = some oc) (hwait : s.waitingForInput = false)
    (hidle : s.idle = false) : Consistent (phaseStep key (reads oc) (State.enter .executing) s) := by
  have hlive := h.live (hp.trans_ne (by simp)) hwait
  have hsubs : s.phaseSubSteps = some (reads oc) := by simp only [State.phaseSubSteps, hp, hoc, Option.map_some]
  refine consistent_phaseStep hlive ((phaseOk_iff_of_subSteps hsubs).1 h.phase) ?inside ?last ?parked
  case inside =>
    intro acts u _ _ hgoing hlt
    have hphase := (phase_bumpSub hgoing).trans hp
    refine Live.cycleOk (hlive.going hgoing).bumpSub (hphase.trans_ne (by simp)) (phaseOk_bumpSub hsubs hgoing hlt) ?_ ?_
    · rw [hphase]; simp
    · rw [hphase]; simp
  case last =>
    intro acts u hacts hrun hgoing
    have hop : currentOpcode (u.bumpSub.enter .executing) = some oc := (currentOpcode_bumpSub hgoing).trans hoc
    refine Live.cycleOk ((hlive.going hgoing).bumpSub.enter _) (by simp) ?_ (by simp) ?_
    · show (currentOpcode _).isSome = true
      rw [hop]; rfl
    · intro _ hint
      obtain rfl : oc = .int := Option.some.inj (hop.symm.trans hint)
      exact vec_of_fetchVec (u := u) hacts hrun
  case parked =>
    intro _ _ _
    exact ⟨h.phase, h.acknowledge, h.vector, h.outcome, h.error, fun _ => ⟨hp, hidle⟩⟩

theorem consistent_executing {oc : Opcode} {s : State} (h : CycleOk s) (hp : s.phase = .executing)
    (hoc : currentOpcode s = some oc) (hwait : s.waitingForInput = false) : CycleOk (executeStep oc s) := by
  have hgoing := going_compute oc s
  have hlive := (h.live (hp.trans_ne (by simp)) hwait).going hgoing
  have hop : ∀ p, currentOpcode ((compute oc s).enter p) = some oc := by
    intro p
    rw [← hoc]
    show (compute oc s).md.op.bind decodeOpcode = s.md.op.bind decodeOpcode
    rw [hgoing.op]
  unfold executeStep
  by_cases hhlt : oc = .hlt
  · rw [if_pos hhlt]
    exact Live.cycleOk (hlive.enter _) (by simp) rfl (by simp) (by simp)
  · rw [if_neg hhlt]
    refine Live.cycleOk (hlive.enter _) (by simp) ?_ (by simp) ?_
    · refine (phaseOk_iff_of_subSteps (subs := writes oc) ?_).2 (List.length_pos_iff.2 (writes_ne_nil hhlt))
      simp only [State.phaseSubSteps, State.enter_phase, hop, Option.map_some]
    · intro _ hint
      obtain rfl : oc = .int := Option.some.inj ((hop _).symm.trans hint)
      exact hgoing.vec (h.vector (.inl hp) hoc)

/-- The choice of the next phase, of an INT that has its vector. -/
theorem cycleOk_endOfInstruction {oc : Opcode} {s : State} (hlive : Live s) (hvec : oc = .int → s.md.vec.isSome = true) :
    CycleOk (endOfInstruction oc s) := by
  have entered {p : Phase} (hp : p = .interrupt ∨ p = .int6 ∨ p = .int7)
      (hack : p = .interrupt → s.md.vec = none → s.devices.pic = true ∧ s.pic.intr = true) : CycleOk (s.enter p) := by
    refine Live.cycleOk (hlive.enter p) ?_ ((phaseOk_iff_of_subSteps (subs := trapSubSteps) ?_).2 ?_) hack ?_
    · rcases hp with rfl | rfl | rfl <;> simp
    · rcases hp with rfl | rfl | rfl <;> rfl
    · show 0 < trapSubSteps.length
      decide
    · rcases hp with rfl | rfl | rfl <;> simp
  unfold endOfInstruction
  split
  next hint =>
    refine entered (trapPhase_cases _) fun _ hnone => ?_
    have hsome := hvec hint
    rw [hnone] at hsome
    cases hsome
  next =>
    split
    next hreq =>
      simp only [interruptRequested, Bool.and_eq_true] at hreq
      obtain ⟨⟨_, hpic⟩, hintr⟩ := hreq
      exact entered (.inl rfl) fun _ _ => ⟨hpic, hintr⟩
    next => exact Live.cycleOk hlive.toFetching (by simp) rfl (by simp) (by simp)

theorem consistent_writeback {key : Option Byte} {oc : Opcode} {s : State} (h : CycleOk s) (hp : s.phase = .writeback)
    (hoc : currentOpcode s = some oc) (hwait : s.waitingForInput = false) :
    Consistent (phaseStep key (writes oc) (endOfInstruction oc) s) := by
  have hlive := h.live (hp.trans_ne (by simp)) hwait
  have hsubs : s.phaseSubSteps = some (writes oc) := by simp only [State.phaseSubSteps, hp, hoc, Option.map_some]
  refine consistent_phaseStep hlive ((phaseOk_iff_of_subSteps hsubs).1 h.phase) ?inside ?last ?parked
  case inside =>
    intro acts u _ _ hgoing hlt
    have hphase := (phase_bumpSub hgoing).trans hp
    refine Live.cycleOk (hlive.going hgoing).bumpSub (hphase.trans_ne (by simp)) (phaseOk_bumpSub hsubs hgoing hlt) ?_ ?_
    · rw [hphase]; simp
    · intro _ hint
      rw [currentOpcode_bumpSub hgoing] at hint
      exact hgoing.vec (h.vector (.inr hp) hint)
  case last =>
    intro acts u _ _ hgoing
    refine cycleOk_endOfInstruction (hlive.going hgoing).bumpSub fun hint => ?_
    subst hint
    exact hgoing.vec (h.vector (.inr hp) hoc)
  case parked =>
    intro acts hacts hport
    rw [(writes_no_fetch_no_port oc acts hacts).2] at hport
    cases hport

theorem consistent_trap {key : Option Byte} {s : State} (h : CycleOk s)
    (hp : s.phase = .interrupt ∨ s.phase = .int6 ∨ s.phase = .int7) (hwait : s.waitingForInput = false) :
    Consistent (phaseStep key trapSubSteps State.toFetching s) := by
  have hne : s.phase ≠ .stopped := by rcases hp with hp | hp | hp <;> rw [hp] <;> simp
  have hlive := h.live hne hwait
  have hsubs : s.phaseSubSteps = some trapSubSteps := by
    rcases hp with hp | hp | hp <;> simp only [State.phaseSubSteps, hp]
  refine consistent_phaseStep hlive ((phaseOk_iff_of_subSteps hsubs).1 h.phase) ?inside ?last ?parked
  case inside =>
    intro acts u hacts hrun hgoing hlt
    have hphase := phase_bumpSub hgoing
    refine Live.cycleOk (hlive.going hgoing).bumpSub (by rw [hphase]; exact hne) (phaseOk_bumpSub hsubs hgoing hlt) ?_ ?_
    · intro hint hnone
      rw [hphase] at hint
      have hnoVec : ¬ u.md.vec.isSome = true := by
        rw [show u.md.vec = none from hnone]
        exact Bool.false_ne_true
      have hnone' : s.md.vec = none := by simpa using mt hgoing.vec hnoVec
      obtain ⟨hpic, hintr⟩ := h.acknowledge hint hnone'
      exact ⟨hgoing.picPresent.trans hpic, (trap_keeps_request hacts hrun hintr).resolve_left hnoVec⟩
    · rw [hphase]
      rcases hp with hp | hp | hp <;> rw [hp] <;> simp
  case last =>
    intro acts u _ _ hgoing
    exact Live.cycleOk (hlive.going hgoing).bumpSub.toFetching (by simp) rfl (by simp) (by simp)
  case parked =>
    intro acts hacts hport
    rw [(trapSubSteps_no_fetch_no_port acts hacts).2] at hport
    cases hport

/-- In a consistent state the phase that needs an opcode has one. -/
theorem CycleOk.opcode {s : State} (h : CycleOk s)
    (hp : s.phase = .fetchingOperands ∨ s.phase = .executing ∨ s.phase = .writeback) : ∃ oc, currentOpcode s = some oc := by
  have hok := h.phase
  unfold State.phaseOk State.phaseSubSteps at hok
  cases hoc : currentOpcode s with
  | some oc => exact ⟨oc, rfl⟩
  | none => rcases hp with hp | hp | hp <;> simp [hp, hoc] at hok

theorem consistent_stoppedFault (s : State) : Consistent (.fault (stoppedFault s)) := by
  show stoppedFault s ≠ _
  unfold stoppedFault
  split <;> simp

/-- Every sub-step of a core that may take one, in a session that runs. -/
theorem consistent_coreSubStep {key : Option Byte} {s : State} (h : CycleOk s) (hwait : s.waitingForInput = false)
    (hidle : s.idle = false) : Consistent (coreSubStep key s) := by
  unfold coreSubStep
  split
  case h_1 hp => exact consistent_fetching (h.live (hp.trans_ne (by simp)) hwait)
  case h_2 hp =>
    obtain ⟨oc, hoc⟩ := h.opcode (.inl hp)
    simp only [hoc]
    exact consistent_fetchingOperands h hp hoc hwait hidle
  case h_3 hp =>
    obtain ⟨oc, hoc⟩ := h.opcode (.inr (.inl hp))
    simp only [hoc]
    exact consistent_executing h hp hoc hwait
  case h_4 hp =>
    obtain ⟨oc, hoc⟩ := h.opcode (.inr (.inr hp))
    simp only [hoc]
    exact consistent_writeback h hp hoc hwait
  case h_5 hp => exact consistent_trap h (.inl hp) hwait
  case h_6 hp => exact consistent_trap h (.inr (.inl hp)) hwait
  case h_7 hp => exact consistent_trap h (.inr (.inr hp)) hwait
  case h_8 hp =>
    have hlive := h.live (hp.trans_ne (by simp)) hwait
    exact ⟨rfl, by simp, by simp, by simp, by simp [hlive.error], by simp [hwait]⟩
  case h_9 => exact consistent_stoppedFault s

/-- The run control pauses a core that is ready only, so none that waits. -/
theorem CycleOk.runControl {s : State} (h : CycleOk s) (was : Phase) : CycleOk (runControl was s) := by
  unfold Machine.runControl
  split
  next hready =>
    have paused : CycleOk { s with status := .paused } := by
      refine h.congr rfl rfl rfl rfl rfl id fun hw => ?_
      have hno := ((coreReady_iff s).1 hready).2
      rw [show s.waitingForInput = true from hw] at hno
      cases hno
    split
    · split
      · exact paused
      · exact h
    · exact h
  next => exact h

theorem consistent_coreStep {key : Option Byte} {s : State} (h : CycleOk s) (hwait : s.waitingForInput = false)
    (hidle : s.idle = false) : Consistent (coreStep key s) := by
  have hsub := consistent_coreSubStep (key := key) h hwait hidle
  unfold coreStep
  cases hs : coreSubStep key s with
  | next t => rw [hs] at hsub; exact CycleOk.runControl hsub s.phase
  | fault f => rw [hs] at hsub; exact hsub
  | refused r => trivial

/-- A session is busy exactly while a run is in progress (R442). -/
theorem idle_eq_false_iff (s : State) : s.idle = false ↔ ∃ mode, s.status = .running mode := by
  unfold State.idle
  cases s.status <;> simp

theorem idle_of_coreRuns {s : State} (h : s.coreRuns = true) : s.waitingForInput = false ∧ s.idle = false := by
  obtain ⟨hmode, _, hwait⟩ := (coreRuns_iff s).1 h
  exact ⟨hwait, (idle_eq_false_iff s).2 hmode⟩

/-! ## The core to the end of its instruction -/

theorem consistent_runToBoundary {s : State} (n : Nat) (h : CycleOk s) (hruns : s.coreRuns = true) :
    Consistent (runToBoundary n s) := by
  induction n generalizing s with
  | zero => exact h
  | succ n ih =>
    obtain ⟨hwait, hidle⟩ := idle_of_coreRuns hruns
    have hstep := consistent_coreStep (key := none) h hwait hidle
    rw [runToBoundary]
    cases hs : coreStep none s with
    | next t =>
      rw [hs] at hstep
      show Consistent (if _ then _ else _)
      split
      next hcontinue =>
        rw [Bool.and_eq_true] at hcontinue
        exact ih hstep hcontinue.1
      next => exact hstep
    | fault f => rw [hs] at hstep; exact hstep
    | refused r => trivial

/-- A whole instruction is its sub-steps (`instructionIsItsSubSteps`), each of which leads to a consistent state. -/
theorem consistent_instructionStep {s : State} (h : CycleOk s) (hidle : s.idle = false) : Consistent (instructionStep s) := by
  by_cases hready : s.coreReady = true
  · have hruns : s.coreRuns = true := (coreRuns_iff s).2 ⟨(idle_eq_false_iff s).1 hidle, (coreReady_iff s).1 hready⟩
    have hboundary : instructionStep s = runToBoundary maxSubSteps s := by
      by_cases hwhole : s.wholeInstruction = true
      · exact instructionIsItsSubSteps s hruns hwhole
      · rw [instructionStep, if_pos hready, if_neg hwhole]
    rw [hboundary]
    exact consistent_runToBoundary maxSubSteps h hruns
  · rw [instructionStep, if_neg hready, notReadyFault]
    split
    · exact fun heq => by cases heq
    · exact consistent_stoppedFault s

/-! ## The other agents and the host -/

theorem CycleOk.assertLine {s : State} (h : CycleOk s) (i : Nat) : CycleOk (assertLine i s) := by
  unfold Machine.assertLine
  split
  · exact h.congr rfl rfl rfl rfl rfl (fun hintr => Pic.intr_assert hintr i) fun hw => ⟨hw, rfl⟩
  · exact h

theorem CycleOk.timerTick {s : State} (h : CycleOk s) : CycleOk (timerTick s) := by
  unfold Machine.timerTick
  dsimp only
  split
  · exact CycleOk.assertLine (s := { s with timer := { s.timer with cont := 0 } })
      (h.congr rfl rfl rfl rfl rfl id fun hw => ⟨hw, rfl⟩) 1
  · exact h.congr rfl rfl rfl rfl rfl id fun hw => ⟨hw, rfl⟩

theorem CycleOk.printerConsume {s : State} (h : CycleOk s) : CycleOk (printerConsume s) := by
  have printed : CycleOk
      { s with printer := { s.printer with paper := s.printer.paper ++ [s.printer.pending], busy := false } } :=
    h.congr rfl rfl rfl rfl rfl id fun hw => ⟨hw, rfl⟩
  unfold Machine.printerConsume handshakeDone
  dsimp only
  split
  · split
    · exact printed.assertLine 2
    · exact printed
  · exact printed

theorem CycleOk.reply {s : State} (h : CycleOk s) (r : Option Reply) : CycleOk { s with reply := r } :=
  h.congr rfl rfl rfl rfl rfl id fun hw => ⟨hw, rfl⟩

/-- A session that is idle has no read waiting, so a run can start. -/
theorem CycleOk.startRun {s : State} (h : CycleOk s) (hidle : s.idle = true) (mode : RunMode) : CycleOk (startRun mode s) := by
  refine h.congr rfl rfl rfl rfl rfl id fun hw => ?_
  obtain ⟨_, hbusy⟩ := h.waiting hw
  rw [hidle] at hbusy
  cases hbusy

theorem CycleOk.impliedRun {s : State} (h : CycleOk s) :
    CycleOk (impliedRun s) ∧ (impliedRun s).idle = false := by
  unfold Machine.impliedRun
  split
  next hidle => exact ⟨h.startRun hidle _, rfl⟩
  next hidle => exact ⟨h, Bool.eq_false_iff.2 hidle⟩

/-- A machine that has just been reset is about to fetch. -/
theorem cycleOk_reset (p : LoadedProgram) (earlier : Option Memory) (s : State) : CycleOk (resetMachine p earlier s) where
  phase := rfl
  acknowledge hp := by cases hp
  vector hp := by rcases hp with hp | hp <;> cases hp
  outcome := by simp [resetMachine]
  error := by simp [resetMachine]
  waiting hw := by cases hw

theorem cycleOk_stopRun {s : State} (h : CycleOk s) (resetAlso : Bool) : CycleOk (stopRun resetAlso s) := by
  unfold stopRun
  dsimp only
  split
  · exact h.reply _
  · split
    · exact h.congr rfl rfl rfl rfl rfl id fun hw => by cases hw
    · exact (cycleOk_reset _ _ _).reply _
    · exact h.reply _

theorem idle_of_runValid {s : State} (h : runValid s = true) : s.idle = true ∧ s.outcome = .running := by
  simp only [runValid, Bool.and_eq_true, beq_iff_eq] at h
  obtain ⟨⟨_, hidle⟩, hrunning⟩ := h
  exact ⟨hidle, hrunning⟩

theorem consistent_hostStep {s : State} (h : CycleOk s) (c : HostCommand) : Consistent (hostStep c s) := by
  have rejected : CycleOk (reject s) := h.reply _
  cases c <;> simp only [hostStep]
  case loadProgram image devices policy =>
    unfold loadProgram
    show CycleOk (if _ then _ else _)
    split
    · exact (cycleOk_reset _ _ _).reply _
    · exact rejected
  case run mode =>
    show CycleOk (if _ then _ else _)
    split
    next hvalid => exact (h.startRun (idle_of_runValid hvalid).1 mode).reply _
    next => exact rejected
  case step =>
    split
    next hvalid =>
      obtain ⟨hidle, _⟩ := idle_of_runValid hvalid
      have hwait : s.waitingForInput = false := Bool.eq_false_iff.2 fun hw => by
        obtain ⟨_, hbusy⟩ := h.waiting hw
        rw [hidle] at hbusy
        cases hbusy
      exact consistent_coreStep ((h.startRun hidle .cycleChange).reply _) hwait rfl
    next => exact rejected
  case pause =>
    show CycleOk (if _ then _ else _)
    split
    · exact rejected
    · exact h.congr rfl rfl rfl rfl rfl id fun hw => ⟨hw, rfl⟩
  case stop resetAlso => exact cycleOk_stopRun h resetAlso
  case sendKeyboardChar ch =>
    split
    next hw =>
      refine consistent_coreStep (h.congr rfl rfl rfl rfl rfl id fun hw => by cases hw) rfl (h.waiting hw).2
    next => exact rejected
  case pressF10 =>
    show CycleOk (if _ then _ else _)
    split
    · exact (h.assertLine 0).reply _
    · exact rejected
  case toggleSwitch | cleanScreen | cleanPrinterBuffer =>
    show CycleOk (if _ then _ else _)
    split
    · exact h.congr rfl rfl rfl rfl rfl id fun hw => ⟨hw, rfl⟩
    · exact rejected
  case getComputerState => exact h.reply _

/-! ## Every step -/

theorem consistent_agentStep {s : State} (h : CycleOk s) (a : AgentStep) : Consistent (agentStep a s) := by
  cases a <;> simp only [agentStep]
  case core =>
    split
    next hruns =>
      obtain ⟨hwait, hidle⟩ := idle_of_coreRuns hruns
      exact consistent_coreStep h hwait hidle
    next => exact fun heq => by cases heq
  case instruction => exact consistent_instructionStep h.impliedRun.1 h.impliedRun.2
  case timerTick =>
    split
    · exact h.timerTick
    · exact fun heq => by cases heq
  case printerConsume =>
    split
    · exact h.printerConsume
    · exact fun heq => by cases heq
  case host c => exact consistent_hostStep h c

theorem consistent_step {s : State} (h : CycleOk s) : Consistent (step s) := by
  unfold step
  split
  next => exact consistent_instructionStep h.impliedRun.1 h.impliedRun.2
  next a rest _ =>
    exact consistent_agentStep (s := { s with agenda := rest }) (h.congr rfl rfl rfl rfl rfl id fun hw => ⟨hw, rfl⟩) a

/-- Settles O51: whichever agent steps, the step answers a consistent next state, or a fault that is not the model's own. -/
theorem cycleInvariant : Obligations.CycleInvariant := by
  intro s hs
  have hstep := consistent_step ((cycleOk_iff s).1 hs)
  constructor
  · intro t ht
    rw [ht] at hstep
    exact (cycleOk_iff t).2 hstep
  · intro hfault
    rw [hfault] at hstep
    exact hstep rfl

/-! ## A stopped core -/

theorem instructionStep_of_stopped {s : State} (h : s.outcome ≠ .running) (t : State) : instructionStep s ≠ .next t := by
  rw [instructionStep, if_neg (fun hready => h ((coreReady_iff s).1 hready).1)]
  simp

/-- Settles O52: a stopped core has no step of its own; `step` and `sendKeyboardChar`, which would hand it one, are invalid; and
the other agents spare it. -/
theorem stoppedCoreStays : Obligations.StoppedCoreStays := by
  intro s t hs hstopped h
  have hok := (cycleOk_iff s).1 hs
  have himplied (u : State) (hu : u.outcome = s.outcome) : (impliedRun u).outcome ≠ .running := by
    unfold impliedRun
    split
    · exact hu.trans_ne hstopped
    · exact hu.trans_ne hstopped
  cases hagenda : s.agenda with
  | nil =>
    simp only [step, hagenda] at h
    exact absurd h (instructionStep_of_stopped (himplied s rfl) t)
  | cons a rest =>
    by_cases hreset : ∃ c, a = .host c ∧ resets c
    · obtain ⟨c, rfl, hc⟩ := hreset
      exact .inr ⟨c, rest, rfl, hc⟩
    left
    have spared := otherAgentsSpareTheCore s t a rest hagenda h
    simp only [step, hagenda] at h
    by_cases hcore : a = .core
    · subst hcore
      simp only [agentStep] at h
      split at h
      next hruns =>
        obtain ⟨_, hrunning, _⟩ := (coreRuns_iff _).1 hruns
        exact absurd hrunning hstopped
      next => cases h
    by_cases hinstruction : a = .instruction
    · subst hinstruction
      exact absurd h (instructionStep_of_stopped (himplied { s with agenda := rest } rfl) t)
    by_cases hstep : a = .host .step
    · subst hstep
      simp only [agentStep, hostStep] at h
      split at h
      next hvalid => exact absurd (idle_of_runValid hvalid).2 hstopped
      next => cases h; exact .refl s
    by_cases hkey : ∃ ch, a = .host (.sendKeyboardChar ch)
    · obtain ⟨ch, rfl⟩ := hkey
      simp only [agentStep, hostStep] at h
      split at h
      next hw =>
        obtain ⟨hphase, _⟩ := hok.waiting hw
        exact absurd (hok.outcome.2 (hphase.trans_ne (by simp))) hstopped
      next => cases h; exact .refl s
    exact spared hcore hinstruction hstep (fun ch hch => hkey ⟨ch, hch⟩) fun c hc hr => hreset ⟨c, hc, hr⟩

end Sys2Proof.Claims
end

section
/-! Format B as a whole (40_instruction_cycle.md R152, 41_transfer.md R180), in the terms of the statements: one theorem for every
operation and operand form, which MOV's eight forms are special cases of. And two tables: encodings written out, and sub-step counts. -/

namespace Sys2Proof.Claims

open Sys2Proof.Machine Sys2Proof.Config

/-! ## Operands of format B -/

theorem bytes_eq_size (w : Width) : w.bytes = size w := by cases w <;> rfl

theorem wbit_eq_bit (w : Width) : wbit w = w.bit := by cases w <;> rfl

theorem statePast_eq (s : State) (oc : Opcode) : s.past oc = past s (opcodeLength oc) := (past_eq s _).symm

/-- The source is in memory in two of the forms with a memory operand, and the destination in the others (30_encoding.md R105). -/
theorem srcPlace_eq_mem_iff (f : Form) (x : Operands) (s : State) (a : Word) :
    srcPlace f x s = .mem a ↔ (f = .regDir ∨ f = .regInd) ∧ a = f.address x s := by
  cases f <;> simp [srcPlace, Form.address, eq_comm]

theorem dstPlace_eq_mem_iff (f : Form) (x : Operands) (s : State) (a : Word) :
    dstPlace f x s = .mem a ↔ f.hasMemory = true ∧ ¬ (f = .regDir ∨ f = .regInd) ∧ a = f.address x s := by
  cases f <;> simp [dstPlace, Form.address, Form.hasMemory, eq_comm]

/-- The memory operand of a form lies in memory when both operands do. -/
theorem address_within {f : Form} {x : Operands} {s : State} {w : Width} (hdst : (dstPlace f x s).fits s w)
    (hsrc : (srcPlace f x s).fits s w) (hf : f.hasMemory = true) : within s w (f.address x s).toNat := by
  by_cases hread : f = .regDir ∨ f = .regInd
  · rwa [(srcPlace_eq_mem_iff f x s _).2 ⟨hread, rfl⟩] at hsrc
  · rwa [(dstPlace_eq_mem_iff f x s _).2 ⟨hf, hread, rfl⟩] at hdst

/-- An operation that does not read its destination computes the same from any value of it. -/
theorem binCompute_unread (o : BinOp) (w : Width) (d v : Word) (f : Flags) :
    binCompute o w (if readsDst o then d else 0) v f = binCompute o w d v f := by
  cases o
  case mov => cases w <;> rfl
  all_goals rfl

/-! ## An instruction of format B -/

section

variable {i : Instr} {o : BinOp} {f : Form} {w : Width}

/-- The state that its computation leaves before the commit: IP is past it, and the flags are `flags`. -/
def flagged (i : Instr) (s : State) (flags : Flags) : State := { past s (opcodeLength i.opcode) with flags := flags }

theorem exec_bin (s : State) (hop : i.opcode = .bin o f w) (hdst : (dstPlace f i.operands s).legal w)
    (hsrc : (srcPlace f i.operands s).legal w) (hmem : f.hasMemory = true → within s w (f.address i.operands s).toNat) :
    let c := binCompute o w (f.dest w i.operands s) (f.source w i.operands s) s.flags
    ∃ m, m.vec = none ∧
      exec i s = .next ((if o = .cmp then flagged i s c.2 else f.commit w i.operands c.1 (flagged i s c.2)).settle m) := by
  obtain ⟨m, hvec, hperform⟩ := perform_bin o f w i.operands s (legal_fit o f w _ s hdst hsrc) (bytes_eq_size w ▸ hmem)
  rw [binCompute_unread, ← hop, ← exec_eq_perform, statePast_eq] at hperform
  exact ⟨m, hvec, hperform⟩

/-- Its memory operand in range: the result and the flags are the rule's, and the result is in the destination. -/
theorem endsWriting_bin (s : State) (hop : i.opcode = .bin o f w) (hdst : (dstPlace f i.operands s).legal w)
    (hsrc : (srcPlace f i.operands s).legal w) (hmem : f.hasMemory = true → within s w (f.address i.operands s).toNat) :
    let r := binRule o (bits w) ((dstPlace f i.operands s).value s w) ((srcPlace f i.operands s).value s w) s.flags
    EndsWriting (decide (o ≠ .cmp)) i s (flagged i s r.2) w (dstPlace f i.operands s) r.1 := by
  obtain ⟨m, hvec, hexec⟩ := exec_bin s hop hdst hsrc hmem
  rw [← dest_num f w _ s hdst, ← source_num f w _ s hsrc, ← binCompute_eq_rule]
  generalize binCompute o w (f.dest w i.operands s) (f.source w i.operands s) s.flags = c at hexec ⊢
  have hplace : dstPlace f i.operands (flagged i s c.2) = dstPlace f i.operands s := by cases f <;> rfl
  by_cases hcmp : o = .cmp
  · simp only [hcmp, if_true] at hexec
    simp only [EndsWriting, hcmp, ne_eq, not_true_eq_false, decide_false, Bool.false_eq_true, if_false]
    exact ends_of_settle hexec hvec rfl (stores_nil _)
  · simp only [hcmp, if_false] at hexec
    simp only [EndsWriting, hcmp, ne_eq, not_false_eq_true, decide_true, if_true]
    rw [← hplace] at hdst ⊢
    exact ends_of_settle hexec hvec (commit_mem f w _ _ _ hdst) (commit_stores f w _ _ _ hdst)

/-- Its memory operand out of range: the access that meets it first faults. -/
theorem outOfRange_bin (s : State) (hop : i.opcode = .bin o f w) (hdst : (dstPlace f i.operands s).legal w)
    (hsrc : (srcPlace f i.operands s).legal w) (hf : f.hasMemory = true) (hmem : ¬ within s w (f.address i.operands s).toNat) :
    OutOfRange i s (f.address i.operands s).toNat
      (if readsDst o = true ∨ f = .regDir ∨ f = .regInd then .fetchingOperands else .writeback)
      (past s (opcodeLength i.opcode)) [] := by
  obtain ⟨m, hstart, hbyte, hperform⟩ :=
    perform_bin_out o f w i.operands s (legal_fit o f w _ s hdst hsrc) hf (bytes_eq_size w ▸ hmem)
  rw [← hop] at hbyte
  rw [← hop, ← exec_eq_perform, statePast_eq] at hperform
  exact outOfRange_of rfl hperform hstart hbyte rfl rfl

/-- The length of an instruction of format B (30_encoding.md R113). -/
def formLength (w : Width) : Form → Nat
  | .regReg | .regInd | .indReg => 2
  | .regDir | .dirReg => 4
  | .regImm => 2 + size w
  | .dirImm => 3 + size w
  | .indImm => 1 + size w

theorem opcodeLength_bin (o : BinOp) (f : Form) (w : Width) : opcodeLength (.bin o f w) = formLength w f := by
  cases f <;> cases w <;> rfl

/-- Format B: byte 0 is the operation, the form and the width, and the instruction does what the rule of its operation says. A
destination out of range faults when it is read, or when it is written if the operation does not read it. -/
theorem binary_bin (o : BinOp) (f : Form) (s : State) (hop : i.opcode = .bin o f w) :
    Binary (binRule o) (decide (o ≠ .cmp)) (if readsDst o then .fetchingOperands else .writeback) s w i
      (dstPlace f i.operands s) (srcPlace f i.operands s) (16 * o.code + 2 * f.code) (formLength w f) := by
  rw [← opcodeLength_bin o f w, ← hop]
  intro hdst hsrc
  refine ⟨spells i _ _ (by rw [hop, wbit_eq_bit]; rfl) rfl, ?inMemory, ?sourceOut, ?destinationOut⟩
  case inMemory =>
    intro hfd hfs
    exact endsWriting_bin s hop hdst hsrc (address_within hfd hfs)
  case sourceOut =>
    intro a ha hout
    obtain ⟨hread, rfl⟩ := (srcPlace_eq_mem_iff f _ s a).1 ha
    have hfault := outOfRange_bin s hop hdst hsrc (by rcases hread with rfl | rfl <;> rfl) hout
    rwa [if_pos (.inr hread)] at hfault
  case destinationOut =>
    intro a ha hout
    obtain ⟨hf, hread, rfl⟩ := (dstPlace_eq_mem_iff f _ s a).1 ha
    have hfault := outOfRange_bin s hop hdst hsrc hf hout
    simpa only [hread, or_false] using hfault

end

/-- Settles O12: MOV is the operation of format B whose result is its source, which keeps the flags and does not read its
destination. -/
theorem movEffect : Obligations.MovEffect := by
  intro s w a b addr v op
  exact ⟨binary_bin .mov .regReg s rfl, binary_bin .mov .regDir s rfl, binary_bin .mov .regInd s rfl,
    binary_bin .mov .regImm s rfl, binary_bin .mov .dirReg s rfl, binary_bin .mov .indReg s rfl,
    binary_bin .mov .dirImm s rfl, binary_bin .mov .indImm s rfl⟩

/-! ## Two tables -/

/-- The bytes of a well-formed instruction, and no more, decode to it. -/
theorem decode_of_encode_eq {i : Instr} {bytes : List Byte} (hwf : i.wf = true) (h : encode i = bytes) :
    decode bytes = .ok (i, []) := by
  have hdecode := decodeOfEncode i [] hwf
  rwa [List.append_nil, h] at hdecode

/-- Settles O3: each word is the encoding of its instruction, which is well-formed. -/
theorem decodedWords : Obligations.DecodedWords := by
  refine ⟨?_, ?_, ?_, ?_, ?_, ?_, ?_, ?_, ?_, ?_, ?_⟩ <;> exact decode_of_encode_eq rfl rfl

/-- Settles O11: every opcode's schedule has the lengths of the tables, and a trap entry has its six sub-steps. -/
theorem subStepCounts : Obligations.SubStepCounts := ⟨schedule_length, rfl⟩

end Sys2Proof.Claims
end

section
/-! Arithmetic (42_arithmetic.md R190 to R197): format U as a whole (40_instruction_cycle.md R153) in the terms of the statements, and
the instructions of both formats, operand form by operand form, each at once for every operation. -/

namespace Sys2Proof.Claims

open Sys2Proof.Machine Sys2Proof.Config

/-! ## Operands of format U -/

/-- The operand is in memory in every form but the register's (30_encoding.md R107). -/
theorem unPlace_eq_mem_iff (f : UForm) (x : Operands) (s : State) (a : Word) :
    dstPlace f.form x s = .mem a ↔ f ≠ .reg ∧ a = f.form.address x s := by
  cases f <;> simp [UForm.form, dstPlace, Form.address, eq_comm]

theorem unAddress_within {f : UForm} {x : Operands} {s : State} {w : Width} (hfits : (dstPlace f.form x s).fits s w)
    (hf : f ≠ .reg) : within s w (f.form.address x s).toNat := by
  rwa [(unPlace_eq_mem_iff f x s _).2 ⟨hf, rfl⟩] at hfits

/-- A legal operand has an encoding; only a register's is restricted. -/
theorem legal_fit_un (u : UnOp) (f : UForm) (w : Width) (x : Operands) (s : State) (hlegal : (dstPlace f.form x s).legal w) :
    x.fit (.un u f w) = true := by
  cases f
  case reg => cases w <;> simp_all [UForm.form, dstPlace, Place.legal, Operands.fit, regLegal]
  case dir => rfl
  case ind => rfl

/-! ## An instruction of format U -/

section

variable {i : Instr} {u : UnOp} {f : UForm} {w : Width}

theorem exec_un (s : State) (hop : i.opcode = .un u f w) (hlegal : (dstPlace f.form i.operands s).legal w)
    (hmem : f ≠ .reg → within s w (f.form.address i.operands s).toNat) :
    let c := unCompute u w (f.form.dest w i.operands s) s.flags
    ∃ m, m.vec = none ∧ exec i s = .next ((f.form.commit w i.operands c.1 (flagged i s c.2)).settle m) := by
  obtain ⟨m, hvec, hperform⟩ := perform_un u f w i.operands s (legal_fit_un u f w _ s hlegal) (bytes_eq_size w ▸ hmem)
  rw [← hop, ← exec_eq_perform, statePast_eq] at hperform
  exact ⟨m, hvec, hperform⟩

/-- Its memory operand in range: the result and the flags are the rule's, and the result is in the operand. -/
theorem endsWriting_un (s : State) (hop : i.opcode = .un u f w) (hlegal : (dstPlace f.form i.operands s).legal w)
    (hmem : f ≠ .reg → within s w (f.form.address i.operands s).toNat) :
    let r := unRule u (bits w) ((dstPlace f.form i.operands s).value s w) s.flags
    EndsWriting true i s (flagged i s r.2) w (dstPlace f.form i.operands s) r.1 := by
  obtain ⟨m, hvec, hexec⟩ := exec_un s hop hlegal hmem
  rw [← dest_num f.form w _ s hlegal, ← unCompute_eq_rule]
  generalize unCompute u w (f.form.dest w i.operands s) s.flags = c at hexec ⊢
  have hplace : dstPlace f.form i.operands (flagged i s c.2) = dstPlace f.form i.operands s := by cases f <;> rfl
  simp only [EndsWriting, if_true]
  rw [← hplace] at hlegal ⊢
  exact ends_of_settle hexec hvec (commit_mem f.form w _ _ _ hlegal) (commit_stores f.form w _ _ _ hlegal)

/-- Its memory operand out of range: the read of it faults. -/
theorem outOfRange_un (s : State) (hop : i.opcode = .un u f w) (hlegal : (dstPlace f.form i.operands s).legal w)
    (hf : f ≠ .reg) (hmem : ¬ within s w (f.form.address i.operands s).toNat) :
    OutOfRange i s (f.form.address i.operands s).toNat .fetchingOperands (past s (opcodeLength i.opcode)) [] := by
  obtain ⟨m, hstart, hbyte, hperform⟩ :=
    perform_un_out u f w i.operands s (legal_fit_un u f w _ s hlegal) hf (bytes_eq_size w ▸ hmem)
  rw [← hop] at hbyte
  rw [← hop, ← exec_eq_perform, statePast_eq] at hperform
  exact outOfRange_of rfl hperform hstart hbyte rfl rfl

/-- Format U: byte 0 is the operation, the form and the width, and the instruction does what the rule of its operation says. -/
theorem unary_un (s : State) (hop : i.opcode = .un u f w) :
    Unary (unRule u) s w i (dstPlace f.form i.operands s) (0xA0 + 8 * u.code + 2 * f.code) (opcodeLength (.un u f w)) := by
  rw [← hop]
  intro hlegal
  refine ⟨spells i _ _ (by rw [hop, wbit_eq_bit]; rfl) rfl, ?inMemory, ?out⟩
  case inMemory => exact fun hfits => endsWriting_un s hop hlegal (unAddress_within hfits)
  case out =>
    intro a ha hout
    obtain ⟨hf, rfl⟩ := (unPlace_eq_mem_iff f _ s a).1 ha
    exact outOfRange_un s hop hlegal hf hout

end

/-! ## The operand forms -/

/-- An instruction put together from operand values has the operands that they say. -/
theorem dstPlace_ofParts (o : BinOp) (f : Form) (w : Width) (x : Operands) (s : State) :
    dstPlace f (Instr.ofParts (.bin o f w) x).operands s = dstPlace f x s := by
  cases f <;> cases o <;> rfl

theorem srcPlace_ofParts (o : BinOp) (f : Form) (w : Width) (x : Operands) (s : State) :
    srcPlace f (Instr.ofParts (.bin o f w) x).operands s = srcPlace f x s := by
  cases f <;> cases o <;> rfl

theorem unPlace_ofParts (u : UnOp) (f : UForm) (w : Width) (x : Operands) (s : State) :
    dstPlace f.form (Instr.ofParts (.un u f w) x).operands s = dstPlace f.form x s := by
  cases f <;> cases u <;> rfl

theorem binary_ofParts (o : BinOp) (f : Form) (w : Width) (x : Operands) (s : State) :
    Binary (binRule o) (decide (o ≠ .cmp)) (if readsDst o then .fetchingOperands else .writeback) s w
      (Instr.ofParts (.bin o f w) x) (dstPlace f x s) (srcPlace f x s) (16 * o.code + 2 * f.code) (formLength w f) := by
  rw [← dstPlace_ofParts o f w x s, ← srcPlace_ofParts o f w x s]
  exact binary_bin o f s (opcode_ofParts _ _)

theorem unary_ofParts (u : UnOp) (f : UForm) (w : Width) (x : Operands) (s : State) :
    Unary (unRule u) s w (Instr.ofParts (.un u f w) x) (dstPlace f.form x s) (0xA0 + 8 * u.code + 2 * f.code)
      (opcodeLength (.un u f w)) := by
  rw [← unPlace_ofParts u f w x s]
  exact unary_un s (opcode_ofParts _ _)

/-- The eight forms of an operation of format B (30_encoding.md R105). -/
theorem binary_forms (o : BinOp) (s : State) (w : Width) (a b : RegNum) (addr v : Word) :
    let op := fun f x dst src => Binary (binRule o) (decide (o ≠ .cmp)) (if readsDst o then .fetchingOperands else .writeback) s w
      (Instr.ofParts (.bin o f w) x) dst src (16 * o.code + 2 * f.code)
    op .regReg { a := a, b := b } (.reg a) (.reg b) 2 ∧
    op .regDir { b := a, addr := addr } (.reg a) (.mem addr) 4 ∧
    op .regInd { b := a } (.reg a) (.mem s.bx) 2 ∧
    op .regImm { b := a, imm := v } (.reg a) (.imm v) (2 + size w) ∧
    op .dirReg { b := b, addr := addr } (.mem addr) (.reg b) 4 ∧
    op .indReg { b := b } (.mem s.bx) (.reg b) 2 ∧
    op .dirImm { addr := addr, imm := v } (.mem addr) (.imm v) (3 + size w) ∧
    op .indImm { imm := v } (.mem s.bx) (.imm v) (1 + size w) := by
  intro op
  have form (f : Form) (x : Operands) : op f x (dstPlace f x s) (srcPlace f x s) (formLength w f) := binary_ofParts o f w x s
  exact ⟨form .regReg _, form .regDir _, form .regInd _, form .regImm _, form .dirReg _, form .indReg _, form .dirImm _,
    form .indImm _⟩

/-- The three forms of an operation of format U (30_encoding.md R107). -/
theorem unary_forms (u : UnOp) (s : State) (w : Width) (a : RegNum) (addr : Word) :
    let op := fun f x dst => Unary (unRule u) s w (Instr.ofParts (.un u f w) x) dst (0xA0 + 8 * u.code + 2 * f.code)
    op .reg { b := a } (.reg a) 2 ∧
    op .dir { addr := addr } (.mem addr) 3 ∧
    op .ind { } (.mem s.bx) 1 :=
  ⟨unary_ofParts u .reg w _ s, unary_ofParts u .dir w _ s, unary_ofParts u .ind w _ s⟩

/-! ## Addition and subtraction -/

/-- Settles O13: ADD is the operation of format B with the rule of R157 and no carry in. -/
theorem addEffect : Obligations.AddEffect := binary_forms .add

/-- Settles O14: ADC is ADD with the old C as the carry in. -/
theorem adcEffect : Obligations.AdcEffect := binary_forms .adc

/-- Settles O15: SUB is the operation of format B with the rule of R158 and no borrow in. -/
theorem subEffect : Obligations.SubEffect := binary_forms .sub

/-- Settles O16: SBB is SUB with the old C as the borrow in. -/
theorem sbbEffect : Obligations.SbbEffect := binary_forms .sbb

/-- Settles O17: CMP has the rule of SUB, and is the one operation of format B that commits nothing. -/
theorem cmpEffect : Obligations.CmpEffect := binary_forms .cmp

/-- Settles O21: NEG is the operation of format U with the rule of R158, its operand subtracted from 0. -/
theorem negEffect : Obligations.NegEffect := unary_forms .neg

/-- Settles O22: INC is the operation of format U with the rule of R157, its operand added to 1. -/
theorem incEffect : Obligations.IncEffect := unary_forms .inc

/-- Settles O23: DEC is the operation of format U with the rule of R158, 1 subtracted from its operand. -/
theorem decEffect : Obligations.DecEffect := unary_forms .dec

end Sys2Proof.Claims
end

section
/-! Logic (43_logic.md R220 to R223): what formats B and U do in every operand form, at the operations whose rule is `logicRule`. -/

namespace Sys2Proof.Claims

/-- Settles O18: AND is the operation of format B whose rule is the bitwise and, with C and O cleared (43_logic.md R220); the ALU
computes it by `binCompute_eq_rule`. -/
theorem andEffect : Obligations.AndEffect := binary_forms .and

/-- Settles O19: OR is the operation of format B whose rule is the bitwise or, with C and O cleared (43_logic.md R221). -/
theorem orEffect : Obligations.OrEffect := binary_forms .or

/-- Settles O20: XOR is the operation of format B whose rule is the bitwise exclusive or, with C and O cleared (43_logic.md R222). -/
theorem xorEffect : Obligations.XorEffect := binary_forms .xor

/-- Settles O24: NOT is the operation of format U whose rule is the exclusive or with `2 ^ n - 1`, C and O cleared (43_logic.md R223);
that the complement of the ALU is this number is in `unCompute_eq_rule`. -/
theorem notEffect : Obligations.NotEffect := unary_forms .not

end Sys2Proof.Claims
end

section
/-! The stack (44_stack.md R240 to R245), in the terms of the statements: one theorem for what pushes a word and one for what pops a
word, in range and out of range. PUSH and PUSHF differ in the word that is pushed, POP and POPF (and RET) in where the word goes. -/

namespace Sys2Proof.Claims

open Sys2Proof.Machine Sys2Proof.Config

/-! ## Pushes (R240) -/

section

variable {i : Instr} {v : PushValue}

/-- The word goes to the new stack top, and SP with it. -/
theorem ends_pushing (s : State) (hop : (∃ r, i.opcode = .push r ∧ v = .reg r) ∨ (i.opcode = .pushf ∧ v = .flags))
    (hmem : within s .w16 (below s 1)) :
    Ends i s { past s (opcodeLength i.opcode) with sp := BitVec.ofNat 16 (below s 1) }
      (bytesAt .w16 (below s 1) (s.pushValue v).toNat) := by
  rw [← below1] at hmem
  obtain ⟨m, hvec, hperform⟩ := (perform_push i.opcode v i.operands s hop).1 hmem
  rw [← exec_eq_perform, statePast_eq] at hperform
  exact ends_push hperform hvec rfl rfl

/-- The push is the first commit, so its fault leaves all as it was but IP. -/
theorem outOfRange_pushing (s : State) (hop : (∃ r, i.opcode = .push r ∧ v = .reg r) ∨ (i.opcode = .pushf ∧ v = .flags))
    (hmem : ¬ within s .w16 (below s 1)) :
    OutOfRange i s (below s 1) .writeback (past s (opcodeLength i.opcode)) [] := by
  rw [← below1] at hmem
  obtain ⟨m, hstart, hbyte, hperform⟩ := (perform_push i.opcode v i.operands s hop).2 hmem
  rw [← exec_eq_perform, statePast_eq] at hperform
  exact outOfRange_of (below1 s) hperform hstart hbyte rfl rfl

end

/-! ## Pops (R241) -/

/-- Where the word that an instruction takes off the stack goes. -/
def popInto (oc : Opcode) (v : Word) (t : State) : State :=
  match oc with
  | .pop r => t.setReg16 r v
  | .popf => { t with flags := loadFlags16 v }
  | _ => { t with ip := v }

theorem popInto_mem (oc : Opcode) (v : Word) (t : State) : (popInto oc v t).mem = t.mem := by
  unfold popInto
  split
  next r => exact State.setReg16_mem ..
  next => rfl
  next => rfl

/-- POP's destination is the register of its number (10_state.md R22). -/
theorem popInto_pop (r : Reg16) (v : Word) (t : State) : popInto (.pop r) v t = putReg t .w16 (regNumber r) v.toNat := by
  cases r <;> simp [popInto, State.setReg16, putReg, regNumber]

section

variable {i : Instr}

/-- The word at the stack top goes to its destination, and SP moves past it. -/
theorem ends_popping (s : State) (hop : (∃ r, i.opcode = .pop r) ∨ i.opcode = .popf ∨ i.opcode = .ret)
    (hmem : within s .w16 s.sp.toNat) :
    Ends i s
      (popInto i.opcode (s.mem.readWord s.sp.toNat)
        { past s (opcodeLength i.opcode) with sp := BitVec.ofNat 16 (above s 1) }) [] := by
  obtain ⟨m, hvec, hperform⟩ := (perform_popping i.opcode i.operands s hop).1 hmem
  rw [← exec_eq_perform, statePast_eq, above1'] at hperform
  refine ends_of_settle (t := popInto i.opcode _ _) hperform hvec rfl ?_
  rw [popInto_mem]
  exact stores_nil _

/-- The word is read before anything is committed, so the fault leaves all as it was but IP. -/
theorem outOfRange_popping (s : State) (hop : (∃ r, i.opcode = .pop r) ∨ i.opcode = .popf ∨ i.opcode = .ret)
    (hmem : ¬ within s .w16 s.sp.toNat) :
    OutOfRange i s s.sp.toNat .fetchingOperands (past s (opcodeLength i.opcode)) [] := by
  obtain ⟨m, hstart, hbyte, hperform⟩ := (perform_popping i.opcode i.operands s hop).2 hmem
  rw [← exec_eq_perform, statePast_eq] at hperform
  exact outOfRange_of rfl hperform hstart hbyte rfl rfl

end

/-! ## The instructions (R242 to R245) -/

/-- Settles O25: PUSH pushes a register's word. -/
theorem pushEffect : Obligations.PushEffect := by
  intro s r
  refine ⟨spells _ _ _ (by cases r <;> rfl) rfl, fun hmem => ?inMemory, outOfRange_pushing s (.inl ⟨r, rfl, rfl⟩)⟩
  case inMemory =>
    rw [← regNumber_eq]
    exact ends_pushing s (.inl ⟨r, rfl, rfl⟩) hmem

/-- Settles O26: POP pops into a register. -/
theorem popEffect : Obligations.PopEffect := by
  intro s r
  refine ⟨spells _ _ _ (by cases r <;> rfl) rfl, fun hmem => ?inMemory, outOfRange_popping s (.inl ⟨r, rfl⟩)⟩
  case inMemory =>
    rw [← readWord_eq, ← popInto_pop]
    exact ends_popping s (.inl ⟨r, rfl⟩) hmem

/-- Settles O27: PUSHF pushes FLAGS16, and POPF pops into the flags; the two layouts are `flags16_toNat` and `loadFlags_eq`. -/
theorem pushfPopfEffect : Obligations.PushfPopfEffect := by
  intro s
  refine ⟨⟨spells _ _ _ rfl rfl, fun hmem => ?pushed, outOfRange_pushing s (.inr ⟨rfl, rfl⟩)⟩,
    ⟨spells _ _ _ rfl rfl, fun hmem => ?popped, outOfRange_popping s (.inr (.inl rfl))⟩⟩
  case pushed =>
    rw [← flags16_toNat]
    exact ends_pushing s (.inr ⟨rfl, rfl⟩) hmem
  case popped =>
    rw [← readWord_eq, ← loadFlags_eq]
    exact ends_popping s (.inr (.inl rfl)) hmem

end Sys2Proof.Claims
end

section
/-! Control transfer (45_control.md R260 to R271), in the terms of the statements: what a jump leaves, when it is taken and when it is
not, and CALL and RET as a push and a pop of IP. -/

namespace Sys2Proof.Claims

open Sys2Proof.Machine Sys2Proof.Config

/-! ## Jumps (R260 to R269) -/

/-- An instruction that stores nothing. -/
theorem ends_of_settle_nil {i : Instr} {s r : State} {m : Metadata} (hexec : exec i s = .next (r.settle m))
    (hvec : m.vec = none) (hmem : r.mem = s.mem) : Ends i s r [] :=
  ends_of_settle (t := r) (mm := r.mem) (p := r.phase) (q := r.md) hexec hvec rfl (hmem ▸ stores_nil _)

/-- JMP is always taken, so IP is the target; nothing else is written. -/
theorem ends_jmp (s : State) (target : Word) : Ends (.jmp target) s { s with ip := target } [] := by
  obtain ⟨m, hvec, hperform⟩ := perform_jump .jmp { imm := target } s (.inl rfl)
  exact ends_of_settle_nil hperform hvec rfl

/-- A conditional jump, put together from its condition: taken, IP is the target; not taken, it is past the instruction. -/
theorem ends_jcc (s : State) (cond : Cond) (target : Word) :
    Ends (Instr.ofParts (.jcc cond) { imm := target }) s
      (if condHolds cond s.flags then { s with ip := target } else past s 3) [] := by
  have hexec : exec (Instr.ofParts (.jcc cond) { imm := target }) s = perform (.jcc cond) { imm := target } s := by
    cases cond <;> rfl
  obtain ⟨m, hvec, hperform⟩ := perform_jump (.jcc cond) { imm := target } s (.inr ⟨cond, rfl⟩)
  rw [← hexec, statePast_eq] at hperform
  exact ends_of_settle_nil hperform hvec (by split <;> rfl)

/-- Byte 0 of a conditional jump is that of JMP plus the number of its condition. -/
theorem spells_jcc (cond : Cond) (target : Word) :
    Spells (Instr.ofParts (.jcc cond) { imm := target }) (0xD0 + cond.code) 3 :=
  spells _ _ _ (by rw [opcode_ofParts]; rfl) (by rw [opcode_ofParts]; rfl)

/-- Settles O28: JMP is always taken, and the conditions of the other eight are those of `condHolds`. -/
theorem jumpEffect : Obligations.JumpEffect := by
  intro s target jumps
  have jumpsIf (cond : Cond) : jumps (Instr.ofParts (.jcc cond) { imm := target }) (0xD0 + cond.code)
      (condHolds cond s.flags) := ⟨spells_jcc cond target, ends_jcc s cond target⟩
  exact ⟨⟨spells _ _ _ rfl rfl, ends_jmp s target⟩, jumpsIf .z, jumpsIf .nz, jumpsIf .c, jumpsIf .nc, jumpsIf .s, jumpsIf .ns,
    jumpsIf .o, jumpsIf .no⟩

/-! ## CALL and RET (R270, R271) -/

/-- The return address goes to the new stack top, and IP to the target. -/
theorem ends_call (s : State) (target : Word) (hmem : within s .w16 (below s 1)) :
    Ends (.call target) s { s with sp := BitVec.ofNat 16 (below s 1), ip := target }
      (bytesAt .w16 (below s 1) (past s 3).ip.toNat) := by
  rw [← below1] at hmem
  obtain ⟨m, hvec, hperform⟩ := (perform_call { imm := target } s).1 hmem
  rw [statePast_eq] at hperform
  exact ends_of_settle hperform hvec (by rw [← below1']; rfl) (pushed_stores (past s 3) _)

/-- The push is the first commit, so its fault leaves all as it was but IP, which holds the return address. -/
theorem outOfRange_call (s : State) (target : Word) (hmem : ¬ within s .w16 (below s 1)) :
    OutOfRange (.call target) s (below s 1) .writeback (past s 3) [] := by
  rw [← below1] at hmem
  obtain ⟨m, hstart, hbyte, hperform⟩ := (perform_call { imm := target } s).2 hmem
  rw [statePast_eq] at hperform
  exact outOfRange_of (below1 s) hperform hstart hbyte rfl rfl

/-- The return address as a number. -/
theorem past_ip_toNat (s : State) (n : Nat) : (past s n).ip.toNat = wrap (s.ip.toNat + n) := by
  simp [past, wrap]

/-- Settles O29: CALL pushes the address after it, before IP goes to the target. -/
theorem callEffect : Obligations.CallEffect := by
  intro s target
  refine ⟨spells _ _ _ rfl rfl, fun hmem => ?inMemory, outOfRange_call s target⟩
  case inMemory =>
    rw [← past_ip_toNat]
    exact ends_call s target hmem

/-- Settles O30: RET pops into IP. -/
theorem retEffect : Obligations.RetEffect := by
  intro s
  refine ⟨spells _ _ _ rfl rfl, fun hmem => ?inMemory, outOfRange_popping s (.inr (.inr rfl))⟩
  case inMemory =>
    rw [word16 _ _ (readWord_eq s s.sp.toNat)]
    exact ends_popping s (.inr (.inr rfl)) hmem

end Sys2Proof.Claims
end

section
/-! System instructions (46_system.md R280 to R285), in the terms of the statements: a trap entry whose vector is known, which is
that of INT; IRET, which reads the frame of one; and the instructions without operands. That IRET undoes INT follows from the two
by reading back the four bytes of the frame. -/

namespace Sys2Proof.Claims

open Sys2Proof.Machine Sys2Proof.Config

/-! ## Trap entry (60_exceptions.md R331) -/

theorem trapFlags_eq (s : State) :
    s.trapFlags =
      { s with mem := s.trapFlags.mem, sp := BitVec.ofNat 16 (below s 1), flags := { s.flags with IF := false } } := by
  rw [← below1']
  rfl

theorem trapFrame_eq (s : State) :
    s.trapFrame =
      { s with mem := s.trapFrame.mem, sp := BitVec.ofNat 16 (below s 2), flags := { s.flags with IF := false } } := by
  have hpushed : s.trapFrame = { s.trapFlags with mem := s.trapFrame.mem, sp := s.trapFlags.pushAddress } := rfl
  refine hpushed.trans ?_
  generalize s.trapFrame.mem = mem
  rw [below2', trapFlags_eq]

section

variable {s : State} {n : Byte}

/-- Both pushes and the vector read in range. -/
theorem trapped_of_within (hflags : within s .w16 (below s 1)) (hip : within s .w16 (below s 2))
    (hvec : within s .w16 (4 * n.toNat)) :
    s.trapped n = { s.trapFrame with ip := s.trapFrame.mem.readWord (4 * n.toNat), phase := .fetching, md := { } } := by
  rw [← below1] at hflags
  rw [← below2] at hip
  exact (if_pos hflags).trans ((if_pos hip).trans (if_pos hvec))

/-- The push of FLAGS16 out of range. -/
theorem trapped_flags_out (hflags : ¬ within s .w16 (below s 1)) : s.trapped n = s.outOfRange s.pushAddress := by
  rw [← below1] at hflags
  exact if_neg hflags

/-- The push of IP out of range. -/
theorem trapped_ip_out (hflags : within s .w16 (below s 1)) (hip : ¬ within s .w16 (below s 2)) :
    s.trapped n = (s.trapFlags.setMd { s.md with sub := s.md.sub + 2 }).outOfRange s.trapFlags.pushAddress := by
  rw [← below1] at hflags
  rw [← below2] at hip
  exact (if_pos hflags).trans (if_neg hip)

/-- The vector read out of range. -/
theorem trapped_vector_out (hflags : within s .w16 (below s 1)) (hip : within s .w16 (below s 2))
    (hvec : ¬ within s .w16 (4 * n.toNat)) :
    s.trapped n =
      raise .addressOutOfRange (.bus .memory (firstBad s (4 * n.toNat)))
        (s.trapFrame.setMd { s.md with sub := s.md.sub + 4 }) := by
  rw [← below1] at hflags
  rw [← below2] at hip
  exact (if_pos hflags).trans ((if_pos hip).trans (if_neg hvec))

end

/-- A word of memory as the statements put it together. -/
theorem ofNat_read_word (m : Memory) (a : Nat) :
    BitVec.ofNat 16 ((m.read (a + 1)).toNat * 256 + (m.read a).toNat) = m.readWord a :=
  word16 _ _ (concat_toNat _ _)

/-- A trap entry with a known vector, from the phase `p`, `Enters`. Each of its faults leaves the state that the commits before it
reached: none, `trapFlags`, `trapFrame`. -/
theorem enters_trapped (r : State) (p : Phase) (m : Metadata) (n : Byte) :
    Enters r n.toNat p m.start m.op (.next ((({ r with phase := p } : State).setMd m).trapped n)) := by
  set t : State := ({ r with phase := p } : State).setMd m
  refine ⟨fun hflags hip hvec => ⟨t.trapFrame.mem, ?entered, trapFrame_stores t⟩,
    fun hflags => ⟨r.mem, m, ?flagsOut, stores_nil _⟩,
    fun hflags hip => ⟨t.trapFlags.mem, { m with sub := m.sub + 2 }, ?ipOut, trapFlags_stores t⟩,
    fun hflags hip hvec => ⟨t.trapFrame.mem, { m with sub := m.sub + 4 }, ?vectorOut, trapFrame_stores t⟩⟩
  case entered =>
    rw [trapped_of_within (s := t) hflags hip hvec, ofNat_read_word]
    conv_lhs => rw [trapFrame_eq]
    rfl
  case flagsOut =>
    rw [trapped_flags_out (s := t) hflags, State.outOfRange, below1, raise_eq_faulted]
    rfl
  case ipOut =>
    rw [trapped_ip_out (s := t) hflags hip, State.outOfRange, below2, raise_eq_faulted]
    conv_lhs => rw [trapFlags_eq]
    rfl
  case vectorOut =>
    rw [trapped_vector_out (s := t) hflags hip hvec, raise_eq_faulted]
    conv_lhs => rw [trapFrame_eq]
    rfl

/-! ## INT (R280) -/

theorem trapPhase_eq (n : Byte) :
    trapPhase n = if n.toNat = 6 then .int6 else if n.toNat = 7 then .int7 else .interrupt := by
  simp only [trapPhase, ← BitVec.toNat_inj, BitVec.reduceToNat]

/-- The vector of INT fits its byte of the instruction. -/
theorem int_fit (n : Byte) : (Instr.int n).operands.fit .int = true := by
  refine decide_eq_true ?_
  show (zext n).toNat < 256
  rw [zext_toNat]
  exact n.isLt

/-- Settles O31: INT's trap entry is part of it, and its vector is the one that the instruction holds. -/
theorem intEffect : Obligations.IntEffect := by
  intro s n
  refine ⟨spells _ _ _ rfl rfl, ?_⟩
  obtain ⟨m, hstart, hbyte, -, hperform⟩ := perform_int (Instr.int n).operands s (int_fit n)
  have hlow : low (Instr.int n).operands.imm = n := low_zext n
  rw [hlow, statePast_eq] at hperform
  have hexec : exec (.int n) s = _ := (exec_eq_perform _ s).trans hperform
  rw [hexec, ← trapPhase_eq, ← hstart]
  exact hbyte ▸ enters_trapped (past s 2) (trapPhase n) m n

/-! ## IRET (R281) -/

/-- Settles O32: IRET reads both words before it commits, so that its faults leave all as it was but IP. -/
theorem iretEffect : Obligations.IretEffect := by
  intro s
  obtain ⟨hends, hfaults⟩ := perform_iret { } s
  rw [above1, statePast_eq] at hends hfaults
  refine ⟨spells _ _ _ rfl rfl, fun hip hflags => ?inMemory, fun hip => ?ipOut, fun hip hflags => ?flagsOut⟩
  case inMemory =>
    obtain ⟨m, hvec, hperform⟩ := hends hip hflags
    rw [word16 _ _ (readWord_eq s _), ← readWord_eq, ← loadFlags_eq, ← above2']
    exact ends_of_settle_nil hperform hvec rfl
  case ipOut =>
    obtain ⟨m, hstart, hbyte, hperform⟩ := hfaults fun h => hip h.1
    rw [if_neg (by exact hip)] at hperform
    exact outOfRange_of rfl hperform hstart hbyte rfl rfl
  case flagsOut =>
    obtain ⟨m, hstart, hbyte, hperform⟩ := hfaults fun h => hflags h.2
    rw [if_pos (by exact hip)] at hperform
    exact outOfRange_of (above1 s) hperform hstart hbyte rfl rfl

/-! ## CLI, STI, NOP and HLT (R282 to R285) -/

/-- Settles O33: the flag is written before the end of the instruction looks at the interrupt request, as `State.settle` does. -/
theorem cliStiNopEffect : Obligations.CliStiNopEffect := by
  intro s
  refine ⟨⟨spells _ _ _ rfl rfl, ?cli⟩, ⟨spells _ _ _ rfl rfl, ?sti⟩, ⟨spells _ _ _ rfl rfl, ?nop⟩⟩
  case cli =>
    obtain ⟨m, hvec, hperform⟩ := perform_plain .cli { } s (.inl rfl)
    exact ends_of_settle_nil (statePast_eq s .cli ▸ hperform) hvec rfl
  case sti =>
    obtain ⟨m, hvec, hperform⟩ := perform_plain .sti { } s (.inr (.inl rfl))
    exact ends_of_settle_nil (statePast_eq s .sti ▸ hperform) hvec rfl
  case nop =>
    obtain ⟨m, hvec, hperform⟩ := perform_plain .nop { } s (.inr (.inr rfl))
    exact ends_of_settle_nil (statePast_eq s .nop ▸ hperform) hvec rfl

/-- Settles O34: HLT ends in `haltStep`, which asks for no interrupt. -/
theorem hltEffect : Obligations.HltEffect := by
  intro s
  have hperform := perform_hlt { } s
  rw [statePast_eq] at hperform
  exact ⟨spells _ _ _ rfl rfl, _, hperform⟩

/-! ## IRET after INT -/

theorem flagsFrom_flagWord (f : Flags) : flagsFrom (flagWord f) = f := by
  obtain ⟨c, z, s, o, i⟩ := f
  revert c z s o i
  decide

theorem flagWord_lt (f : Flags) : flagWord f < 65536 := flags16_toNat f ▸ (flags16 f).isLt

theorem lookup_cons_eq_ite (k a : Nat) (v : Byte) (rest : List (Nat × Byte)) :
    List.lookup k ((a, v) :: rest) = if k = a then some v else rest.lookup k := by
  by_cases h : k = a
  · simp [h]
  · simp [List.lookup_cons, h, beq_eq_false_iff_ne.2 h]

/-- The two bytes of a word, put together. -/
theorem word_of_bytes {v : Nat} (hv : v < 65536) :
    (BitVec.ofNat 8 (v / 256)).toNat * 256 + (BitVec.ofNat 8 v).toNat = v := by
  simp only [BitVec.toNat_ofNat]
  omega

/-- Memory after two words are stored, `v` at `a` and then `w` at `b`. -/
theorem read_of_stores_words {m0 m : Memory} {a b v w : Nat}
    (hstores : Stores m0 m (bytesAt .w16 b w ++ bytesAt .w16 a v)) (k : Nat) :
    m.read k =
      if k = b then BitVec.ofNat 8 w else if k = b + 1 then BitVec.ofNat 8 (w / 256)
      else if k = a then BitVec.ofNat 8 v else if k = a + 1 then BitVec.ofNat 8 (v / 256) else m0.read k := by
  simp only [hstores k, bytesAt, List.cons_append, List.nil_append, lookup_cons_eq_ite]
  split_ifs <;> rfl

/-- The two words of a frame do not overlap: their addresses are 2 apart modulo 2^16. -/
theorem frame_disjoint (s : State) : below s 1 ≠ below s 2 ∧ below s 1 ≠ below s 2 + 1 ∧ below s 1 + 1 ≠ below s 2 := by
  unfold below wrap
  omega

/-- `t` is `r` with the frame of a trap entry on its stack: what IRET needs of it to go back. -/
structure Framed (r t : State) : Prop where
  params : t.params = r.params
  sp : t.sp = BitVec.ofNat 16 (below r 2)
  ax : t.ax = r.ax
  bx : t.bx = r.bx
  cx : t.cx = r.cx
  dx : t.dx = r.dx
  stored : Stores r.mem t.mem (bytesAt .w16 (below r 2) r.ip.toNat ++ bytesAt .w16 (below r 1) (flagWord r.flags))

/-- INT leaves its frame. -/
theorem exists_framed_of_int (s : State) (n : Byte) (hflags : within s .w16 (below s 1)) (hip : within s .w16 (below s 2))
    (hvec : within s .w16 (4 * n.toNat)) : ∃ t, exec (.int n) s = .next t ∧ Framed (past s 2) t := by
  obtain ⟨-, hentered, -⟩ := intEffect s n
  obtain ⟨mem, hexec, hstored⟩ := hentered hflags hip hvec
  exact ⟨_, hexec, rfl, rfl, rfl, rfl, rfl, rfl, hstored⟩

namespace Framed

variable {r t : State}

theorem sp_toNat (h : Framed r t) : t.sp.toNat = below r 2 := by
  rw [h.sp]
  simp [below, wrap]

/-- The flags stand above the return address. -/
theorem above_one (h : Framed r t) : above t 1 = below r 1 := by
  unfold above
  rw [h.sp_toNat]
  unfold below wrap
  omega

/-- Above the frame is the old stack top. -/
theorem above_two (h : Framed r t) : above t 2 = r.sp.toNat := by
  have hlt := r.sp.isLt
  unfold above
  rw [h.sp_toNat]
  unfold below wrap
  omega

theorem ip_value (h : Framed r t) : memValue t .w16 (below r 2) = r.ip.toNat := by
  simpa [memValue, read_of_stores_words h.stored] using word_of_bytes r.ip.isLt

theorem flags_value (h : Framed r t) : memValue t .w16 (below r 1) = flagWord r.flags := by
  obtain ⟨h1, h2, h3⟩ := frame_disjoint r
  simpa [memValue, read_of_stores_words h.stored, h1, h2, h3] using word_of_bytes (flagWord_lt r.flags)

/-- Memory is as before but for the four bytes of the frame. -/
theorem read_other (h : Framed r t) {a : Nat} (h1 : a ≠ below r 1) (h2 : a ≠ below r 1 + 1) (h3 : a ≠ below r 2)
    (h4 : a ≠ below r 2 + 1) : t.mem.read a = r.mem.read a := by
  rw [read_of_stores_words h.stored, if_neg h3, if_neg h4, if_neg h1, if_neg h2]

/-- IRET takes the frame away. -/
theorem exec_iret (h : Framed r t) (hflags : within r .w16 (below r 1)) (hip : within r .w16 (below r 2)) :
    ∃ u, exec .iret t = .next u ∧ u.ip = r.ip ∧ u.sp = r.sp ∧ u.flags = r.flags ∧ u.ax = r.ax ∧ u.bx = r.bx ∧
      u.cx = r.cx ∧ u.dx = r.dx ∧ u.mem.read = t.mem.read := by
  obtain ⟨-, hends, -⟩ := iretEffect t
  rw [h.sp_toNat, h.above_one, h.above_two, h.ip_value, h.flags_value, flagsFrom_flagWord, word16 _ _ rfl, word16 _ _ rfl,
    within, within, h.params] at hends
  obtain ⟨mem, md, hexec, hstored, -⟩ := hends hip hflags
  exact ⟨_, hexec, rfl, rfl, rfl, h.ax, h.bx, h.cx, h.dx, funext hstored⟩

end Framed

/-- Settles O35: IRET finds the frame that INT stored, the return address at the new stack top and the flags above it. -/
theorem iretUndoesInt : Obligations.IretUndoesInt := by
  intro s n hflags hip hvec
  obtain ⟨t, hint, hframed⟩ := exists_framed_of_int s n hflags hip hvec
  obtain ⟨u, hiret, hreturn, hsp, hloaded, hax, hbx, hcx, hdx, hmem⟩ := hframed.exec_iret hflags hip
  refine ⟨t, u, hint, hiret, hreturn, hsp, hloaded, hax, hbx, hcx, hdx, fun a h1 h2 h3 h4 => ?_⟩
  rw [hmem]
  exact hframed.read_other h1 h2 h3 h4

end Sys2Proof.Claims
end

section
/-! The registers of the devices behind their ports (60_exceptions.md sections 3 to 7), in the terms of the statements: every register is
reached through `resolve` of a port that a present device claims; and the steps of the timer and of the printer. -/

namespace Sys2Proof.Claims

open Sys2Proof.Machine Sys2Proof.Config

/-! ## Reading and writing a port (20_memory.md R71, R72) -/

section

variable {s t : State} {p : Nat} {r : DeviceReg} {v : Byte}

theorem reads_of (hport : portRegister p = some r) (hpresent : r.present s.devices = true) (hread : deviceRead r s = some v) :
    Reads s p v :=
  ⟨r, resolve_of_present hport hpresent, hread⟩

theorem writes_of (hport : portRegister p = some r) (hpresent : r.present s.devices = true) (hwrite : deviceWrite r v s = t) :
    Writes s p v t :=
  ⟨r, resolve_of_present hport hpresent, hwrite⟩

/-- The auto-enable of R324, for a register of the PIO that is not there. -/
theorem resolve_autoEnable (hport : portRegister p = some r) (hr : r.isPio = true) (hauto : s.params.autoEnablePio = true)
    (hpio : s.devices.pio = none) : resolve p s = some (r, autoEnable s) := by
  have habsent : r.present s.devices = false := by cases r <;> simp_all [DeviceReg.isPio, DeviceReg.present]
  simp [resolve, hport, habsent, hr, hauto]

end

/-- The four ports of the PIO. -/
theorem portRegister_pio {p : Nat} (hlo : 0x30 ≤ p) (hhi : p ≤ 0x33) : ∃ r, portRegister p = some r ∧ r.isPio = true := by
  obtain rfl | rfl | rfl | rfl : p = 0x30 ∨ p = 0x31 ∨ p = 0x32 ∨ p = 0x33 := by omega
  · exact ⟨.pa, rfl, rfl⟩
  · exact ⟨.pb, rfl, rfl⟩
  · exact ⟨.ca, rfl, rfl⟩
  · exact ⟨.cb, rfl, rfl⟩

/-- A register of the PIO is present when there is a PIO, whatever is wired to it. -/
theorem present_of_isPio {d : Devices} {r : DeviceReg} (hr : r.isPio = true) (hpio : d.pio.isSome = true) : r.present d = true := by
  cases r <;> first | exact hpio | cases hr

/-- Settles O39: the port's register is one of the PIO's, which is absent before the access and present after it. -/
theorem autoEnable : Obligations.AutoEnable := by
  intro s p hauto hpio hlo hhi
  obtain ⟨r, hport, hr⟩ := portRegister_pio hlo hhi
  exact ⟨r, _, resolve_autoEnable hport hr hauto hpio, rfl, resolve_of_present hport (present_of_isPio hr rfl)⟩

/-! ## The PIC and the timer (R341 to R346, R361, R362) -/

theorem endOfInterrupt_of_isr_zero {p : Pic} (h : p.isr = 0x00) : p.endOfInterrupt = p := by
  have hnone : lowestBit p.isr = none := by rw [h]; decide
  simp only [Pic.endOfInterrupt, hnone]

theorem setsBit_clear (x : Byte) (i : Nat) : SetsBit x (x &&& ~~~lineBit i) i false := getLsbD_clearBit x i

theorem setsBit_set (x : Byte) (i : Nat) : SetsBit x (x ||| lineBit i) i true := getLsbD_setBit x i

theorem setsBit_flip (x : Byte) (i : Nat) : SetsBit x (x ^^^ lineBit i) i (!x.getLsbD i) := getLsbD_flipBit x i

/-- Settles O40: each register stands behind its port, and the EOI clears the bit that `lowestBit` finds in ISR. -/
theorem picTimerRegisters : Obligations.PicTimerRegisters := by
  intro s v hpic
  refine ⟨reads_of rfl hpic rfl, writes_of rfl hpic rfl, reads_of rfl hpic rfl, writes_of rfl hpic rfl, reads_of rfl hpic rfl,
    fun hzero => writes_of (r := .eoi) rfl hpic ?idle, fun i hi hset hlower => ⟨_, setsBit_clear _ i, writes_of rfl hpic ?served⟩,
    reads_of rfl hpic rfl, writes_of rfl hpic rfl, reads_of rfl hpic rfl, writes_of rfl hpic rfl,
    reads_of rfl hpic rfl, writes_of rfl hpic rfl, reads_of rfl hpic rfl, writes_of rfl hpic rfl,
    reads_of rfl hpic rfl, writes_of rfl hpic rfl, reads_of rfl hpic rfl, writes_of rfl hpic rfl,
    reads_of rfl hpic rfl, writes_of rfl hpic rfl, reads_of rfl hpic rfl, writes_of rfl hpic rfl,
    reads_of rfl hpic rfl, writes_of rfl hpic rfl, reads_of rfl hpic rfl, writes_of rfl hpic rfl,
    reads_of rfl hpic rfl, writes_of rfl hpic rfl⟩
  case idle => simp only [deviceWrite, endOfInterrupt_of_isr_zero hzero]
  case served =>
    have hlowest : lowestBit s.pic.isr = some i := (lowestBit_eq_some _ i).2 ⟨hi, hset, hlower⟩
    simp only [deviceWrite, Pic.endOfInterrupt, hlowest]

/-! ## The PIO (R370 to R374, R382, R383) -/

/-- A data port reads its latch where the control bit is 0, and the device's input where it is 1 (R371). -/
theorem getLsbD_portValue (latch control input : Byte) {i : Nat} (hi : i < 8) :
    (portValue latch control input).getLsbD i = if control.getLsbD i then input.getLsbD i else latch.getLsbD i := by
  simp only [portValue, BitVec.getLsbD_or, BitVec.getLsbD_and, BitVec.getLsbD_not, hi, decide_true, Bool.true_and]
  cases control.getLsbD i <;> simp

/-- The device drives port A with the switches (R374). -/
theorem inA_of_switches {s : State} (h : s.devices.pio = some .switchesAndLeds) : inA s = s.pio.switches := by
  simp only [inA, h]

/-- A printer drives bit 0 of port A with its busy (R382). -/
theorem getLsbD_inA_of_printer {s : State} (h : s.devices.pio = some .printer) (i : Nat) :
    (inA s).getLsbD i = (decide (i = 0) && s.printer.busy) := by
  simp only [inA, h]
  cases s.printer.busy <;> simp

/-- With no printer on the PIO there is no strobe to look at. -/
theorem strobeCheck_of_switches {s : State} (h : s.devices.pio = some .switchesAndLeds) : strobeCheck s = s := by
  simp [strobeCheck, h]

/-- Settles O41: the data ports read bit by bit, the control registers as they are; only a printer looks at what is written to PA and
CA. -/
theorem pioRegisters : Obligations.PioRegisters := by
  intro s v kind hkind
  have hpresent : s.devices.pio.isSome = true := by rw [hkind]; rfl
  refine ⟨⟨_, reads_of rfl hpresent rfl, fun i hi => ?portA⟩, ⟨_, reads_of rfl hpresent rfl, fun i hi => ?portB⟩,
    reads_of rfl hpresent rfl, reads_of rfl hpresent rfl, writes_of rfl hpresent rfl, writes_of rfl hpresent rfl, ?switches⟩
  case portA =>
    rw [getLsbD_portValue _ _ _ hi]
    cases kind with
    | switchesAndLeds => rw [inA_of_switches hkind]
    | printer => rw [getLsbD_inA_of_printer hkind]
  case portB =>
    rw [getLsbD_portValue _ _ _ hi]
    cases s.pio.cb.getLsbD i <;> simp [inB]
  case switches =>
    rintro rfl
    exact ⟨writes_of rfl hpresent (strobeCheck_of_switches hkind), writes_of rfl hpresent (strobeCheck_of_switches hkind)⟩

/-- An output bit of a port: the latch where the control bit is 0 (R370, R372). -/
theorem getLsbD_output (latch control : Byte) {i : Nat} (hi : i < 8) :
    (latch &&& ~~~control).getLsbD i = (latch.getLsbD i && !control.getLsbD i) := by
  simp [hi]

/-- What the strobe check does with a printer on the PIO, the pin being bit 1 of port A's output (R383). -/
theorem strobeCheck_of_printer {s : State} (h : s.devices.pio = some .printer) :
    let strobe := s.pio.la.getLsbD 1 && !s.pio.ca.getLsbD 1
    strobeCheck s =
      if s.pio.strobePrev = false ∧ strobe = true ∧ s.printer.busy = false then
        { s with pio := { s.pio with strobePrev := strobe }, printer := { s.printer with pending := s.pio.outB, busy := true } }
      else { s with pio := { s.pio with strobePrev := strobe } } := by
  intro strobe
  have hpin : s.pio.outA.getLsbD 1 = strobe := getLsbD_output _ _ (by decide)
  simp only [strobeCheck, h, if_true, hpin, Bool.and_eq_true, Bool.not_eq_true', and_assoc]
  split <;> rfl

/-- Settles O42: both writes end in the strobe check. -/
theorem printerStrobe : Obligations.PrinterStrobe := by
  intro s v hprinter after
  have hpresent : s.devices.pio.isSome = true := by rw [hprinter]; rfl
  have strobed (la ca : Byte) : after la ca (strobeCheck { s with pio := { s.pio with la := la, ca := ca } }) := by
    rw [strobeCheck_of_printer (s := { s with pio := { s.pio with la := la, ca := ca } }) hprinter]
    simp only [after]
    split
    · exact ⟨_, fun i hi => getLsbD_output _ _ hi, rfl⟩
    · rfl
  exact ⟨⟨_, writes_of rfl hpresent rfl, strobed v s.pio.ca⟩, ⟨_, writes_of rfl hpresent rfl, strobed s.pio.la v⟩⟩

/-! ## The handshake link, the keyboard and the screen (R390 to R392, R400, R402) -/

theorem writeHandshakeData_of_idle {s : State} (v : Byte) (h : s.printer.busy = false) :
    writeHandshakeData v s =
      { s with handshake := { s.handshake with data := v }, printer := { s.printer with pending := v, busy := true } } := by
  simp [writeHandshakeData, h]

theorem writeHandshakeData_of_busy {s : State} (v : Byte) (h : s.printer.busy = true) : writeHandshakeData v s = s := by
  simp [writeHandshakeData, h]

/-- STATE holds busy in bit 0 and ie in bit 7 (R391). -/
theorem getLsbD_handshakeState (s : State) {i : Nat} (hi : i < 8) :
    (handshakeState s).getLsbD i = ((decide (i = 0) && s.printer.busy) || (decide (i = 7) && s.handshake.ie)) := by
  have table : ∀ (busy ie : Bool) (i : Nat), i < 8 →
      (BitVec.ofNat 8 (busy.toNat + 128 * ie.toNat)).getLsbD i = ((decide (i = 0) && busy) || (decide (i = 7) && ie)) := by
    decide
  exact table _ _ i hi

/-- Settles O43: each register stands behind its port; DATA takes a byte from a free printer only, and the keyboard has none yet. -/
theorem handshakeKeyboardScreenRegisters : Obligations.HandshakeKeyboardScreenRegisters := by
  intro s v
  refine ⟨fun hlink => ⟨reads_of rfl hlink rfl, fun hidle => ?free, fun hbusy => ?busy, ?state, writes_of rfl hlink rfl⟩,
    fun hkeys => ⟨⟨.key, resolve_of_present rfl hkeys, rfl⟩, writes_of (r := .key) rfl hkeys rfl, reads_of rfl hkeys rfl,
      writes_of rfl hkeys rfl⟩⟩
  case free => exact writes_of rfl hlink (writeHandshakeData_of_idle v hidle)
  case busy => exact writes_of (r := .data) rfl hlink (writeHandshakeData_of_busy v hbusy)
  case state => exact ⟨_, reads_of rfl hlink rfl, fun i hi => getLsbD_handshakeState s hi⟩

/-! ## The steps of the timer and of the printer (R340, R360, R385, R393) -/

theorem asserts_assertLine (s : State) (i : Nat) : Asserts s (assertLine i s) i := by
  unfold Asserts assertLine
  by_cases hpic : s.devices.pic = true
  · rw [if_pos hpic, if_pos hpic]
    exact ⟨_, setsBit_set _ i, rfl⟩
  · rw [if_neg hpic, if_neg hpic]

theorem hasPrinter_iff (d : Devices) : d.hasPrinter = true ↔ d.pio = some .printer ∨ d.handshake = true := by
  simp [Devices.hasPrinter]

/-- The step of an agenda's first agent. -/
theorem step_of_agenda {s : State} {a : AgentStep} {rest : List AgentStep} (h : s.agenda = a :: rest) :
    step s = agentStep a { s with agenda := rest } := by
  simp only [step, h]

/-- Settles O46: an agent of the agenda whose device is there takes its step, and otherwise there is none. -/
theorem timerAndPrinterSteps : Obligations.TimerAndPrinterSteps := by
  intro s rest s0
  refine ⟨fun hagenda => ⟨fun hpic => ⟨fun hbelow => ?counts, fun hequal => ?fires⟩, fun hpic => ?noTimer⟩,
    fun hagenda => ⟨fun hwired hbusy => ?consumes, fun hidle => ?nothingPending⟩⟩
  all_goals rw [step_of_agenda hagenda]
  case counts => simp only [agentStep, hpic, if_true, timerTick, hbelow, if_false, s0]
  case fires =>
    simp only [agentStep, hpic, if_true, timerTick, hequal]
    exact ⟨_, rfl, asserts_assertLine _ 1⟩
  case noTimer => simp only [agentStep, hpic, Bool.false_eq_true, if_false]
  case consumes =>
    have hprinter : (s.devices.hasPrinter && s.printer.busy) = true := by rw [(hasPrinter_iff _).2 hwired, hbusy]; rfl
    simp only [agentStep, hprinter, if_true]
    refine ⟨_, rfl, ?_⟩
    simp only [printerConsume, handshakeDone]
    by_cases hlink : s.devices.handshake = true
    · by_cases hie : s.handshake.ie = true
      · simp only [hlink, hie, and_self, if_true]
        exact asserts_assertLine _ 2
      · simp only [hlink, hie, if_true]; rfl
    · simp only [hlink]; rfl
  case nothingPending => simp only [agentStep, hidle, Bool.and_false, Bool.false_eq_true, if_false]

end Sys2Proof.Claims
end

section
/-! IN and OUT (47_io.md R300 to R302), in the terms of the statements: one theorem for IN and one for OUT at each width, for both kinds
of port. -/

namespace Sys2Proof.Claims

open Sys2Proof.Machine Sys2Proof.Config

/-! ## What an IO access leaves (20_memory.md R72, R74) -/

theorem resolve_mem {p : Nat} {s t : State} {r : DeviceReg} (h : resolve p s = some (r, t)) : t.mem = s.mem := by
  obtain ⟨-, -, rfl | ⟨rfl, -, -⟩⟩ := resolve_present h <;> rfl

theorem strobeCheck_mem (s : State) : (strobeCheck s).mem = s.mem := by
  unfold strobeCheck
  split <;> rfl

theorem deviceWrite_mem (r : DeviceReg) (v : Byte) (s : State) : (deviceWrite r v s).mem = s.mem := by
  cases r
  case pa | ca => exact strobeCheck_mem _
  case data =>
    simp only [deviceWrite, writeHandshakeData]
    split <;> rfl
  all_goals rfl

/-! ## Both ports of a word (20_memory.md R76, R77) -/

section

variable {p : Nat} {s t u : State} {r r' : DeviceReg}

theorem resolve2_first_refused (h : resolve p s = none) : resolve2 p s = .error (p, s) := by
  simp only [resolve2, h]

theorem resolve2_second_refused (h : resolve p s = some (r, t)) (h' : resolve (p + 1) t = none) :
    resolve2 p s = .error (p + 1, t) := by
  simp only [resolve2, h, h']

theorem resolve2_resolved (h : resolve p s = some (r, t)) (h' : resolve (p + 1) t = some (r', u)) :
    resolve2 p s = .ok (r, r', u) := by
  simp only [resolve2, h, h']

end

/-! ## IN and OUT -/

section

variable {i : Instr} {dx : Bool} {s : State} {p byte0 length : Nat}

/-- A refused port, from the law of the instruction's opcode. -/
theorem faults_of_refused {oc : Opcode} {t : State} {q : Nat} {phase : Phase} (hop : i.opcode = oc)
    (hlength : opcodeLength oc = length) (hmem : t.mem = s.mem)
    (h : ∃ m : Metadata, m.start = some s.ip ∧ m.op = some (opcodeByte oc) ∧
      perform oc i.operands s =
        .next (raise .ioMemoryNotConnected (.bus .io q) (({ t.past oc with phase := phase } : State).setMd m))) :
    Faults i s .ioMemoryNotConnected (.bus .io q) phase (past t length) [] := by
  subst hop
  obtain ⟨m, hstart, hbyte, hperform⟩ := h
  rw [statePast_eq, hlength, ← exec_eq_perform] at hperform
  exact faults_of_raise hperform hstart hbyte rfl (hmem ▸ stores_nil _)

/-- The end of IN: the accumulator holds the value. -/
theorem ends_of_input {oc : Opcode} {t : State} {w : Width} {v : Word} {x : Nat} (hop : i.opcode = oc)
    (hlength : opcodeLength oc = length) (hmem : t.mem = s.mem) (hv : num w v = x)
    (h : ∃ m : Metadata, m.vec = none ∧ perform oc i.operands s = .next (((t.past oc).setReg w 0 v).settle m)) :
    Ends i s (putReg (past t length) w 0 x) [] := by
  subst hop hv
  obtain ⟨m, hvec, hperform⟩ := h
  rw [statePast_eq, hlength, ← exec_eq_perform, setReg_eq _ w 0 v (.inr (by decide))] at hperform
  exact ends_of_settle_nil hperform hvec ((putReg_mem ..).trans hmem)

/-- The end of OUT, which leaves nothing but what the device has made of the byte or the word. -/
theorem ends_of_output {oc : Opcode} {t : State} (hop : i.opcode = oc) (hlength : opcodeLength oc = length)
    (hmem : t.mem = s.mem)
    (h : ∃ m : Metadata, m.vec = none ∧ perform oc i.operands s = .next ((t.past oc).settle m)) :
    Ends i s (past t length) [] := by
  subst hop
  obtain ⟨m, hvec, hperform⟩ := h
  rw [statePast_eq, hlength, ← exec_eq_perform] at hperform
  exact ends_of_settle_nil hperform hvec hmem

/-- IN AL. -/
theorem inputByte_inp (hop : i.opcode = .inp dx .w8) (hfit : i.operands.fit (.inp dx .w8) = true)
    (hp : (if dx then s.dx else i.operands.imm).toNat = p) (hbyte : opcodeByte (.inp dx .w8) = BitVec.ofNat 8 byte0)
    (hlength : opcodeLength (.inp dx .w8) = length) : InputByte i s p byte0 length := by
  subst hp
  obtain ⟨hrefused, hread, hwaits⟩ := perform_inp8 dx i.operands s hfit
  refine ⟨spells i _ _ (hop ▸ hbyte) (hop ▸ hlength), fun h => faults_of_refused hop hlength rfl (hrefused h),
    fun r t v h hv => ends_of_input hop hlength (resolve_mem h) (num_zext v) (hread r t v h hv), fun r t h hv => ?waits⟩
  case waits =>
    obtain ⟨m, -, -, -, -, hperform⟩ := hwaits r t h hv
    rw [statePast_eq, hlength, ← hop, ← exec_eq_perform] at hperform
    exact ⟨m, hperform⟩

/-- IN AX. -/
theorem inputWord_inp (hop : i.opcode = .inp dx .w16) (hfit : i.operands.fit (.inp dx .w16) = true)
    (hp : (if dx then s.dx else i.operands.imm).toNat = p) (hbyte : opcodeByte (.inp dx .w16) = BitVec.ofNat 8 byte0)
    (hlength : opcodeLength (.inp dx .w16) = length) : InputWord i s p byte0 length := by
  subst hp
  obtain ⟨hrefused, hread⟩ := perform_inp16 dx i.operands s hfit
  refine ⟨spells i _ _ (hop ▸ hbyte) (hop ▸ hlength),
    fun h => faults_of_refused hop hlength rfl (hrefused _ _ (resolve2_first_refused h)),
    fun r t h h' => faults_of_refused hop hlength (resolve_mem h) (hrefused _ _ (resolve2_second_refused h h')),
    fun r t r' u h h' => ?read⟩
  case read =>
    obtain ⟨lo, hi, m, hlo, hhi, hend⟩ := hread r r' u (resolve2_resolved h h')
    exact ⟨lo, hi, hlo, hhi,
      ends_of_input hop hlength ((resolve_mem h').trans (resolve_mem h)) (concat_toNat hi lo) ⟨m, hend⟩⟩

/-- OUT of AL. -/
theorem outputByte_out (hop : i.opcode = .out dx .w8) (hfit : i.operands.fit (.out dx .w8) = true)
    (hp : (if dx then s.dx else i.operands.imm).toNat = p) (hbyte : opcodeByte (.out dx .w8) = BitVec.ofNat 8 byte0)
    (hlength : opcodeLength (.out dx .w8) = length) : OutputByte i s p byte0 length := by
  subst hp
  obtain ⟨hrefused, hwrite⟩ := perform_out8 dx i.operands s hfit
  refine ⟨spells i _ _ (hop ▸ hbyte) (hop ▸ hlength), fun h => faults_of_refused hop hlength rfl (hrefused h),
    fun r t h => ?written⟩
  case written =>
    rw [ofNat_low]
    exact ends_of_output hop hlength ((deviceWrite_mem ..).trans (resolve_mem h)) (hwrite r t h)

/-- OUT of AX. -/
theorem outputWord_out (hop : i.opcode = .out dx .w16) (hfit : i.operands.fit (.out dx .w16) = true)
    (hp : (if dx then s.dx else i.operands.imm).toNat = p) (hbyte : opcodeByte (.out dx .w16) = BitVec.ofNat 8 byte0)
    (hlength : opcodeLength (.out dx .w16) = length) : OutputWord i s p byte0 length := by
  subst hp
  obtain ⟨hrefused, hwrite⟩ := perform_out16 dx i.operands s hfit
  refine ⟨spells i _ _ (hop ▸ hbyte) (hop ▸ hlength),
    fun h => faults_of_refused hop hlength rfl (hrefused _ _ (resolve2_first_refused h)),
    fun r t h h' => faults_of_refused hop hlength (resolve_mem h) (hrefused _ _ (resolve2_second_refused h h')),
    fun r t r' u h h' => ?written⟩
  case written =>
    rw [ofNat_low, ofNat_high]
    refine ends_of_output hop hlength ?_ (hwrite r r' u (resolve2_resolved h h'))
    rw [deviceWrite_mem, deviceWrite_mem, resolve_mem h', resolve_mem h]

end

/-- Settles O36: the port is the byte of the instruction, zero-extended, or DX. -/
theorem inEffect : Obligations.InEffect := fun _ p =>
  ⟨inputByte_inp (dx := false) rfl (immFits_zext p) (zext_toNat p) rfl rfl,
    inputWord_inp (dx := false) rfl (immFits_zext p) (zext_toNat p) rfl rfl,
    inputByte_inp (dx := true) rfl rfl rfl rfl rfl, inputWord_inp (dx := true) rfl rfl rfl rfl rfl⟩

/-- Settles O37: the port is that of IN. -/
theorem outEffect : Obligations.OutEffect := fun _ p =>
  ⟨outputByte_out (dx := false) rfl (immFits_zext p) (zext_toNat p) rfl rfl,
    outputWord_out (dx := false) rfl (immFits_zext p) (zext_toNat p) rfl rfl,
    outputByte_out (dx := true) rfl rfl rfl rfl rfl, outputWord_out (dx := true) rfl rfl rfl rfl rfl⟩

end Sys2Proof.Claims
end

section
/-! Hardware interrupts, in the terms of the statements: when the end of an instruction accepts one (60_exceptions.md R333, R345), and
its trap entry, which acknowledges the selected line and is then that of INT (R331, R347). -/

namespace Sys2Proof.Claims

open Sys2Proof.Machine Sys2Proof.Config

/-- INTR asks for a selected line with no line of its priority or a higher one in service (R345). -/
theorem intr_iff (p : Pic) : p.intr = true ↔ ∃ i, Selected p i ∧ ∀ j, j ≤ i → p.isr.getLsbD j = false := by
  simp only [← selected_iff, Pic.intr]
  cases p.selected <;> simp

/-- Settles O44: IF and the presence of a PIC beside INTR. -/
theorem interruptRequest : Obligations.InterruptRequest := by
  intro s
  simp only [interruptRequested, Bool.and_eq_true, intr_iff, and_assoc]

theorem vector_eq_vectorOf (p : Pic) (i : Nat) : p.vector i = vectorOf p i := by
  match i with
  | 0 | 1 | 2 | 3 | 4 | 5 | 6 => rfl
  | _ + 7 => rfl

/-- The acknowledge of the selected line, whose vector the entry then has (R347). -/
theorem acknowledgeInterrupt_selected {s : State} {i : Nat} (hvec : s.md.vec = none) (hselected : Selected s.pic i) :
    acknowledgeInterrupt s =
      { s with
        pic := s.pic.acknowledge i
        md := { s.md with irq := some (BitVec.ofNat 3 i), vec := some (vectorOf s.pic i) } } := by
  simp only [acknowledgeInterrupt, hvec, (selected_iff _ _).2 hselected, vector_eq_vectorOf]

/-- Settles O45: once its line is acknowledged, the entry is one with a known vector, as INT's is. -/
theorem hardwareTrapEntry : Obligations.HardwareTrapEntry := by
  intro s i hphase hvec hselected
  refine ⟨_, _, setsBit_clear s.pic.irr i, setsBit_set s.pic.isr i, ?_⟩
  rw [trapEntry_acknowledge, acknowledgeInterrupt_selected hvec hselected, trapEntry_vec _ (vectorOf s.pic i) rfl]
  rw [← hphase]
  exact enters_trapped { s with pic := s.pic.acknowledge i } s.phase
    { s.md with irq := some (BitVec.ofNat 3 i), vec := some (vectorOf s.pic i) } (vectorOf s.pic i)

end Sys2Proof.Claims
end

section
/-! The host session (70_reset_and_hazards.md R440 to R453), in the terms of the statements: the model's validity checks against `Valid`,
what the commands do, what a reset leaves, and the run control after a sub-step of the core. -/

namespace Sys2Proof.Claims

open Sys2Proof.Machine Sys2Proof.Config

/-! ## Validity (R441 to R449) -/

theorem idle_iff (s : State) : s.idle = true ↔ ¬ isRunning s := by
  unfold State.idle isRunning
  cases s.status <;> simp

theorem loadValid_iff (p : LoadedProgram) (s : State) :
    loadValid p s = true ↔ Valid s (.loadProgram p.image p.devices p.policy) := by
  simp [loadValid, Valid, idle_iff, Devices.valid, and_assoc, imp_iff_not_or]

theorem runValid_iff (s : State) : runValid s = true ↔ s.loaded ≠ none ∧ ¬ isRunning s ∧ s.outcome = .running := by
  simp [runValid, idle_iff, Option.isSome_iff_ne_none, and_assoc]

theorem switchValid_iff (index : Nat) (s : State) : switchValid index s = true ↔ Valid s (.toggleSwitch index) := by
  simp [switchValid, Valid, Option.isSome_iff_ne_none, and_assoc]

/-- `stop` asks for a run, in progress or paused (R446). -/
theorem stop_refused_iff (s : State) :
    (s.idle && decide (s.status ≠ .paused)) = true ↔ ¬ (isRunning s ∨ s.status = .paused) := by
  simp [idle_iff]

/-! ## Invalid commands (R452) -/

theorem stopRun_of_not_valid {s : State} {resetAlso : Bool} (h : ¬ Valid s (.stop resetAlso)) : stopRun resetAlso s = reject s := by
  unfold stopRun
  dsimp only
  split
  · rfl
  · next hrun =>
    rw [stop_refused_iff, not_not] at hrun
    cases resetAlso with
    | false => exact absurd ⟨hrun, fun h => by cases h⟩ h
    | true =>
      cases hl : s.loaded with
      | none => rfl
      | some p => exact absurd ⟨hrun, fun _ => by rw [hl]; simp⟩ h

/-- Each command checks its validity, and is rejected without it. -/
theorem hostStep_of_not_valid {s : State} {c : HostCommand} (h : ¬ Valid s c) : hostStep c s = .next (reject s) := by
  cases c <;> simp only [hostStep]
  case loadProgram image devices policy => rw [loadProgram, if_neg (mt (loadValid_iff _ s).1 h)]
  case run | step => rw [if_neg (mt (runValid_iff s).1 h)]
  case pause => rw [if_pos ((idle_iff s).2 h)]
  case stop resetAlso => rw [stopRun_of_not_valid h]
  case sendKeyboardChar => exact if_neg h
  case pressF10 => rw [if_neg (mt Option.isSome_iff_ne_none.1 h)]
  case toggleSwitch index => rw [if_neg (mt (switchValid_iff index s).1 h)]
  case cleanScreen => exact congrArg _ (if_neg h)
  case cleanPrinterBuffer => rw [if_neg (mt (hasPrinter_iff _).1 h)]
  case getComputerState => exact absurd trivial h

/-- A sub-step of the core answers what the command that takes it has answered. -/
theorem reply_coreStep {key : Option Byte} {s t : State} (h : coreStep key (accept s) = .next t) : t.reply = some .ok :=
  (kept_coreStep h).reply

/-! ## Valid commands (R442 to R453) -/

section

variable {s : State}

theorem loadProgram_of_valid {p : LoadedProgram} (h : Valid s (.loadProgram p.image p.devices p.policy)) :
    hostStep (.loadProgram p.image p.devices p.policy) s = .next (resetTo p s) := by
  simp only [hostStep, loadProgram, (loadValid_iff p s).2 h, if_true, resetTo]

theorem run_of_valid {m : RunMode} (h : Valid s (.run m)) : hostStep (.run m) s = .next (accept (startRun m s)) := by
  simp only [hostStep, (runValid_iff s).2 h, if_true]

theorem step_of_valid (h : Valid s .step) : hostStep .step s = coreStep none (accept (startRun .cycleChange s)) := by
  simp only [hostStep, (runValid_iff s).2 h, if_true]

theorem pause_of_valid (h : Valid s .pause) : hostStep .pause s = .next (accept { s with pauseFlag := true }) := by
  have hbusy : ¬ s.idle = true := fun hidle => (idle_iff s).1 hidle h
  simp only [hostStep, hbusy, if_false, Bool.false_eq_true]

theorem stop_not_refused {resetAlso : Bool} (h : Valid s (.stop resetAlso)) :
    (s.idle && decide (s.status ≠ .paused)) = false :=
  Bool.eq_false_iff.2 (mt (stop_refused_iff s).1 (not_not.2 h.1))

theorem stop_of_valid (h : Valid s (.stop false)) :
    hostStep (.stop false) s = .next (accept { s with status := .stopped, waitingForInput := false }) := by
  simp only [hostStep, stopRun, stop_not_refused h, Bool.false_eq_true, if_false]

theorem stopReset_of_valid {p : LoadedProgram} (h : Valid s (.stop true)) (hloaded : s.loaded = some p) :
    hostStep (.stop true) s = .next (resetTo p s) := by
  simp only [hostStep, stopRun, stop_not_refused h, Bool.false_eq_true, if_false, hloaded]
  rfl

theorem sendKeyboardChar_of_valid {ch : Byte} (h : s.waitingForInput = true) :
    hostStep (.sendKeyboardChar ch) s = coreStep (some ch) (accept { s with waitingForInput := false }) := by
  simp only [hostStep, h, if_true]

theorem pressF10_of_valid (h : Valid s .pressF10) : hostStep .pressF10 s = .next (accept (assertLine 0 s)) := by
  simp only [hostStep, Option.isSome_iff_ne_none.2 h, if_true]

theorem toggleSwitch_of_valid {index : Nat} (h : Valid s (.toggleSwitch index)) :
    hostStep (.toggleSwitch index) s =
      .next (accept { s with pio := { s.pio with switches := s.pio.switches ^^^ lineBit index } }) := by
  simp only [hostStep, (switchValid_iff index s).2 h, if_true]

theorem cleanScreen_of_valid (h : Valid s .cleanScreen) :
    hostStep .cleanScreen s = .next (accept { s with screen := { s.screen with output := [] } }) := by
  have hkeys : s.devices.keyboardAndScreen = true := h
  simp only [hostStep, hkeys, if_true]

theorem cleanPrinterBuffer_of_valid (h : Valid s .cleanPrinterBuffer) :
    hostStep .cleanPrinterBuffer s = .next (accept { s with printer := { s.printer with paper := [] } }) := by
  simp only [hostStep, (hasPrinter_iff s.devices).2 h, if_true]

end

/-- A valid command answers that it is done, or with a snapshot. -/
theorem reply_of_valid {s t : State} {c : HostCommand} (hvalid : Valid s c) (h : hostStep c s = .next t) :
    t.reply = some .ok ∨ c = .getComputerState := by
  cases c
  case getComputerState => exact .inr rfl
  all_goals left
  case loadProgram image devices policy =>
    rw [loadProgram_of_valid (p := ⟨image, devices, policy⟩) hvalid] at h
    cases h; rfl
  case run => rw [run_of_valid hvalid] at h; cases h; rfl
  case step => rw [step_of_valid hvalid] at h; exact reply_coreStep h
  case pause => rw [pause_of_valid hvalid] at h; cases h; rfl
  case stop resetAlso =>
    cases resetAlso with
    | false => rw [stop_of_valid hvalid] at h; cases h; rfl
    | true =>
      obtain ⟨p, hp⟩ := Option.ne_none_iff_exists'.1 (hvalid.2 rfl)
      rw [stopReset_of_valid hvalid hp] at h
      cases h; rfl
  case sendKeyboardChar => rw [sendKeyboardChar_of_valid hvalid] at h; exact reply_coreStep h
  case pressF10 => rw [pressF10_of_valid hvalid] at h; cases h; rfl
  case toggleSwitch => rw [toggleSwitch_of_valid hvalid] at h; cases h; rfl
  case cleanScreen => rw [cleanScreen_of_valid hvalid] at h; cases h; rfl
  case cleanPrinterBuffer => rw [cleanPrinterBuffer_of_valid hvalid] at h; cases h; rfl

/-- Settles O55: the model's checks are `Valid`, and only their failure is answered as invalid. -/
theorem invalidCommands : Obligations.InvalidCommands := by
  intro s c
  refine ⟨fun hinvalid => hostStep_of_not_valid hinvalid, fun hvalid t h => ?_⟩
  rcases reply_of_valid hvalid h with hok | rfl
  · rw [hok]; simp
  · cases h; simp

/-- Settles O56: each valid command is `accept` of its one change. -/
theorem commandEffects : Obligations.CommandEffects := fun s =>
  ⟨fun _ => run_of_valid, pause_of_valid, stop_of_valid, fun h => ⟨_, pressF10_of_valid h, asserts_assertLine s 0⟩,
    fun index h => ⟨_, setsBit_flip _ index, toggleSwitch_of_valid h⟩, cleanScreen_of_valid, cleanPrinterBuffer_of_valid,
    snapshot s, rfl, rfl, rfl, rfl, rfl, rfl, rfl, rfl, rfl, rfl, rfl, rfl, rfl, rfl, rfl, rfl, rfl, rfl, rfl⟩

/-! ## The reset (R420, R421) -/

/-- Memory after the loading of an image that names no address twice (R421): no later cell of the image overwrites one. -/
theorem read_loaded {image : List Host.Cell} (h : (image.map Prod.fst).Nodup) (m : Memory) (a : Nat) :
    (m.writeAll image).read a = (image.lookup a).getD (m.read a) := by
  induction image generalizing m with
  | nil => rfl
  | cons c rest ih =>
    simp only [List.map_cons, List.nodup_cons, List.mem_map, not_exists, not_and] at h
    obtain ⟨hlater, hrest⟩ := h
    rw [Memory.writeAll, ih hrest, Memory.read_write, lookup_cons_eq_ite]
    by_cases ha : a = c.1
    · have hnone : rest.lookup a = none := List.lookup_eq_none_iff.2 fun d hd => by simpa [ha] using Ne.symm (hlater d hd)
      rw [hnone, if_pos ha, if_pos ha]
      rfl
    · rw [if_neg ha, if_neg ha]

/-- The machine right after a reset, whatever the session was (R420, R421). -/
theorem isReset_resetTo (s : State) (p : LoadedProgram) (h : (p.image.map Prod.fst).Nodup) :
    IsReset s (resetTo p s) p (some .ok) := by
  refine ⟨_, _, _, _, _, _, _, _, _, _, rfl, fun a v hv => ?image, fun a ha hzero => ?zero, fun a ha hpreserve hloaded => ?kept⟩
  case image => exact (read_loaded h _ a).trans (by rw [hv]; rfl)
  case zero => exact (read_loaded h _ a).trans (by rw [ha, hzero]; rfl)
  case kept =>
    have hearlier : earlierMemory s = some s.mem := (earlierMemory_cases s).resolve_left (fun h => hloaded h.1) |>.2
    exact (read_loaded h _ a).trans (by rw [ha, hpreserve, hearlier]; rfl)

/-- Settles O57: both commands end in `resetTo`. -/
theorem resetCommands : Obligations.ResetCommands := fun s p himage =>
  ⟨fun h => ⟨_, loadProgram_of_valid h, isReset_resetTo s p himage⟩,
    fun h hloaded => ⟨_, stopReset_of_valid h hloaded, isReset_resetTo s p himage⟩⟩

/-! ## Run control (R443 to R445) -/

theorem status_endOfInstruction (oc : Opcode) (s : State) : (endOfInstruction oc s).status = s.status := by
  unfold endOfInstruction
  split
  · rfl
  · split <;> rfl

/-- A sub-step after which the core still runs has left the status to the host. -/
theorem status_of_outcome_running {key : Option Byte} {s t : State} (h : coreSubStep key s = .next t)
    (hrunning : t.outcome = .running) : t.status = s.status := by
  have not_faulted (hfault : Faulted s t) : False := by
    rw [hfault.outcome] at hrunning
    cases hrunning
  have phase {subs : List (List Act)} {k : State → State} (h : phaseStep key subs k s = .next t)
      (hk : ∀ u, (k u).status = u.status) : t.status = s.status := by
    obtain fault | rfl | ⟨_, u, _, _, hgoing, rfl⟩ := phaseStep_cases h
    · exact (not_faulted fault).elim
    · rfl
    · split
      · exact (hk _).trans hgoing.status
      · exact hgoing.status
  unfold coreSubStep at h
  split at h
  case h_1 =>
    cases h
    obtain fault | ⟨oc, hmem, hip, hoc⟩ := fetchStep_inv s
    · exact (not_faulted fault).elim
    · rw [fetchStep_legal hmem hip hoc]
  case h_2 =>
    split at h
    · exact phase h fun _ => rfl
    · cases h
  case h_3 =>
    split at h
    · cases h; exact (executeStep_keeps_error_status _ s).2
    · cases h
  case h_4 =>
    split at h
    · exact phase h (status_endOfInstruction _)
    · cases h
  case h_5 | h_6 | h_7 => exact phase h fun _ => rfl
  case h_8 => cases h; cases hrunning
  case h_9 => cases h

/-- What a run in mode `m` makes of the state `u` that a sub-step begun in phase `was` has led to: it pauses, if the core still runs, at
every sub-step, at the end of an instruction, or at the end of a phase when the host has asked for it. -/
def pausedAfter (m : RunMode) (was : Phase) (u : State) : State :=
  if u.outcome = .running ∧ u.waitingForInput = false ∧
      (m = .cycleChange ∨ (m = .endOfInstruction ∧ u.phase = .fetching) ∨ (u.pauseFlag = true ∧ u.phase ≠ was)) then
    { u with status := .paused }
  else u

theorem runControl_eq_pausedAfter {u : State} {m : RunMode} (was : Phase) (h : u.outcome = .running → u.status = .running m) :
    Machine.runControl was u = pausedAfter m was u := by
  unfold Machine.runControl pausedAfter
  by_cases hready : u.coreReady = true
  · obtain ⟨houtcome, hwait⟩ := (coreReady_iff u).1 hready
    simp [hready, houtcome, hwait, h houtcome, or_assoc]
  · rw [if_neg hready, if_neg fun hpause => hready ((coreReady_iff u).2 ⟨hpause.1, hpause.2.1⟩)]

/-- A sub-step in a run of mode `m`, with the run control after it. -/
theorem coreStep_of_running {key : Option Byte} {s u : State} {m : RunMode} (hstatus : s.status = .running m)
    (h : coreSubStep key s = .next u) : coreStep key s = .next (pausedAfter m s.phase u) := by
  simp only [coreStep, h]
  exact congrArg _ (runControl_eq_pausedAfter s.phase fun hrunning => (status_of_outcome_running h hrunning).trans hstatus)

/-- Settles O58: the agenda's core sub-step and the command `step` are both a sub-step in a run, with the run control after it. -/
theorem runControl : Obligations.RunControl := by
  intro s u paused
  refine ⟨fun m rest hagenda hstatus houtcome hwait h => ?agenda, fun hvalid h => ?command⟩
  case agenda =>
    have hruns : ({ s with agenda := rest } : State).coreRuns = true := (coreRuns_iff _).2 ⟨⟨m, hstatus⟩, houtcome, hwait⟩
    rw [step_of_agenda hagenda, agentStep, if_pos hruns]
    exact coreStep_of_running (s := { s with agenda := rest }) hstatus h
  case command =>
    rw [step_of_valid hvalid]
    exact coreStep_of_running (s := accept (startRun .cycleChange s)) rfl h

end Sys2Proof.Claims
end

section
/-! The keyboard read of IN AL (60_exceptions.md R400), from the wait to its end: the sub-step that reads port 50h parks without a
character, a character completes it, and the two sub-steps after it put the character into AL. -/

namespace Sys2Proof.Claims

open Sys2Proof.Machine Sys2Proof.Config

/-! ## Reading port 50h -/

theorem resolve_keyboard {s : State} (hkeys : s.devices.keyboardAndScreen = true) : resolve 0x50 s = some (.key, s) :=
  resolve_of_present rfl hkeys

/-- The read of port 50h takes the host's character, and parks without one. -/
theorem run_readPort8_keyboard {s : State} (hkeys : s.devices.keyboardAndScreen = true) (hport : s.md.port = some 0x50)
    (key : Option Byte) :
    Act.readPort8.run key s =
      match key with
      | some ch => .go (s.withMd fun m => { m with srcv := some (zext ch) })
      | none => .park := by
  have hnumber : s.md.portNumber = 0x50 := by rw [Metadata.portNumber, hport]; rfl
  simp only [Act.run]
  rw [hnumber, busRead_io, resolve_keyboard hkeys]
  cases key <;> rfl

/-- The core is in the sub-step of IN AL that reads port 50h. -/
structure AtKeyboard (dx : Bool) (s : State) : Prop where
  phase : s.phase = .fetchingOperands
  op : s.md.op = some (opcodeByte (.inp dx .w8))
  sub : s.md.sub = if dx then 0 else 1
  port : if dx then s.dx = 0x50 else s.md.port = some 0x50
  keys : s.devices.keyboardAndScreen = true

/-- The actions of that sub-step, the last one of `fetching-operands`. -/
def keyboardActs (dx : Bool) : List Act := if dx then [.portFromDX, .readPort8] else [.readPort8]

namespace AtKeyboard

variable {dx : Bool} {s : State}

theorem opcode (h : AtKeyboard dx s) : currentOpcode s = some (.inp dx .w8) := currentOpcode_eq_some_iff.2 h.op

theorem acts (h : AtKeyboard dx s) :
    (reads (.inp dx .w8))[s.md.sub]? = some (keyboardActs dx) ∧ s.md.sub + 1 = (reads (.inp dx .w8)).length := by
  rw [h.sub]
  cases dx <;> exact ⟨rfl, rfl⟩

theorem runActs_none (h : AtKeyboard dx s) : runActs none (keyboardActs dx) s = .park := by
  have hport := h.port
  cases dx with
  | false => exact runActs_single.trans (run_readPort8_keyboard h.keys hport none)
  | true =>
    have hread := run_readPort8_keyboard (s := s.withMd fun m => { m with port := some s.dx }) h.keys (congrArg some hport) none
    exact runActs_cons rfl (runActs_single.trans hread)

theorem runActs_some (h : AtKeyboard dx s) (ch : Byte) :
    runActs (some ch) (keyboardActs dx) s =
      .go (s.setMd { s.md with port := some 0x50, srcv := some (zext ch) }) := by
  have hport := h.port
  cases dx with
  | false =>
    refine runActs_single.trans ((run_readPort8_keyboard h.keys hport (some ch)).trans ?_)
    rw [← hport]
    rfl
  | true =>
    have hread := run_readPort8_keyboard (s := s.withMd fun m => { m with port := some s.dx }) h.keys (congrArg some hport)
      (some ch)
    refine runActs_cons rfl (runActs_single.trans (hread.trans ?_))
    rw [← hport]
    rfl

/-- With no character the sub-step waits, and has no other effect (R400). -/
theorem parks (h : AtKeyboard dx s) : coreSubStep none s = .next { s with waitingForInput := true } := by
  rw [coreSubStep_fetchingOperands h.phase h.opcode]
  simp only [phaseStep, h.acts.1, h.runActs_none]

/-- A character completes it (R447), and `executing` is next. -/
theorem completes (h : AtKeyboard dx s) (ch : Byte) :
    coreSubStep (some ch) s =
      .next { s with phase := .executing, md := { s.md with port := some 0x50, srcv := some (zext ch), sub := 0 } } := by
  rw [coreSubStep_fetchingOperands h.phase h.opcode]
  simp only [phaseStep, h.acts.1, h.runActs_some, if_pos h.acts.2]
  rfl

end AtKeyboard

/-! ## The end of IN AL -/

theorem coreSubStep_executing {key : Option Byte} {s : State} {oc : Opcode} (h : s.phase = .executing)
    (hop : s.md.op = some (opcodeByte oc)) : coreSubStep key s = .next (executeStep oc s) := by
  simp only [coreSubStep, h, currentOpcode_eq_some_iff.2 hop]

/-- The one sub-step of an instruction's `writeback`. -/
theorem coreSubStep_writeback_single {key : Option Byte} {s t : State} {oc : Opcode} {acts : List Act} (h : s.phase = .writeback)
    (hop : s.md.op = some (opcodeByte oc)) (hsub : s.md.sub = 0) (hwrites : writes oc = [acts])
    (hrun : runActs key acts s = .go t) : coreSubStep key s = .next (endOfInstruction oc t.bumpSub) := by
  simp only [coreSubStep, h, currentOpcode_eq_some_iff.2 hop, phaseStep, hwrites, hsub, List.getElem?_cons_zero, hrun]
  rfl

/-- The end of an instruction other than INT (40_instruction_cycle.md R148). -/
theorem endOfInstruction_eq {oc : Opcode} (hoc : oc ≠ .int) (s : State) :
    ∃ md, endOfInstruction oc s =
      { s with md := md, phase := if interruptRequested s then .interrupt else .fetching } := by
  unfold endOfInstruction
  rw [if_neg hoc]
  split
  · exact ⟨_, rfl⟩
  · exact ⟨_, rfl⟩

/-- `executing` and `writeback` of IN AL, whose byte is read: two sub-steps, which put the byte into AL. -/
theorem input_ends {dx : Bool} {q : State} {ch : Byte} (hphase : q.phase = .executing)
    (hop : q.md.op = some (opcodeByte (.inp dx .w8))) (hsrcv : q.md.srcv = some (zext ch)) :
    ∃ u md, coreSubStep none q = .next u ∧
      coreSubStep none u =
        .next { putReg q .w8 0 ch.toNat with
                md := md, phase := if interruptRequested q then .interrupt else .fetching } := by
  set e : State := { q with phase := .writeback, md := { q.md with res := some (zext ch), sub := 0 } }
  have hexecute : executeStep (.inp dx .w8) q = e := by
    simp only [e, ← hsrcv]
    rfl
  have hset : e.setReg .w8 0 (zext ch) = putReg e .w8 0 ch.toNat := num_zext ch ▸ setReg_eq e .w8 0 (zext ch) (.inl rfl)
  have hacc : runActs none [.setAcc .w8] e = .go (putReg e .w8 0 ch.toNat) := congrArg Flow.go hset
  obtain ⟨md, hend⟩ := endOfInstruction_eq (oc := .inp dx .w8) (by simp) (putReg e .w8 0 ch.toNat).bumpSub
  refine ⟨e, md, hexecute ▸ coreSubStep_executing hphase hop, ?_⟩
  rw [coreSubStep_writeback_single (s := e) rfl hop rfl rfl hacc, hend]
  rfl

/-! ## The wait of IN AL and the host's answer (70_reset_and_hazards.md R445 to R447) -/

/-- A sub-step that ends a phase in the middle of an instruction: a run in mode `cycle-change`, or one with a pause asked for, pauses
(R443, R445). -/
theorem coreStep_midway {key : Option Byte} {s u : State} {m : RunMode} (hstatus : s.status = .running m)
    (h : coreSubStep key s = .next u) (houtcome : u.outcome = .running) (hwait : u.waitingForInput = false)
    (hfetching : u.phase ≠ .fetching) (hended : u.phase ≠ s.phase) :
    coreStep key s = .next { u with status := if m = .cycleChange ∨ u.pauseFlag = true then .paused else .running m } := by
  have hkept : u.status = .running m := (status_of_outcome_running h houtcome).trans hstatus
  have hpaused : pausedAfter m s.phase u = if m = .cycleChange ∨ u.pauseFlag = true then { u with status := .paused } else u := by
    simp only [pausedAfter, houtcome, hwait, hfetching, hended, ne_eq, not_false_eq_true, true_and, and_true, and_false, false_or]
  rw [coreStep_of_running hstatus h, hpaused]
  split
  · rfl
  · rw [← hkept]

/-- The instructions that read the keyboard wait for it. -/
theorem exec_keyboard {s : State} {i : Instr} {length : Nat}
    (hi : (i = .inAlPort 0x50 ∧ length = 2) ∨ (i = .inAlDx ∧ s.dx = 0x0050 ∧ length = 1))
    (hkeys : s.devices.keyboardAndScreen = true) :
    ∃ dx md, AtKeyboard dx { past s length with phase := .fetchingOperands, md := md } ∧
      exec i s = .next { past s length with phase := .fetchingOperands, md := md, waitingForInput := true } := by
  rcases hi with ⟨rfl, rfl⟩ | ⟨rfl, hdx, rfl⟩
  · obtain ⟨m, -, hop, hport, hsub, hperform⟩ :=
      (perform_inp8 false (Instr.inAlPort 0x50).operands s rfl).2.2 .key s (resolve_keyboard hkeys) rfl
    rw [statePast_eq] at hperform
    exact ⟨false, m, ⟨rfl, hop, hsub, hport rfl, hkeys⟩, hperform⟩
  · obtain ⟨m, -, hop, -, hsub, hperform⟩ :=
      (perform_inp8 true Instr.inAlDx.operands s rfl).2.2 .key s (by rw [if_pos rfl, hdx]; exact resolve_keyboard hkeys) rfl
    rw [statePast_eq] at hperform
    exact ⟨true, m, ⟨rfl, hop, hsub, hdx, hkeys⟩, hperform⟩

/-- Settles O59: the wait keeps the core where it was, so that the sub-step is taken again with a character, or after a stop. -/
theorem keyboardRead : Obligations.KeyboardRead := by
  intro s ch m i length hi hkeys hstatus houtcome hwait
  obtain ⟨dx, md, hat, hexec⟩ := exec_keyboard hi hkeys
  refine ⟨md, ?_⟩
  intro p status
  set c : State := { past s length with phase := .fetchingOperands, md := md }
  have hresumed : ({ p with waitingForInput := false } : State) = c :=
    congrArg (fun waits => ({ c with waitingForInput := waits } : State)) hwait.symm
  refine ⟨hexec, ?character, stop_of_valid ⟨.inl ⟨m, hstatus⟩, fun h => by cases h⟩, ?again⟩
  case again =>
    rw [hresumed]
    exact hat.parks
  case character =>
    have hcompletes := AtKeyboard.completes (s := accept c) ⟨hat.phase, hat.op, hat.sub, hat.port, hat.keys⟩ ch
    have hanswered := coreStep_midway (s := accept c) hstatus hcompletes houtcome hwait (by simp) (by simp [accept, c])
    set q : State := { accept c with
      phase := .executing, md := { c.md with port := some 0x50, srcv := some (zext ch), sub := 0 }, status := status }
    obtain ⟨u, md', hu, hv⟩ := input_ends (dx := dx) (q := q) rfl hat.op rfl
    refine ⟨q, u, _, md', ?_, hwait, rfl, rfl, hu, hv, rfl⟩
    rw [sendKeyboardChar_of_valid rfl, hresumed]
    exact hanswered

end Sys2Proof.Claims
end

section
/-! The replay of the events of a step (70_reset_and_hazards.md R454, R460): a stream replays a change of state, streams replayed one
after the other replay the changes one after the other, and the events of every step are such streams, sub-step by sub-step for the core
and state by state for a reset. -/

namespace Sys2Proof.Claims

open Sys2Proof.Machine Sys2Proof.Config

/-! ## Streams that replay a change -/

/-- The stream `es`, replayed on a state that is the machine `s`, gives one that is the machine `t`. -/
def Replays (es : List Event) (s t : State) : Prop := ∀ u, SameMachine u s → SameMachine (replay es u) t

theorem Replays.nil (s : State) : Replays [] s s := fun _ h => h

theorem Replays.append {es fs : List Event} {s t v : State} (h : Replays es s t) (k : Replays fs t v) :
    Replays (es ++ fs) s v := by
  intro u hu
  rw [replay_append]
  exact k _ (h u hu)

/-- The last reply is not part of the machine. -/
theorem Replays.reply {es : List Event} {s t : State} (h : Replays es s t) (r : Option Reply) :
    Replays es s { t with reply := r } := fun u hu => ⟨(h u hu).1, (h u hu).2⟩

theorem Replays.accept {es : List Event} {s t : State} (h : Replays es s t) : Replays es s (accept t) := h.reply _

theorem replays_bus_changes {s t : State} {bus : List Event} (hparams : t.params = s.params)
    (hbus : ∀ e ∈ bus, ∃ r v, e = .busAccess r v) : Replays (changes s t bus) s t :=
  fun _ hu => replay_changes hu hparams hbus

theorem replays_changes {s t : State} (hparams : t.params = s.params) : Replays (changes s t []) s t :=
  replays_bus_changes hparams (by simp)

theorem replays_trail {s r : State} {ts : List State} (hparams : ∀ t ∈ ts ++ [r], t.params = s.params) :
    Replays (trail s (ts ++ [r])) s r := by
  intro u hu
  have h := replay_trail hu hparams
  rwa [List.getLast?_concat, Option.getD_some] at h

/-! ## The core (R454: the events of its sub-steps) -/

theorem requestEvents_bus (req : BusRequest) (key : Option Byte) (s : State) :
    ∀ e ∈ requestEvents req key s, ∃ r v, e = .busAccess r v := by
  unfold requestEvents
  split <;> simp

theorem busEvents_bus (key : Option Byte) (act : Act) (s : State) :
    ∀ e ∈ act.busEvents key s, ∃ r v, e = .busAccess r v := by
  unfold Act.busEvents
  split
  · simp
  · simp
  · exact requestEvents_bus _ key s

theorem before_params (act : Act) (s : State) : (act.before s).params = s.params := by
  unfold Act.before
  split <;> rfl

theorem replays_act {key : Option Byte} {act : Act} {s t : State} (hkept : Kept s t) : Replays (act.events key s t) s t :=
  (replays_changes (before_params act s)).append
    (replays_bus_changes (hkept.params.trans (before_params act s).symm) (busEvents_bus key act s))

/-- The actions of a sub-step, whether they complete or fault. -/
theorem replays_acts {key : Option Byte} {acts : List Act} {s t : State}
    (h : runActs key acts s = .go t ∨ runActs key acts s = .stop t) : Replays (actsEvents key acts s) s t := by
  induction acts generalizing s with
  | nil =>
    obtain ⟨⟨⟩⟩ | ⟨⟨⟩⟩ := h
    exact .nil _
  | cons act rest ih =>
    have hkeeps := keeps_act key act s
    simp only [runActs, actsEvents] at h ⊢
    cases hrun : act.run key s with
    | go u =>
      rw [hrun] at h hkeeps
      exact (replays_act hkeeps).append (ih h)
    | stop u =>
      rw [hrun] at h hkeeps
      obtain ⟨⟨⟩⟩ | ⟨⟨⟩⟩ := h
      exact replays_act hkeeps
    | park =>
      rw [hrun] at h
      obtain ⟨⟨⟩⟩ | ⟨⟨⟩⟩ := h

theorem replays_subStep {key : Option Byte} {s t : State} (hparams : t.params = s.params) :
    Replays (subStepEvents key s t) s t := by
  have acted {u : State} (h : runActs key s.nextActs s = .go u ∨ runActs key s.nextActs s = .stop u) (hkept : Kept s u) :
      Replays (actsEvents key s.nextActs s ++ changes u t []) s t :=
    (replays_acts h).append (replays_changes (hparams.trans hkept.params.symm))
  have hkeeps := keeps_runActs key s.nextActs s
  unfold subStepEvents
  split
  · exact (replays_changes (by rfl)).append (replays_bus_changes hparams (requestEvents_bus _ none s))
  · cases hrun : runActs key s.nextActs s with
    | go u => rw [hrun] at hkeeps; exact acted (.inl hrun) hkeeps
    | stop u => rw [hrun] at hkeeps; exact acted (.inr hrun) hkeeps
    | park => exact replays_changes hparams

theorem replays_coreStep {key : Option Byte} {s t : State} (h : coreStep key s = .next t) : Replays (coreStepEvents key s) s t := by
  unfold coreStep at h
  unfold coreStepEvents
  cases hsub : coreSubStep key s with
  | next u =>
    rw [hsub] at h
    cases h
    exact (replays_subStep (kept_coreSubStep hsub).params).append (replays_changes (kept_runControl s.phase u).params)
  | fault f => rw [hsub] at h; cases h
  | refused r => rw [hsub] at h; cases h

theorem replays_boundary {n : Nat} {s t : State} (h : runToBoundary n s = .next t) : Replays (boundaryEvents n s) s t := by
  induction n generalizing s with
  | zero => cases h; exact .nil _
  | succ n ih =>
    simp only [runToBoundary] at h
    simp only [boundaryEvents]
    cases hstep : coreStep none s with
    | next u =>
      rw [hstep] at h
      simp only at h
      refine (replays_coreStep hstep).append ?_
      split at h
      next hgoes => rw [if_pos hgoes]; exact ih h
      next hends => rw [if_neg hends]; cases h; exact .nil _
    | fault f => rw [hstep] at h; cases h
    | refused r => rw [hstep] at h; cases h

/-- The core to the end of its instruction, in a run: the events are those of its sub-steps, which lead where the instruction leads. -/
theorem replays_instruction {s t : State} (hidle : s.idle = false) (h : instructionStep s = .next t) :
    Replays (instructionEvents s) s t := by
  by_cases hready : s.coreReady = true
  · have hboundary : instructionStep s = runToBoundary maxSubSteps s := by
      by_cases hwhole : s.wholeInstruction = true
      · obtain ⟨houtcome, hwait⟩ := (coreReady_iff s).1 hready
        exact instructionIsItsSubSteps s ((coreRuns_iff s).2 ⟨(idle_eq_false_iff s).1 hidle, houtcome, hwait⟩) hwhole
      · rw [instructionStep, if_pos hready, if_neg hwhole]
    rw [instructionEvents, if_pos hready]
    exact replays_boundary (hboundary ▸ h)
  · rw [instructionStep, if_neg hready] at h
    cases h

theorem idle_impliedRun (s : State) : (impliedRun s).idle = false := by
  unfold impliedRun
  split
  · rfl
  · next h => simpa using h

theorem replays_impliedInstruction {s t : State} (h : instructionStep (impliedRun s) = .next t) :
    Replays (changes s (impliedRun s) [] ++ instructionEvents (impliedRun s)) s t :=
  (replays_changes (unreset_impliedRun s).params).append (replays_instruction (idle_impliedRun s) h)

/-! ## The timer and the printer -/

/-- An assertion changes the machine when there is a PIC and the line's IRR bit is not set yet. -/
theorem replays_assert (i : Nat) (s : State) : Replays (assertEvents i s) s (assertLine i s) := by
  unfold assertEvents
  split
  · next hsame =>
    have hself : assertLine i s = s := by
      by_cases hpic : s.devices.pic = true
      · rw [assertLine, if_pos hpic] at hsame ⊢
        have hirr : s.pic.irr ||| lineBit i = s.pic.irr := hsame
        simp only [Pic.assert, hirr]
      · rw [assertLine, if_neg hpic]
    rw [hself]
    exact .nil s
  · next hnew =>
    have hpic : s.devices.pic = true := by
      by_contra hpic
      exact hnew (by rw [assertLine, if_neg hpic])
    rintro u ⟨hu, hmem⟩
    rw [assertLine, if_pos hpic]
    generalize u.mem = m, u.agenda = ag, u.draws = dr, u.reply = re at hu hmem
    subst hu
    exact ⟨rfl, hmem⟩

theorem replays_timerTick (s : State) : Replays (timerEvents s) s (timerTick s) := by
  unfold timerEvents
  dsimp only
  split
  · refine ((replays_changes ?_).append (replays_assert 1 _)).append (replays_changes ?_)
    · rfl
    · rw [(unreset_timerTick s).params, assertLine_params]
  · next hcounts =>
    rw [timerTick, if_neg hcounts]
    exact replays_changes (by rfl)

theorem replays_printerConsume (s : State) : Replays (printerEvents s) s (printerConsume s) := by
  unfold printerEvents printerConsume handshakeDone
  dsimp only
  refine (replays_changes (by rfl)).append ?_
  by_cases hlink : s.devices.handshake = true
  · by_cases hie : s.handshake.ie = true
    · simp only [hlink, hie, Bool.and_self, if_true]
      exact replays_assert 2 _
    · simp only [hlink, hie, Bool.and_false, Bool.false_eq_true, if_true, if_false]
      exact .nil _
  · simp only [hlink, Bool.false_and, Bool.false_eq_true, if_false]
    exact .nil _

/-! ## The reset -/

theorem loadStates_params (s : State) (image : List Host.Cell) : ∀ t ∈ loadStates s image, t.params = s.params := by
  induction image generalizing s with
  | nil => simp [loadStates]
  | cons c rest ih =>
    intro t ht
    rcases List.mem_cons.1 ht with rfl | hlater
    · rfl
    · have hkept := ih _ t hlater
      exact hkept

/-- A reset keeps the parameters in every state it commits, and ends in the machine reset. -/
theorem resetStates_eq (p : LoadedProgram) (earlier : Option Memory) (s : State) :
    ∃ ts, resetStates p earlier s = ts ++ [resetMachine p earlier s] ∧ ∀ t ∈ ts, t.params = s.params := by
  refine ⟨_, rfl, fun t ht => ?_⟩
  rcases List.mem_append.1 ht with hregisters | hloaded
  · simp only [List.mem_cons, List.not_mem_nil, or_false] at hregisters
    rcases hregisters with rfl | rfl | rfl | rfl | rfl | rfl | rfl | rfl <;> rfl
  · have hkept := loadStates_params _ _ t hloaded
    exact hkept

/-- A reset command: one change of the session, and then the states of the reset. -/
theorem replays_reset {p : LoadedProgram} {earlier : Option Memory} {s first : State} (hparams : first.params = s.params) :
    Replays (trail s (first :: resetStates p earlier first)) s (accept (resetMachine p earlier first)) := by
  obtain ⟨ts, hstates, hkept⟩ := resetStates_eq p earlier first
  rw [hstates, ← List.cons_append]
  refine (replays_trail fun t ht => ?_).accept
  simp only [List.mem_append, List.mem_cons, List.not_mem_nil, or_false] at ht
  rcases ht with (rfl | ht) | rfl
  · exact hparams
  · exact (hkept t ht).trans hparams
  · exact hparams

/-- A reset to the stored program stores nothing, so that it may be taken from the stopped session. -/
theorem resetTo_of_stored {p : LoadedProgram} {s : State} (hloaded : s.loaded = some p) :
    resetTo p s = accept (resetMachine p (earlierMemory s) { s with status := .stopped, waitingForInput := false }) := by
  simp only [resetTo, resetMachine, hloaded]

/-! ## The host -/

theorem hostEvents_of_not_valid {s : State} {c : HostCommand} (h : ¬ Valid s c) : hostEvents c s = [] := by
  cases c <;> simp only [hostEvents]
  case loadProgram image devices policy => rw [if_neg (mt (loadValid_iff _ s).1 h)]
  case run | step => rw [if_neg (mt (runValid_iff s).1 h)]
  case pause => rw [if_pos ((idle_iff s).2 h)]
  case stop resetAlso =>
    by_cases hrun : isRunning s ∨ s.status = .paused
    · cases resetAlso with
      | false => exact absurd ⟨hrun, fun hreset => by cases hreset⟩ h
      | true =>
        have hnone : s.loaded = none := by
          by_contra hloaded
          exact h ⟨hrun, fun _ => hloaded⟩
        rw [hnone]
        cases s.idle && decide (s.status ≠ .paused) <;> rfl
    · rw [(stop_refused_iff s).2 hrun]
  case sendKeyboardChar => exact if_neg h
  case pressF10 => rw [if_neg (mt Option.isSome_iff_ne_none.1 h)]
  case toggleSwitch index => rw [if_neg (mt (switchValid_iff index s).1 h)]
  case cleanScreen => exact if_neg h
  case cleanPrinterBuffer => rw [if_neg (mt (hasPrinter_iff _).1 h)]

theorem replays_host_of_valid {c : HostCommand} {s t : State} (hvalid : Valid s c) (h : hostStep c s = .next t) :
    Replays (hostEvents c s) s t := by
  cases c <;> simp only [hostEvents]
  case loadProgram image devices policy =>
    rw [loadProgram_of_valid (p := ⟨image, devices, policy⟩) hvalid] at h
    cases h
    rw [if_pos ((loadValid_iff ⟨image, devices, policy⟩ s).2 hvalid)]
    exact replays_reset (by rfl)
  case run m =>
    rw [run_of_valid hvalid] at h
    cases h
    rw [if_pos ((runValid_iff s).2 hvalid)]
    exact (replays_changes (by rfl)).accept
  case step =>
    rw [step_of_valid hvalid] at h
    rw [if_pos ((runValid_iff s).2 hvalid)]
    exact (replays_changes (by rfl)).append (replays_coreStep h)
  case pause =>
    rw [pause_of_valid hvalid] at h
    cases h
    rw [if_neg fun hidle => (idle_iff s).1 hidle hvalid]
    exact (replays_changes (by rfl)).accept
  case stop resetAlso =>
    cases resetAlso with
    | false =>
      rw [stop_of_valid hvalid] at h
      cases h
      simp only [stop_not_refused hvalid]
      exact (replays_changes (by rfl)).accept
    | true =>
      obtain ⟨p, hp⟩ := Option.ne_none_iff_exists'.1 (hvalid.2 rfl)
      rw [stopReset_of_valid hvalid hp] at h
      cases h
      rw [resetTo_of_stored hp]
      simp only [stop_not_refused hvalid, hp]
      exact replays_reset (by rfl)
  case sendKeyboardChar =>
    rw [sendKeyboardChar_of_valid hvalid] at h
    rw [if_pos (c := s.waitingForInput = true) hvalid]
    exact (replays_changes (by rfl)).append (replays_coreStep h)
  case pressF10 =>
    rw [pressF10_of_valid hvalid] at h
    cases h
    rw [if_pos (Option.isSome_iff_ne_none.2 hvalid)]
    exact (replays_assert 0 s).accept
  case toggleSwitch index =>
    rw [toggleSwitch_of_valid hvalid] at h
    cases h
    rw [if_pos ((switchValid_iff index s).2 hvalid)]
    exact (replays_changes (by rfl)).accept
  case cleanScreen =>
    rw [cleanScreen_of_valid hvalid] at h
    cases h
    rw [if_pos (c := s.devices.keyboardAndScreen = true) hvalid]
    exact (replays_changes (by rfl)).accept
  case cleanPrinterBuffer =>
    rw [cleanPrinterBuffer_of_valid hvalid] at h
    cases h
    rw [if_pos ((hasPrinter_iff _).2 hvalid)]
    exact (replays_changes (by rfl)).accept
  case getComputerState =>
    cases h
    exact (Replays.nil s).reply (some (.snapshot (snapshot s)))

theorem replays_host {c : HostCommand} {s t : State} (h : hostStep c s = .next t) : Replays (hostEvents c s) s t := by
  by_cases hvalid : Valid s c
  · exact replays_host_of_valid hvalid h
  · rw [hostStep_of_not_valid hvalid] at h
    cases h
    rw [hostEvents_of_not_valid hvalid]
    exact (Replays.nil s).reply (some .invalidAction)

/-! ## Every step -/

theorem replays_agent {a : AgentStep} {s t : State} (h : agentStep a s = .next t) : Replays (agentEvents a s) s t := by
  cases a <;> simp only [agentStep, agentEvents] at h ⊢
  case core =>
    split at h
    · exact replays_coreStep h
    · cases h
  case instruction => exact replays_impliedInstruction h
  case timerTick =>
    split at h
    · cases h; exact replays_timerTick s
    · cases h
  case printerConsume =>
    split at h
    · cases h; exact replays_printerConsume s
    · cases h
  case host c => exact replays_host h

/-- Settles O60: the events of a step are those of its agent, and taking the agent from the agenda changes the schedule only. -/
theorem eventsReplay : Obligations.EventsReplay := by
  intro s t
  refine ⟨fun h => ?_, fun key h => replays_coreStep h s (.refl s)⟩
  cases hagenda : s.agenda with
  | nil =>
    simp only [step, stepEvents, hagenda] at h ⊢
    exact replays_impliedInstruction h s (.refl s)
  | cons a rest =>
    rw [step_of_agenda hagenda] at h
    simp only [stepEvents, hagenda]
    exact replays_agent h s ⟨rfl, fun _ _ => rfl⟩

end Sys2Proof.Claims
end
